-- ==== Sys2Proof/Word.lean ====
section
/-! DEFINITION. The words of the bus, the numbering of outlets, branches and phases (00_scope.md, "Numbering")
and the plainest arithmetic on them. -/

namespace Sys2Proof

/-- One 16-bit word of RAM, of the window and of the processor bus (00_scope.md, "Words"). -/
abbrev Word := BitVec 16

/-- One half of a word; the unit of a byte enable. -/
abbrev Byte := BitVec 8

/-- An outlet. `Outlet` k stands for outlet number k + 1 of the manual (1 to 48). -/
abbrev Outlet := Fin 48

/-- A branch. `Branch` k stands for branch number k + 1 (1 to 6). -/
abbrev Branch := Fin 6

/-- A phase. `Phase` k stands for L(k + 1). -/
abbrev Phase := Fin 3

/-- Branch b carries outlets 8b - 7 to 8b. -/
def Outlet.branch (n : Outlet) : Branch := ⟨n.val / 8, by omega⟩

/-- Branches 1 and 4 are on L1, 2 and 5 on L2, 3 and 6 on L3. -/
def Branch.phase (b : Branch) : Phase := ⟨b.val % 3, by omega⟩

/-- The phase of an outlet is its branch's phase. -/
def Outlet.phase (n : Outlet) : Phase := n.branch.phase

/-- Outlets 25 to 48 are on bank B. -/
def Outlet.onBankB (n : Outlet) : Bool := decide (24 ≤ n.val)

/-- One node of the distribution tree above the outlets. -/
inductive Level where
  | phase (p : Phase)
  | branch (b : Branch)
  | inlet
  deriving DecidableEq, Repr

/-- The outlet lies under the level: on the branch, on one of the phase's branches, or on the strip. -/
def Level.covers : Level → Outlet → Bool
  | .phase p, n => decide (n.phase = p)
  | .branch b, n => decide (n.branch = b)
  | .inlet, _ => true

/-- The 48 outlets in ascending number. -/
def outlets : List Outlet := List.finRange 48

/-- The six branches in ascending number. -/
def branches : List Branch := List.finRange 6

/-- The three phases in ascending number. -/
def phases : List Phase := List.finRange 3

/-- The ten levels in ascending window offset of their records: phases, branches, inlet. -/
def levels : List Level := phases.map .phase ++ branches.map .branch ++ [.inlet]

/-- What a contact-sense line reads (05, "The Outlet State Machine"). -/
inductive Sense where
  | opened
  | closed
  deriving DecidableEq, Repr

/-- The contact-sense links CSA and CSB: the sensed position of every relay (R185, pins). -/
abbrev SenseLines := Vector Sense 48

/-- A value is raised to the lower end of its range or lowered to the upper end (R23, R60, R131). -/
def clampNat (lo hi x : Nat) : Nat := max lo (min hi x)

/-- The same for a signed value. -/
def clampInt (lo hi x : Int) : Int := max lo (min hi x)

end Sys2Proof
end

