-- ==== Sys2Proof/Syntax.lean ====
section
/-! DEFINITION. The commands of the block: one constructor of `Instr` for each row of spec/opcode_table.json.

A row that is a processor access carries the access (R1, "Classifying an access"). A row that reads contact sense
carries the level of the line or lines it reads. A row that happens to one outlet or branch among several carries its
number. A row that takes the oldest hand-off waiting for a block carries nothing: the hand-off stands in the state. -/

namespace Sys2Proof

/-- The two byte enables PBE1 and PBE0 of a write: the high byte and the low byte of the word. -/
structure Enables where
  high : Bool
  low : Bool
  deriving DecidableEq, Repr

/-- A processor write as it stands on the bus: word address PA16-PA1, byte enables, data and the class from PCLS. -/
structure WriteAccess where
  addr : Word
  enables : Enables
  data : Word
  privileged : Bool
  deriving DecidableEq, Repr

/-- A processor read as it stands on the bus. -/
structure ReadAccess where
  addr : Word
  privileged : Bool
  deriving DecidableEq, Repr

/-- One processor access. -/
inductive Access where
  | write (a : WriteAccess)
  | read (a : ReadAccess)
  deriving DecidableEq, Repr

/-- The commands, in the table's order. -/
inductive Instr where
  /-- RESET (R22), with the straps WB3-WB0 and BPRES as RESET ends. -/
  | reset (wb : BitVec 4) (bpres : Bool)
  /-- HOLD_ASSERT (R106). -/
  | holdAssert
  /-- HOLD_RELEASE (R106). -/
  | holdRelease
  /-- PROCESSOR_WRITE (R4). -/
  | processorWrite (a : WriteAccess)
  /-- ACCESS_RESUME (R18), with the contact-sense lines the resumed access may read. -/
  | accessResume (lines : SenseLines)
  /-- PROTECTED_WRITE_DROPPED (R7). -/
  | protectedWriteDropped (a : WriteAccess)
  /-- OWNED_WRITE_DROPPED (R8). -/
  | ownedWriteDropped (a : WriteAccess)
  /-- SEQUENCE_READ (R19). -/
  | sequenceRead (a : ReadAccess)
  /-- LAST_WORD_READ (R20). -/
  | lastWordRead (a : ReadAccess)
  /-- COLLECT_CLEAR (R81): the oldest collect-clear waiting for the Close Engine. -/
  | collectClear
  /-- COLLECT_CLEAR_RETURN (R82): the oldest return waiting for the Publication Unit. -/
  | collectClearReturn
  /-- DRAIN_WRITE (R17). -/
  | drainWrite
  /-- RUN (R25). -/
  | run (a : WriteAccess)
  /-- HALT (R34). -/
  | halt (a : WriteAccess)
  /-- SWEEP_READ (R27), with the contact-sense lines that sweep end reads (R31). -/
  | sweepRead (lines : SenseLines)
  /-- HEARTBEAT (R10). -/
  | heartbeat (a : WriteAccess)
  /-- SWITCH_ON (R112). -/
  | switchOn (a : WriteAccess)
  /-- SWITCH_OFF (R113). -/
  | switchOff (a : WriteAccess)
  /-- CYCLE (R114). -/
  | cycle (a : WriteAccess)
  /-- STAGE_ON (R120). -/
  | stageOn (a : WriteAccess)
  /-- STAGE_OFF (R120). -/
  | stageOff (a : WriteAccess)
  /-- UNSTAGE (R120). -/
  | unstage (a : WriteAccess)
  /-- HOLD_WATCH (R126). -/
  | holdWatch (a : WriteAccess)
  /-- FREE_WATCH (R126). -/
  | freeWatch (a : WriteAccess)
  /-- RESUME (R127). -/
  | resume (a : WriteAccess)
  /-- CLEAR_FAULT (R128), with the outlet's contact-sense line, which the request reads (R105). -/
  | clearFault (a : WriteAccess) (sense : Sense)
  /-- PERIOD_CLEAR (R129). -/
  | periodClear (a : WriteAccess)
  /-- PERIOD_CLEAR_EVENT (R80): the oldest period clear waiting for the Close Engine. -/
  | periodClearEvent
  /-- REQUEST_UNKNOWN (R109). -/
  | requestUnknown (a : WriteAccess)
  /-- APPLY (R121). -/
  | apply (a : WriteAccess)
  /-- TAIL_WRITE (R178). -/
  | tailWrite (a : WriteAccess)
  /-- MODE_WRITE (R100). -/
  | modeWrite (a : WriteAccess)
  /-- WATCH_POLICY_WRITE (R151). -/
  | watchPolicyWrite (a : WriteAccess)
  /-- LIMIT_WRITE (R156). -/
  | limitWrite (a : WriteAccess)
  /-- HEARTBEAT_TIMEOUT_WRITE (R131). -/
  | heartbeatTimeoutWrite (a : WriteAccess)
  /-- SIGNATURE_TIME_WRITE (R136). -/
  | signatureTimeWrite (a : WriteAccess)
  /-- SIGNATURE_FLOOR_WRITE (R136). -/
  | signatureFloorWrite (a : WriteAccess)
  /-- CYCLE_WINDOW_WRITE (R148). -/
  | cycleWindowWrite (a : WriteAccess)
  /-- HEARTBEAT_QUORUM_WRITE (R140). -/
  | heartbeatQuorumWrite (a : WriteAccess)
  /-- ADMISSION_WAIT_LIMIT_WRITE (R168). -/
  | admissionWaitLimitWrite (a : WriteAccess)
  /-- CURRENT_SLOT (R41), with the raw current and voltage codes, two's complement. -/
  | currentSlot (r v : Word)
  /-- REFERENCE_SLOT (R43), with the raw reference code and the raw L1 code. -/
  | referenceSlot (r v : Word)
  /-- LINE_LOSS (R54). -/
  | lineLoss
  /-- TIMED_CLOSE (R55). -/
  | timedClose
  /-- CLOSE_COMPUTATION (R59): the oldest interval handed over, with contact sense as read at the close (R60, R101). -/
  | closeComputation (lines : SenseLines)
  /-- CONTACT_SENSE_READ (R101): the oldest close waiting for the Outlet Controller's checks, made with the reading of that
  close, and the contact-sense lines as they stand when it is taken. -/
  | contactSenseRead (lines : SenseLines)
  /-- SIGNATURE_TRACKER_UPDATE (R135): the oldest close waiting for this outlet's tracker. -/
  | signatureTrackerUpdate (n : Outlet)
  /-- LEVEL_LOADS_HANDOFF (R171): the oldest loads waiting for the Admission Unit. -/
  | levelLoadsHandoff
  /-- CLOSING_COMPLETE (R89), with the outlet's contact-sense line. -/
  | closingComplete (n : Outlet) (sense : Sense)
  /-- OPENING_COMPLETE (R90), with the outlet's contact-sense line. -/
  | openingComplete (n : Outlet) (sense : Sense)
  /-- INRUSH_EXPIRY (R93). -/
  | inrushExpiry (n : Outlet)
  /-- DWELL_EXPIRY (R97). -/
  | dwellExpiry (n : Outlet)
  /-- ADMISSION (R87): the oldest admission waiting for the Outlet Controller. -/
  | admission
  /-- JOIN (R153): the hand-off at the front of the Admission Unit's, when it is a join. -/
  | join
  /-- REMOVAL (R154): the same, when it is a removal. -/
  | removal
  /-- RELEASE (R164): the same, when it is a release. -/
  | release
  /-- HAND_BACK (R165): the same, when it is a hand-back. -/
  | handBack
  /-- ADMISSION_WAIT (R168). -/
  | admissionWait (b : Branch)
  /-- ON_EVENT (R130): the Outlet Controller's oldest event for the Hang Watch, when it is an on event. -/
  | onEvent
  /-- OFF_EVENT (R130): the same, when it is an off event. -/
  | offEvent
  /-- GRACE_EXPIRY (R132). -/
  | graceExpiry (n : Outlet)
  /-- HEARTBEAT_TIMEOUT (R134). -/
  | heartbeatTimeout (n : Outlet)
  /-- CONFIRM_EXPIRY (R138). -/
  | confirmExpiry (n : Outlet)
  /-- VERDICT_CYCLE (R145): the oldest verdict cycle waiting for the Outlet Controller. -/
  | verdictCycle
  /-- VERDICT_CYCLE_ANSWER (R145): the Outlet Controller's oldest event for the Hang Watch, when it is an answer. -/
  | verdictCycleAnswer
  /-- RECENT_CYCLE_AGEING (R148). -/
  | recentCycleAgeing (n : Outlet)
  /-- UPTIME_INCREASE (R37). -/
  | uptimeIncrease
  /-- REPORT_WRITE (R175): the oldest report handed to the Report Writer. -/
  | reportWrite
  deriving DecidableEq, Repr

end Sys2Proof
end

