-- ==== Sys2Proof/Config.lean ====
section
/-! DEFINITION. What the part fixes (operate time, code limits, thresholds) and the free values: choices the
manual leaves open, opaque constants that nothing can evaluate. -/

namespace Sys2Proof.Config

/-- FREE VALUE. The key by which the device orders things that one event handles in an order the manual does not
fix: the heads of different branches (R158), and, where the spec gives no order, the outlets whose verdicts one
event releases and the reports one event makes. Read at a counter that each use advances; smaller keys go first. -/
opaque orderKey : Nat → Nat → Nat

/-- FREE VALUE. Whether the write of a processor access that RESET ends reached RAM (R185: "the word it addressed
holds either its old value or the value written"). Read at the same counter. -/
opaque resetWriteLands : Nat → Bool

/-- A relay operation drives one coil for 30 ms (05), in µs. -/
def operateTime : Nat := 30000

/-- A conversion slot lasts 2 µs (R38). -/
def slotTime : Nat := 2

/-- The hold threshold of the Posting Queue (R18). -/
def queueThreshold : Nat := 128

/-- At most this many report entries wait in the Posting Queue (R15). -/
def maxReportEntries : Nat := 64

/-- The saturation code (R41). -/
def saturationCode : Nat := 32000

/-- A peak below this steps the range up (R48). -/
def stepUpPeak : Nat := 6400

/-- Samples discarded after a range change or on joining the scan set (R40, R48). -/
def settleSamples : Nat := 8

/-- The nominal span of the reference (R46). -/
def nominalSpan : Int := 20000

/-- One Wh in dW·µs (00_scope.md, "Units"). -/
def wattHour : Nat := 36000000000

/-- The divisor of R65: 32,768² × 40,000. -/
def powerDivisor : Nat := 42949672960000

/-- Current through open contacts that the leak check counts, in mA (R102). -/
def leakCurrent : Nat := 250

/-- The heartbeat timer holds at 3,600,000 ms (R134), in µs. -/
def heartbeatHold : Nat := 3600000000

/-- Flat time holds at 7,200,000,000 µs (R135). -/
def flatHold : Nat := 7200000000

/-- Uptime holds at this value (R37). -/
def uptimeMax : Nat := 4294967295

/-- The Layout Revision of the manual's layout (R26). -/
def layoutRevision : Word := 3

end Sys2Proof.Config
end

