-- ==== Sys2Proof/Machine/State.lean ====
section
/-! DEFINITION. The state of the block: one structure for each unit of 00_scope.md's block table, the hand-offs on
their way between units, and the queue of waiting commands. All plain data. -/

namespace Sys2Proof.Machine
open Sys2Proof

/-- The part is never stopped by an event: every event of the manual has an outcome in the state. -/
inductive Fault
  deriving DecidableEq, Repr

/-- What the model does not give a meaning. -/
inductive Refusal where
  /-- Raised by `exec`'s arm of a command that has no meaning yet; none is left. Safe: nothing is claimed of it. -/
  | notModelled (mnemonic : String)
  deriving DecidableEq, Repr

/-! ## Stores: RAM and Shadow File -/

/-- Data at addresses, kept as a list with strictly rising addresses and no entry equal to 0. -/
abbrev Store (w : Nat) := List (Nat × BitVec w)

/-- RAM by byte address. -/
abbrev Memory := List Host.Cell

/-- What an unlisted address reads as (DESIGN CHOICE for RAM, log 6; R4 for the Shadow File): 0. -/
def Store.blank (w : Nat) : BitVec w := 0

/-- The canonical form: addresses strictly rising, no entry that reads as an unlisted address does. -/
abbrev Store.wf {w : Nat} (m : Store w) : Prop :=
  m.Pairwise (fun x y => x.1 < y.1) ∧ ∀ c ∈ m, c.2 ≠ Store.blank w

/-- The canonical form of RAM. -/
abbrev Memory.wf (m : Memory) : Prop := Store.wf (w := 8) m

/-! ## Values by level, decimal strings -/

/-- One value for each of the ten levels. -/
structure PerLevel (α : Type) where
  phase : Vector α 3
  branch : Vector α 6
  inlet : α
  deriving DecidableEq, Repr

/-- A decimal string (R69), least significant digit first. -/
abbrev Digits := List (Fin 10)

/-! ## Code values -/

inductive CharterState where
  | unchartered | sweeping | running | halted | rejected
  deriving DecidableEq, Repr

inductive RejectReason where
  | none | layout
  deriving DecidableEq, Repr

inductive Mode where
  | manual | managed | alwaysOn
  deriving DecidableEq, Repr

inductive WatchPolicy where
  | none | heartbeat | signature | either | both
  deriving DecidableEq, Repr

inductive OutletState where
  | unmanaged | absent | off | queued | closing | inrush | on | opening | dwell | fault
  deriving DecidableEq, Repr

inductive Target where
  | on | off
  deriving DecidableEq, Repr

inductive WatchState where
  | idle | grace | watching | suspect | hung | lockedOut
  deriving DecidableEq, Repr

/-- The cause of a cycle. -/
inductive Cause where
  | request | verdict
  deriving DecidableEq, Repr

inductive FaultKind where
  | failedClose | welded | currentWhileOff | contactMoved
  deriving DecidableEq, Repr

inductive RequestCode where
  | switchOn | switchOff | cycle | stageOn | stageOff | unstage | holdWatch | freeWatch | resume | clearFault
  | periodClear
  deriving DecidableEq, Repr

inductive EchoResult where
  | taken | clamped | deferred | noChange | superseded | refusedState | refusedMode | refusedLocked
  | refusedUnknown | refusedAbsent | refusedHalted | refusedHold
  deriving DecidableEq, Repr

inductive VerdictCause where
  | heartbeat | signature | both
  deriving DecidableEq, Repr

inductive VerdictAction where
  | held | cycled | lockedOut
  deriving DecidableEq, Repr

inductive BlockReason where
  | halted | hold | slot | branch | phase | inlet
  deriving DecidableEq, Repr

inductive ProtectReason where
  | locked | owned
  deriving DecidableEq, Repr

inductive ReportKind where
  | charterState | cycleStart | cycleDone | cycleCancelled | verdict | hbSuspend | hbResume | relayFault | protect
  | limitOver | limitClear | admissionWait | calDrift | calRestored | rollover | seedInvalid | lineLoss | lineRestored
  deriving DecidableEq, Repr

/-- The subject of a report (R176). -/
inductive Subject where
  | outlet (n : Outlet)
  | level (l : Level)
  | strip
  | window
  deriving DecidableEq, Repr

/-- A report as a block hands it to the Report Writer (R175). -/
structure Report where
  kind : ReportKind
  subject : Subject
  detailA : Word
  detailB : Word
  deriving DecidableEq, Repr

/-! ## Through-Path and Publication Unit -/

/-- What the Through-Path keeps (01). -/
structure ThroughPath where
  /-- The Shadow File by window offset. -/
  shadow : Store 16
  lastTag : Vector Byte 48
  /-- The access WAIT holds. -/
  held : Option Access
  /-- The data of the last read answered. -/
  readData : Word
  /-- Offsets of lock words written since the sweep began (R6). -/
  lockWritten : List Nat
  deriving DecidableEq, Repr

/-- A publication group. -/
inductive Group where
  | charter
  | level (l : Level)
  | status (n : Outlet)
  | meter (n : Outlet)
  deriving DecidableEq, Repr

/-- One entry of the Posting Queue (R15). A report entry's Lost Count is read when that word drains (R17). -/
inductive Entry where
  | group (g : Group) (words : List Word)
  | report (slot : BitVec 6) (words : List Word) (head : BitVec 6)
  deriving DecidableEq, Repr

/-- The Snapshot Bracket when it is open. -/
structure Bracket where
  group : Group
  held : Option (List Word)
  closes : Nat
  deriving DecidableEq, Repr

/-- What the Publication Unit keeps (01). -/
structure Publication where
  /-- The Posting Queue, oldest entry first. -/
  queue : List Entry
  /-- How many words of the oldest entry have drained. -/
  drained : Nat
  bracket : Option Bracket
  /-- The update of an outlet's Meter group held back for a collect-clear (R21). -/
  heldBack : Vector (Option (List Word)) 48
  lastPeriod : Vector Digits 48
  deriving DecidableEq, Repr

/-! ## Charter Unit -/

/-- The taken charter settings (R23). -/
structure Settings where
  intervalCycles : Nat
  nominal60 : Bool
  scanFirst : Nat
  scanLast : Nat
  refTolerance : Nat
  dwellMin : Nat
  dwellMax : Nat
  inrushWindow : Nat
  cycleWindow : Nat
  confirmTime : Nat
  quorum : Nat
  waitLimit : Nat
  collectClear : Bool
  stripLock : Bool
  deriving DecidableEq, Repr

/-- The pending-after-sweep set (R28). -/
structure PendingSet where
  heartbeats : Vector Bool 48
  /-- Tag and code. -/
  requests : Vector (Option (Byte × Byte)) 48
  apply : Option Word
  tail : Option Word
  deriving DecidableEq, Repr

/-- What the Charter Unit keeps (02). -/
structure Charter where
  state : CharterState
  reject : RejectReason
  uptime : Nat
  /-- µs since the last whole second. -/
  subsecond : Nat
  settings : Settings
  applyBaseline : Word
  sweepPosition : Option Nat
  afterSweep : PendingSet
  deriving DecidableEq, Repr

/-! ## Sampler -/

inductive GainRange where
  | x1 | x4 | x16
  deriving DecidableEq, Repr

inductive Reference where
  | zero | span
  deriving DecidableEq, Repr

/-- One outlet's channel: gain range, settle count and the interval's accumulators (R41). -/
structure Channel where
  range : GainRange
  settle : Nat
  count : Nat
  sumSq : Nat
  sumProd : Int
  peak : Nat
  saturated : Bool
  deriving DecidableEq, Repr

/-- One phase's voltage accumulators (R42). -/
structure VoltageSums where
  count : Nat
  sumSq : Nat
  deriving DecidableEq, Repr

/-- What the Sampler keeps (03). -/
structure Sampler where
  scan : List Outlet
  /-- The slot due next: an outlet's current slot, or none for the reference slot. -/
  due : Option Outlet
  nextReference : Reference
  channels : Vector Channel 48
  voltages : Vector VoltageSums 3
  zeroCount : Nat
  zeroSum : Int
  spanCount : Nat
  spanSum : Int
  offset : Int
  drifting : Bool
  cycles : Nat
  nominal60 : Bool
  locked : Bool
  crossings : Nat
  lastCrossing : Option Nat
  /-- The last L1 sample: its time and code. -/
  lastL1 : Option (Nat × Int)
  timedCloses : Nat
  /-- The end of the previous interval. -/
  intervalStart : Nat
  /-- The moment the slot under way began (R38). -/
  slotStart : Nat
  deriving DecidableEq, Repr

/-! ## Close Engine -/

/-- The conditions of an outlet's result (R58, R67). -/
structure Quality where
  noSamples : Bool
  lowCount : Bool
  overrange : Bool
  refDrift : Bool
  noLineSync : Bool
  deriving DecidableEq, Repr

/-- What the Close Engine keeps for one outlet. -/
structure OutletMeter where
  current : Nat
  power : Int
  apparent : Nat
  range : GainRange
  quality : Quality
  residual : Nat
  lifetime : Digits
  period : Digits
  rollover : Nat
  sequence : Word
  deriving DecidableEq, Repr

/-- The flags of a level's Quality (R75). -/
structure LevelQuality where
  isPartial : Bool
  noSamples : Bool
  refDrift : Bool
  noLineSync : Bool
  deriving DecidableEq, Repr

/-- What the Close Engine keeps for one level. -/
structure LevelMeter where
  load : Nat
  power : Int
  quality : LevelQuality
  lifetime : Digits
  rollover : Nat
  sequence : Word
  deriving DecidableEq, Repr

/-- What the Close Engine keeps (04). -/
structure CloseEngine where
  outlets : Vector OutletMeter 48
  voltages : Vector Nat 3
  levels : PerLevel LevelMeter
  lineFrequency : Nat
  deriving DecidableEq, Repr

/-! ## Outlet Controller -/

inductive RelayMove where
  | closing | opening
  deriving DecidableEq, Repr

/-- A cycle intent (05). -/
structure Intent where
  cause : Cause
  dwell : Nat
  openSince : Option Nat
  reclosedAt : Option Nat
  deriving DecidableEq, Repr

/-- The content of a deferred slot. -/
inductive Deferred where
  | request (code : RequestCode) (tag : Byte) (argument : Nat)
  | target (t : Target)
  deriving DecidableEq, Repr

/-- One outlet's context (05). Times of running timers are in µs (log 12). -/
structure OutletContext where
  state : OutletState
  operation : Option (RelayMove × Nat)
  sensed : Sense
  intent : Option Intent
  lastCause : Option Cause
  inrush : Option Nat
  dwell : Option Nat
  deferred : Option Deferred
  staged : Option Target
  fault : Option FaultKind
  since : Nat
  leakCount : Nat
  leakSkip : Bool
  mismatch : Nat
  echoTag : Byte
  echoResult : EchoResult
  mode : Mode
  deriving DecidableEq, Repr

/-! ## Hang Watch -/

/-- One outlet's watch context (07). Times of running timers are in µs (log 12). -/
structure WatchContext where
  state : WatchState
  held : Bool
  grace : Option Nat
  heartbeat : Option Nat
  confirm : Option Nat
  reference : Option Int
  flat : Nat
  latest : Option Int
  cause : Option VerdictCause
  outstanding : Bool
  /-- The heartbeat timer value held for R145 while a cycle is outstanding. -/
  heldHeartbeat : Option Nat
  /-- An off event has come since the outstanding cycle was handed off (R145). -/
  offSince : Bool
  recent : List Nat
  policy : WatchPolicy
  /-- H as last evaluated (R134). -/
  condH : Bool
  /-- S as last evaluated (R136). -/
  condS : Bool
  deriving DecidableEq, Repr

/-! ## Admission Unit -/

/-- An entry of a branch restart queue (R153). -/
structure QueueEntry where
  outlet : Outlet
  rank : Nat
  deriving DecidableEq, Repr

/-- An occupied branch slot (R162), with the rank the outlet had in the queue (R165). -/
structure Slot where
  outlet : Outlet
  amount : Nat
  withdrawn : Bool
  rank : Nat
  deriving DecidableEq, Repr

/-- A head tenure (R167). -/
structure Tenure where
  start : Nat
  reported : Bool
  reason : Option BlockReason
  deriving DecidableEq, Repr

/-- What the Admission Unit keeps (08). -/
structure Admission where
  queues : Vector (List QueueEntry) 6
  slots : Vector (Option Slot) 6
  reserved : PerLevel Nat
  tenures : Vector (Option Tenure) 6
  overLimit : PerLevel Bool
  loads : PerLevel Nat
  deriving DecidableEq, Repr

/-! ## Report Writer -/

/-- What the Report Writer keeps (09). -/
structure ReportWriter where
  head : BitVec 6
  tail : BitVec 6
  lost : Nat
  deriving DecidableEq, Repr

/-! ## Hand-offs on their way -/

/-- One interval as the Sampler hands it over (R44, R58). -/
structure CloseRecord where
  scan : List Outlet
  channels : Vector Channel 48
  voltages : Vector VoltageSums 3
  length : Nat
  synchronised : Bool
  inDrift : Bool
  cycles : Nat
  deriving DecidableEq, Repr

/-- A close's level loads, with the Limits taken for its Over-Limit decision (R79, R171). -/
structure LoadsHandoff where
  loads : PerLevel Nat
  limits : PerLevel Nat
  deriving DecidableEq, Repr

/-- A close's power for one outlet's tracker (R79, R135). -/
structure TrackerHandoff where
  outlet : Outlet
  scanned : Bool
  quality : Quality
  power : Int
  length : Nat
  deriving DecidableEq, Repr

/-- One outlet's part of what a close hands the Outlet Controller: its conditions and its current (R79). -/
structure SenseItem where
  scanned : Bool
  quality : Quality
  current : Nat
  deriving DecidableEq, Repr

/-- One close for the Outlet Controller's checks, while the charter is RUNNING or HALTED (R79, R101): the contact sense it
has read for the close, the outlets' states at that reading, and what the Close Engine hands it of each outlet. -/
structure SenseHandoff where
  lines : SenseLines
  states : Vector OutletState 48
  items : Vector SenseItem 48
  deriving DecidableEq, Repr

/-- What the Outlet Controller hands the Admission Unit (R155). -/
inductive AdmissionMessage where
  | join (n : Outlet)
  | removal (n : Outlet)
  | release (n : Outlet)
  | handBack (n : Outlet)
  deriving DecidableEq, Repr

/-- What the Outlet Controller hands the Hang Watch (R145). `entry` is the uptime the cycle was listed under. -/
inductive WatchMessage where
  | on (n : Outlet)
  | off (n : Outlet)
  | answer (n : Outlet) (started : Bool) (entry : Nat)
  deriving DecidableEq, Repr

/-- A verdict cycle on its way to the Outlet Controller (R144). -/
structure VerdictCycle where
  outlet : Outlet
  dwell : Nat
  entry : Nat
  deriving DecidableEq, Repr

/-- A collect-clear on its way to the Close Engine (R21, R81). -/
structure CollectClear where
  outlet : Outlet
  value : Digits
  withHeld : Bool
  deriving DecidableEq, Repr

/-- A return on its way to the Publication Unit (R82). -/
structure CollectReturn where
  outlet : Outlet
  withHeld : Bool
  deriving DecidableEq, Repr

/-- Every hand-off that is on its way, oldest first. -/
structure Mail where
  reports : List Report
  closes : List CloseRecord
  loads : List LoadsHandoff
  trackers : List TrackerHandoff
  senses : List SenseHandoff
  toAdmission : List AdmissionMessage
  admissions : List Outlet
  toWatch : List WatchMessage
  verdictCycles : List VerdictCycle
  periodClears : List Outlet
  collectClears : List CollectClear
  collectReturns : List CollectReturn
  deriving DecidableEq, Repr

/-! ## The block -/

/-- Pins and straps. -/
structure Pins where
  windowBase : BitVec 4
  bankB : Bool
  hold : Bool
  senseLines : SenseLines
  deriving DecidableEq, Repr

/-- The OM48 and the RAM behind it. -/
structure Device where
  pins : Pins
  ram : Memory
  /-- µs since the end of RESET. -/
  now : Nat
  path : ThroughPath
  pub : Publication
  charter : Charter
  sampler : Sampler
  engine : CloseEngine
  outlet : Vector OutletContext 48
  /-- Apply Echo: tag and count. -/
  applyEcho : Word × Nat
  watch : Vector WatchContext 48
  /-- Heartbeat suspension: the uptime it is in force since. -/
  suspendedSince : Option Nat
  admission : Admission
  reports : ReportWriter
  mail : Mail
  /-- The counter the free values are read at; the model's own. -/
  freeCount : Nat
  deriving DecidableEq, Repr

/-- The block and the commands that wait for it, first in first out. -/
structure State where
  dev : Device
  pending : List Instr
  deriving DecidableEq, Repr

/-! ## Reset values -/

/-- Outlet n is present: on bank A, or bank B is fitted. -/
def presentOutlet (bankB : Bool) (n : Outlet) : Bool := bankB || !n.onBankB

/-- The scan set of Scan First and Scan Last (R39). -/
def scanSet (first last : Nat) (bankB : Bool) : List Outlet :=
  outlets.filter fun n =>
    decide (min first last ≤ n.val + 1) && decide (n.val + 1 ≤ max first last) && presentOutlet bankB n

/-- A decimal string of k zeros. -/
def zeros (k : Nat) : Digits := List.replicate k 0

/-- The taken settings after RESET (R22). -/
def Settings.afterReset : Settings where
  intervalCycles := 10
  nominal60 := false
  scanFirst := 1
  scanLast := 48
  refTolerance := 0
  dwellMin := 1
  dwellMax := 1
  inrushWindow := 100
  cycleWindow := 1
  confirmTime := 0
  quorum := 0
  waitLimit := 10
  collectClear := false
  stripLock := false

/-- The empty pending-after-sweep set. -/
def PendingSet.empty : PendingSet where
  heartbeats := Vector.replicate 48 false
  requests := Vector.replicate 48 .none
  apply := .none
  tail := .none

/-- The charter after RESET (R22). -/
def Charter.afterReset : Charter where
  state := .unchartered
  reject := .none
  uptime := 0
  subsecond := 0
  settings := .afterReset
  applyBaseline := 0
  sweepPosition := .none
  afterSweep := .empty

/-- The Through-Path after RESET (R4, R11). -/
def ThroughPath.afterReset : ThroughPath where
  shadow := []
  lastTag := Vector.replicate 48 0
  held := .none
  readData := 0
  lockWritten := []

/-- The Publication Unit after RESET (R16, R20). -/
def Publication.afterReset : Publication where
  queue := []
  drained := 0
  bracket := .none
  heldBack := Vector.replicate 48 .none
  lastPeriod := Vector.replicate 48 (zeros 6)

/-- A channel with its accumulators at zero. -/
def Channel.fresh (range : GainRange) (settle : Nat) : Channel where
  range := range
  settle := settle
  count := 0
  sumSq := 0
  sumProd := 0
  peak := 0
  saturated := false

/-- The Sampler after RESET (03, "State after RESET"). -/
def Sampler.afterReset (bankB : Bool) : Sampler where
  scan := scanSet 1 48 bankB
  due := (scanSet 1 48 bankB).head?
  nextReference := .zero
  channels := Vector.replicate 48 (.fresh .x1 0)
  voltages := Vector.replicate 3 ⟨0, 0⟩
  zeroCount := 0
  zeroSum := 0
  spanCount := 0
  spanSum := 0
  offset := 0
  drifting := false
  cycles := 10
  nominal60 := false
  locked := false
  crossings := 0
  lastCrossing := .none
  lastL1 := .none
  timedCloses := 0
  intervalStart := 0
  slotStart := 0

/-- A full-quality result: no condition. -/
def Quality.clear : Quality := ⟨false, false, false, false, false⟩

/-- The Close Engine after RESET (04). -/
def CloseEngine.afterReset : CloseEngine where
  outlets := Vector.replicate 48
    { current := 0, power := 0, apparent := 0, range := .x1, quality := .clear, residual := 0,
      lifetime := zeros 10, period := zeros 6, rollover := 0, sequence := 0 }
  voltages := Vector.replicate 3 0
  levels :=
    let m : LevelMeter :=
      { load := 0, power := 0, quality := ⟨false, false, false, false⟩, lifetime := zeros 12, rollover := 0,
        sequence := 0 }
    ⟨Vector.replicate 3 m, Vector.replicate 6 m, m⟩
  lineFrequency := 0

/-- An outlet context after RESET (R83). -/
def OutletContext.afterReset : OutletContext where
  state := .unmanaged
  operation := .none
  sensed := .opened
  intent := .none
  lastCause := .none
  inrush := .none
  dwell := .none
  deferred := .none
  staged := .none
  fault := .none
  since := 0
  leakCount := 0
  leakSkip := false
  mismatch := 0
  echoTag := 0
  echoResult := .taken
  mode := .manual

/-- A watch context after RESET (07). -/
def WatchContext.afterReset : WatchContext where
  state := .idle
  held := false
  grace := .none
  heartbeat := .none
  confirm := .none
  reference := .none
  flat := 0
  latest := .none
  cause := .none
  outstanding := false
  heldHeartbeat := .none
  offSince := false
  recent := []
  policy := .none
  condH := false
  condS := false

/-- The Admission Unit after RESET (R170). -/
def Admission.afterReset : Admission where
  queues := Vector.replicate 6 []
  slots := Vector.replicate 6 .none
  reserved := ⟨Vector.replicate 3 0, Vector.replicate 6 0, 0⟩
  tenures := Vector.replicate 6 .none
  overLimit := ⟨Vector.replicate 3 false, Vector.replicate 6 false, false⟩
  loads := ⟨Vector.replicate 3 0, Vector.replicate 6 0, 0⟩

/-- Nothing on its way. -/
def Mail.empty : Mail where
  reports := []
  closes := []
  loads := []
  trackers := []
  senses := []
  toAdmission := []
  admissions := []
  toWatch := []
  verdictCycles := []
  periodClears := []
  collectClears := []
  collectReturns := []

/-- The block right after a RESET that sampled the given straps, with the inputs and the RAM it leaves alone. -/
def Device.afterReset (pins : Pins) (ram : Memory) (freeCount : Nat) : Device where
  pins := pins
  ram := ram
  now := 0
  path := .afterReset
  pub := .afterReset
  charter := .afterReset
  sampler := .afterReset pins.bankB
  engine := .afterReset
  outlet := Vector.replicate 48 .afterReset
  applyEcho := (0, 0)
  watch := Vector.replicate 48 .afterReset
  suspendedSince := .none
  admission := .afterReset
  reports := ⟨0, 0, 0⟩
  mail := .empty
  freeCount := freeCount

/-- The machine right after reset: WB 0, bank B absent, HOLD released, contact sense OPEN (DESIGN CHOICE, log 7),
RAM with nothing listed (log 6), no command waiting. -/
def State.reset : State where
  dev := .afterReset ⟨0, false, false, Vector.replicate 48 .opened⟩ [] 0
  pending := []

end Sys2Proof.Machine
end

