-- ==== Sys2Proof/Machine/Ops.lean ====
section
/-! DEFINITION. The shared operations on stores, tables, decimal strings and words; the order of things the manual
leaves unordered; and the operations every unit uses on the block: RAM words, reports, outlet and watch contexts. -/

namespace Sys2Proof.Machine
open Sys2Proof

/-! ## Tables -/

/-- A table with one entry replaced. -/
def setAt {α : Type} {n : Nat} (v : Vector α n) (i : Fin n) (x : α) : Vector α n := v.set i.val x i.isLt

/-- A table with a function applied to every entry. -/
def mapAll {α β : Type} {n : Nat} (f : α → β) (v : Vector α n) : Vector β n := Vector.ofFn fun i => f v[i]

/-- The value of one level. -/
def PerLevel.get {α : Type} (v : PerLevel α) : Level → α
  | .phase p => v.phase[p]
  | .branch b => v.branch[b]
  | .inlet => v.inlet

/-- The values with one level's replaced. -/
def PerLevel.set {α : Type} (v : PerLevel α) (l : Level) (x : α) : PerLevel α :=
  match l with
  | .phase p => { v with phase := setAt v.phase p x }
  | .branch b => { v with branch := setAt v.branch b x }
  | .inlet => { v with inlet := x }

/-- The values a function gives the levels. -/
def PerLevel.ofFn {α : Type} (f : Level → α) : PerLevel α where
  phase := Vector.ofFn fun p => f (.phase p)
  branch := Vector.ofFn fun b => f (.branch b)
  inlet := f .inlet

/-! ## Stores -/

/-- What an address reads as. -/
def Store.read {w : Nat} : Store w → Nat → BitVec w
  | [], _ => Store.blank w
  | (k, x) :: m, a => if k = a then x else Store.read m a

/-- The store with one address written; the canonical form is kept. -/
def Store.write {w : Nat} : Store w → Nat → BitVec w → Store w
  | [], a, v => if v = Store.blank w then [] else [(a, v)]
  | (k, x) :: m, a, v =>
    if a < k then (if v = Store.blank w then (k, x) :: m else (a, v) :: (k, x) :: m)
    else if a = k then (if v = Store.blank w then m else (a, v) :: m)
    else (k, x) :: Store.write m a v

/-- One byte of RAM. -/
def Memory.readByte (m : Memory) (a : Nat) : Byte := Store.read (w := 8) m a

/-- RAM with one byte written. -/
def Memory.writeByte (m : Memory) (a : Nat) (v : Byte) : Memory := Store.write (w := 8) m a v

/-! ## Words -/

/-- The high byte of a word. -/
def highByte (w : Word) : Byte := w.extractLsb' 8 8

/-- The low byte of a word. -/
def lowByte (w : Word) : Byte := w.extractLsb' 0 8

/-- The word of a high and a low byte. -/
def wordOf (high low : Byte) : Word := high ++ low

/-- The enabled bytes of the data replace those of the old word (R3, R5). -/
def mergeWord (old : Word) (e : Enables) (data : Word) : Word :=
  wordOf (if e.high then highByte data else highByte old) (if e.low then lowByte data else lowByte old)

/-- One word of RAM; the low byte of word a lies at byte address 2a (DESIGN CHOICE, log 6). -/
def Memory.readWord (m : Memory) (a : Nat) : Word := wordOf (m.readByte (2 * a + 1)) (m.readByte (2 * a))

/-- RAM with one word written. -/
def Memory.writeWord (m : Memory) (a : Nat) (v : Word) : Memory :=
  (m.writeByte (2 * a) (lowByte v)).writeByte (2 * a + 1) (highByte v)

/-- The k words of a value, the most significant at the lowest offset (10). -/
def wordsOf : Nat → Nat → List Word
  | 0, _ => []
  | k + 1, x => BitVec.ofNat 16 (x / 65536 ^ k) :: wordsOf k x

/-- The value of a run of words, the most significant first. -/
def wordsValue (ws : List Word) : Nat := ws.foldl (fun x w => x * 65536 + w.toNat) 0

/-- A word that saturates at 65,535. -/
def satWord (x : Nat) : Word := BitVec.ofNat 16 (min x 65535)

/-- The word of a Boolean. -/
def flagWord (b : Bool) : Word := if b then 1 else 0

/-! ## Decimal strings (R69, R71, R81) -/

/-- Digit-by-digit addition of a whole number with a carry into the lowest place; the carry out of the highest. -/
def Digits.addCarry : Digits → Nat → Nat → Digits × Nat
  | [], _, c => ([], c)
  | d :: ds, w, c =>
    let sum := d.val + w % 10 + c
    let rest := Digits.addCarry ds (w / 10) (if 10 ≤ sum then 1 else 0)
    (Fin.ofNat 10 (if 10 ≤ sum then sum - 10 else sum) :: rest.1, rest.2)

/-- A string with a whole number added; a carry out of the most significant digit is dropped. -/
def Digits.add (ds : Digits) (w : Nat) : Digits := (ds.addCarry w 0).1

/-- The addition wraps: a carry leaves the most significant digit. -/
def Digits.wraps (ds : Digits) (w : Nat) : Bool := decide (0 < (ds.addCarry w 0).2)

/-- The Period string's addition saturates at all nines (R71). -/
def Digits.addSaturating (ds : Digits) (w : Nat) : Digits :=
  if ds.wraps w then ds.map fun _ => 9 else ds.add w

/-- Digit-by-digit subtraction with a borrow into the lowest place; the borrow out of the highest. -/
def Digits.subBorrow : Digits → Digits → Nat → Digits × Nat
  | [], _, b => ([], b)
  | d :: ds, es, b =>
    let t := (es.headD 0).val + b
    let rest := Digits.subBorrow ds es.tail (if d.val < t then 1 else 0)
    (Fin.ofNat 10 (if d.val < t then d.val + 10 - t else d.val - t) :: rest.1, rest.2)

/-- The subtraction of a collect-clear: all zeros when a borrow remains (R81). -/
def Digits.subFloor (ds es : Digits) : Digits :=
  let r := ds.subBorrow es 0
  if 0 < r.2 then ds.map fun _ => 0 else r.1

/-- The number a string shows. -/
def Digits.value : Digits → Nat
  | [] => 0
  | d :: ds => d.val + 10 * Digits.value ds

/-- A string with each digit in four bits (10, "Decimal strings"). -/
def Digits.packed : Digits → Nat
  | [] => 0
  | d :: ds => d.val + 16 * Digits.packed ds

/-- The k lowest digit places of a packed value; `none` when one of them is above 9 (R30). -/
def seedDigits : Nat → Nat → Option Digits
  | 0, _ => some []
  | k + 1, x => if x % 16 ≤ 9 then (seedDigits k (x / 16)).map (Fin.ofNat 10 (x % 16) :: ·) else none

/-- The k lowest digit places of a packed value whose digits are known to be decimal. -/
def unpackDigits : Nat → Nat → Digits
  | 0, _ => []
  | k + 1, x => Fin.ofNat 10 (x % 16) :: unpackDigits k (x / 16)

/-! ## Arithmetic -/

/-- The greatest integer whose square does not exceed x, searched bit by bit from 2^k down. -/
def sqrtFrom : Nat → Nat → Nat → Nat
  | 0, _, r => r
  | k + 1, x, r => if (r + 2 ^ k) * (r + 2 ^ k) ≤ x then sqrtFrom k x (r + 2 ^ k) else sqrtFrom k x r

/-- The root of R61 and R63, for every x below 2^34. -/
def floorSqrt (x : Nat) : Nat := sqrtFrom 17 x 0

/-- x / d rounded to the nearest integer, halves away from zero (R65). -/
def roundDiv (x : Int) (d : Nat) : Int :=
  if x < 0 then -(((2 * x.natAbs + d) / (2 * d) : Nat) : Int) else (((2 * x.natAbs + d) / (2 * d) : Nat) : Int)

/-- A number that tells the levels apart, for the free order of their reports. -/
def levelIndex : Level → Nat
  | .phase p => p.val
  | .branch b => 3 + b.val
  | .inlet => 9

/-! ## The order of things the manual leaves unordered (R158; log 9) -/

/-- A list with one element placed before the first whose key is not smaller. -/
def insertByKey {α : Type} (key : α → Nat) (x : α) : List α → List α
  | [] => [x]
  | y :: ys => if key x ≤ key y then x :: y :: ys else y :: insertByKey key x ys

/-- A list in the order of its keys. -/
def sortByKey {α : Type} (key : α → Nat) (xs : List α) : List α := xs.foldr (insertByKey key) []

namespace Device

/-- One event's work on several things in an order the manual does not fix. With fewer than two there is no choice;
otherwise the order comes from the free value, which is used up. -/
def inFreeOrder {α : Type} (index : α → Nat) (work : Device → α → Device) (xs : List α) (d : Device) : Device :=
  match xs with
  | [] => d
  | [x] => work d x
  | _ =>
    (sortByKey (fun x => Config.orderKey d.freeCount (index x)) xs).foldl work
      { d with freeCount := d.freeCount + 1 }

/-! ## RAM and Shadow File -/

/-- The RAM word address of a window offset. -/
def windowAddress (d : Device) (off : Nat) : Nat := d.pins.windowBase.toNat * 4096 + off

/-- The Shadow File's copy of a window word. -/
def shadow (d : Device) (off : Nat) : Word := Store.read d.path.shadow off

/-- A write to the Shadow File. -/
def writeShadow (d : Device) (off : Nat) (v : Word) : Device :=
  { d with path := { d.path with shadow := Store.write d.path.shadow off v } }

/-- A RAM write of one word by word address. -/
def writeRam (d : Device) (a : Nat) (v : Word) : Device := { d with ram := d.ram.writeWord a v }

/-! ## Charter conditions -/

/-- Enforcement is on (R2). -/
def enforcing (d : Device) : Bool :=
  match d.charter.state with
  | .unchartered | .rejected => false
  | .sweeping | .running | .halted => true

/-- The charter is RUNNING or HALTED. -/
def inService (d : Device) : Bool :=
  match d.charter.state with
  | .running | .halted => true
  | .unchartered | .rejected | .sweeping => false

/-- The charter is RUNNING. -/
def running (d : Device) : Bool := decide (d.charter.state = .running)

/-- A relay operation may begin: the charter is RUNNING and HOLD is released (R87). -/
def mayOperate (d : Device) : Bool := d.running && !d.pins.hold

/-- The outlet has a board. -/
def present (d : Device) (n : Outlet) : Bool := presentOutlet d.pins.bankB n

/-! ## Outputs -/

/-- ATTN is asserted while Head differs from Tail (R179). -/
def attn (d : Device) : Bool := decide (d.reports.head ≠ d.reports.tail)

/-- WAIT lengthens the access that is held (R186). -/
def wait (d : Device) : Bool := d.path.held.isSome

/-! ## Hand-offs -/

/-- Hands the Report Writer a report (R175). -/
def report (d : Device) (kind : ReportKind) (subject : Subject) (a b : Word) : Device :=
  { d with mail := { d.mail with reports := d.mail.reports ++ [⟨kind, subject, a, b⟩] } }

/-- Hands the Admission Unit a join, removal, release or hand-back (R155). -/
def toAdmission (d : Device) (m : AdmissionMessage) : Device :=
  { d with mail := { d.mail with toAdmission := d.mail.toAdmission ++ [m] } }

/-- Hands the Hang Watch an event (R145). -/
def toWatch (d : Device) (m : WatchMessage) : Device :=
  { d with mail := { d.mail with toWatch := d.mail.toWatch ++ [m] } }

/-! ## Contexts, without their publication -/

/-- One outlet's context replaced by a function of it. -/
def setOutlet (d : Device) (n : Outlet) (f : OutletContext → OutletContext) : Device :=
  { d with outlet := setAt d.outlet n (f d.outlet[n]) }

/-- One watch context replaced by a function of it. -/
def setWatch (d : Device) (n : Outlet) (f : WatchContext → WatchContext) : Device :=
  { d with watch := setAt d.watch n (f d.watch[n]) }

/-- One outlet's meter replaced by a function of it. -/
def setMeter (d : Device) (n : Outlet) (f : OutletMeter → OutletMeter) : Device :=
  { d with engine := { d.engine with outlets := setAt d.engine.outlets n (f d.engine.outlets[n]) } }

/-- One level's meter replaced by a function of it. -/
def setLevelMeter (d : Device) (l : Level) (f : LevelMeter → LevelMeter) : Device :=
  { d with engine := { d.engine with levels := d.engine.levels.set l (f (d.engine.levels.get l)) } }

/-! ## Time (R37, R38; log 1) -/

end Device

/-- A running timer with some µs gone. -/
def tickTimer (us : Nat) (t : Option Nat) : Option Nat := t.map (· - us)

/-- One outlet's running timers with some µs gone. -/
def OutletContext.tick (us : Nat) (o : OutletContext) : OutletContext :=
  { o with
    operation := o.operation.map fun m => (m.1, m.2 - us)
    inrush := tickTimer us o.inrush
    dwell := tickTimer us o.dwell }

/-- One watch's running timers with some µs gone; heartbeat timers count up, hold, and are frozen under
suspension (R134). -/
def WatchContext.tick (frozen : Bool) (us : Nat) (w : WatchContext) : WatchContext :=
  { w with
    grace := tickTimer us w.grace
    heartbeat := if frozen then w.heartbeat else w.heartbeat.map fun t => min (t + us) Config.heartbeatHold
    confirm := tickTimer us w.confirm }

/-- The part's clock moves on by some µs: every timer counts. -/
def Device.advance (d : Device) (us : Nat) : Device :=
  { d with
    now := d.now + us
    charter := { d.charter with subsecond := d.charter.subsecond + us }
    outlet := mapAll (OutletContext.tick us) d.outlet
    watch := mapAll (WatchContext.tick d.suspendedSince.isSome us) d.watch }

/-- The coil the part drives: the operation in flight (R87, R185). -/
def OutletContext.coil (o : OutletContext) : Option RelayMove := o.operation.map (·.1)

end Sys2Proof.Machine
end

