-- ==== Sys2Proof/Machine/Operands.lean ====
section
/-! DEFINITION. What an access names: the window, the layout of its words and their kinds (R1, 10), the locks (R6),
and the fields blocks take from the Shadow File, clamped (R23, R60, R131, R153, R159, R160, R184). -/

namespace Sys2Proof.Machine
open Sys2Proof

/-! ## The window and its layout -/

/-- The window offset of a word address, or none outside the window (R1). -/
def windowOffset (wb : BitVec 4) (a : Word) : Option Nat :=
  let byte := 2 * a.toNat
  let base := wb.toNat * 8192
  if base ≤ byte ∧ byte ≤ base + 8191 then some ((byte - base) / 2) else none

/-- Where a window offset lies in the layout (10, "Window map"): a record's word, a ring word, or no field. -/
inductive Place where
  | charter (w : Nat)
  | level (l : Level) (w : Nat)
  | outlet (n : Outlet) (w : Nat)
  | head
  | tail
  | lostCount
  | slot (s : BitVec 6) (w : Nat)
  | unclassified
  deriving DecidableEq, Repr

/-- The place of a window offset. -/
def place (off : Nat) : Place :=
  if off < 0x40 then .charter off
  else if off < 0x70 then .level (.phase (Fin.ofNat 3 ((off - 0x40) / 16))) (off % 16)
  else if off < 0xD0 then .level (.branch (Fin.ofNat 6 ((off - 0x70) / 16))) (off % 16)
  else if off < 0xE0 then .level .inlet (off % 16)
  else if off < 0x100 then .unclassified
  else if off < 0xD00 then .outlet (Fin.ofNat 48 ((off - 0x100) / 64)) (off % 64)
  else if off = 0xD00 then .head
  else if off = 0xD01 then .tail
  else if off = 0xD02 then .lostCount
  else if off < 0xD08 then .unclassified
  else if off < 0xF08 then .slot (BitVec.ofNat 6 ((off - 0xD08) / 8)) ((off - 0xD08) % 8)
  else .unclassified

/-- The first word of a level's record. -/
def levelBase : Level → Nat
  | .phase p => 0x40 + 16 * p.val
  | .branch b => 0x70 + 16 * b.val
  | .inlet => 0xD0

/-- The offset of word w of outlet n's record. -/
def outletWord (n : Outlet) (w : Nat) : Nat := 0x100 + 64 * n.val + w

/-- Offset of the ring Head. -/
def headOffset : Nat := 0xD00

/-- Offset of the ring Tail. -/
def tailOffset : Nat := 0xD01

/-- Offset of the Lost Count. -/
def lostCountOffset : Nat := 0xD02

/-- The first word of a ring slot. -/
def slotBase (s : BitVec 6) : Nat := 0xD08 + 8 * s.toNat

/-- The kinds of window words (R1). -/
inductive WordKind where
  | processorOwned
  | partOwned
  | unclassified
  deriving DecidableEq, Repr

/-- The ownership map (R1). -/
def Place.kind : Place → WordKind
  | .charter w => if w < 32 then .processorOwned else .partOwned
  | .level _ w => if w < 8 then .processorOwned else .partOwned
  | .outlet _ w => if w < 32 then .processorOwned else .partOwned
  | .tail => .processorOwned
  | .head | .lostCount | .slot _ _ => .partOwned
  | .unclassified => .unclassified

/-- The processor-owned offset the sweep reads after this one (R27), or none after the ring Tail. -/
def nextSwept (off : Nat) : Option Nat :=
  if off < 0x1F then some (off + 1)
  else if off = 0x1F then some 0x40
  else if off < 0xD7 then (if off % 16 < 7 then some (off + 1) else some (off + 9))
  else if off = 0xD7 then some 0x100
  else if off < 0xCDF then (if off % 64 < 31 then some (off + 1) else some (off + 33))
  else if off = 0xCDF then some tailOffset
  else none

/-- The record that holds a word, as the subject of a PROTECT report (R7, R8). -/
def Place.subject : Place → Subject
  | .charter _ => .strip
  | .level l _ => .level l
  | .outlet n _ => .outlet n
  | .head | .tail | .lostCount | .slot _ _ | .unclassified => .window

/-! ## The fields -/

namespace Device

/-- Word w of outlet n's record in the Shadow File. -/
def outletField (d : Device) (n : Outlet) (w : Nat) : Nat := (d.shadow (outletWord n w)).toNat

/-- Word w of a level's record in the Shadow File. -/
def levelField (d : Device) (l : Level) (w : Nat) : Nat := (d.shadow (levelBase l + w)).toNat

/-- The taken value of a Mode word; an unknown code is MANUAL (R100). -/
def takenMode (d : Device) (n : Outlet) : Mode :=
  match d.outletField n 0 with
  | 1 => .managed
  | 2 => .alwaysOn
  | _ => .manual

/-- The taken value of a Watch Policy word; an unknown code is NONE (R131). -/
def takenPolicy (d : Device) (n : Outlet) : WatchPolicy :=
  match d.outletField n 1 with
  | 1 => .heartbeat
  | 2 => .signature
  | 3 => .either
  | 4 => .both
  | _ => .none

/-- Restart Rank, 0-3 (R153). -/
def restartRank (d : Device) (n : Outlet) : Nat := clampNat 0 3 (d.outletField n 3)

/-- Expected Inrush, 0-320 (R60, R159). -/
def expectedInrush (d : Device) (n : Outlet) : Nat := clampNat 0 320 (d.outletField n 4)

/-- Default Dwell, 0-3,600 s (R117, R131). -/
def defaultDwell (d : Device) (n : Outlet) : Nat := clampNat 0 3600 (d.outletField n 5)

/-- Heartbeat Timeout, 5-3,600 s (R131). -/
def heartbeatTimeout (d : Device) (n : Outlet) : Nat := clampNat 5 3600 (d.outletField n 6)

/-- Boot Grace, 0-3,600 s (R131). -/
def bootGrace (d : Device) (n : Outlet) : Nat := clampNat 0 3600 (d.outletField n 7)

/-- Signature Band, 0-10,000 dW (R131). -/
def signatureBand (d : Device) (n : Outlet) : Nat := clampNat 0 10000 (d.outletField n 8)

/-- Signature Time, 30-7,200 s (R131). -/
def signatureTime (d : Device) (n : Outlet) : Nat := clampNat 30 7200 (d.outletField n 9)

/-- Signature Floor, 0-100,000 dW, from its two words (R131, R184). -/
def signatureFloor (d : Device) (n : Outlet) : Nat :=
  clampNat 0 100000 (d.outletField n 10 * 65536 + d.outletField n 11)

/-- Cycle Limit, 0-7 (R131). -/
def cycleLimit (d : Device) (n : Outlet) : Nat := clampNat 0 7 (d.outletField n 12)

/-- Current Calibration k (R60). -/
def currentCalibration (d : Device) (n : Outlet) : Nat := clampNat 16384 49151 (d.outletField n 13)

/-- Voltage Calibration kv (R60). -/
def voltageCalibration (d : Device) (p : Phase) : Nat := clampNat 16384 49151 (d.levelField (.phase p) 1)

/-- The Request Argument word (R11). -/
def requestArgument (d : Device) (n : Outlet) : Nat := d.outletField n 15

/-- The greatest Limit of a level, in 100 mA (R160). -/
def limitMax : Level → Nat
  | .branch _ => 640
  | .phase _ => 1280
  | .inlet => 2560

/-- The taken Limit of a level (R160). -/
def limit (d : Device) (l : Level) : Nat := clampNat 0 (limitMax l) (d.levelField l 0)

/-- An outlet's Energy Seed, words 17-19 (R30). -/
def outletSeed (d : Device) (n : Outlet) : Option Digits :=
  seedDigits 10 (wordsValue [d.shadow (outletWord n 17), d.shadow (outletWord n 18), d.shadow (outletWord n 19)])

/-- A level's Energy Seed, words 2-4 (R30). -/
def levelSeed (d : Device) (l : Level) : Option Digits :=
  seedDigits 12
    (wordsValue [d.shadow (levelBase l + 2), d.shadow (levelBase l + 3), d.shadow (levelBase l + 4)])

/-- The charter settings that one charter word carries, taken (R23, R24); the others stand. -/
def takeSetting (d : Device) (w : Nat) (s : Settings) : Settings :=
  let x := (d.shadow w).toNat
  match w with
  | 0x02 => { s with intervalCycles := clampNat 4 60 x }
  | 0x03 => { s with nominal60 := decide (x = 60) }
  | 0x04 => { s with scanFirst := clampNat 1 48 x }
  | 0x05 => { s with scanLast := clampNat 1 48 x }
  | 0x06 => { s with refTolerance := clampNat 0 2000 x }
  | 0x07 => { s with dwellMin := clampNat 1 3600 x }
  | 0x08 => { s with dwellMax := clampNat 1 3600 x }
  | 0x09 => { s with inrushWindow := clampNat 100 10000 x }
  | 0x0A => { s with cycleWindow := clampNat 1 1440 x }
  | 0x0B => { s with confirmTime := clampNat 0 600 x }
  | 0x0C => { s with quorum := if x = 0 then 0 else clampNat 2 48 x }
  | 0x0D => { s with waitLimit := clampNat 10 3600 x }
  | 0x0E => { s with collectClear := decide (x ≠ 0) }
  | 0x0F => { s with stripLock := decide (x ≠ 0) }
  | _ => s

/-- The charter words that carry settings. -/
def settingWords : List Nat := [2, 3, 4, 5, 6, 7, 8, 9, 10, 11, 12, 13, 14, 15]

/-- The Charter Unit takes the settings of one word. -/
def takeSettingWord (d : Device) (w : Nat) : Device :=
  { d with charter := { d.charter with settings := d.takeSetting w d.charter.settings } }

/-- The Charter Unit takes every setting (R24). -/
def takeSettings (d : Device) : Device :=
  { d with charter := { d.charter with
      settings := settingWords.foldl (fun s w => d.takeSetting w s) d.charter.settings } }

/-- A dwell clamped to the charter's dwell bounds (R23, R117, R144). -/
def clampDwell (d : Device) (x : Nat) : Nat :=
  let s := d.charter.settings
  clampNat (min s.dwellMin s.dwellMax) (max s.dwellMin s.dwellMax) x

/-! ## Locks -/

/-- The word at the offset has been read by the sweep: always, but during SWEEPING only below the position. -/
def swept (d : Device) (off : Nat) : Bool :=
  match d.charter.sweepPosition with
  | some pos => decide (d.charter.state ≠ .sweeping) || decide (off < pos)
  | none => true

/-- The lock held at an offset is on (R6); during SWEEPING it counts as off until swept or written. -/
def lockOn (d : Device) (off : Nat) : Bool :=
  decide (d.shadow off ≠ 0) && (d.swept off || d.path.lockWritten.contains off)

/-- The Strip Lock. -/
def stripLock (d : Device) : Bool := d.lockOn 0x0F

/-- A branch's lock. -/
def branchLock (d : Device) (b : Branch) : Bool := d.lockOn (levelBase (.branch b) + 1)

/-- An outlet's lock. -/
def outletLock (d : Device) (n : Outlet) : Bool := d.lockOn (outletWord n 2)

/-- A place that holds a lock. -/
def isLockWord : Place → Bool
  | .charter w => decide (w = 15)
  | .level (.branch _) w => decide (w = 1)
  | .outlet _ w => decide (w = 2)
  | _ => false

/-- A lock covers the processor-owned word at the place (R6). -/
def covered (d : Device) : Place → Bool
  | .charter _ => d.stripLock
  | .level (.branch b) _ => d.stripLock || d.branchLock b
  | .level _ _ => d.stripLock
  | .outlet n w =>
    if w = 14 then false
    else d.stripLock || d.branchLock (Outlet.branch n) || d.outletLock n
  | _ => false

/-- The word at the place is protected: enforcement is on and a lock covers it. -/
def protectedAt (d : Device) (p : Place) : Bool := d.enforcing && d.covered p

end Device

end Sys2Proof.Machine
end

