-- ==== Sys2Proof/Machine/Flags.lean ====
section
/-! DEFINITION. Code values (10), the Quality and flag bits, the packed level values, and the words of every
publication group, assembled from the present state (R36, R67, R75, R108, R173, R183, R184). -/

namespace Sys2Proof.Machine
open Sys2Proof

/-! ## Code values -/

def CharterState.code : CharterState → Word
  | .unchartered => 0 | .sweeping => 1 | .running => 2 | .halted => 3 | .rejected => 4

def RejectReason.code : RejectReason → Word
  | .none => 0 | .layout => 1

def OutletState.code : OutletState → Word
  | .unmanaged => 0 | .absent => 1 | .off => 2 | .queued => 3 | .closing => 4 | .inrush => 5 | .on => 6
  | .opening => 7 | .dwell => 8 | .fault => 9

def targetCode : Option Target → Word
  | none => 0 | some .on => 1 | some .off => 2

def WatchState.code : WatchState → Word
  | .idle => 0 | .grace => 1 | .watching => 2 | .suspect => 3 | .hung => 4 | .lockedOut => 5

def Cause.code : Cause → Word
  | .request => 1 | .verdict => 2

def lastCauseCode : Option Cause → Word
  | none => 0 | some c => c.code

def FaultKind.code : FaultKind → Word
  | .failedClose => 1 | .welded => 2 | .currentWhileOff => 3 | .contactMoved => 4

def faultCode : Option FaultKind → Word
  | none => 0 | some k => k.code

def senseCode : Sense → Word
  | .opened => 0 | .closed => 1

def GainRange.code : GainRange → Word
  | .x1 => 0 | .x4 => 1 | .x16 => 2

/-- The request codes; any other value is unknown. -/
def requestCode (c : Byte) : Option RequestCode :=
  match c.toNat with
  | 1 => some .switchOn
  | 2 => some .switchOff
  | 3 => some .cycle
  | 4 => some .stageOn
  | 5 => some .stageOff
  | 6 => some .unstage
  | 7 => some .holdWatch
  | 8 => some .freeWatch
  | 9 => some .resume
  | 10 => some .clearFault
  | 11 => some .periodClear
  | _ => none

def EchoResult.code : EchoResult → Byte
  | .taken => 0x00 | .clamped => 0x01 | .deferred => 0x02 | .noChange => 0x03 | .superseded => 0x04
  | .refusedState => 0x10 | .refusedMode => 0x11 | .refusedLocked => 0x12 | .refusedUnknown => 0x13
  | .refusedAbsent => 0x14 | .refusedHalted => 0x15 | .refusedHold => 0x16

def VerdictCause.code : VerdictCause → Word
  | .heartbeat => 1 | .signature => 2 | .both => 3

def verdictCauseCode : Option VerdictCause → Word
  | none => 0 | some c => c.code

def VerdictAction.code : VerdictAction → Word
  | .held => 1 | .cycled => 2 | .lockedOut => 3

def ProtectReason.code : ProtectReason → Word
  | .locked => 1 | .owned => 2

def BlockReason.code : BlockReason → Word
  | .halted => 1 | .hold => 2 | .slot => 3 | .branch => 4 | .phase => 5 | .inlet => 6

def blockReasonCode : Option BlockReason → Word
  | none => 0 | some r => r.code

def ReportKind.code : ReportKind → Word
  | .charterState => 1 | .cycleStart => 2 | .cycleDone => 3 | .cycleCancelled => 4 | .verdict => 5 | .hbSuspend => 6
  | .hbResume => 7 | .relayFault => 8 | .protect => 9 | .limitOver => 10 | .limitClear => 11 | .admissionWait => 12
  | .calDrift => 13 | .calRestored => 14 | .rollover => 15 | .seedInvalid => 16 | .lineLoss => 17
  | .lineRestored => 18

/-- The subject kind's code. -/
def Subject.kindCode : Subject → Word
  | .outlet _ => 1
  | .level (.branch _) => 2
  | .level (.phase _) => 3
  | .level .inlet => 4
  | .strip => 5
  | .window => 6

/-- The subject number: from 1 for outlets, branches and phases, 1 for the inlet, 0 for STRIP and WINDOW (R176). -/
def Subject.number : Subject → Word
  | .outlet n => BitVec.ofNat 16 (n.val + 1)
  | .level (.branch b) => BitVec.ofNat 16 (b.val + 1)
  | .level (.phase p) => BitVec.ofNat 16 (p.val + 1)
  | .level .inlet => 1
  | .strip => 0
  | .window => 0

/-! ## Flag words -/

/-- The Quality word of an outlet Meter group (10). -/
def Quality.code (q : Quality) : Word :=
  BitVec.ofNat 16 (q.noSamples.toNat + 2 * q.lowCount.toNat + 4 * q.overrange.toNat + 8 * q.refDrift.toNat
    + 16 * q.noLineSync.toNat)

/-- The Over-Limit a level has after a close with this load and Limit (R171, R172). -/
def decideOver (load limit : Nat) (was : Bool) : Bool :=
  if was then !(decide (limit = 0) || decide (load * 20 ≤ limit * 100 * 19))
  else decide (limit ≠ 0) && decide (limit * 100 < load)

namespace Device

/-- A level's Over-Limit as the Admission Unit decides it from every close handed over so far (R79, R171): the
flag it holds, and the closes whose loads are still on their way to it. -/
def overLimit (d : Device) (l : Level) : Bool :=
  d.mail.loads.foldl (fun was h => decideOver (h.loads.get l) (h.limits.get l) was) (d.admission.overLimit.get l)

/-- The place of the slot occupant on its branch: 0 for none (10). -/
def occupantPlace (d : Device) (b : Branch) : Nat :=
  match d.admission.slots[b] with
  | none => 0
  | some s => s.outlet.val % 8 + 1

/-- The packed 64-bit value of a level's words 9 to 12 (10, R183). -/
def packedLevel (d : Device) (l : Level) : BitVec 64 :=
  let m := d.engine.levels.get l
  let q := m.quality
  let overBit := BitVec.ofBool (d.overLimit l)
  match l with
  | .phase p =>
    BitVec.ofNat 14 d.engine.voltages[p] ++ BitVec.ofNat 20 m.load ++ BitVec.ofInt 25 m.power ++ overBit
      ++ BitVec.ofBool q.isPartial ++ BitVec.ofBool q.noSamples ++ BitVec.ofBool q.refDrift
      ++ BitVec.ofBool q.noLineSync
  | .branch b =>
    BitVec.ofNat 19 m.load ++ BitVec.ofInt 24 m.power ++ BitVec.ofNat 9 (d.admission.reserved.branch[b] / 100)
      ++ BitVec.ofNat 4 d.admission.queues[b].length ++ BitVec.ofNat 4 (d.occupantPlace b) ++ overBit
      ++ BitVec.ofBool q.isPartial ++ BitVec.ofBool q.refDrift ++ BitVec.ofBool q.noLineSync
  | .inlet =>
    BitVec.ofNat 22 m.load ++ BitVec.ofInt 27 m.power ++ BitVec.ofNat 8 m.rollover ++ (0 : BitVec 3) ++ overBit
      ++ BitVec.ofBool q.isPartial ++ BitVec.ofBool q.refDrift ++ BitVec.ofBool q.noLineSync

/-- The eight words of a level group. -/
def levelWords (d : Device) (l : Level) : List Word :=
  let m := d.engine.levels.get l
  m.sequence :: (wordsOf 4 (d.packedLevel l).toNat ++ wordsOf 3 m.lifetime.packed)

/-- The fourteen words of an outlet's Meter group (R67, 10). -/
def meterWords (d : Device) (n : Outlet) : List Word :=
  let m := d.engine.outlets[n]
  [m.sequence, BitVec.ofNat 16 m.current] ++ wordsOf 2 (BitVec.ofInt 32 m.power).toNat ++ wordsOf 2 m.apparent
    ++ [m.quality.code, m.range.code] ++ wordsOf 3 m.lifetime.packed ++ wordsOf 2 m.period.packed
    ++ [BitVec.ofNat 16 m.rollover]

/-- The eighteen words of an outlet's Status group (R108, 10). -/
def statusWords (d : Device) (n : Outlet) : List Word :=
  let o := d.outlet[n]
  let w := d.watch[n]
  [wordOf o.echoTag o.echoResult.code, o.state.code, senseCode o.sensed, targetCode o.staged, w.state.code,
    flagWord w.held, lastCauseCode o.lastCause, BitVec.ofNat 16 w.recent.length] ++ wordsOf 2 o.since
    ++ [faultCode o.fault] ++ List.replicate 7 0

/-- Two Rollover Counts in one charter word, the first in the high byte. -/
def rolloverPair (a b : Nat) : Word := wordOf (BitVec.ofNat 8 a) (BitVec.ofNat 8 b)

/-- The 32 words of the charter group (R36, 10). -/
def charterWords (d : Device) : List Word :=
  let roll : Level → Nat := fun l => (d.engine.levels.get l).rollover
  [d.charter.state.code, d.charter.reject.code, flagWord d.pins.bankB] ++ wordsOf 2 d.charter.uptime
    ++ [flagWord d.suspendedSince.isSome, flagWord d.sampler.drifting, BitVec.ofNat 16 d.engine.lineFrequency,
      flagWord d.sampler.locked, d.applyEcho.1, BitVec.ofNat 16 d.applyEcho.2,
      rolloverPair (roll (.branch 0)) (roll (.branch 1)), rolloverPair (roll (.branch 2)) (roll (.branch 3)),
      rolloverPair (roll (.branch 4)) (roll (.branch 5)), rolloverPair (roll (.phase 0)) (roll (.phase 1)),
      rolloverPair (roll (.phase 2)) 0]
    ++ List.replicate 16 0

/-- The present words of a publication group. -/
def groupWords (d : Device) : Group → List Word
  | .charter => d.charterWords
  | .level l => d.levelWords l
  | .status n => d.statusWords n
  | .meter n => d.meterWords n

end Device

/-! ## Where the words of a publication lie -/

/-- The first word of a publication group. -/
def Group.base : Group → Nat
  | .charter => 0x20
  | .level l => levelBase l + 8
  | .status n => outletWord n 32
  | .meter n => outletWord n 50

/-- How many words a publication group has. -/
def Group.size : Group → Nat
  | .charter => 32
  | .level _ => 8
  | .status _ => 18
  | .meter _ => 14

/-- A meter group: one that the Snapshot Bracket may cover (01). -/
def Group.isMeter : Group → Bool
  | .level _ | .meter _ => true
  | .charter | .status _ => false

/-- The meter group whose Sequence word lies at a place (10). -/
def sequenceGroup : Place → Option Group
  | .level l 8 => some (.level l)
  | .outlet n 50 => some (.meter n)
  | _ => none

/-- The meter group whose last word lies at a place (10). -/
def lastWordGroup : Place → Option Group
  | .level l 15 => some (.level l)
  | .outlet n 63 => some (.meter n)
  | _ => none

/-- The outlet whose Meter group holds the word at a place. -/
def meterOutlet : Place → Option Outlet
  | .outlet n w => if 50 ≤ w then some n else none
  | _ => none

end Sys2Proof.Machine
end

