-- ==== Sys2Proof/Machine/Publication.lean ====
section
/-! DEFINITION. The Publication Unit: entering the Posting Queue (R15, R16), the Snapshot Bracket (R19, R20),
forwarded reads (R14), drain writes (R17), and the publication of a block's changed fields (R36, R77, R108). -/

namespace Sys2Proof.Machine
open Sys2Proof

/-! ## Entries -/

/-- The entry stands for the group. -/
def Entry.isGroup (g : Group) : Entry → Bool
  | .group g' _ => decide (g' = g)
  | .report _ _ _ => false

/-- The entry is a report entry. -/
def Entry.isReport : Entry → Bool
  | .group _ _ => false
  | .report _ _ _ => true

/-- A group's waiting entry takes new values in place. -/
def Entry.replaced (g : Group) (words : List Word) : Entry → Entry
  | .group g' ws => if g' = g then .group g words else .group g' ws
  | .report s ws h => .report s ws h

/-- The window offsets an entry writes, in the order it writes them (R17). -/
def Entry.offsets : Entry → List Nat
  | .group g _ => (List.range g.size).map (g.base + ·)
  | .report s _ _ => (List.range 8).map (slotBase s + ·) ++ [headOffset, lostCountOffset]

/-- The words an entry writes, with the Lost Count the Report Writer holds (R17). -/
def Entry.values (lost : Nat) : Entry → List Word
  | .group _ ws => ws
  | .report _ ws head => ws ++ [head.setWidth 16, BitVec.ofNat 16 lost]

/-- The writes an entry has still to make after some of its words have drained. -/
def Entry.writes (lost drained : Nat) (e : Entry) : List (Nat × Word) := (e.offsets.zip (e.values lost)).drop drained

namespace Device

/-! ## Entering the queue -/

/-- An outlet Meter publication that enters the queue records its Period Energy (R16). -/
def recordPeriod (d : Device) (g : Group) (words : List Word) : Device :=
  match g with
  | .meter n =>
    { d with pub := { d.pub with
        lastPeriod := setAt d.pub.lastPeriod n (unpackDigits 6 (wordsValue ((words.drop 11).take 2))) } }
  | .charter | .level _ | .status _ => d

/-- A group publication enters the Posting Queue: in place when the group waits, else at the back (R16). A
replaced entry whose drain has begun starts again at its first word. -/
def enqueueGroup (d : Device) (g : Group) (words : List Word) : Device :=
  let q := d.pub.queue
  let pub :=
    if q.any (Entry.isGroup g) then
      { d.pub with
        queue := q.map (Entry.replaced g words)
        drained := if (q.head?.map (Entry.isGroup g)).getD false then 0 else d.pub.drained }
    else { d.pub with queue := q ++ [.group g words] }
  { d with pub := pub }.recordPeriod g words

/-- A report entry joins the back of the Posting Queue (R16). -/
def enqueueReport (d : Device) (slot : BitVec 6) (words : List Word) (head : BitVec 6) : Device :=
  { d with pub := { d.pub with queue := d.pub.queue ++ [.report slot words head] } }

/-- How many report entries wait (R15). -/
def reportsWaiting (d : Device) : Nat := d.pub.queue.countP Entry.isReport

/-- The update held back of an outlet's Meter group (R21). -/
def setHeldBack (d : Device) (n : Outlet) (u : Option (List Word)) : Device :=
  { d with pub := { d.pub with heldBack := setAt d.pub.heldBack n u } }

/-- The Snapshot Bracket set. -/
def setBracket (d : Device) (b : Option Bracket) : Device := { d with pub := { d.pub with bracket := b } }

/-- A publication that no update held back stands in the way of: into an open bracket on its group, else the
queue (R16, R20). -/
def publishThroughBracket (d : Device) (g : Group) (words : List Word) : Device :=
  match d.pub.bracket with
  | some b =>
    if g.isMeter ∧ b.group = g then d.setBracket (some { b with held := some words }) else d.enqueueGroup g words
  | none => d.enqueueGroup g words

/-- A publication of a group: it replaces a held-back update (R21), goes into an open bracket (R20) or enters the
queue (R16). -/
def publish (d : Device) (g : Group) (words : List Word) : Device :=
  match g with
  | .meter n =>
    if (d.pub.heldBack[n]).isSome then d.setHeldBack n (some words) else d.publishThroughBracket g words
  | .charter | .level _ | .status _ => d.publishThroughBracket g words

/-- The charter group is published while the charter is SWEEPING, RUNNING or HALTED (R36). -/
def publishCharter (d : Device) : Device := if d.enforcing then d.publish .charter d.charterWords else d

/-- A change of charter fields, published when a field has changed (R36). -/
def changeCharter (d : Device) (f : Device → Device) : Device :=
  if (f d).charterWords = d.charterWords then f d else (f d).publishCharter

/-- A Status group is published while the charter is RUNNING or HALTED (R108). -/
def publishStatus (d : Device) (n : Outlet) : Device :=
  if d.inService then d.publish (.status n) (d.statusWords n) else d

/-- A change of an outlet context, published when a Status field has changed (R108). -/
def modOutlet (d : Device) (n : Outlet) (f : OutletContext → OutletContext) : Device :=
  if (d.setOutlet n f).statusWords n = d.statusWords n then d.setOutlet n f else (d.setOutlet n f).publishStatus n

/-- A change of a watch context, published when a Status field has changed (R108). -/
def modWatch (d : Device) (n : Outlet) (f : WatchContext → WatchContext) : Device :=
  if (d.setWatch n f).statusWords n = d.statusWords n then d.setWatch n f else (d.setWatch n f).publishStatus n

/-- A new publication of an outlet's Meter group, its Sequence one higher (R77). -/
def publishMeter (d : Device) (n : Outlet) : Device :=
  let d := d.setMeter n fun m => { m with sequence := m.sequence + 1 }
  d.publish (.meter n) (d.meterWords n)

/-- A new publication of a level's group, its Sequence one higher (R77). -/
def publishLevel (d : Device) (l : Level) : Device :=
  let d := d.setLevelMeter l fun m => { m with sequence := m.sequence + 1 }
  d.publish (.level l) (d.levelWords l)

/-- A new publication of a branch group between closes, while RUNNING or HALTED (R173). -/
def publishBranch (d : Device) (b : Branch) : Device := if d.inService then d.publishLevel (.branch b) else d

/-! ## The bracket -/

/-- The bracket closes, and its held update enters the queue (R20). -/
def closeBracket (d : Device) : Device :=
  match d.pub.bracket with
  | none => d
  | some b =>
    match b.held with
    | none => d.setBracket none
    | some words => (d.setBracket none).enqueueGroup b.group words

/-- A Sequence read opens the bracket on the group (R19). -/
def openBracket (d : Device) (g : Group) : Device :=
  match d.pub.bracket with
  | some b => if b.group = g then d.setBracket (some { b with closes := 0 }) else
      d.closeBracket.setBracket (some ⟨g, none, 0⟩)
  | none => d.setBracket (some ⟨g, none, 0⟩)

/-- One interval close counts for the open bracket; the second closes it (R20). The close's own publication of
the group, when it makes one, is the update that enters the queue, in place of the one held. -/
def countClose (d : Device) (republishes : Group → Bool) : Device :=
  match d.pub.bracket with
  | none => d
  | some b =>
    if b.closes = 0 then d.setBracket (some { b with closes := 1 })
    else if republishes b.group then d.setBracket none
    else d.closeBracket

/-! ## Reads and drains -/

/-- The newest value waiting for a window word (R14). -/
def waitingValue (d : Device) (off : Nat) : Option Word :=
  match d.pub.queue with
  | [] => none
  | e :: es =>
    match es.reverse.findSome? fun x => (x.writes d.reports.lost 0).lookup off with
    | some v => some v
    | none => (e.writes d.reports.lost d.pub.drained).lookup off

/-- What a processor read of a word address is answered (R14). -/
def readValue (d : Device) (a : Word) : Word :=
  match windowOffset d.pins.windowBase a with
  | some off => (d.waitingValue off).getD (d.ram.readWord a.toNat)
  | none => d.ram.readWord a.toNat

/-- One drain write: the next word of the oldest entry goes to RAM, and the entry leaves after its last (R17). -/
def drain (d : Device) : Device :=
  match d.pub.queue with
  | [] => d
  | e :: es =>
    match e.writes d.reports.lost d.pub.drained with
    | [] => { d with pub := { d.pub with queue := es, drained := 0 } }
    | [(off, v)] => { d.writeRam (d.windowAddress off) v with pub := { d.pub with queue := es, drained := 0 } }
    | (off, v) :: _ =>
      { d.writeRam (d.windowAddress off) v with pub := { d.pub with drained := d.pub.drained + 1 } }

end Device

end Sys2Proof.Machine
end

