-- ==== Sys2Proof/Machine/Admission.lean ====
section
/-! DEFINITION. The Admission Unit (08): queues, head evaluation and walk, grants, releases and hand-backs, head
tenures, Over-Limit. -/

namespace Sys2Proof.Machine
open Sys2Proof

/-- A join goes after every entry of equal or lower rank and before every entry of higher rank (R153). -/
def insertJoin (e : QueueEntry) : List QueueEntry → List QueueEntry
  | [] => [e]
  | x :: xs => if x.rank ≤ e.rank then x :: insertJoin e xs else e :: x :: xs

/-- A returned outlet goes after every entry of lower rank and before every entry of equal or higher rank (R165). -/
def insertReturned (e : QueueEntry) : List QueueEntry → List QueueEntry
  | [] => [e]
  | x :: xs => if x.rank < e.rank then x :: insertReturned e xs else e :: x :: xs

/-- The outlet stands in the queue. -/
def inQueue (n : Outlet) (q : List QueueEntry) : Bool := q.any fun e => decide (e.outlet = n)

namespace Device

/-! ## Fields -/

/-- A branch's restart queue. -/
def branchQueue (d : Device) (b : Branch) : List QueueEntry := d.admission.queues[b]

/-- A branch's restart queue set. -/
def setQueue (d : Device) (b : Branch) (q : List QueueEntry) : Device :=
  { d with admission := { d.admission with queues := setAt d.admission.queues b q } }

/-- A branch's slot set. -/
def setSlot (d : Device) (b : Branch) (s : Option Slot) : Device :=
  { d with admission := { d.admission with slots := setAt d.admission.slots b s } }

/-- A branch's head tenure set. -/
def setTenure (d : Device) (b : Branch) (t : Option Tenure) : Device :=
  { d with admission := { d.admission with tenures := setAt d.admission.tenures b t } }

/-- The reservation totals of a branch, its phase and the inlet changed in one step (R166). -/
def changeReserved (d : Device) (b : Branch) (f : Nat → Nat) : Device :=
  let r := d.admission.reserved
  let p := b.phase
  { d with admission := { d.admission with
      reserved :=
        { branch := setAt r.branch b (f r.branch[b])
          phase := setAt r.phase p (f r.phase[p])
          inlet := f r.inlet } } }

/-- A head tenure begins for the front of a branch's queue, if there is one; else none stands (R167). -/
def beginTenure (d : Device) (b : Branch) : Device :=
  d.setTenure b (if (d.branchQueue b).isEmpty then none else some ⟨d.charter.uptime, false, none⟩)

/-! ## The walk -/

/-- An outlet's inrush estimate in mA (R159). -/
def inrushEstimate (d : Device) (n : Outlet) : Nat :=
  let lim := d.limit (.branch (Outlet.branch n))
  let est := d.expectedInrush n * 100
  if lim = 0 then est else min est (lim * 100)

/-- The walk passes at a level (R160). -/
def walkPasses (d : Device) (l : Level) (estimate : Nat) : Bool :=
  let lim := d.limit l
  decide (lim = 0) || decide (d.admission.loads.get l + d.admission.reserved.get l + estimate ≤ lim * 100)

/-- The first check of R157 that fails for the head of a branch, or none. -/
def blockReason (d : Device) (b : Branch) (n : Outlet) : Option BlockReason :=
  let est := d.inrushEstimate n
  if !d.running then some .halted
  else if d.pins.hold then some .hold
  else if (d.admission.slots[b]).isSome then some .slot
  else if !d.walkPasses (.branch b) est then some .branch
  else if !d.walkPasses (.phase b.phase) est then some .phase
  else if !d.walkPasses .inlet est then some .inlet
  else none

/-- A slot occupied, with its amount reserved at the branch, its phase and the inlet (R162). -/
def occupySlot (d : Device) (b : Branch) (s : Slot) : Device :=
  (d.setSlot b (some s)).changeReserved b (· + s.amount)

/-- The admission of an outlet handed to the Outlet Controller (R155). -/
def handAdmission (d : Device) (n : Outlet) : Device :=
  { d with mail := { d.mail with admissions := d.mail.admissions ++ [n] } }

/-- A grant (R162). The entry behind it becomes head and, evaluated at once, is blocked at the slot. -/
def grant (d : Device) (b : Branch) (e : QueueEntry) (rest : List QueueEntry) : Device :=
  let d := (d.setQueue b rest).occupySlot b ⟨e.outlet, d.inrushEstimate e.outlet, false, e.rank⟩
  let d := (d.handAdmission e.outlet).publishBranch b
  d.setTenure b (if rest.isEmpty then none else some ⟨d.charter.uptime, false, some .slot⟩)

/-- The evaluation of a branch's head (R157): a grant, or the block reason recorded in its tenure. -/
def evaluateHead (d : Device) (b : Branch) : Device :=
  match d.branchQueue b with
  | [] => d
  | e :: rest =>
    match d.blockReason b e.outlet with
    | none => d.grant b e rest
    | some r => d.setTenure b ((d.admission.tenures[b]).map fun t => { t with reason := some r })

/-- The branches whose queue is not empty. -/
def waitingBranches (d : Device) : List Branch := branches.filter fun b => !(d.branchQueue b).isEmpty

/-- One event evaluates every head, one after another, in an order the device does not fix (R156, R158). -/
def evaluateHeads (d : Device) : Device := d.inFreeOrder (fun b : Branch => b.val) evaluateHead d.waitingBranches

/-! ## Joins, removals, releases, hand-backs -/

/-- An entry placed in its branch's queue; one placed at the front begins a tenure (R153, R165, R167). -/
def placeEntry (d : Device) (b : Branch) (q : List QueueEntry) (n : Outlet) : Device :=
  let d := d.setQueue b q
  if q.head?.map (·.outlet) = some n then d.beginTenure b else d

/-- A join, without its publication and evaluation (R153). -/
def placeJoin (d : Device) (n : Outlet) : Device :=
  let b := Outlet.branch n
  d.placeEntry b (insertJoin ⟨n, d.restartRank n⟩ (d.branchQueue b)) n

/-- The slot occupant of the outlet's branch is this outlet. -/
def occupies (d : Device) (n : Outlet) : Bool :=
  (d.admission.slots[Outlet.branch n]).any fun s => decide (s.outlet = n)

/-- The withdrawn mark of a branch's slot set. -/
def markWithdrawn (d : Device) (b : Branch) (v : Bool) : Device :=
  d.setSlot b ((d.admission.slots[b]).map fun s => { s with withdrawn := v })

/-- A join reaches the Admission Unit (R153). -/
def takeJoin (d : Device) (n : Outlet) : Device :=
  let b := Outlet.branch n
  if inQueue n (d.branchQueue b) then d
  else if (d.admission.slots[b]).any (fun s => decide (s.outlet = n) && s.withdrawn) then d.markWithdrawn b false
  else ((d.placeJoin n).publishBranch b).evaluateHead b

/-- A removal reaches the Admission Unit (R154). -/
def takeRemoval (d : Device) (n : Outlet) : Device :=
  let b := Outlet.branch n
  let q := d.branchQueue b
  if inQueue n q then
    let d := d.setQueue b (q.filter fun e => decide (e.outlet ≠ n))
    if q.head?.map (·.outlet) = some n then ((d.beginTenure b).publishBranch b).evaluateHead b
    else d.publishBranch b
  else if d.occupies n then d.markWithdrawn b true
  else d

/-- A slot and its reservations freed (R164, R165). -/
def freeSlot (d : Device) (b : Branch) (s : Slot) : Device := (d.changeReserved b (· - s.amount)).setSlot b none

/-- A release reaches the Admission Unit (R164). -/
def takeRelease (d : Device) (n : Outlet) : Device :=
  let b := Outlet.branch n
  match d.admission.slots[b] with
  | some s => if s.outlet = n then ((d.freeSlot b s).publishBranch b).evaluateHeads else d
  | none => d

/-- A hand-back reaches the Admission Unit (R165). -/
def takeHandBack (d : Device) (n : Outlet) : Device :=
  let b := Outlet.branch n
  match d.admission.slots[b] with
  | some s =>
    if s.outlet = n then
      let d := d.freeSlot b s
      let d := if s.withdrawn then d else d.placeEntry b (insertReturned ⟨n, s.rank⟩ (d.branchQueue b)) n
      (d.publishBranch b).evaluateHeads
    else d
  | none => d

/-! ## Head-of-line waiting and Over-Limit -/

/-- The head of a branch has waited past the limit and has not been reported (R168). -/
def waitDue (d : Device) (t : Tenure) : Bool :=
  !t.reported && decide (d.charter.settings.waitLimit < d.charter.uptime - t.start)

/-- One head tenure examined (R168). -/
def examineTenure (d : Device) (b : Branch) : Device :=
  match d.admission.tenures[b], d.branchQueue b with
  | some t, e :: _ =>
    if d.waitDue t then
      (d.setTenure b (some { t with reported := true })).report .admissionWait (.outlet e.outlet)
        (blockReasonCode t.reason) (satWord (d.charter.uptime - t.start))
    else d
  | _, _ => d

/-- The branches whose head tenure is due a report. -/
def dueBranches (d : Device) : List Branch :=
  branches.filter fun b => (d.admission.tenures[b]).any d.waitDue && !(d.branchQueue b).isEmpty

/-- Every head tenure examined, as at an Admission Wait Limit write (R168). -/
def examineTenures (d : Device) : Device := d.inFreeOrder (fun b : Branch => b.val) examineTenure d.dueBranches

/-- The Over-Limit of one level decided at a close, with its report (R171, R172). -/
def decideLevel (h : LoadsHandoff) (d : Device) (l : Level) : Device :=
  let was := d.admission.overLimit.get l
  let now := decideOver (h.loads.get l) (h.limits.get l) was
  if now = was then d
  else
    ({ d with admission := { d.admission with overLimit := d.admission.overLimit.set l now } }).report
      (if now then .limitOver else .limitClear) (.level l) (satWord (h.loads.get l / 100))
      (BitVec.ofNat 16 (h.limits.get l))

/-- The levels whose Over-Limit a close changes. -/
def changedLevels (d : Device) (h : LoadsHandoff) : List Level :=
  levels.filter fun l =>
    decideOver (h.loads.get l) (h.limits.get l) (d.admission.overLimit.get l) != d.admission.overLimit.get l

/-- A close's level loads reach the Admission Unit (R171, R156). -/
def takeLoads (d : Device) (h : LoadsHandoff) : Device :=
  let d := d.inFreeOrder levelIndex (decideLevel h) (d.changedLevels h)
  ({ d with admission := { d.admission with loads := h.loads } }).evaluateHeads

end Device

end Sys2Proof.Machine
end

