-- ==== Sys2Proof/Machine/CloseEngine.lean ====
section
/-! DEFINITION. The Close Engine (04): the values of a close, energy, totals, line frequency, publication and hand-offs,
period clears and collect-clears. -/

namespace Sys2Proof.Machine
open Sys2Proof

/-! ## Values -/

/-- The scale L of a range (R64). -/
def GainRange.scale : GainRange → Nat
  | .x1 => 16 | .x4 => 4 | .x16 => 1

/-- The RMS voltage of a phase in dV (R61). -/
def rmsVoltage (s : VoltageSums) (kv : Nat) : Nat := (floorSqrt (s.sumSq / s.count) * kv + 81920) / 163840

/-- The outlet current in mA (R63, R64). -/
def outletCurrent (c : Channel) (k : Nat) : Nat :=
  min ((floorSqrt (c.sumSq / c.count) * c.range.scale * k + 131072) / 262144) 65535

/-- The outlet real power in dW (R63, R65). -/
def outletPower (c : Channel) (k kv : Nat) : Int :=
  clampInt (-999999) 999999
    (roundDiv (c.sumProd.tdiv c.count * (c.range.scale : Int) * (k : Int) * (kv : Int)) Config.powerDivisor)

/-- The outlet apparent power in dVA (R66). -/
def apparentPower (current voltage : Nat) : Nat := (current * voltage + 500) / 1000

/-- The line frequency in cHz (R76). -/
def lineFrequencyOf (cycles length : Nat) : Nat := (cycles * 100000000 + length / 2) / length

namespace CloseRecord

/-- The outlet was in the scan set of the interval. -/
def scanned (r : CloseRecord) (n : Outlet) : Bool := r.scan.contains n

/-- The conditions of an outlet's result; one not scanned carries NOT_SCANNED and no other (R58). -/
def quality (r : CloseRecord) (n : Outlet) : Quality :=
  if r.scanned n then
    { noSamples := decide ((r.channels[n]).count = 0)
      lowCount := decide (1 ≤ (r.channels[n]).count) && decide ((r.channels[n]).count ≤ 31)
      overrange := (r.channels[n]).saturated
      refDrift := r.inDrift
      noLineSync := !r.synchronised }
  else .clear

end CloseRecord

/-- A scanned outlet's meter with the values of the close: held without samples, else fresh (R62 to R67). -/
def OutletMeter.measured (m : OutletMeter) (c : Channel) (q : Quality) (k kv voltage : Nat) : OutletMeter :=
  if c.count = 0 then { m with quality := q }
  else
    { m with
      current := outletCurrent c k
      power := outletPower c k kv
      apparent := apparentPower (outletCurrent c k) voltage
      range := c.range
      quality := q }

/-- The whole watt-hours a close adds: from the residual, the held or fresh power and the length (R68). -/
def OutletMeter.units (m : OutletMeter) (length : Nat) : Nat :=
  (m.residual + m.power.toNat * length) / Config.wattHour

/-- An outlet's meter with a close's energy (R68, R70, R71). -/
def OutletMeter.charged (m : OutletMeter) (length : Nat) : OutletMeter :=
  { m with
    residual := (m.residual + m.power.toNat * length) % Config.wattHour
    lifetime := m.lifetime.add (m.units length)
    period := m.period.addSaturating (m.units length)
    rollover := if m.lifetime.wraps (m.units length) then min (m.rollover + 1) 255 else m.rollover }

/-- A level's meter with the watt-hours of its outlets (R72). -/
def LevelMeter.charged (m : LevelMeter) (gain : Nat) : LevelMeter :=
  { m with
    lifetime := m.lifetime.add gain
    rollover := if m.lifetime.wraps gain then min (m.rollover + 1) 255 else m.rollover }

namespace Device

/-! ## The stages of a close (R59) -/

/-- Stages 1 and 2: the phase voltages (R61) and the outlet values (R62 to R67). -/
def measure (d : Device) (r : CloseRecord) : Device :=
  let voltages := Vector.ofFn fun p : Phase =>
    if (r.voltages[p]).count = 0 then d.engine.voltages[p] else rmsVoltage r.voltages[p] (d.voltageCalibration p)
  let meters := Vector.ofFn fun n : Outlet =>
    if r.scanned n then
      (d.engine.outlets[n]).measured r.channels[n] (r.quality n) (d.currentCalibration n)
        (d.voltageCalibration (Outlet.phase n)) voltages[Outlet.phase n]
    else d.engine.outlets[n]
  { d with engine := { d.engine with voltages := voltages, outlets := meters } }

/-- One scanned outlet's energy, with the report of a wrap (R68, R70, R71). -/
def chargeOutlet (length : Nat) (d : Device) (n : Outlet) : Device :=
  let m := d.engine.outlets[n]
  let d := d.setMeter n fun m => m.charged length
  if m.lifetime.wraps (m.units length) then
    d.report .rollover (.outlet n) (BitVec.ofNat 16 (d.engine.outlets[n]).rollover) 0
  else d

/-- The watt-hours a level gains at a close (R72). -/
def levelGain (d : Device) (r : CloseRecord) (l : Level) : Nat :=
  ((r.scan.filter fun n => l.covers n).map fun n => (d.engine.outlets[n]).units r.length).sum

/-- A level's rollover report (R72). -/
def reportLevelRollover (d : Device) (l : Level) : Device :=
  d.report .rollover (.level l) (BitVec.ofNat 16 (d.engine.levels.get l).rollover) 0

/-- Stage 3: energy of every scanned outlet, in ascending number, and of the levels (R68 to R72). The manual gives the
ROLLOVER reports of one close no order: those of the outlets come in ascending number and before those of the levels
(DESIGN CHOICE, log 31), whose order is free (log 9). -/
def charge (d : Device) (r : CloseRecord) : Device :=
  let gains := PerLevel.ofFn fun l => d.levelGain r l
  let wrapping := levels.filter fun l => (d.engine.levels.get l).lifetime.wraps (gains.get l)
  let d := r.scan.foldl (chargeOutlet r.length) d
  let d : Device := { d with engine := { d.engine with
    levels := PerLevel.ofFn fun l => (d.engine.levels.get l).charged (gains.get l) } }
  d.inFreeOrder levelIndex reportLevelRollover wrapping

/-- The outlet contributes at its Expected Inrush: not scanned, present, sensed closed (R73). -/
def estimated (d : Device) (r : CloseRecord) (n : Outlet) : Bool :=
  !r.scanned n && d.present n && decide (d.pins.senseLines[n] = .closed)

/-- An outlet's contribution to Load (R73). -/
def loadShare (d : Device) (r : CloseRecord) (n : Outlet) : Nat :=
  if r.scanned n then (d.engine.outlets[n]).current
  else if d.estimated r n then d.expectedInrush n * 100
  else 0

/-- An outlet's contribution to Real Power (R73, R74). -/
def powerShare (d : Device) (r : CloseRecord) (n : Outlet) : Int :=
  if r.scanned n then (d.engine.outlets[n]).power else 0

/-- The outlets of a level. -/
def outletsOf (l : Level) : List Outlet := outlets.filter fun n => l.covers n

/-- A level's Quality at a close (R75). -/
def levelQuality (d : Device) (r : CloseRecord) (l : Level) : LevelQuality where
  isPartial := (outletsOf l).any fun n => d.estimated r n
  noSamples := match l with
    | .phase p => decide ((r.voltages[p]).count = 0)
    | .branch _ | .inlet => false
  refDrift := r.inDrift
  noLineSync := !r.synchronised

/-- Stage 4: the level totals (R73 to R75). -/
def total (d : Device) (r : CloseRecord) : Device :=
  { d with engine := { d.engine with
      levels := PerLevel.ofFn fun l =>
        { d.engine.levels.get l with
          load := min (((outletsOf l).map fun n => d.loadShare r n).sum) 9999999
          power := clampInt (-99999999) 99999999 (((outletsOf l).map fun n => d.powerShare r n).sum)
          quality := d.levelQuality r l } } }

/-- Stage 5: Line Frequency at a synchronised close (R76). -/
def measureFrequency (d : Device) (r : CloseRecord) : Device :=
  if r.synchronised then
    { d with engine := { d.engine with lineFrequency := lineFrequencyOf r.cycles r.length } }
  else d

/-- The level loads the Close Engine holds. -/
def levelLoads (d : Device) : PerLevel Nat := PerLevel.ofFn fun l => (d.engine.levels.get l).load

/-- Stage 6, the hand-offs to the Admission Unit, the Hang Watch and the Outlet Controller (R79), the last with the
contact sense taken for the close (R60) and the outlets' states at its reading. An outlet not scanned is handed no power and
no current. -/
def handOffClose (d : Device) (r : CloseRecord) : Device :=
  { d with mail := { d.mail with
      loads := d.mail.loads ++ [⟨d.levelLoads, PerLevel.ofFn fun l => d.limit l⟩]
      trackers := d.mail.trackers ++ outlets.map fun n =>
        ⟨n, r.scanned n, r.quality n, if r.scanned n then (d.engine.outlets[n]).power else 0, r.length⟩
      senses := d.mail.senses ++ [⟨d.pins.senseLines, mapAll OutletContext.state d.outlet, Vector.ofFn fun n : Outlet =>
        ⟨r.scanned n, r.quality n, if r.scanned n then (d.engine.outlets[n]).current else 0⟩⟩] } }

/-- Stage 6, publication: the level groups, then the Meter groups of the scanned outlets (R78). -/
def publishClose (d : Device) (r : CloseRecord) : Device :=
  r.scan.foldl publishMeter (levels.foldl publishLevel d)

/-- A close publishes the group again (R78). -/
def republishes (d : Device) (r : CloseRecord) : Group → Bool
  | .level _ => d.inService
  | .meter n => d.inService && r.scanned n
  | .charter | .status _ => false

/-- One present outlet's Relay Sensed takes the contact sense that stands (R101). -/
def readOutlet (d : Device) (n : Outlet) : Device :=
  if d.present n then d.modOutlet n fun o => { o with sensed := d.pins.senseLines[n] } else d

/-- The Outlet Controller reads contact sense for a close, in every charter state (R85, R101). The manual gives the Status
groups this publishes no order: they come in ascending outlet number (DESIGN CHOICE, log 35). -/
def readSense (d : Device) (lines : SenseLines) : Device :=
  outlets.foldl readOutlet { d with pins := { d.pins with senseLines := lines } }

/-- The Close Engine computes one close (R59), with the contact sense that the Outlet Controller reads for it (R60, R101).
Before service it computes values and totals alone. The close counts for the bracket first (R20: it counts when it occurs). -/
def compute (d : Device) (r : CloseRecord) (lines : SenseLines) : Device :=
  let d := (d.countClose (d.republishes r)).readSense lines
  let d := d.changeCharter fun d =>
    let d := d.measure r
    let d := if d.inService then d.charge r else d
    (d.total r).measureFrequency r
  if d.inService then (d.handOffClose r).publishClose r else d

/-! ## Changes to period energy -/

/-- A period clear (R80). -/
def clearPeriod (d : Device) (n : Outlet) : Device :=
  (d.setMeter n fun m => { m with period := zeros 6 }).publishMeter n

/-- A Meter publication with its Period Energy replaced (R82). -/
def withPeriod (words : List Word) (period : Digits) : List Word :=
  words.take 11 ++ wordsOf 2 period.packed ++ words.drop 13

/-- A collect-clear: the subtraction, in the held-back update too, and the return on its way (R81, R82). -/
def collect (d : Device) (c : CollectClear) : Device :=
  let n := c.outlet
  let period := ((d.engine.outlets[n]).period).subFloor c.value
  let d := d.setMeter n fun m => { m with period := period }
  let d := d.setHeldBack n ((d.pub.heldBack[n]).map fun words => withPeriod words period)
  { d with mail := { d.mail with collectReturns := d.mail.collectReturns ++ [⟨n, c.withHeld⟩] } }

/-- A return reaches the Publication Unit (R82): the held-back update enters the queue, or a new publication is made. -/
def takeReturn (d : Device) (c : CollectReturn) : Device :=
  if c.withHeld then
    match d.pub.heldBack[c.outlet] with
    | some words => (d.setHeldBack c.outlet none).enqueueGroup (.meter c.outlet) words
    | none => d
  else d.publishMeter c.outlet

end Device

end Sys2Proof.Machine
end

