-- ==== Sys2Proof/Machine/HangWatch.lean ====
section
/-! DEFINITION. The Hang Watch (07): grace, heartbeats, the signature tracker, predicate and confirmation, quorum and
suspension, verdicts, the recent-cycle list, and the events the Outlet Controller hands it. -/

namespace Sys2Proof.Machine
open Sys2Proof

/-- The policies under which the heartbeat timer runs (R134). -/
def WatchPolicy.usesHeartbeat : WatchPolicy → Bool
  | .heartbeat | .either | .both => true
  | .none | .signature => false

/-- The predicate of a policy (R137). -/
def WatchPolicy.predicate : WatchPolicy → Bool → Bool → Bool
  | .none, _, _ => false
  | .heartbeat, h, _ => h
  | .signature, _, s => s
  | .either, h, s => h || s
  | .both, h, s => h && s

/-- The cause of a verdict from H and S (R139). -/
def verdictCauseOf : Bool → Bool → Option VerdictCause
  | true, false => some .heartbeat
  | false, true => some .signature
  | true, true => some .both
  | false, false => none

/-- The watch states in which H, S and the predicate are evaluated (R134, R136, R147). -/
def WatchState.tracking : WatchState → Bool
  | .watching | .suspect | .hung => true
  | .idle | .grace | .lockedOut => false

namespace WatchContext

/-- The predicate as H and S were last evaluated (R137). -/
def predicate (w : WatchContext) : Bool := w.policy.predicate w.condH w.condS

/-- The watch as an off event makes it (R130); Watch Held, the list and a cycle outstanding are kept. -/
def idled (w : WatchContext) : WatchContext :=
  { w with
    state := .idle
    grace := none
    heartbeat := none
    confirm := none
    reference := none
    flat := 0
    latest := none
    cause := none
    heldHeartbeat := none
    offSince := w.outstanding
    condH := false
    condS := false }

/-- Entry to WATCHING from GRACE (R132) or, at RESUME, from LOCKED_OUT (R150). -/
def watchingAfresh (w : WatchContext) : WatchContext :=
  { w with
    state := .watching
    grace := none
    heartbeat := if w.policy.usesHeartbeat then some 0 else none
    confirm := none
    reference := none
    flat := 0
    latest := none
    cause := none
    condH := false
    condS := false }

/-- A predicate found false ends SUSPECT (R138) and HUNG (R147). -/
def lapsed (w : WatchContext) : WatchContext :=
  match w.state with
  | .suspect => { w with state := .watching, confirm := none }
  | .hung => { w with state := .watching, cause := none }
  | .idle | .grace | .watching | .lockedOut => w

/-- The start of suspension for one outlet: H is false, and the predicate is evaluated again (R140). -/
def suspended (w : WatchContext) : WatchContext :=
  let w := { w with condH := false }
  if w.predicate then w else w.lapsed

/-- The heartbeat timer set to 0, when it runs. -/
def zeroHeartbeat (w : WatchContext) : WatchContext := { w with heartbeat := w.heartbeat.map fun _ => 0 }

/-- The recent-cycle list without a returned cycle's own entry, the newest (R145, R148). -/
def withoutEntry (w : WatchContext) (entry : Nat) : WatchContext :=
  if w.recent.getLast? = some entry then { w with recent := w.recent.dropLast } else w

/-- The tracker's update by a used close (R135). -/
def track (w : WatchContext) (band : Nat) (p : Int) (t : Nat) : WatchContext :=
  match w.reference with
  | none => { w with reference := some p, flat := 0, latest := some p }
  | some r =>
    if (p - r).natAbs ≤ band then { w with flat := min (w.flat + t) Config.flatHold, latest := some p }
    else { w with reference := some p, flat := 0, latest := some p }

end WatchContext

namespace Device

/-- The outlet is watched (R130). -/
def watched (d : Device) (n : Outlet) : Bool :=
  decide ((d.outlet[n]).mode = .managed) && decide ((d.watch[n]).policy ≠ .none)

/-- Heartbeat suspension is in force. -/
def suspendedNow (d : Device) : Bool := d.suspendedSince.isSome

/-- H as the timer, the timeout and suspension stand (R134). -/
def heartbeatDue (d : Device) (n : Outlet) : Bool :=
  (d.watch[n]).heartbeat.any fun t => !d.suspendedNow && decide (d.heartbeatTimeout n * 1000000 ≤ t)

/-- S as flat time and latest power stand (R136). -/
def signatureDue (d : Device) (n : Outlet) : Bool :=
  decide (d.signatureTime n * 1000000 ≤ (d.watch[n]).flat)
    && (d.watch[n]).latest.any fun p => decide ((d.signatureFloor n : Int) ≤ p)

/-! ## Verdicts -/

/-- A VERDICT report (R181). -/
def reportVerdict (d : Device) (n : Outlet) (action : VerdictAction) : Device :=
  d.report .verdict (.outlet n) (verdictCauseCode (d.watch[n]).cause) action.code

/-- An automatic cycle (R144). The heartbeat timer value and the tracker are held for R145. -/
def automaticCycle (d : Device) (n : Outlet) : Device :=
  let now := d.charter.uptime
  let dwell := d.clampDwell (d.defaultDwell n)
  let d := d.reportVerdict n .cycled
  let d := d.modWatch n fun w =>
    { w with
      recent := w.recent ++ [now]
      state := .idle
      heldHeartbeat := w.heartbeat
      heartbeat := none
      grace := none
      confirm := none
      outstanding := true
      offSince := false
      condH := false
      condS := false }
  { d with mail := { d.mail with verdictCycles := d.mail.verdictCycles ++ [⟨n, dwell, now⟩] } }

/-- The watch enters LOCKED_OUT (R146). -/
def lockOut (d : Device) (n : Outlet) : Device :=
  (d.reportVerdict n .lockedOut).modWatch n fun w =>
    { w with
      state := .lockedOut
      grace := none
      heartbeat := none
      confirm := none
      condH := false
      condS := false }

/-- A verdict does not act: Watch Held, HOLD or HALTED (R143). -/
def verdictHeld (d : Device) (n : Outlet) : Bool :=
  (d.watch[n]).held || d.pins.hold || decide (d.charter.state = .halted)

/-- The verdict decision (R143). -/
def decideVerdict (d : Device) (n : Outlet) : Device :=
  if d.verdictHeld n then d.reportVerdict n .held
  else if (d.watch[n]).recent.length < d.cycleLimit n then d.automaticCycle n
  else d.lockOut n

/-- The confirm timer runs out: HUNG with its cause, and the decision (R138, R139). -/
def confirmed (d : Device) (n : Outlet) : Device :=
  (d.modWatch n fun w =>
    { w with state := .hung, confirm := none, cause := verdictCauseOf w.condH w.condS }).decideVerdict n

/-- The outlets whose held verdicts an event releases: HUNG with every holding condition clear (R147). -/
def releasable (d : Device) : List Outlet :=
  outlets.filter fun n => d.mayOperate && decide ((d.watch[n]).state = .hung) && !(d.watch[n]).held

/-- Held verdicts are decided again, as at a release of HOLD or a RUN (R147); the order is free. -/
def releaseVerdicts (d : Device) : Device := d.inFreeOrder (fun n : Outlet => n.val) decideVerdict d.releasable

/-! ## Quorum and suspension -/

/-- The quorum count (R140). -/
def quorumCount (d : Device) : Nat :=
  outlets.countP fun n => decide ((d.watch[n]).state = .suspect) && (d.watch[n]).condH

/-- Heartbeat suspension begins (R140, R141). The manual gives the Status groups it publishes no order: they come in
ascending outlet number (DESIGN CHOICE, log 30). -/
def beginSuspension (d : Device) : Device :=
  let count := d.quorumCount
  let d := outlets.foldl (fun d n => d.modWatch n WatchContext.suspended) d
  let d := d.report .hbSuspend .strip (BitVec.ofNat 16 count) (BitVec.ofNat 16 d.charter.settings.quorum)
  d.changeCharter fun d => { d with suspendedSince := some d.charter.uptime }

/-- The quorum comparison (R140). -/
def compareQuorum (d : Device) : Device :=
  let q := d.charter.settings.quorum
  if q ≠ 0 ∧ d.suspendedNow = false ∧ q ≤ d.quorumCount then d.beginSuspension else d

/-- Heartbeat suspension ends at a heartbeat for an outlet (R142). -/
def endSuspension (d : Device) (since : Nat) (n : Outlet) : Device :=
  let d : Device := { d with watch := mapAll (fun w =>
    { w.zeroHeartbeat with heldHeartbeat := w.heldHeartbeat.map fun _ => 0 }) d.watch }
  let d := d.report .hbResume (.outlet n) (satWord (d.charter.uptime - since)) 0
  d.changeCharter fun d => { d with suspendedSince := none }

/-! ## Predicate and confirmation -/

/-- Entry to SUSPECT: the quorum comparison, then the confirm timer; a Confirm Time of 0 runs out at once (R137). -/
def enterSuspect (d : Device) (n : Outlet) : Device :=
  let d := d.modWatch n fun w => { w with state := .suspect }
  let d := if (d.watch[n]).condH then d.compareQuorum else d
  if (d.watch[n]).state = .suspect then
    if d.charter.settings.confirmTime = 0 then d.confirmed n
    else d.modWatch n fun w => { w with confirm := some (d.charter.settings.confirmTime * 1000000) }
  else d

/-- The predicate evaluated again (R137, R138, R147). -/
def evaluatePredicate (d : Device) (n : Outlet) : Device :=
  let w := d.watch[n]
  match w.state with
  | .watching => if w.predicate then d.enterSuspect n else d
  | .suspect | .hung => if w.predicate then d else d.modWatch n WatchContext.lapsed
  | .idle | .grace | .lockedOut => d

/-- H takes a value: a rise in SUSPECT raises the quorum count (R140), and the predicate is evaluated again. -/
def setH (d : Device) (n : Outlet) (h : Bool) : Device :=
  if (d.watch[n]).condH = h then d
  else
    let d := d.modWatch n fun w => { w with condH := h }
    let d := if h ∧ (d.watch[n]).state = .suspect then d.compareQuorum else d
    d.evaluatePredicate n

/-- S takes a value, and the predicate is evaluated again (R136). -/
def setS (d : Device) (n : Outlet) (s : Bool) : Device :=
  if (d.watch[n]).condS = s then d else (d.modWatch n fun w => { w with condS := s }).evaluatePredicate n

/-- H evaluated again, as at a Heartbeat Timeout write (R131). -/
def evaluateH (d : Device) (n : Outlet) : Device :=
  if (d.watch[n]).state.tracking then d.setH n (d.heartbeatDue n) else d

/-- S evaluated again, as at a Signature Time or Floor write (R131, R136). -/
def evaluateS (d : Device) (n : Outlet) : Device :=
  if (d.watch[n]).state.tracking then d.setS n (d.signatureDue n) else d

/-! ## Grace -/

/-- Entry to GRACE; a Boot Grace of 0 runs out at once (R132). -/
def enterGrace (d : Device) (n : Outlet) : Device :=
  if d.bootGrace n = 0 then d.modWatch n WatchContext.watchingAfresh
  else d.modWatch n fun w => { w with state := .grace, grace := some (d.bootGrace n * 1000000) }

/-- The grace timer runs out, or a heartbeat ends it (R132). -/
def endGrace (d : Device) (n : Outlet) : Device := d.modWatch n WatchContext.watchingAfresh

/-! ## Heartbeats and the tracker -/

/-- A heartbeat acts on its own outlet's watch (R133). -/
def watchHeartbeat (d : Device) (n : Outlet) : Device :=
  let w := d.watch[n]
  match w.state with
  | .idle =>
    if w.outstanding then d.modWatch n fun w => { w with heldHeartbeat := w.heldHeartbeat.map fun _ => 0 } else d
  | .grace => d.endGrace n
  | .watching | .suspect | .hung => (d.modWatch n WatchContext.zeroHeartbeat).setH n false
  | .lockedOut => d

/-- A heartbeat reaches the Hang Watch (R133). -/
def takeHeartbeat (d : Device) (n : Outlet) : Device :=
  match d.suspendedSince with
  | some since => (d.endSuspension since n).watchHeartbeat n
  | none => d.watchHeartbeat n

/-- A close's hand-off reaches an outlet's tracker (R135). -/
def takeTracker (d : Device) (h : TrackerHandoff) : Device :=
  let n := h.outlet
  if (d.watch[n]).state.tracking && h.scanned && !h.quality.noSamples && !h.quality.refDrift then
    (d.modWatch n fun w => w.track (d.signatureBand n) h.power h.length).evaluateS n
  else d

/-! ## The recent-cycle list -/

/-- An entry has reached the Cycle Window in age (R148). -/
def agedOut (d : Device) (entry : Nat) : Bool :=
  decide (d.charter.settings.cycleWindow * 60 ≤ d.charter.uptime - entry)

/-- The entries that have reached the Cycle Window leave an outlet's list (R148). -/
def ageList (d : Device) (n : Outlet) : Device :=
  d.modWatch n fun w => { w with recent := w.recent.dropWhile d.agedOut }

/-- Every list is aged, as at a Cycle Window write (R24, R148). The manual gives the Status groups this publishes no order:
they come in ascending outlet number (DESIGN CHOICE, log 30). -/
def ageLists (d : Device) : Device := outlets.foldl ageList d

/-! ## Events from the Outlet Controller, requests and writes -/

/-- An on event (R130). It finds the watch IDLE but when a Mode or Watch Policy write has come before it. -/
def takeOn (d : Device) (n : Outlet) : Device :=
  if d.watched n ∧ (d.watch[n]).state = .idle then d.enterGrace n else d

/-- An off event (R130). -/
def takeOff (d : Device) (n : Outlet) : Device := d.modWatch n WatchContext.idled

/-- A returned cycle whose watch still waits for it: the timer and tracker run again from the values they held, and
the predicate decides between HUNG, reported HELD, and WATCHING (R145). -/
def returnToWatch (d : Device) (n : Outlet) (entry : Nat) : Device :=
  let d := d.setWatch n fun w =>
    { w with heartbeat := w.heldHeartbeat, heldHeartbeat := none, outstanding := false }
  let h := d.heartbeatDue n
  let s := d.signatureDue n
  let settle : WatchContext → WatchContext := fun w =>
    let w := { w.withoutEntry entry with condH := h, condS := s }
    if w.predicate then { w with state := .hung } else { w with state := .watching, cause := none }
  let d := d.modWatch n settle
  if (d.watch[n]).state = .hung then d.reportVerdict n .held else d

/-- The answer to a verdict cycle (R145). -/
def takeAnswer (d : Device) (n : Outlet) (started : Bool) (entry : Nat) : Device :=
  let w := d.watch[n]
  if started then d.setWatch n fun w => { w with outstanding := false, heldHeartbeat := none, offSince := false }
  else if w.outstanding ∧ w.state = .idle ∧ w.offSince = false then d.returnToWatch n entry
  else d.modWatch n fun w =>
    { w.withoutEntry entry with outstanding := false, heldHeartbeat := none, offSince := false }

/-- One event of the Outlet Controller's reaches the Hang Watch (R145). -/
def takeWatchMessage (d : Device) : WatchMessage → Device
  | .on n => d.takeOn n
  | .off n => d.takeOff n
  | .answer n started entry => d.takeAnswer n started entry

/-- Every event on its way reaches the Hang Watch: a watch request is handed behind them, and the Hang Watch takes
the Outlet Controller's events in the order it hands them (R145; DEDUCED, log 18). -/
def takeWatchMessages (d : Device) : Device :=
  d.mail.toWatch.foldl takeWatchMessage { d with mail := { d.mail with toWatch := [] } }

/-- RESUME (R150). -/
def resumeWatch (d : Device) (n : Outlet) : Device :=
  d.modWatch n fun w =>
    let w := { w with recent := [] }
    if w.state = .lockedOut then w.watchingAfresh else w

/-- The taken Mode or Watch Policy has changed: the watch restarts, and each of its two changes publishes the Status group
(R151, R108; DEDUCED, log 43). -/
def restartWatch (d : Device) (n : Outlet) : Device :=
  let d := d.modWatch n fun w => { w.idled with outstanding := false, offSince := false }
  if d.watched n ∧ (d.outlet[n]).state = .on then d.enterGrace n else d

end Device

end Sys2Proof.Machine
end

