-- ==== Sys2Proof/Machine/OutletController.lean ====
section
/-! DEFINITION. The Outlet Controller (05, 06): state changes and their effects, relay operations, cycles, faults,
requests and their answers, the deferred slot, staged targets and Apply, the checks at each close. -/

namespace Sys2Proof.Machine
open Sys2Proof

/-- The states whose relay is at rest, with the sensed position expected in them (R103). -/
def OutletState.expected : OutletState → Option Sense
  | .off | .queued | .dwell => some .opened
  | .inrush | .on => some .closed
  | .unmanaged | .absent | .closing | .opening | .fault => none

namespace Device

/-- An outlet's state. -/
def outletState (d : Device) (n : Outlet) : OutletState := (d.outlet[n]).state

/-- The outlet's taken Mode is ALWAYS_ON. -/
def alwaysOn (d : Device) (n : Outlet) : Bool := decide ((d.outlet[n]).mode = .alwaysOn)

/-! ## State changes (R84) -/

/-- What leaving a state for another hands to other blocks. -/
def handLeaving (d : Device) (n : Outlet) (old new : OutletState) : Device :=
  match old with
  | .queued => if new = .closing then d else d.toAdmission (.removal n)
  | .closing => if new = .fault then d.toAdmission (.release n) else d
  | .inrush => d.toAdmission (.release n)
  | .on => d.toWatch (.off n)
  | .unmanaged | .absent | .off | .opening | .dwell | .fault => d

/-- What entering a state hands to other blocks. -/
def handEntering (d : Device) (n : Outlet) (new : OutletState) : Device :=
  match new with
  | .queued => d.toAdmission (.join n)
  | .on => d.toWatch (.on n)
  | .unmanaged | .absent | .off | .closing | .inrush | .opening | .dwell | .fault => d

/-- The outlet's own fields at a state change: State Since, timers stopped, check counts. -/
def enterState (uptime : Nat) (new : OutletState) (o : OutletContext) : OutletContext :=
  let fresh := decide (new = .off) || decide (new = .dwell)
  { o with
    state := new
    since := uptime
    inrush := if o.state = .inrush then none else o.inrush
    dwell := if o.state = .dwell then none else o.dwell
    leakCount := if fresh then 0 else o.leakCount
    leakSkip := if fresh then true else o.leakSkip
    mismatch := if new.expected.isSome then 0 else o.mismatch }

/-- A change of an outlet's state (R84). -/
def changeState (d : Device) (n : Outlet) (new : OutletState) : Device :=
  let old := d.outletState n
  ((d.modOutlet n (enterState d.charter.uptime new)).handLeaving n old new).handEntering n new

/-- Entry to OFF; an ALWAYS_ON outlet moves on to QUEUED at once (R99). -/
def enterOff (d : Device) (n : Outlet) : Device :=
  let d := d.changeState n .off
  if d.alwaysOn n then d.changeState n .queued else d

/-- A relay operation begins (R87). The caller has found the charter RUNNING and HOLD released. -/
def beginOperation (d : Device) (n : Outlet) (m : RelayMove) : Device :=
  let new : OutletState := match m with
    | .closing => .closing
    | .opening => .opening
  (d.changeState n new).setOutlet n fun o => { o with operation := some (m, Config.operateTime) }

/-! ## Cycles -/

/-- A cycle intent is cleared early, with its report (R98); `entered` is the state the outlet enters. -/
def cancelCycle (d : Device) (n : Outlet) (entered : OutletState) : Device :=
  match (d.outlet[n]).intent with
  | none => d
  | some i =>
    (d.report .cycleCancelled (.outlet n) i.cause.code entered.code).setOutlet n fun o => { o with intent := none }

/-- The dwell timer starts with the intent's dwell length (R96). -/
def startDwell (d : Device) (n : Outlet) : Device :=
  d.setOutlet n fun o => { o with dwell := o.intent.map fun i => i.dwell * 1000000 }

/-- A cycle is started with a dwell already clamped (R95): from OFF into DWELL, else into OPENING. -/
def startCycle (d : Device) (n : Outlet) (cause : Cause) (dwell : Nat) : Device :=
  let fromOff := decide (d.outletState n = .off)
  let d := d.cancelCycle n (if fromOff then .dwell else .opening)
  let d := d.modOutlet n fun o =>
    { o with
      lastCause := some cause
      intent := some ⟨cause, dwell, if fromOff then some d.charter.uptime else none, none⟩ }
  let d := d.report .cycleStart (.outlet n) cause.code (BitVec.ofNat 16 dwell)
  if fromOff then (d.changeState n .dwell).startDwell n else d.beginOperation n .opening

/-! ## Faults -/

/-- Entry to FAULT (R104). -/
def enterFault (d : Device) (n : Outlet) (kind : FaultKind) : Device :=
  let old := d.outletState n
  let d := (d.changeState n .fault).modOutlet n fun o => { o with fault := some kind }
  (d.report .relayFault (.outlet n) kind.code old.code).cancelCycle n .fault

/-! ## Answers (R110) -/

/-- The outlet's Echo is set and its Status group published. -/
def answer (d : Device) (n : Outlet) (tag : Byte) (result : EchoResult) : Device :=
  (d.setOutlet n fun o => { o with echoTag := tag, echoResult := result }).publishStatus n

/-- A switching request goes into the deferred slot (R118). -/
def defer (d : Device) (n : Outlet) (code : RequestCode) (tag : Byte) (argument : Nat) : Device :=
  (d.setOutlet n fun o => { o with deferred := some (.request code tag argument) }).answer n tag .deferred

/-- The requested dwell of a CYCLE (R117). -/
def requestedDwell (d : Device) (n : Outlet) (argument : Nat) : Nat :=
  if argument = 0 then d.defaultDwell n else argument

/-- TAKEN, or CLAMPED when the dwell differs from the one requested (R117). -/
def dwellResult (d : Device) (n : Outlet) (argument : Nat) : EchoResult :=
  if d.clampDwell (d.requestedDwell n argument) = d.requestedDwell n argument then .taken else .clamped

/-! ## Switching requests -/

/-- SWITCH_ON in each state (R112). -/
def switchOn (d : Device) (n : Outlet) (tag : Byte) (argument : Nat) : Device :=
  match d.outletState n with
  | .off | .dwell => (d.changeState n .queued).answer n tag .taken
  | .queued | .inrush | .on => d.answer n tag .noChange
  | .closing =>
    if (d.outlet[n]).deferred.isNone then d.answer n tag .noChange else d.defer n .switchOn tag argument
  | .opening => d.defer n .switchOn tag argument
  | .fault => d.answer n tag .refusedState
  | .unmanaged | .absent => d.answer n tag .refusedState

/-- SWITCH_OFF in each state (R113, R115, R116). -/
def switchOff (d : Device) (n : Outlet) (tag : Byte) (argument : Nat) : Device :=
  match d.outletState n with
  | .off => d.answer n tag .noChange
  | .queued =>
    if d.alwaysOn n then d.answer n tag .refusedMode
    else ((d.cancelCycle n .off).enterOff n).answer n tag .taken
  | .closing => if d.alwaysOn n then d.answer n tag .refusedMode else d.defer n .switchOff tag argument
  | .inrush | .on =>
    if d.alwaysOn n then d.answer n tag .refusedMode
    else if !d.mayOperate then d.answer n tag .refusedHold
    else ((d.cancelCycle n .opening).beginOperation n .opening).answer n tag .taken
  | .opening =>
    if (d.outlet[n]).intent.isNone ∧ (d.outlet[n]).deferred.isNone then d.answer n tag .noChange
    else d.defer n .switchOff tag argument
  | .dwell => ((d.cancelCycle n .off).enterOff n).answer n tag .taken
  | .fault => d.answer n tag .refusedState
  | .unmanaged | .absent => d.answer n tag .refusedState

/-- CYCLE in each state (R114 to R117). -/
def cycle (d : Device) (n : Outlet) (tag : Byte) (argument : Nat) : Device :=
  let dwell := d.clampDwell (d.requestedDwell n argument)
  let result := d.dwellResult n argument
  match d.outletState n with
  | .off => (d.startCycle n .request dwell).answer n tag result
  | .queued => if d.alwaysOn n then d.answer n tag .refusedMode else d.answer n tag .noChange
  | .closing => if d.alwaysOn n then d.answer n tag .refusedMode else d.defer n .cycle tag argument
  | .inrush | .on =>
    if d.alwaysOn n then d.answer n tag .refusedMode
    else if !d.mayOperate then d.answer n tag .refusedHold
    else (d.startCycle n .request dwell).answer n tag result
  | .opening => d.defer n .cycle tag argument
  | .dwell =>
    ((d.setOutlet n fun o => { o with intent := o.intent.map fun i : Intent => { i with dwell := dwell } }).startDwell n).answer
      n tag result
  | .fault => d.answer n tag .refusedState
  | .unmanaged | .absent => d.answer n tag .refusedState

/-! ## Other requests -/

/-- STAGE_ON, STAGE_OFF and UNSTAGE (R120, R115). -/
def stage (d : Device) (n : Outlet) (tag : Byte) (t : Option Target) : Device :=
  if t = some .off ∧ d.alwaysOn n then d.answer n tag .refusedMode
  else if (d.outlet[n]).staged = t then d.answer n tag .noChange
  else (d.setOutlet n fun o => { o with staged := t }).answer n tag .taken

/-- HOLD_WATCH and FREE_WATCH (R126, R149). A FREE_WATCH that finds the watch HUNG with HOLD released and the charter
RUNNING releases its verdict (R147), after the Echo, whether or not it changed Watch Held. -/
def holdWatch (d : Device) (n : Outlet) (tag : Byte) (held : Bool) : Device :=
  let d := d.takeWatchMessages
  let result : EchoResult := if (d.watch[n]).held = held then .noChange else .taken
  let d := (d.modWatch n fun w => { w with held := held }).answer n tag result
  if !held ∧ d.mayOperate ∧ (d.watch[n]).state = .hung then d.decideVerdict n else d

/-- RESUME (R127, R150). -/
def resume (d : Device) (n : Outlet) (tag : Byte) : Device :=
  let d := d.takeWatchMessages
  let w := d.watch[n]
  (d.resumeWatch n).answer n tag
    (if w.state = .lockedOut ∨ w.recent ≠ [] then .taken else .noChange)

/-- CLEAR_FAULT (R105, R128): it reads the outlet's contact-sense line. -/
def clearFault (d : Device) (n : Outlet) (tag : Byte) : Device :=
  if d.outletState n = .fault then
    let sense := d.pins.senseLines[n]
    let d := d.modOutlet n fun o => { o with sensed := sense, fault := none }
    let d := match sense with
      | .closed => d.changeState n .on
      | .opened => d.enterOff n
    d.answer n tag .taken
  else d.answer n tag .noChange

/-- PERIOD_CLEAR (R129). -/
def periodClear (d : Device) (n : Outlet) (tag : Byte) : Device :=
  ({ d with mail := { d.mail with periodClears := d.mail.periodClears ++ [n] } }).answer n tag .taken

/-- The handling of a code in the outlet's state. -/
def handleCode (d : Device) (n : Outlet) (code : RequestCode) (tag : Byte) (argument : Nat) : Device :=
  match code with
  | .switchOn => d.switchOn n tag argument
  | .switchOff => d.switchOff n tag argument
  | .cycle => d.cycle n tag argument
  | .stageOn => d.stage n tag (some .on)
  | .stageOff => d.stage n tag (some .off)
  | .unstage => d.stage n tag none
  | .holdWatch => d.holdWatch n tag true
  | .freeWatch => d.holdWatch n tag false
  | .resume => d.resume n tag
  | .clearFault => d.clearFault n tag
  | .periodClear => d.periodClear n tag

/-- A request reaches the Outlet Controller: the first check of R109 that applies gives the answer. -/
def takeRequest (d : Device) (n : Outlet) (tag code : Byte) (argument : Nat) : Device :=
  match requestCode code with
  | none => d.answer n tag .refusedUnknown
  | some c =>
    if d.outletState n = .absent then d.answer n tag .refusedAbsent
    else if d.charter.state = .halted then d.answer n tag .refusedHalted
    else d.handleCode n c tag argument

/-! ## Staged targets and Apply -/

/-- What a target does in the outlet's state and Mode (R122), the rows of CLOSING and OPENING apart. -/
def actOnTarget (d : Device) (n : Outlet) (t : Target) : Device :=
  match t, d.outletState n with
  | .on, .off => d.changeState n .queued
  | .on, .dwell => d.changeState n .queued
  | .off, .queued => if d.alwaysOn n then d else (d.cancelCycle n .off).enterOff n
  | .off, .inrush => if d.alwaysOn n then d else (d.cancelCycle n .opening).beginOperation n .opening
  | .off, .on => if d.alwaysOn n then d else (d.cancelCycle n .opening).beginOperation n .opening
  | _, _ => d

/-- The Apply counts the outlet (R122). -/
def applyCounts (d : Device) (n : Outlet) (t : Target) : Bool :=
  match t, d.outletState n with
  | .on, .off | .on, .dwell | .on, .closing | .on, .opening => true
  | .off, .queued | .off, .inrush | .off, .on | .off, .closing | .off, .opening => !d.alwaysOn n
  | _, _ => false

/-- A staged target goes into the deferred slot; a request there is answered SUPERSEDED (R123). -/
def deferTarget (d : Device) (n : Outlet) (t : Target) : Device :=
  let old := (d.outlet[n]).deferred
  let d := d.setOutlet n fun o => { o with deferred := some (.target t) }
  match old with
  | some (.request _ tag _) => d.answer n tag .superseded
  | some (.target _) => d
  | none => d

/-- One outlet's visit by a taken Apply; the number counted so far goes with it (R122). -/
def visit (acc : Device × Nat) (n : Outlet) : Device × Nat :=
  let d := acc.1
  match (d.outlet[n]).staged with
  | none => acc
  | some t =>
    if d.outletState n = .fault then acc
    else
      let counted := if d.applyCounts n t then acc.2 + 1 else acc.2
      let d' := d.modOutlet n fun o => { o with staged := none }
      if t = .off ∧ d.alwaysOn n then (d', counted)
      else if d.outletState n = .closing ∨ d.outletState n = .opening then (d'.deferTarget n t, counted)
      else (d'.actOnTarget n t, counted)

/-- An Apply reaches the Outlet Controller (R121, R125). -/
def takeApply (d : Device) (tag : Word) : Device :=
  if d.mayOperate then
    let r := outlets.foldl visit (d, 0)
    r.1.changeCharter fun d => { d with applyEcho := (tag, r.2) }
  else d

/-- A staged target in the deferred slot meets the state after a completion (R124). One that is taken leaves a Staged Target
that firmware has staged since the Apply as it stands; R124 says so only of one that is returned (DESIGN CHOICE, log 39). -/
def takeTarget (d : Device) (n : Outlet) (t : Target) : Device :=
  if d.mayOperate ∧ d.outletState n ≠ .fault then d.actOnTarget n t
  else d.modOutlet n fun o => { o with staged := if o.staged.isNone then some t else o.staged }

/-- The content of the deferred slot is taken after a completion (R91, R119). -/
def takeDeferred (d : Device) (n : Outlet) : Device :=
  match (d.outlet[n]).deferred with
  | none => d
  | some c =>
    let d := d.setOutlet n fun o => { o with deferred := none }
    match c with
    | .target t => d.takeTarget n t
    | .request code tag argument =>
      if d.charter.state = .halted then d.answer n tag .refusedHalted else d.handleCode n code tag argument

/-! ## Completions and expiries -/

/-- One contact-sense line as it is read now. -/
def setSense (d : Device) (n : Outlet) (s : Sense) : Device :=
  { d with pins := { d.pins with senseLines := setAt d.pins.senseLines n s } }

/-- A CLOSING operation completes (R89, R91, R92). -/
def completeClosing (d : Device) (n : Outlet) (sense : Sense) : Device :=
  let d := (d.setSense n sense).modOutlet n fun o => { o with operation := none, sensed := sense }
  let d := match sense with
    | .closed =>
      (d.changeState n .inrush).setOutlet n fun o =>
        { o with
          inrush := some (d.charter.settings.inrushWindow * 1000)
          intent := o.intent.map fun i : Intent => { i with reclosedAt := some d.charter.uptime } }
    | .opened => d.enterFault n .failedClose
  d.takeDeferred n

/-- An OPENING operation completes (R90, R91, R96). -/
def completeOpening (d : Device) (n : Outlet) (sense : Sense) : Device :=
  let d := (d.setSense n sense).modOutlet n fun o => { o with operation := none, sensed := sense }
  let d := match sense with
    | .closed => d.enterFault n .welded
    | .opened =>
      if (d.outlet[n]).intent.isSome then
        ((d.changeState n .dwell).setOutlet n fun o =>
          { o with intent := o.intent.map fun i : Intent => { i with openSince := some d.charter.uptime } }).startDwell n
      else d.enterOff n
  d.takeDeferred n

/-- The off time of a completed cycle, saturating (R93). -/
def offTime (i : Intent) : Word := satWord (i.reclosedAt.getD 0 - i.openSince.getD 0)

/-- The inrush window runs out (R93). -/
def endInrush (d : Device) (n : Outlet) : Device :=
  let d := match (d.outlet[n]).intent with
    | none => d
    | some i =>
      (d.report .cycleDone (.outlet n) i.cause.code (offTime i)).setOutlet n fun o => { o with intent := none }
  d.changeState n .on

/-- An admission reaches the Outlet Controller (R87). -/
def takeAdmission (d : Device) (n : Outlet) : Device :=
  if d.outletState n = .queued ∧ d.mayOperate then d.beginOperation n .closing
  else d.toAdmission (.handBack n)

/-- A verdict cycle reaches the Outlet Controller: started from ON, or returned (R145). -/
def takeVerdictCycle (d : Device) (v : VerdictCycle) : Device :=
  if d.outletState v.outlet = .on ∧ d.mayOperate then
    (d.startCycle v.outlet .verdict v.dwell).toWatch (.answer v.outlet true v.entry)
  else d.toWatch (.answer v.outlet false v.entry)

/-- The Outlet Controller takes an outlet's Mode (R100). -/
def takeMode (d : Device) (n : Outlet) : Device := d.setOutlet n fun o => { o with mode := d.takenMode n }

/-- A Mode write makes an outlet in OFF ALWAYS_ON: it moves to QUEUED (R100). -/
def queueIfAlwaysOn (d : Device) (n : Outlet) : Device :=
  if d.outletState n = .off ∧ d.alwaysOn n then d.changeState n .queued else d

/-! ## The checks at each close -/

/-- The leak count after an examined close (R102). A close that is NO_SAMPLES and sensed CLOSED meets two rows of the
table, which the manual does not order: NO_SAMPLES is taken, and the count stands (DESIGN CHOICE, log 33). -/
def leakCountAfter (item : SenseItem) (sense : Sense) (count : Nat) : Nat :=
  if !item.scanned then 0
  else if item.quality.noSamples then count
  else match sense with
    | .closed => 0
    | .opened => if Config.leakCurrent ≤ item.current then count + 1 else 0

/-- The leak check (R102). -/
def leakCheck (d : Device) (n : Outlet) (item : SenseItem) : Device :=
  let o := d.outlet[n]
  if o.state = .off ∨ o.state = .dwell then
    if o.leakSkip then d.setOutlet n fun o => { o with leakSkip := false }
    else
      let count := leakCountAfter item o.sensed o.leakCount
      let d := d.setOutlet n fun o => { o with leakCount := count }
      if 2 ≤ count then d.enterFault n .currentWhileOff else d
  else d

/-- The settled-sense check (R103). -/
def settledCheck (d : Device) (n : Outlet) : Device :=
  let o := d.outlet[n]
  match o.state.expected with
  | none => d
  | some s =>
    let count := if o.sensed = s then 0 else o.mismatch + 1
    let d := d.setOutlet n fun o => { o with mismatch := count }
    if 2 ≤ count then d.enterFault n .contactMoved else d

/-- One outlet's checks at a close, with the sense read for it (R101). An outlet that has changed its state or has been read
anew since that reading is not checked: the close has come first (R89; DESIGN CHOICE, log 37). -/
def checkOutlet (h : SenseHandoff) (d : Device) (n : Outlet) : Device :=
  if d.present n ∧ d.outletState n = h.states[n] ∧ (d.outlet[n]).sensed = h.lines[n] then
    (d.leakCheck n h.items[n]).settledCheck n
  else d

/-- What the Close Engine hands on of a close reaches the Outlet Controller, which makes the checks with the sense it has
read for that close (R79, R101). The manual gives the outlets no order, and their Status groups, reports and hand-offs
none: they come in ascending outlet number (DESIGN CHOICE, log 35). -/
def checkClose (d : Device) (h : SenseHandoff) : Device :=
  if d.inService then outlets.foldl (checkOutlet h) d else d

end Device

end Sys2Proof.Machine
end

