-- ==== Sys2Proof/Machine/Reports.lean ====
section
/-! DEFINITION. The Report Writer (09): writing a report (R175 to R177), Tail (R178), the ring cleared by a RUN
that begins the sweep (R26). -/

namespace Sys2Proof.Machine
open Sys2Proof

namespace Device

/-- The eight words of a report's slot (R176). -/
def slotWords (d : Device) (r : Report) : List Word :=
  [r.kind.code, r.subject.kindCode, r.subject.number] ++ wordsOf 2 d.charter.uptime ++ [r.detailA, r.detailB, 0]

/-- The ring is full (R175). -/
def ringFull (d : Device) : Bool := decide (d.reports.head + 1 = d.reports.tail)

/-- A report is lost (R177). -/
def loseReport (d : Device) : Device :=
  { d with reports := { d.reports with lost := min (d.reports.lost + 1) 65535 } }

/-- The Report Writer takes one report (R175): lost when the ring or the queue is full, else written at Head. -/
def takeReport (d : Device) (r : Report) : Device :=
  if d.ringFull ∨ Config.maxReportEntries ≤ d.reportsWaiting then d.loseReport
  else
    ({ d with reports := { d.reports with head := d.reports.head + 1 } }).enqueueReport d.reports.head
      (d.slotWords r) (d.reports.head + 1)

/-- The oldest report handed over reaches the Report Writer. -/
def writeReport (d : Device) : Device :=
  match d.mail.reports with
  | [] => d
  | r :: rs => ({ d with mail := { d.mail with reports := rs } }).takeReport r

/-- Every report handed over so far reaches the Report Writer, oldest first. -/
def writeReports (d : Device) : Device :=
  d.mail.reports.foldl takeReport { d with mail := { d.mail with reports := [] } }

/-- A RUN that begins the sweep sets Head, Tail and Lost Count to 0; reports handed before it have reached the
Report Writer before (R26, R181). -/
def clearRing (d : Device) : Device := { d.writeReports with reports := ⟨0, 0, 0⟩ }

/-- The Report Writer takes a Tail value, modulo 64 (R178). -/
def takeTail (d : Device) (v : Word) : Device :=
  { d with reports := { d.reports with tail := v.setWidth 6 } }

end Device

end Sys2Proof.Machine
end

