-- ==== Sys2Proof/Machine/Charter.lean ====
section
/-! DEFINITION. The Charter Unit (02): RUN and HALT (R25, R26, R34, R35), the sweep (R27), the pending-after-sweep set
(R28), sweep end (R29 to R33), Uptime (R37). -/

namespace Sys2Proof.Machine
open Sys2Proof

/-- The Heartbeat word of an outlet's record. -/
def heartbeatWord : Nat := 14

/-- The Request word of an outlet's record. -/
def requestWord : Nat := 16

/-- The offset of the charter's Apply Tag. -/
def applyTagOffset : Nat := 0x10

namespace Device

/-- A change of the charter's own state. -/
def setCharter (d : Device) (f : Charter → Charter) : Device := { d with charter := f d.charter }

/-- A CHARTER_STATE report (R181). -/
def reportCharter (d : Device) : Device :=
  d.report .charterState .strip d.charter.state.code d.charter.reject.code

/-- The contact-sense lines as they are read now. -/
def setLines (d : Device) (lines : SenseLines) : Device := { d with pins := { d.pins with senseLines := lines } }

/-! ## Commands -/

/-- A RUN that finds the wrong Layout Revision (R26). -/
def rejectRun (d : Device) : Device :=
  let d := d.setCharter fun c => { c with state := .rejected, reject := .layout }
  (d.publish .charter d.charterWords).reportCharter

/-- A RUN that finds the right Layout Revision: the ring starts again and the sweep begins (R26). -/
def beginSweep (d : Device) : Device :=
  let d := d.clearRing.setCharter fun c =>
    { c with state := .sweeping, reject := .none, sweepPosition := some 0, afterSweep := .empty }
  let d : Device := { d with path := { d.path with lockWritten := [] } }
  d.reportCharter.publishCharter

/-- The layout check (R26). -/
def layoutCheck (d : Device) : Device :=
  if d.shadow 0 = Config.layoutRevision then d.beginSweep else d.rejectRun

/-- A RUN taken while HALTED (R35). The heads are evaluated before the held verdicts are decided (DESIGN CHOICE, log 36), and
the Charter Unit's CHARTER_STATE report stands before the Hang Watch's VERDICT reports, which R175 lets come in either order
(DESIGN CHOICE, log 38). -/
def leaveHalt (d : Device) : Device :=
  let d := (d.setCharter fun c => { c with state := .running }).takeSettings
  d.publishCharter.reportCharter.evaluateHeads.releaseVerdicts

/-- RUN in each charter state (R25). -/
def takeRun (d : Device) : Device :=
  match d.charter.state with
  | .unchartered | .rejected => d.layoutCheck
  | .sweeping | .running => d
  | .halted => d.leaveHalt

/-- HALT in each charter state (R25, R34). -/
def takeHalt (d : Device) : Device :=
  match d.charter.state with
  | .running => (d.setCharter fun c => { c with state := .halted }).publishCharter.reportCharter
  | .unchartered | .rejected | .sweeping | .halted => d

/-- A value written to the Command word (R13). -/
def takeCommand (d : Device) (v : Word) : Device :=
  if v = 1 then d.takeRun else if v = 2 then d.takeHalt else d

/-! ## Sweep end -/

/-- The tag baselines and settings (R29). -/
def takeBaselines (d : Device) : Device :=
  let d : Device := { d with path := { d.path with
    lastTag := Vector.ofFn fun n : Outlet => highByte (d.shadow (outletWord n requestWord)) } }
  (d.setCharter fun c => { c with applyBaseline := d.shadow applyTagOffset }).takeSettings

/-- The seeds that hold a digit above 9: the offset of the first word and the record (R30). -/
def invalidSeeds (d : Device) : List (Nat × Subject) :=
  ((levels.filter fun l => (d.levelSeed l).isNone).map fun l => (levelBase l + 2, Subject.level l))
    ++ (outlets.filter fun n => (d.outletSeed n).isNone).map fun n => (outletWord n 17, Subject.outlet n)

/-- One SEED_INVALID report (R30). -/
def reportSeed (d : Device) (x : Nat × Subject) : Device := d.report .seedInvalid x.2 (BitVec.ofNat 16 x.1) 0

/-- The energy counters seeded, every Sequence 0 (R30, R77). -/
def seedCounters (d : Device) : Device :=
  let d := d.inFreeOrder (fun x : Nat × Subject => x.1) reportSeed d.invalidSeeds
  { d with engine := { d.engine with
      outlets := Vector.ofFn fun n : Outlet =>
        { d.engine.outlets[n] with
          residual := 0
          lifetime := (d.outletSeed n).getD (zeros 10)
          period := zeros 6
          rollover := 0
          sequence := 0 }
      levels := PerLevel.ofFn fun l =>
        { d.engine.levels.get l with
          lifetime := (d.levelSeed l).getD (zeros 12)
          rollover := 0
          sequence := 0 } } }

/-- An outlet's context at sweep end (R31). -/
def startingOutlet (d : Device) (n : Outlet) : OutletContext :=
  let sense := if d.present n then d.pins.senseLines[n] else Sense.opened
  { OutletContext.afterReset with
    state :=
      if !d.present n then .absent
      else match sense with
        | .closed => .on
        | .opened => if d.takenMode n = .alwaysOn then .queued else .off
    sensed := sense
    since := d.charter.uptime
    mode := d.takenMode n }

/-- An outlet's watch context at sweep end (R31, R132): GRACE, through which a Boot Grace of 0 passes at once. -/
def startingWatch (d : Device) (n : Outlet) : WatchContext :=
  let w := { WatchContext.afterReset with policy := d.takenPolicy n }
  if (d.startingOutlet n).state = .on ∧ d.takenMode n = .managed ∧ d.takenPolicy n ≠ .none then
    if d.bootGrace n = 0 then w.watchingAfresh
    else { w with state := .grace, grace := some (d.bootGrace n * 1000000) }
  else w

/-- Every outlet, watch and admission item set whole; the ALWAYS_ON outlets found open are queued in ascending
number (R31, R170). -/
def setOutlets (d : Device) : Device :=
  let d : Device :=
    { d with
      outlet := Vector.ofFn d.startingOutlet
      watch := Vector.ofFn d.startingWatch
      suspendedSince := none
      admission := { Admission.afterReset with loads := d.levelLoads } }
  (outlets.filter fun n => decide (d.outletState n = .queued)).foldl placeJoin d

/-- The 107 publication groups in ascending window offset (R32). -/
def allGroups : List Group :=
  .charter :: (levels.map .level ++ outlets.flatMap fun n => [.status n, .meter n])

/-- Every group is published, the charter goes to RUNNING and every head is evaluated (R32). -/
def enterService (d : Device) : Device :=
  let d := d.setCharter fun c => { c with state := .running, sweepPosition := none }
  let d := allGroups.foldl (fun d g => d.publish g (d.groupWords g)) d
  d.reportCharter.evaluateHeads

/-- One outlet's pending heartbeat and request released (R33). -/
def releaseOutlet (p : PendingSet) (d : Device) (n : Outlet) : Device :=
  let d := if p.heartbeats[n] then d.takeHeartbeat n else d
  match p.requests[n] with
  | none => d
  | some (tag, code) =>
    let d : Device := { d with path := { d.path with lastTag := setAt d.path.lastTag n tag } }
    d.takeRequest n tag code (d.requestArgument n)

/-- The pending-after-sweep set released: outlets in ascending number, then Tail, then Apply (R33). The Report Writer so
takes the Tail value before the reports that sweep end hands it, which wait for their writing; R178 lets either come first
(DESIGN CHOICE, log 34). -/
def releasePending (d : Device) : Device :=
  let p := d.charter.afterSweep
  let d := outlets.foldl (releaseOutlet p) (d.setCharter fun c => { c with afterSweep := .empty })
  let d := match p.tail with
    | some v => d.takeTail v
    | none => d
  match p.apply with
  | some tag => d.takeApply tag
  | none => d

/-- Sweep end (R29 to R33). -/
def endSweep (d : Device) (lines : SenseLines) : Device :=
  (d.setLines lines).takeBaselines.seedCounters.setOutlets.enterService.releasePending

/-! ## The sweep -/

/-- One sweep read (R27): the word is copied, and the read of the Tail word ends the sweep. -/
def sweepWord (d : Device) (off : Nat) (lines : SenseLines) : Device :=
  let d := d.writeShadow off (d.ram.readWord (d.windowAddress off))
  match nextSwept off with
  | some next => d.setCharter fun c => { c with sweepPosition := some next }
  | none => d.endSweep lines

/-! ## The pending-after-sweep set (R28) -/

/-- A change of the pending set. -/
def keepPending (d : Device) (f : PendingSet → PendingSet) : Device :=
  d.setCharter fun c => { c with afterSweep := f c.afterSweep }

/-! ## Uptime -/

/-- A whole second of the part's clock passes (R37). -/
def nextSecond (d : Device) : Device :=
  let d := d.advance (1000000 - d.charter.subsecond)
  d.changeCharter fun d => d.setCharter fun c =>
    { c with subsecond := c.subsecond - 1000000, uptime := min (c.uptime + 1) Config.uptimeMax }

end Device

end Sys2Proof.Machine
end

