-- ==== Sys2Proof/Machine/ThroughPath.lean ====
section
/-! DEFINITION. The Through-Path (01): accesses at the arbiter (R18, R186), writes classified, merged, protected and
recognised (R1 to R13), reads (R14, R19 to R21). -/

namespace Sys2Proof.Machine
open Sys2Proof

/-- The code byte of a Request word. -/
def requestCodeByte (v : Word) : Byte := lowByte v

/-- The tag byte of a Request word. -/
def requestTag (v : Word) : Byte := highByte v

namespace Device

/-! ## Recognised writes -/

/-- An outlet's last taken tag. -/
def setLastTag (d : Device) (n : Outlet) (tag : Byte) : Device :=
  { d with path := { d.path with lastTag := setAt d.path.lastTag n tag } }

/-- A tag that marks a request as new (R11). -/
def newTag (d : Device) (n : Outlet) (tag : Byte) : Bool := decide (tag ≠ 0) && decide (tag ≠ d.path.lastTag[n])

/-- A recognised request in RUNNING or HALTED (R11). -/
def recogniseRequest (d : Device) (n : Outlet) (v : Word) : Device :=
  if d.newTag n (requestTag v) then
    (d.setLastTag n (requestTag v)).takeRequest n (requestTag v) (requestCodeByte v) (d.requestArgument n)
  else d

/-- A recognised Apply in RUNNING or HALTED: the baseline moves, and the Outlet Controller takes it or not (R12). -/
def recogniseApply (d : Device) (v : Word) : Device :=
  if v = d.charter.applyBaseline then d
  else (d.setCharter fun c => { c with applyBaseline := v }).takeApply v

/-- A Mode write in RUNNING or HALTED: the Outlet Controller takes it (R100), and a changed Mode restarts the watch
(R151). -/
def takeModeWrite (d : Device) (n : Outlet) : Device :=
  let old := (d.outlet[n]).mode
  let d := (d.takeMode n).queueIfAlwaysOn n
  if (d.outlet[n]).mode = old then d else d.restartWatch n

/-- A Watch Policy write in RUNNING or HALTED (R131, R151). -/
def takePolicyWrite (d : Device) (n : Outlet) : Device :=
  let old := (d.watch[n]).policy
  let d := d.setWatch n fun w => { w with policy := d.takenPolicy n }
  if (d.watch[n]).policy = old then d else d.restartWatch n

/-- A charter word taken in RUNNING or HALTED (R24): the setting, and what a new value reaches at once. -/
def takeCharterWord (d : Device) (w : Nat) (v : Word) : Device :=
  if w = 1 then d.takeCommand v
  else if w = applyTagOffset then d.recogniseApply v
  else
    let d := d.takeSettingWord w
    if w = 0x0A then d.ageLists
    else if w = 0x0C then d.compareQuorum
    else if w = 0x0D then d.examineTenures
    else d

/-- An outlet word taken in RUNNING or HALTED; `old` is the shadow value it replaces. -/
def takeOutletWord (d : Device) (n : Outlet) (w : Nat) (old v : Word) : Device :=
  if w = 0 then d.takeModeWrite n
  else if w = 1 then d.takePolicyWrite n
  else if w = 6 then d.evaluateH n
  else if w = 9 ∨ w = 10 ∨ w = 11 then d.evaluateS n
  else if w = heartbeatWord then (if v = old then d else d.takeHeartbeat n)
  else if w = requestWord then d.recogniseRequest n v
  else d

/-- What an accepted write means while the charter is RUNNING or HALTED (R9 to R13, R24). -/
def recogniseInService (d : Device) (p : Place) (old v : Word) : Device :=
  match p with
  | .charter w => d.takeCharterWord w v
  | .level _ w => if w = 0 then d.evaluateHeads else d
  | .outlet n w => d.takeOutletWord n w old v
  | .tail => d.takeTail v
  | .head | .lostCount | .slot _ _ | .unclassified => d

/-- What an accepted write means while the charter is SWEEPING: kept pending, but for a command (R9, R28). -/
def recogniseSweeping (d : Device) (p : Place) (v : Word) : Device :=
  match p with
  | .charter w =>
    if w = 1 then d.takeCommand v
    else if w = applyTagOffset then d.keepPending fun p => { p with apply := some v }
    else d
  | .outlet n w =>
    if w = heartbeatWord then d.keepPending fun p => { p with heartbeats := setAt p.heartbeats n true }
    else if w = requestWord ∧ requestTag v ≠ 0 then
      d.keepPending fun p => { p with requests := setAt p.requests n (some (requestTag v, requestCodeByte v)) }
    else d
  | .tail => d.keepPending fun p => { p with tail := some v }
  | .level _ _ | .head | .lostCount | .slot _ _ | .unclassified => d

/-- What an accepted write means in the charter state it finds (R9). -/
def recognise (d : Device) (p : Place) (old v : Word) : Device :=
  match d.charter.state with
  | .unchartered | .rejected => if p = .charter 1 then d.takeCommand v else d
  | .sweeping => d.recogniseSweeping p v
  | .running | .halted => d.recogniseInService p old v

/-! ## Writes -/

/-- The value a write that is merged through RAM leaves (R3). -/
def ramMerged (d : Device) (a : WriteAccess) : Word := mergeWord (d.ram.readWord a.addr.toNat) a.enables a.data

/-- The value of a write to a processor-owned word while enforcement is on (R5). -/
def ownedMerged (d : Device) (off : Nat) (a : WriteAccess) : Word :=
  if d.swept off then mergeWord (d.shadow off) a.enables a.data else d.ramMerged a

/-- A plain-memory write (R3). -/
def plainWrite (d : Device) (a : WriteAccess) : Device := d.writeRam a.addr.toNat (d.ramMerged a)

/-- A lock word written during the sweep counts from then on (R6). -/
def noteLock (d : Device) (p : Place) (off : Nat) : Device :=
  if d.charter.state = .sweeping ∧ isLockWord p then
    { d with path := { d.path with lockWritten := off :: d.path.lockWritten } }
  else d

/-- The value of an accepted write stored: in RAM and in the Shadow File (R4). -/
def storeOwned (d : Device) (p : Place) (off : Nat) (a : WriteAccess) (v : Word) : Device :=
  ((d.writeRam a.addr.toNat v).writeShadow off v).noteLock p off

/-- An accepted write to a processor-owned word while enforcement is on (R4, R5, R9). -/
def acceptWrite (d : Device) (p : Place) (off : Nat) (a : WriteAccess) : Device :=
  (d.storeOwned p off a (d.ownedMerged off a)).recognise p (d.shadow off) (d.ownedMerged off a)

/-- A PROTECT report (R7, R8). -/
def reportProtect (d : Device) (p : Place) (off : Nat) (reason : ProtectReason) : Device :=
  d.report .protect p.subject (BitVec.ofNat 16 off) reason.code

/-- The refusal that a dropped Request write with a new tag makes in RUNNING or HALTED (R7, R111). -/
def refuseLocked (d : Device) (p : Place) (v : Word) : Device :=
  match p with
  | .outlet n w =>
    if w = requestWord ∧ d.inService ∧ d.newTag n (requestTag v) then
      (d.setLastTag n (requestTag v)).answer n (requestTag v) .refusedLocked
    else d
  | _ => d

/-- An ordinary write to a protected word is dropped (R7). -/
def dropLocked (d : Device) (p : Place) (off : Nat) (a : WriteAccess) : Device :=
  (d.reportProtect p off .locked).refuseLocked p (d.ownedMerged off a)

/-- A write while enforcement is off (R2, R3): RAM, the Shadow File when the word is processor-owned by layout, and
the command. -/
def unenforcedWrite (d : Device) (p : Place) (off : Nat) (a : WriteAccess) : Device :=
  let v := d.ramMerged a
  let stored := d.plainWrite a
  if p.kind = .processorOwned then (stored.writeShadow off v).recognise p (d.shadow off) v else stored

/-- A write to a window word while enforcement is on (R7, R8). -/
def enforcedWrite (d : Device) (p : Place) (off : Nat) (a : WriteAccess) : Device :=
  match p.kind with
  | .unclassified => d.plainWrite a
  | .partOwned => d.reportProtect p off .owned
  | .processorOwned => if d.protectedAt p ∧ a.privileged = false then d.dropLocked p off a else d.acceptWrite p off a

/-- A processor write that has started (R1, R2). -/
def performWrite (d : Device) (a : WriteAccess) : Device :=
  match windowOffset d.pins.windowBase a.addr with
  | none => d.plainWrite a
  | some off =>
    if d.enforcing then d.enforcedWrite (place off) off a else d.unenforcedWrite (place off) off a

/-! ## Reads -/

/-- A collect-clear handed to the Close Engine as the bracket on an outlet Meter group closes (R21). -/
def handCollectClear (d : Device) (n : Outlet) (held : Option (List Word)) : Device :=
  let d := (d.setBracket none).setHeldBack n held
  { d with mail := { d.mail with
      collectClears := d.mail.collectClears ++ [⟨n, d.pub.lastPeriod[n], held.isSome⟩] } }

/-- A read of a meter group's last word (R20, R21). -/
def readLastWord (d : Device) (g : Group) : Device :=
  match d.pub.bracket with
  | none => d
  | some b =>
    if b.group = g then
      match g with
      | .meter n =>
        if d.inService ∧ d.charter.settings.collectClear then d.handCollectClear n b.held else d.closeBracket
      | .charter | .level _ | .status _ => d.closeBracket
    else d

/-- What a read of a window word does to the bracket (R19, R20). -/
def bracketRead (d : Device) (p : Place) : Device :=
  match sequenceGroup p with
  | some g => d.openBracket g
  | none =>
    match lastWordGroup p with
    | some g => d.readLastWord g
    | none => d

/-- A processor read that has started (R14, R19, R20). -/
def performRead (d : Device) (a : ReadAccess) : Device :=
  let d := { d with path := { d.path with readData := d.readValue a.addr } }
  match windowOffset d.pins.windowBase a.addr with
  | none => d
  | some off => if d.enforcing then d.bracketRead (place off) else d

/-! ## The arbiter -/

/-- A processor access that has started. -/
def performAccess (d : Device) : Access → Device
  | .write a => d.performWrite a
  | .read a => d.performRead a

/-- The read meets a Meter group whose update is held back for a collect-clear (R21, R186). -/
def heldForCollect (d : Device) (a : ReadAccess) : Bool :=
  match windowOffset d.pins.windowBase a.addr with
  | none => false
  | some off =>
    match meterOutlet (place off) with
    | none => false
    | some n => (d.pub.heldBack[n]).isSome

/-- The access may start: the queue is below the threshold, and the read meets no held-back update (R18, R186). A read that a
held-back update has held counts as not started till then, so the threshold still holds it (DESIGN CHOICE, log 40). -/
def canStart (d : Device) (acc : Access) : Bool :=
  decide (d.pub.queue.length < Config.queueThreshold) &&
    match acc with
    | .write _ => true
    | .read a => !d.heldForCollect a

/-- An access WAIT holds could start now. -/
def heldCanStart (d : Device) : Bool := d.path.held.any d.canStart

/-- The access WAIT holds. -/
def setHeld (d : Device) (acc : Option Access) : Device := { d with path := { d.path with held := acc } }

/-- The processor presents an access: it starts, or WAIT holds it (R18). While WAIT holds one the bus is taken. -/
def presentAccess (d : Device) (acc : Access) : Device :=
  if d.path.held.isSome then d
  else if d.canStart acc then d.performAccess acc
  else d.setHeld (some acc)

/-- The access WAIT holds starts when it may (R18, R21, R186; log 40). -/
def resumeAccess (d : Device) (lines : SenseLines) : Device :=
  let d := d.setLines lines
  match d.path.held with
  | none => d
  | some acc => if d.canStart acc then (d.setHeld none).performAccess acc else d

/-- One drain write at the arbiter: after the processor, before the sweep (R18). -/
def drainWrite (d : Device) : Device := if d.heldCanStart then d else d.drain

/-- One sweep read at the arbiter: only when neither an access nor a drain write waits (R18, R27). -/
def sweepRead (d : Device) (lines : SenseLines) : Device :=
  match d.charter.sweepPosition with
  | none => d
  | some off =>
    if d.charter.state = .sweeping ∧ d.pub.queue = [] ∧ d.heldCanStart = false then d.sweepWord off lines else d

/-! ## RESET -/

/-- RAM after RESET: a write under way may have reached it or not (R185; free value, log 10). -/
def ramAfterReset (d : Device) : Memory :=
  match d.path.held with
  | some (.write a) => if Config.resetWriteLands d.freeCount then (d.performWrite a).ram else d.ram
  | some (.read _) => d.ram
  | none => d.ram

/-- RESET with the straps it samples (R22). -/
def reset (d : Device) (wb : BitVec 4) (bpres : Bool) : Device :=
  .afterReset { windowBase := wb, bankB := bpres, hold := d.pins.hold, senseLines := d.pins.senseLines }
    d.ramAfterReset (d.freeCount + 1)

end Device

end Sys2Proof.Machine
end

