-- ==== Sys2Proof/Machine/Board.lean ====
section
/-! DEFINITION. How a command acts on the block, and the commands of the board: RESET (R22, R185) and the HOLD
line (R106). -/

namespace Sys2Proof.Machine
open Sys2Proof

/-- A command's next state: the block changed, the queue of waiting commands as it is. -/
def State.onDevice (s : State) (f : Device → Device) : Host.Outcome State Fault Refusal :=
  .next { s with dev := f s.dev }

/-- RESET (R22): every block takes its reset values; HOLD, contact sense and RAM stand as they are. -/
def execReset (wb : BitVec 4) (bpres : Bool) (s : State) : Host.Outcome State Fault Refusal :=
  s.onDevice fun d => d.reset wb bpres

/-- The HOLD line's level. -/
def Device.setHold (d : Device) (v : Bool) : Device := { d with pins := { d.pins with hold := v } }

/-- HOLD released: heads are evaluated (R156) and held verdicts decided again (R147). R106 and R185 name both and give them
no order: the heads come first, and so their branch groups enter the Posting Queue before the Status groups of the verdicts
(DESIGN CHOICE, log 36). -/
def Device.releaseHold (d : Device) : Device :=
  if d.pins.hold then (d.setHold false).evaluateHeads.releaseVerdicts else d

/-- HOLD_ASSERT (R106). -/
def execHoldAssert (s : State) : Host.Outcome State Fault Refusal := s.onDevice fun d => d.setHold true

/-- HOLD_RELEASE (R106). A line that is released already has no event. -/
def execHoldRelease (s : State) : Host.Outcome State Fault Refusal := s.onDevice Device.releaseHold

end Sys2Proof.Machine
end

