-- ==== Sys2Proof/Machine/Accesses.lean ====
section
/-! DEFINITION. The commands that are processor accesses: writes the part passes, drops or recognises, and reads
that move the Snapshot Bracket (01, 06). A row's name says what the access is; what it does follows from the access. -/

namespace Sys2Proof.Machine
open Sys2Proof

/-- A processor write as a command: the part classifies it and handles what it is (R1, R9; log 4). -/
def State.onWrite (s : State) (a : WriteAccess) : Host.Outcome State Fault Refusal :=
  s.onDevice fun d => d.presentAccess (.write a)

/-- A processor read as a command. -/
def State.onRead (s : State) (a : ReadAccess) : Host.Outcome State Fault Refusal :=
  s.onDevice fun d => d.presentAccess (.read a)

/-- The line that a CLEAR_FAULT reads: the contact sense of the outlet whose record the write addresses (R105). -/
def Device.senseForWrite (d : Device) (a : WriteAccess) (sense : Sense) : Device :=
  match windowOffset d.pins.windowBase a.addr with
  | none => d
  | some off =>
    match place off with
    | .outlet n _ => d.setSense n sense
    | _ => d

/-- PROCESSOR_WRITE (R4): an accepted write with no row of its own, with any charter setting it carries (R24). -/
def execProcessorWrite (a : WriteAccess) (s : State) : Host.Outcome State Fault Refusal := s.onWrite a

/-- PROTECTED_WRITE_DROPPED (R7). -/
def execProtectedWriteDropped (a : WriteAccess) (s : State) : Host.Outcome State Fault Refusal := s.onWrite a

/-- OWNED_WRITE_DROPPED (R8). -/
def execOwnedWriteDropped (a : WriteAccess) (s : State) : Host.Outcome State Fault Refusal := s.onWrite a

/-- RUN (R25, R26, R35). -/
def execRun (a : WriteAccess) (s : State) : Host.Outcome State Fault Refusal := s.onWrite a

/-- HALT (R34). -/
def execHalt (a : WriteAccess) (s : State) : Host.Outcome State Fault Refusal := s.onWrite a

/-- HEARTBEAT (R10, R133). -/
def execHeartbeat (a : WriteAccess) (s : State) : Host.Outcome State Fault Refusal := s.onWrite a

/-- SWITCH_ON (R112). -/
def execSwitchOn (a : WriteAccess) (s : State) : Host.Outcome State Fault Refusal := s.onWrite a

/-- SWITCH_OFF (R113). -/
def execSwitchOff (a : WriteAccess) (s : State) : Host.Outcome State Fault Refusal := s.onWrite a

/-- CYCLE (R114). -/
def execCycle (a : WriteAccess) (s : State) : Host.Outcome State Fault Refusal := s.onWrite a

/-- STAGE_ON (R120). -/
def execStageOn (a : WriteAccess) (s : State) : Host.Outcome State Fault Refusal := s.onWrite a

/-- STAGE_OFF (R120). -/
def execStageOff (a : WriteAccess) (s : State) : Host.Outcome State Fault Refusal := s.onWrite a

/-- UNSTAGE (R120). -/
def execUnstage (a : WriteAccess) (s : State) : Host.Outcome State Fault Refusal := s.onWrite a

/-- HOLD_WATCH (R126, R149). -/
def execHoldWatch (a : WriteAccess) (s : State) : Host.Outcome State Fault Refusal := s.onWrite a

/-- FREE_WATCH (R126, R147). -/
def execFreeWatch (a : WriteAccess) (s : State) : Host.Outcome State Fault Refusal := s.onWrite a

/-- RESUME (R127, R150). -/
def execResume (a : WriteAccess) (s : State) : Host.Outcome State Fault Refusal := s.onWrite a

/-- CLEAR_FAULT (R105, R128), with the contact-sense line it reads. -/
def execClearFault (a : WriteAccess) (sense : Sense) (s : State) : Host.Outcome State Fault Refusal :=
  s.onDevice fun d => (d.senseForWrite a sense).presentAccess (.write a)

/-- PERIOD_CLEAR (R129). -/
def execPeriodClear (a : WriteAccess) (s : State) : Host.Outcome State Fault Refusal := s.onWrite a

/-- REQUEST_UNKNOWN (R109). -/
def execRequestUnknown (a : WriteAccess) (s : State) : Host.Outcome State Fault Refusal := s.onWrite a

/-- APPLY (R121, R122). -/
def execApply (a : WriteAccess) (s : State) : Host.Outcome State Fault Refusal := s.onWrite a

/-- TAIL_WRITE (R178). -/
def execTailWrite (a : WriteAccess) (s : State) : Host.Outcome State Fault Refusal := s.onWrite a

/-- SEQUENCE_READ (R19). -/
def execSequenceRead (a : ReadAccess) (s : State) : Host.Outcome State Fault Refusal := s.onRead a

/-- LAST_WORD_READ (R20, R21). -/
def execLastWordRead (a : ReadAccess) (s : State) : Host.Outcome State Fault Refusal := s.onRead a

/-- ACCESS_RESUME (R18, R186), with the contact-sense lines as they stand. -/
def execAccessResume (lines : SenseLines) (s : State) : Host.Outcome State Fault Refusal :=
  s.onDevice fun d => d.resumeAccess lines

end Sys2Proof.Machine
end

