-- ==== Sys2Proof/Machine/Sampler.lean ====
section
/-! DEFINITION. The Sampler (03): current and reference slots, the line-synchronisation detector, interval closes,
offset, drift, autoranging, line loss and timed closes. -/

namespace Sys2Proof.Machine
open Sys2Proof

/-! ## Samples -/

/-- A range one place down (R48). -/
def GainRange.down : GainRange → GainRange
  | .x1 => .x1 | .x4 => .x1 | .x16 => .x4

/-- A range one place up (R48). -/
def GainRange.up : GainRange → GainRange
  | .x1 => .x4 | .x4 => .x16 | .x16 => .x16

/-- The corrected sample (R41). -/
def correct (offset r : Int) : Int := clampInt (-32768) 32767 (r - offset)

/-- The raw code is saturated (R41). -/
def isSaturated (r : Int) : Bool := decide (Config.saturationCode ≤ r.natAbs)

/-- A current sample reaches its channel: discarded while the channel settles, else counted (R41). -/
def Channel.sample (c : Channel) (offset r v : Int) : Channel :=
  if 0 < c.settle then { c with settle := c.settle - 1 }
  else
    let x := correct offset r
    { c with
      count := c.count + 1
      sumSq := c.sumSq + x.natAbs * x.natAbs
      sumProd := c.sumProd + x * v
      peak := max c.peak x.natAbs
      saturated := c.saturated || isSaturated r }

/-- A voltage code reaches its phase's accumulators (R42). -/
def VoltageSums.sample (s : VoltageSums) (v : Int) : VoltageSums := ⟨s.count + 1, s.sumSq + v.natAbs * v.natAbs⟩

/-- The gain range for the next interval of a scanned channel (R48). -/
def Channel.nextRange (c : Channel) : GainRange :=
  if c.count = 0 then c.range
  else if c.saturated ∧ c.range ≠ .x1 then c.range.down
  else if c.peak < Config.stepUpPeak then c.range.up
  else c.range

/-- A channel at a close, whether in the scan set that ends and in the one that begins (R40, R48, R49). -/
def Channel.close (wasIn isIn : Bool) (c : Channel) : Channel :=
  let range := if wasIn then c.nextRange else c.range
  .fresh range (if range ≠ c.range ∨ (isIn ∧ !wasIn) then Config.settleSamples else 0)

/-- A channel with no sample counted; its range and settle count stand. -/
def Channel.emptied (c : Channel) : Channel := .fresh c.range c.settle

/-- A channel at its range and settle count, with the samples that another has counted. -/
def Channel.carrying (held c : Channel) : Channel := { held with range := c.range, settle := c.settle }

/-- The Sampler with every accumulator of the interval at zero (R44). -/
def Sampler.emptied (s : Sampler) : Sampler :=
  { s with
    channels := mapAll Channel.emptied s.channels
    voltages := Vector.replicate 3 ⟨0, 0⟩
    zeroCount := 0
    zeroSum := 0
    spanCount := 0
    spanSum := 0 }

/-- The Sampler with the accumulators that another holds, of the outlets and the phases that its scan set has (R40, R42). -/
def Sampler.carrying (held s : Sampler) : Sampler :=
  { s with
    channels := Vector.ofFn fun n : Outlet =>
      if s.scan.contains n then Channel.carrying held.channels[n] s.channels[n] else s.channels[n]
    voltages := Vector.ofFn fun p : Phase =>
      if s.scan.any (fun n => decide (Outlet.phase n = p)) then held.voltages[p] else s.voltages[p]
    zeroCount := held.zeroCount
    zeroSum := held.zeroSum
    spanCount := held.spanCount
    spanSum := held.spanSum }

/-- The nominal period P in µs (R51). -/
def Sampler.period (s : Sampler) : Nat := if s.nominal60 then 16667 else 20000

/-- N × P, the length of a timed interval (R55). -/
def Sampler.timedLength (s : Sampler) : Nat := s.cycles * s.period

/-- The offset for the next interval: the mean ZERO sample rounded half up (R45). -/
def Sampler.nextOffset (s : Sampler) : Int :=
  if s.zeroCount = 0 then s.offset else (2 * s.zeroSum + s.zeroCount) / (2 * s.zeroCount)

/-- The drift d (R46), or none when no SPAN sample was taken. -/
def Sampler.drift (s : Sampler) : Option Nat :=
  if s.spanCount = 0 then none else some (s.spanSum.tdiv s.spanCount - s.offset - Config.nominalSpan).natAbs

namespace Device

/-- A change of the Sampler's state. -/
def setSampler (d : Device) (f : Sampler → Sampler) : Device := { d with sampler := f d.sampler }

/-- LINE_LOSS, LINE_RESTORED: made while the charter is SWEEPING, RUNNING or HALTED (R54, R56). -/
def reportLine (d : Device) (kind : ReportKind) (a : Word) : Device :=
  if d.enforcing then d.report kind (.level (.phase 0)) a 0 else d

/-! ## The interval close -/

/-- The drift measurement of a close: Calibration State and whether the interval is in drift (R46, R47). -/
def measureDrift (d : Device) : Device × Bool :=
  if d.inService then
    match d.sampler.drift with
    | none => (d, d.sampler.drifting)
    | some x =>
      let drifting := decide (d.charter.settings.refTolerance < x)
      if drifting = d.sampler.drifting then (d, drifting)
      else
        let d := d.report (if drifting then .calDrift else .calRestored) .strip (satWord x)
          (BitVec.ofInt 16 d.sampler.offset)
        (d.changeCharter fun d => d.setSampler fun s => { s with drifting := drifting }, drifting)
  else (d, false)

/-- The scan set the Sampler forms at a close (R39, R40). -/
def nextScan (d : Device) : List Outlet :=
  scanSet d.charter.settings.scanFirst d.charter.settings.scanLast d.pins.bankB

/-- The Sampler's own state after a close that ends at a given time (R44). The next interval's length runs from that time, be
it before the end of the interval before (R57; log 17). Where the scan set changes, the pass ends and a new one begins at
once: a slot under way at the close ends with the pass, and the first slot of the new pass begins at the close (R40; DEDUCED,
log 42). -/
def Sampler.restarted (d : Device) (endTime : Nat) (s : Sampler) : Sampler :=
  let scan := d.nextScan
  { s with
    offset := s.nextOffset
    channels := Vector.ofFn fun n : Outlet => (s.channels[n]).close (s.scan.contains n) (scan.contains n)
    due := if scan = s.scan then s.due else scan.head?
    scan := scan
    cycles := d.charter.settings.intervalCycles
    nominal60 := d.charter.settings.nominal60
    voltages := Vector.replicate 3 ⟨0, 0⟩
    zeroCount := 0
    zeroSum := 0
    spanCount := 0
    spanSum := 0
    intervalStart := endTime
    slotStart := if scan = s.scan then s.slotStart else max s.slotStart endTime }

/-- The interval closes at a time (R44): drift, the hand-off to the Close Engine, and the next interval. -/
def closeInterval (d : Device) (endTime : Nat) (synchronised : Bool) : Device :=
  let m := d.measureDrift
  let d := m.1
  let s := d.sampler
  let record : CloseRecord :=
    { scan := s.scan
      channels := s.channels
      voltages := s.voltages
      length := endTime - s.intervalStart
      synchronised := synchronised
      inDrift := m.2
      cycles := s.cycles }
  { d with
    mail := { d.mail with closes := d.mail.closes ++ [record] }
    sampler := Sampler.restarted d endTime s }

/-! ## Line synchronisation -/

/-- A timed close, counted (R55). -/
def timedCloseAt (d : Device) (endTime : Nat) : Device :=
  (d.setSampler fun s => { s with timedCloses := min (s.timedCloses + 1) 65535 }).closeInterval endTime false

/-- The close of a restoring crossing, whose earlier sample is given (R56). Where that sample is not later than the timed close
that began the interval, the two were due at the same moment and the timed close has come first (DESIGN CHOICE, log 44): the
interval ends with no sample, and the slots since the timed close count in the one that begins. Its ranges and its offset are
those they were taken with, since an interval without samples changes neither (R44, R45, R48). -/
def restoringClose (d : Device) (earlier time : Nat) : Device :=
  if earlier ≤ d.sampler.intervalStart then
    ((d.setSampler Sampler.emptied).closeInterval time false).setSampler (Sampler.carrying d.sampler)
  else d.closeInterval time false

/-- An accepted crossing, with the time of the earlier of its two samples (R53, R56). -/
def acceptCrossing (d : Device) (earlier time : Nat) : Device :=
  let s := d.sampler
  let d := d.setSampler fun s => { s with lastCrossing := some time }
  if s.locked then
    if s.cycles ≤ s.crossings + 1 then
      (d.setSampler fun s => { s with crossings := 0 }).closeInterval time true
    else d.setSampler fun s => { s with crossings := s.crossings + 1 }
  else
    let d := d.changeCharter fun d => d.setSampler fun s => { s with locked := true }
    let d := (d.restoringClose earlier time).setSampler fun s => { s with crossings := 0 }
    d.reportLine .lineRestored (BitVec.ofNat 16 d.sampler.timedCloses)

/-- The interpolated time of a rising crossing (R52). -/
def crossingTime (t0 : Nat) (a : Int) (t1 : Nat) (b : Int) : Nat :=
  t0 + ((t1 - t0) * a.natAbs) / (b - a).natAbs

/-- The crossing is far enough from the last accepted one (R52). -/
def Sampler.accepts (s : Sampler) (time : Nat) : Bool :=
  match s.lastCrossing with
  | none => true
  | some t => decide (t + s.period / 4 ≤ time)

/-- An L1 voltage code reaches the detector, its slot just completed (R42, R52). A sample's time is the moment its slot
completes, which the manual does not say (R38 has both converters sample at one instant within the slot; DESIGN CHOICE,
log 32). -/
def detect (d : Device) (v : Int) : Device :=
  let last := d.sampler.lastL1
  let t1 := d.sampler.slotStart
  let d := d.setSampler fun s => { s with lastL1 := some (t1, v) }
  match last with
  | none => d
  | some (t0, a) =>
    if a < 0 ∧ 0 ≤ v then
      let time := crossingTime t0 a t1 v
      if Sampler.accepts d.sampler time then d.acceptCrossing t0 time else d
    else d

/-! ## Slots -/

/-- The slot after an outlet's current slot: the next scanned outlet's, or the reference slot (R39). -/
def Sampler.after (s : Sampler) (n : Outlet) : Option Outlet := s.scan.find? fun m => decide (n < m)

/-- The two codes of an outlet's current slot reach the accumulators (R41, R42). -/
def Sampler.countCurrent (n : Outlet) (r v : Int) (s : Sampler) : Sampler :=
  let p := Outlet.phase n
  { s with
    channels := setAt s.channels n ((s.channels[n]).sample s.offset r v)
    voltages := setAt s.voltages p ((s.voltages[p]).sample v) }

/-- The reference code of a slot reaches the sums of its kind, and the next slot is of the other kind (R39, R43). -/
def Sampler.countReference (r : Int) (s : Sampler) : Sampler :=
  match s.nextReference with
  | .zero => { s with zeroCount := s.zeroCount + 1, zeroSum := s.zeroSum + r, nextReference := .span }
  | .span => { s with spanCount := s.spanCount + 1, spanSum := s.spanSum + r, nextReference := .zero }

/-- The slot under way has passed: it completes 2 µs after it began, the slot that is due next begins there, and the part's
clock moves to that moment if it has not reached it (R38; log 1). -/
def passSlot (d : Device) (next : Option Outlet) : Device :=
  let done := d.sampler.slotStart + Config.slotTime
  (d.advance (done - d.now)).setSampler fun s => { s with due := next, slotStart := done }

/-- A current slot completes (R38, R41, R42). A crossing that its L1 code makes lies before the slot's end, so that the
interval it closes has ended, and the samples count in the interval that begins (R44, R56; DEDUCED, log 28). Every current
slot counts (R41, R42): where the scan set that a close now forms leaves the outlet out, the samples count in the interval
that ends, whose scan set has it (R40; log 28). Without a close the two are one. The close is made here, as the slot with the
crossing's later sample completes: slots that have completed since the crossing's time, those of outlets on other phases,
have counted in the interval that ends (R44, R52; DESIGN CHOICE, log 41), but where that is the short interval of R56
(`restoringClose`; log 44). -/
def completeCurrentSlot (d : Device) (n : Outlet) (r v : Int) : Device :=
  let d := d.passSlot (Sampler.after d.sampler n)
  let watch (d : Device) := if Outlet.phase n = 0 then d.detect v else d
  let count (d : Device) := d.setSampler (Sampler.countCurrent n r v)
  if d.nextScan.contains n then count (watch d) else watch (count d)

/-- A reference slot completes (R38, R42, R43), its code counted as that of a current slot is (logs 28, 41). -/
def completeReferenceSlot (d : Device) (r v : Int) : Device :=
  ((d.passSlot d.sampler.scan.head?).detect v).setSampler (Sampler.countReference r)

/-! ## Line loss -/

/-- The moment of loss: 2 P after the last accepted crossing while LOCKED (R54). -/
def Sampler.lossTime (s : Sampler) : Option Nat :=
  if s.locked then s.lastCrossing.map (· + 2 * s.period) else none

/-- Line synchronisation is lost at a moment (R54). -/
def loseLine (d : Device) (time : Nat) : Device :=
  let d := d.changeCharter fun d => d.setSampler fun s => { s with locked := false, timedCloses := 0 }
  let d := d.reportLine .lineLoss 0
  if d.sampler.timedLength ≤ time - d.sampler.intervalStart then d.timedCloseAt time else d

end Device

end Sys2Proof.Machine
end

