-- ==== Sys2Proof/Machine/Metering.lean ====
section
/-! DEFINITION. The commands of sampling and the interval close (03, 04), with what a close hands the other blocks. -/

namespace Sys2Proof.Machine
open Sys2Proof

/-- A current slot completes, when one is due (R39, R41). -/
def Device.currentSlot (d : Device) (r v : Word) : Device :=
  match d.sampler.due with
  | none => d
  | some n => d.completeCurrentSlot n r.toInt v.toInt

/-- A reference slot completes, when one is due (R39, R43). -/
def Device.referenceSlot (d : Device) (r v : Word) : Device :=
  match d.sampler.due with
  | some _ => d
  | none => d.completeReferenceSlot r.toInt v.toInt

/-- Line synchronisation is lost 2 P after the last accepted crossing (R54). -/
def Device.lineLoss (d : Device) : Device :=
  match Sampler.lossTime d.sampler with
  | none => d
  | some time => (d.advance (time - d.now)).loseLine time

/-- A timed close, N × P after the previous close, while line synchronisation is lost (R55). -/
def Device.timedClose (d : Device) : Device :=
  let due := d.sampler.intervalStart + d.sampler.timedLength
  if d.sampler.locked then d else (d.advance (due - d.now)).timedCloseAt due

/-- The Outlet Controller takes a close that it has been handed, and makes its checks (R101). -/
def Device.takeChecks (d : Device) (h : SenseHandoff) : Device :=
  ({ d with mail := { d.mail with senses := d.mail.senses.tail } }).checkClose h

/-- The oldest interval handed over reaches the Close Engine (R59). The Outlet Controller reads contact sense for it when it
has made the checks of every close before (R101). -/
def Device.nextClose (d : Device) (lines : SenseLines) : Device :=
  match d.mail.closes with
  | [] => d
  | r :: rs =>
    let d := d.mail.senses.foldl takeChecks d
    ({ d with mail := { d.mail with closes := rs } }).compute r lines

/-- The oldest close handed over reaches the Outlet Controller (R101), with the lines as they stand by then. -/
def Device.nextCheck (d : Device) (lines : SenseLines) : Device :=
  match d.mail.senses with
  | [] => d
  | h :: _ => ({ d with pins := { d.pins with senseLines := lines } }).takeChecks h

/-- The oldest close handed over for an outlet reaches its tracker (R135). -/
def Device.nextTracker (d : Device) (n : Outlet) : Device :=
  match d.mail.trackers.find? fun h => decide (h.outlet = n) with
  | none => d
  | some h =>
    ({ d with mail := { d.mail with
        trackers := d.mail.trackers.eraseP fun h => decide (h.outlet = n) } }).takeTracker h

/-- The oldest level loads reach the Admission Unit (R171). -/
def Device.nextLoads (d : Device) : Device :=
  match d.mail.loads with
  | [] => d
  | h :: hs => ({ d with mail := { d.mail with loads := hs } }).takeLoads h

/-- CURRENT_SLOT (R38, R41), with the raw current and voltage codes. -/
def execCurrentSlot (r v : Word) (s : State) : Host.Outcome State Fault Refusal :=
  s.onDevice fun d => d.currentSlot r v

/-- REFERENCE_SLOT (R43), with the raw reference and L1 codes. -/
def execReferenceSlot (r v : Word) (s : State) : Host.Outcome State Fault Refusal :=
  s.onDevice fun d => d.referenceSlot r v

/-- LINE_LOSS (R54). -/
def execLineLoss (s : State) : Host.Outcome State Fault Refusal :=
  s.onDevice Device.lineLoss

/-- TIMED_CLOSE (R55). -/
def execTimedClose (s : State) : Host.Outcome State Fault Refusal :=
  s.onDevice Device.timedClose

/-- CLOSE_COMPUTATION (R59), with contact sense at the close (R60), which the Outlet Controller reads for it (R101). -/
def execCloseComputation (lines : SenseLines) (s : State) : Host.Outcome State Fault Refusal :=
  s.onDevice fun d => d.nextClose lines

/-- CONTACT_SENSE_READ (R101 to R104): the checks, with the contact sense read for the close. -/
def execContactSenseRead (lines : SenseLines) (s : State) : Host.Outcome State Fault Refusal :=
  s.onDevice fun d => d.nextCheck lines

/-- SIGNATURE_TRACKER_UPDATE (R135). -/
def execSignatureTrackerUpdate (n : Outlet) (s : State) : Host.Outcome State Fault Refusal :=
  s.onDevice fun d => d.nextTracker n

/-- LEVEL_LOADS_HANDOFF (R171, R172). -/
def execLevelLoadsHandoff (s : State) : Host.Outcome State Fault Refusal :=
  s.onDevice Device.nextLoads

end Sys2Proof.Machine
end

