-- ==== Sys2Proof/Machine/Posting.lean ====
section
/-! DEFINITION. The commands of the Publication Unit, the sweep, the Report Writer and the part's clock. -/

namespace Sys2Proof.Machine
open Sys2Proof

/-- The oldest collect-clear reaches the Close Engine (R81). -/
def Device.nextCollectClear (d : Device) : Device :=
  match d.mail.collectClears with
  | [] => d
  | c :: cs => ({ d with mail := { d.mail with collectClears := cs } }).collect c

/-- The oldest return reaches the Publication Unit (R82). -/
def Device.nextCollectReturn (d : Device) : Device :=
  match d.mail.collectReturns with
  | [] => d
  | c :: cs => ({ d with mail := { d.mail with collectReturns := cs } }).takeReturn c

/-- The oldest period clear reaches the Close Engine (R80). -/
def Device.nextPeriodClear (d : Device) : Device :=
  match d.mail.periodClears with
  | [] => d
  | n :: ns => ({ d with mail := { d.mail with periodClears := ns } }).clearPeriod n

/-- COLLECT_CLEAR (R81). -/
def execCollectClear (s : State) : Host.Outcome State Fault Refusal :=
  s.onDevice Device.nextCollectClear

/-- COLLECT_CLEAR_RETURN (R82). -/
def execCollectClearReturn (s : State) : Host.Outcome State Fault Refusal :=
  s.onDevice Device.nextCollectReturn

/-- PERIOD_CLEAR_EVENT (R80). -/
def execPeriodClearEvent (s : State) : Host.Outcome State Fault Refusal :=
  s.onDevice Device.nextPeriodClear

/-- DRAIN_WRITE (R17, R18). -/
def execDrainWrite (s : State) : Host.Outcome State Fault Refusal :=
  s.onDevice Device.drainWrite

/-- SWEEP_READ (R27), with the contact-sense lines that sweep end reads (R31). -/
def execSweepRead (lines : SenseLines) (s : State) : Host.Outcome State Fault Refusal :=
  s.onDevice fun d => d.sweepRead lines

/-- REPORT_WRITE (R175). -/
def execReportWrite (s : State) : Host.Outcome State Fault Refusal :=
  s.onDevice Device.writeReport

/-- UPTIME_INCREASE (R37). -/
def execUptimeIncrease (s : State) : Host.Outcome State Fault Refusal :=
  s.onDevice Device.nextSecond

end Sys2Proof.Machine
end

