-- ==== Sys2Proof/Machine/Queues.lean ====
section
/-! DEFINITION. The commands of the Admission Unit (08): what the Outlet Controller hands it, and the head-of-line wait. -/

namespace Sys2Proof.Machine
open Sys2Proof

/-- The oldest hand-off to the Admission Unit has reached it. -/
def Device.dropAdmissionMessage (d : Device) : Device :=
  { d with mail := { d.mail with toAdmission := d.mail.toAdmission.tail } }

/-- A join, when it is the next hand-off to the Admission Unit (R153, R155). -/
def Device.nextJoin (d : Device) : Device :=
  match d.mail.toAdmission with
  | .join n :: _ => d.dropAdmissionMessage.takeJoin n
  | _ => d

/-- A removal, when it is the next hand-off (R154). -/
def Device.nextRemoval (d : Device) : Device :=
  match d.mail.toAdmission with
  | .removal n :: _ => d.dropAdmissionMessage.takeRemoval n
  | _ => d

/-- A release, when it is the next hand-off (R164). -/
def Device.nextRelease (d : Device) : Device :=
  match d.mail.toAdmission with
  | .release n :: _ => d.dropAdmissionMessage.takeRelease n
  | _ => d

/-- A hand-back, when it is the next hand-off (R165). -/
def Device.nextHandBack (d : Device) : Device :=
  match d.mail.toAdmission with
  | .handBack n :: _ => d.dropAdmissionMessage.takeHandBack n
  | _ => d

/-- JOIN (R153). -/
def execJoin (s : State) : Host.Outcome State Fault Refusal :=
  s.onDevice Device.nextJoin

/-- REMOVAL (R154). -/
def execRemoval (s : State) : Host.Outcome State Fault Refusal :=
  s.onDevice Device.nextRemoval

/-- RELEASE (R164). -/
def execRelease (s : State) : Host.Outcome State Fault Refusal :=
  s.onDevice Device.nextRelease

/-- HAND_BACK (R165). -/
def execHandBack (s : State) : Host.Outcome State Fault Refusal :=
  s.onDevice Device.nextHandBack

/-- ADMISSION_WAIT (R168). -/
def execAdmissionWait (b : Branch) (s : State) : Host.Outcome State Fault Refusal :=
  s.onDevice fun d => d.examineTenure b

end Sys2Proof.Machine
end

