-- ==== Sys2Proof/Machine/Relays.lean ====
section
/-! DEFINITION. The commands of the relays: completions and expiries (05), and the admissions and verdict cycles that reach the Outlet
Controller. -/

namespace Sys2Proof.Machine
open Sys2Proof

/-- The operate time of a CLOSING operation runs out (R88, R89). -/
def Device.closingDue (d : Device) (n : Outlet) (sense : Sense) : Device :=
  match (d.outlet[n]).operation with
  | some (.closing, left) => (d.advance left).completeClosing n sense
  | some (.opening, _) => d
  | none => d

/-- The operate time of an OPENING operation runs out (R88, R90). -/
def Device.openingDue (d : Device) (n : Outlet) (sense : Sense) : Device :=
  match (d.outlet[n]).operation with
  | some (.opening, left) => (d.advance left).completeOpening n sense
  | some (.closing, _) => d
  | none => d

/-- The inrush timer of an outlet in INRUSH runs out (R93). -/
def Device.inrushDue (d : Device) (n : Outlet) : Device :=
  match (d.outlet[n]).inrush with
  | none => d
  | some left => if d.outletState n = .inrush then (d.advance left).endInrush n else d

/-- The dwell timer of an outlet in DWELL runs out (R97). -/
def Device.dwellDue (d : Device) (n : Outlet) : Device :=
  match (d.outlet[n]).dwell with
  | none => d
  | some left => if d.outletState n = .dwell then (d.advance left).changeState n .queued else d

/-- The oldest admission reaches the Outlet Controller (R87). -/
def Device.nextAdmission (d : Device) : Device :=
  match d.mail.admissions with
  | [] => d
  | n :: ns => ({ d with mail := { d.mail with admissions := ns } }).takeAdmission n

/-- The oldest verdict cycle reaches the Outlet Controller (R145). -/
def Device.nextVerdictCycle (d : Device) : Device :=
  match d.mail.verdictCycles with
  | [] => d
  | v :: vs => ({ d with mail := { d.mail with verdictCycles := vs } }).takeVerdictCycle v

/-- CLOSING_COMPLETE (R89), with the contact-sense line it reads. -/
def execClosingComplete (n : Outlet) (sense : Sense) (s : State) : Host.Outcome State Fault Refusal :=
  s.onDevice fun d => d.closingDue n sense

/-- OPENING_COMPLETE (R90), with the contact-sense line it reads. -/
def execOpeningComplete (n : Outlet) (sense : Sense) (s : State) : Host.Outcome State Fault Refusal :=
  s.onDevice fun d => d.openingDue n sense

/-- INRUSH_EXPIRY (R93). -/
def execInrushExpiry (n : Outlet) (s : State) : Host.Outcome State Fault Refusal :=
  s.onDevice fun d => d.inrushDue n

/-- DWELL_EXPIRY (R97). -/
def execDwellExpiry (n : Outlet) (s : State) : Host.Outcome State Fault Refusal :=
  s.onDevice fun d => d.dwellDue n

/-- ADMISSION (R87). -/
def execAdmission (s : State) : Host.Outcome State Fault Refusal :=
  s.onDevice Device.nextAdmission

/-- VERDICT_CYCLE (R145). -/
def execVerdictCycle (s : State) : Host.Outcome State Fault Refusal :=
  s.onDevice Device.nextVerdictCycle

end Sys2Proof.Machine
end

