-- ==== Sys2Proof/Machine/Settings.lean ====
section
/-! DEFINITION. The commands that are accepted writes to settings words of outlets, levels and the charter (R24, R131). -/

namespace Sys2Proof.Machine
open Sys2Proof

/-- MODE_WRITE (R100, R151). -/
def execModeWrite (a : WriteAccess) (s : State) : Host.Outcome State Fault Refusal := s.onWrite a

/-- WATCH_POLICY_WRITE (R151). -/
def execWatchPolicyWrite (a : WriteAccess) (s : State) : Host.Outcome State Fault Refusal := s.onWrite a

/-- LIMIT_WRITE (R156). -/
def execLimitWrite (a : WriteAccess) (s : State) : Host.Outcome State Fault Refusal := s.onWrite a

/-- HEARTBEAT_TIMEOUT_WRITE (R131, R134). -/
def execHeartbeatTimeoutWrite (a : WriteAccess) (s : State) : Host.Outcome State Fault Refusal := s.onWrite a

/-- SIGNATURE_TIME_WRITE (R131, R136). -/
def execSignatureTimeWrite (a : WriteAccess) (s : State) : Host.Outcome State Fault Refusal := s.onWrite a

/-- SIGNATURE_FLOOR_WRITE (R131, R136, R184). -/
def execSignatureFloorWrite (a : WriteAccess) (s : State) : Host.Outcome State Fault Refusal := s.onWrite a

/-- CYCLE_WINDOW_WRITE (R148). -/
def execCycleWindowWrite (a : WriteAccess) (s : State) : Host.Outcome State Fault Refusal := s.onWrite a

/-- HEARTBEAT_QUORUM_WRITE (R140). -/
def execHeartbeatQuorumWrite (a : WriteAccess) (s : State) : Host.Outcome State Fault Refusal := s.onWrite a

/-- ADMISSION_WAIT_LIMIT_WRITE (R168). -/
def execAdmissionWaitLimitWrite (a : WriteAccess) (s : State) : Host.Outcome State Fault Refusal := s.onWrite a

end Sys2Proof.Machine
end

