-- ==== Sys2Proof/Machine/Watching.lean ====
section
/-! DEFINITION. The commands of the Hang Watch (07): the Outlet Controller's events, its timers, and the ageing of the recent-cycle
list. -/

namespace Sys2Proof.Machine
open Sys2Proof

/-- The oldest event for the Hang Watch has reached it. -/
def Device.dropWatchMessage (d : Device) : Device :=
  { d with mail := { d.mail with toWatch := d.mail.toWatch.tail } }

/-- An on event, when it is the next event for the Hang Watch (R130, R145). -/
def Device.nextOn (d : Device) : Device :=
  match d.mail.toWatch with
  | .on n :: _ => d.dropWatchMessage.takeOn n
  | _ => d

/-- An off event, when it is the next event (R130). -/
def Device.nextOff (d : Device) : Device :=
  match d.mail.toWatch with
  | .off n :: _ => d.dropWatchMessage.takeOff n
  | _ => d

/-- An answer to a verdict cycle, when it is the next event (R145). -/
def Device.nextAnswer (d : Device) : Device :=
  match d.mail.toWatch with
  | .answer n started entry :: _ => d.dropWatchMessage.takeAnswer n started entry
  | _ => d

/-- The grace timer of a watch in GRACE runs out (R132). -/
def Device.graceDue (d : Device) (n : Outlet) : Device :=
  match (d.watch[n]).grace with
  | none => d
  | some left => if (d.watch[n]).state = .grace then (d.advance left).endGrace n else d

/-- A running heartbeat timer reaches the Heartbeat Timeout: H becomes true (R134). A frozen timer does not count, and a
timer already past its timeout has reached it before. -/
def Device.heartbeatTimerDue (d : Device) (n : Outlet) : Device :=
  match (d.watch[n]).heartbeat with
  | none => d
  | some t =>
    if (d.watch[n]).state.tracking ∧ (d.watch[n]).condH = false ∧ d.suspendedNow = false then
      (d.advance (d.heartbeatTimeout n * 1000000 - t)).setH n true
    else d

/-- The confirm timer of a watch in SUSPECT runs out (R138). -/
def Device.confirmDue (d : Device) (n : Outlet) : Device :=
  match (d.watch[n]).confirm with
  | none => d
  | some left => if (d.watch[n]).state = .suspect then (d.advance left).confirmed n else d

/-- ON_EVENT (R130, R132). -/
def execOnEvent (s : State) : Host.Outcome State Fault Refusal :=
  s.onDevice Device.nextOn

/-- OFF_EVENT (R130). -/
def execOffEvent (s : State) : Host.Outcome State Fault Refusal :=
  s.onDevice Device.nextOff

/-- GRACE_EXPIRY (R132). -/
def execGraceExpiry (n : Outlet) (s : State) : Host.Outcome State Fault Refusal :=
  s.onDevice fun d => d.graceDue n

/-- HEARTBEAT_TIMEOUT (R134). -/
def execHeartbeatTimeout (n : Outlet) (s : State) : Host.Outcome State Fault Refusal :=
  s.onDevice fun d => d.heartbeatTimerDue n

/-- CONFIRM_EXPIRY (R138). -/
def execConfirmExpiry (n : Outlet) (s : State) : Host.Outcome State Fault Refusal :=
  s.onDevice fun d => d.confirmDue n

/-- VERDICT_CYCLE_ANSWER (R145). -/
def execVerdictCycleAnswer (s : State) : Host.Outcome State Fault Refusal :=
  s.onDevice Device.nextAnswer

/-- RECENT_CYCLE_AGEING (R148). -/
def execRecentCycleAgeing (n : Outlet) (s : State) : Host.Outcome State Fault Refusal :=
  s.onDevice fun d => d.ageList n

end Sys2Proof.Machine
end

