-- ==== Sys2Proof/Machine/Dispatch.lean ====
section
/-! DEFINITION. The meaning of every command: one direct call for each constructor. -/

namespace Sys2Proof.Machine
open Sys2Proof

/-- What a command does to everything but the queue of waiting commands. -/
def exec (i : Instr) (s : State) : Host.Outcome State Fault Refusal :=
  match i with
  | .reset wb bpres => Sys2Proof.Machine.execReset wb bpres s
  | .holdAssert => Sys2Proof.Machine.execHoldAssert s
  | .holdRelease => Sys2Proof.Machine.execHoldRelease s
  | .processorWrite a => Sys2Proof.Machine.execProcessorWrite a s
  | .accessResume lines => Sys2Proof.Machine.execAccessResume lines s
  | .protectedWriteDropped a => Sys2Proof.Machine.execProtectedWriteDropped a s
  | .ownedWriteDropped a => Sys2Proof.Machine.execOwnedWriteDropped a s
  | .sequenceRead a => Sys2Proof.Machine.execSequenceRead a s
  | .lastWordRead a => Sys2Proof.Machine.execLastWordRead a s
  | .collectClear => Sys2Proof.Machine.execCollectClear s
  | .collectClearReturn => Sys2Proof.Machine.execCollectClearReturn s
  | .drainWrite => Sys2Proof.Machine.execDrainWrite s
  | .run a => Sys2Proof.Machine.execRun a s
  | .halt a => Sys2Proof.Machine.execHalt a s
  | .sweepRead lines => Sys2Proof.Machine.execSweepRead lines s
  | .heartbeat a => Sys2Proof.Machine.execHeartbeat a s
  | .switchOn a => Sys2Proof.Machine.execSwitchOn a s
  | .switchOff a => Sys2Proof.Machine.execSwitchOff a s
  | .cycle a => Sys2Proof.Machine.execCycle a s
  | .stageOn a => Sys2Proof.Machine.execStageOn a s
  | .stageOff a => Sys2Proof.Machine.execStageOff a s
  | .unstage a => Sys2Proof.Machine.execUnstage a s
  | .holdWatch a => Sys2Proof.Machine.execHoldWatch a s
  | .freeWatch a => Sys2Proof.Machine.execFreeWatch a s
  | .resume a => Sys2Proof.Machine.execResume a s
  | .clearFault a sense => Sys2Proof.Machine.execClearFault a sense s
  | .periodClear a => Sys2Proof.Machine.execPeriodClear a s
  | .periodClearEvent => Sys2Proof.Machine.execPeriodClearEvent s
  | .requestUnknown a => Sys2Proof.Machine.execRequestUnknown a s
  | .apply a => Sys2Proof.Machine.execApply a s
  | .tailWrite a => Sys2Proof.Machine.execTailWrite a s
  | .modeWrite a => Sys2Proof.Machine.execModeWrite a s
  | .watchPolicyWrite a => Sys2Proof.Machine.execWatchPolicyWrite a s
  | .limitWrite a => Sys2Proof.Machine.execLimitWrite a s
  | .heartbeatTimeoutWrite a => Sys2Proof.Machine.execHeartbeatTimeoutWrite a s
  | .signatureTimeWrite a => Sys2Proof.Machine.execSignatureTimeWrite a s
  | .signatureFloorWrite a => Sys2Proof.Machine.execSignatureFloorWrite a s
  | .cycleWindowWrite a => Sys2Proof.Machine.execCycleWindowWrite a s
  | .heartbeatQuorumWrite a => Sys2Proof.Machine.execHeartbeatQuorumWrite a s
  | .admissionWaitLimitWrite a => Sys2Proof.Machine.execAdmissionWaitLimitWrite a s
  | .currentSlot r v => Sys2Proof.Machine.execCurrentSlot r v s
  | .referenceSlot r v => Sys2Proof.Machine.execReferenceSlot r v s
  | .lineLoss => Sys2Proof.Machine.execLineLoss s
  | .timedClose => Sys2Proof.Machine.execTimedClose s
  | .closeComputation lines => Sys2Proof.Machine.execCloseComputation lines s
  | .contactSenseRead lines => Sys2Proof.Machine.execContactSenseRead lines s
  | .signatureTrackerUpdate n => Sys2Proof.Machine.execSignatureTrackerUpdate n s
  | .levelLoadsHandoff => Sys2Proof.Machine.execLevelLoadsHandoff s
  | .closingComplete n sense => Sys2Proof.Machine.execClosingComplete n sense s
  | .openingComplete n sense => Sys2Proof.Machine.execOpeningComplete n sense s
  | .inrushExpiry n => Sys2Proof.Machine.execInrushExpiry n s
  | .dwellExpiry n => Sys2Proof.Machine.execDwellExpiry n s
  | .admission => Sys2Proof.Machine.execAdmission s
  | .join => Sys2Proof.Machine.execJoin s
  | .removal => Sys2Proof.Machine.execRemoval s
  | .release => Sys2Proof.Machine.execRelease s
  | .handBack => Sys2Proof.Machine.execHandBack s
  | .admissionWait b => Sys2Proof.Machine.execAdmissionWait b s
  | .onEvent => Sys2Proof.Machine.execOnEvent s
  | .offEvent => Sys2Proof.Machine.execOffEvent s
  | .graceExpiry n => Sys2Proof.Machine.execGraceExpiry n s
  | .heartbeatTimeout n => Sys2Proof.Machine.execHeartbeatTimeout n s
  | .confirmExpiry n => Sys2Proof.Machine.execConfirmExpiry n s
  | .verdictCycle => Sys2Proof.Machine.execVerdictCycle s
  | .verdictCycleAnswer => Sys2Proof.Machine.execVerdictCycleAnswer s
  | .recentCycleAgeing n => Sys2Proof.Machine.execRecentCycleAgeing n s
  | .uptimeIncrease => Sys2Proof.Machine.execUptimeIncrease s
  | .reportWrite => Sys2Proof.Machine.execReportWrite s

end Sys2Proof.Machine
end

