-- ==== Sys2Proof/Safety.lean ====
section
/-! DEFINITION. What stays true of the block: the invariants that the obligations speak of, each beside the rule that
states it, and what it means for a command to complete. -/

namespace Sys2Proof.Machine
open Sys2Proof

/-! ## Completion -/

/-- A command answers this next state. -/
def Completes (i : Instr) (s t : State) : Prop := exec i s = .next t

/-- Commands carried out one after another, each answering a next state. -/
def runs : List Instr → State → State → Prop
  | [], s, t => s = t
  | i :: is, s, t => ∃ u, Completes i s u ∧ runs is u t

/-- A command answers a next state in which the block stands so, with the queue of waiting commands untouched. -/
def CompletesWith (i : Instr) (s : State) (post : Device → Prop) : Prop :=
  ∃ t, exec i s = .next t ∧ t.pending = s.pending ∧ post t.dev

/-- The states that commands reach from reset. -/
inductive Reachable : State → Prop
  | start : Reachable State.reset
  | command (i : Instr) (s t : State) : Reachable s → exec i s = .next t → Reachable t

/-! ## What a command changes -/

/-- The parts of the block. -/
inductive Part where
  | pins | ram | now | path | pub | charter | sampler | engine | outlet | applyEcho | watch | suspendedSince
  | admission | reports | mail | freeCount
  deriving DecidableEq, Repr

/-- A part is the same in two blocks. -/
def Part.same (d d' : Device) : Part → Prop
  | .pins => d'.pins = d.pins
  | .ram => d'.ram = d.ram
  | .now => d'.now = d.now
  | .path => d'.path = d.path
  | .pub => d'.pub = d.pub
  | .charter => d'.charter = d.charter
  | .sampler => d'.sampler = d.sampler
  | .engine => d'.engine = d.engine
  | .outlet => d'.outlet = d.outlet
  | .applyEcho => d'.applyEcho = d.applyEcho
  | .watch => d'.watch = d.watch
  | .suspendedSince => d'.suspendedSince = d.suspendedSince
  | .admission => d'.admission = d.admission
  | .reports => d'.reports = d.reports
  | .mail => d'.mail = d.mail
  | .freeCount => d'.freeCount = d.freeCount

/-- Every part but the listed ones is as it was. -/
def Device.Untouched (d d' : Device) (changed : List Part) : Prop := ∀ p, p ∉ changed → p.same d d'

/-- No other outlet's context has changed. -/
def Device.OthersStand (d d' : Device) (n : Outlet) : Prop := ∀ m : Outlet, m ≠ n → d'.outlet[m] = d.outlet[m]

/-- The Posting Queue holds the present words of a group. -/
def Device.Published (d : Device) (g : Group) : Prop := Entry.group g (d.groupWords g) ∈ d.pub.queue

/-- No other outlet's watch context has changed. -/
def Device.OtherWatchesStand (d d' : Device) (n : Outlet) : Prop := ∀ m : Outlet, m ≠ n → d'.watch[m] = d.watch[m]

/-! ## Entering the Posting Queue (R16, R20, R21) -/

/-- The group an entry stands for. -/
def Entry.group? : Entry → Option Group
  | .group g _ => some g
  | .report _ _ _ => none

/-- A group's words have entered the Posting Queue: in the place of its waiting entry, whose drain starts again, else at the
back. The Period Energy of an outlet's Meter group, its words 11 and 12, is then the last published (R16). -/
def Publication.entered (p : Publication) (g : Group) (words : List Word) : Publication :=
  { p with
    queue :=
      if p.queue.any fun e => decide (e.group? = some g) then
        p.queue.map fun e => if e.group? = some g then .group g words else e
      else p.queue ++ [.group g words]
    drained := if p.queue.head?.bind Entry.group? = some g then 0 else p.drained
    lastPeriod :=
      match g with
      | .meter n => setAt p.lastPeriod n (unpackDigits 6 (wordsValue ((words.drop 11).take 2)))
      | .charter | .level _ | .status _ => p.lastPeriod }

/-- A new publication has been made of a group: it takes the place of an update held back for a collect-clear (R21), is the
held update of a Snapshot Bracket open on its meter group (R20), or enters the queue (R16). -/
def Publication.takes (p : Publication) (g : Group) (words : List Word) : Publication :=
  let through :=
    match p.bracket with
    | some b => if g.isMeter ∧ b.group = g then { p with bracket := some { b with held := some words } } else p.entered g words
    | none => p.entered g words
  match g with
  | .meter n => if p.heldBack[n] = none then through else { p with heldBack := setAt p.heldBack n (some words) }
  | .charter | .level _ | .status _ => through

/-- New publications have been made of these groups, one after another, and of no other; every group has the words given. -/
def Publication.takesAll (p : Publication) (words : Group → List Word) (gs : List Group) : Publication :=
  gs.foldl (fun p g => p.takes g (words g)) p

/-- A change has made a new publication of a group: of the charter group while enforcement is on, and of a Status group in
RUNNING and HALTED, where the change has moved a word of the group (R36, R84, R108); of a level's or an outlet's Meter group
where its Sequence has moved on (R77, R173). -/
def Device.Moves (d d' : Device) : Group → Prop
  | .charter => d'.enforcing = true ∧ d'.groupWords .charter ≠ d.groupWords .charter
  | .status n => d'.inService = true ∧ d'.groupWords (.status n) ≠ d.groupWords (.status n)
  | .level l => (d'.engine.levels.get l).sequence ≠ (d.engine.levels.get l).sequence
  | .meter n => (d'.engine.outlets[n]).sequence ≠ (d.engine.outlets[n]).sequence

/-- Every group whose words a change has moved is waiting: the Status group of each outlet in RUNNING and HALTED (R84, R108),
and the charter group while enforcement is on (R36). -/
structure Device.Announces (d d' : Device) : Prop where
  status : d'.inService = true →
    ∀ n : Outlet, d'.groupWords (.status n) ≠ d.groupWords (.status n) → d'.Published (.status n)
  charter : d'.enforcing = true → d'.groupWords .charter ≠ d.groupWords .charter → d'.Published .charter

/-- What a change has done to the Publication Unit: it has made new publications of the groups it moves, and of those that
it publishes at all events, each with the words the block now shows for it, in some order; and nothing else. Every other
entry, and every report entry, stands in its place, and the bracket, the updates held back, the last-published periods and
the drain under way are as they were but for what these publications make of them (R16, R20, R21). -/
def Device.Publishes (d d' : Device) (anyhow : List Group) : Prop :=
  ∃ gs : List Group, (∀ g, g ∈ gs ↔ d.Moves d' g ∨ g ∈ anyhow) ∧ d'.pub = d.pub.takesAll d'.groupWords gs

/-- One interval close has counted for the Snapshot Bracket: the second one closes it, and its held update enters the queue
but where the close publishes the group itself (R20; log 21). -/
def Publication.closeCounted (p : Publication) (published : List Group) : Publication :=
  match p.bracket with
  | none => p
  | some b =>
    let shut := { p with bracket := none }
    if b.closes = 0 then { p with bracket := some { b with closes := 1 } }
    else if b.group ∈ published then shut
    else
      match b.held with
      | none => shut
      | some words => shut.entered b.group words

/-! ## The words of the published groups (10) -/

/-- The k words of a value, the most significant first. -/
def wordsAt (k : Nat) (x : Nat) : List Word := (List.range k).map fun i => BitVec.ofNat 16 (x / 65536 ^ (k - 1 - i))

/-- The 64-bit value that words 9 to 12 of a level's record show, field by field from its top bit (10; the Over-Limit of a
close whose loads are still on their way is log 15's). -/
def Device.packedValue (d : Device) (l : Level) : Nat :=
  let m := d.engine.levels.get l
  let signed (w : Nat) : Nat := (m.power % 2 ^ w).toNat
  match l with
  | .phase p =>
    d.engine.voltages[p] % 2 ^ 14 * 2 ^ 50 + m.load % 2 ^ 20 * 2 ^ 30 + signed 25 * 2 ^ 5
      + (d.overLimit l).toNat * 2 ^ 4 + m.quality.isPartial.toNat * 2 ^ 3 + m.quality.noSamples.toNat * 2 ^ 2
      + m.quality.refDrift.toNat * 2 + m.quality.noLineSync.toNat
  | .branch b =>
    let place :=
      match d.admission.slots[b] with
      | none => 0
      | some s => s.outlet.val % 8 + 1
    m.load % 2 ^ 19 * 2 ^ 45 + signed 24 * 2 ^ 21 + d.admission.reserved.branch[b] / 100 % 2 ^ 9 * 2 ^ 12
      + d.admission.queues[b].length % 2 ^ 4 * 2 ^ 8 + place * 2 ^ 4 + (d.overLimit l).toNat * 2 ^ 3
      + m.quality.isPartial.toNat * 2 ^ 2 + m.quality.refDrift.toNat * 2 + m.quality.noLineSync.toNat
  | .inlet =>
    m.load % 2 ^ 22 * 2 ^ 42 + signed 27 * 2 ^ 15 + m.rollover % 2 ^ 8 * 2 ^ 7 + (d.overLimit l).toNat * 2 ^ 3
      + m.quality.isPartial.toNat * 2 ^ 2 + m.quality.refDrift.toNat * 2 + m.quality.noLineSync.toNat

/-- The words of the four kinds of published group, word by word with their code values (10; R36, R67, R108, R173, R183). -/
structure Device.WordsLaid (d : Device) : Prop where
  charter :
    let roll (l : Level) : Nat := (d.engine.levels.get l).rollover % 256
    let state := [CharterState.unchartered, .sweeping, .running, .halted, .rejected].idxOf d.charter.state
    d.groupWords .charter =
      ([state, if d.charter.reject = .layout then 1 else 0, d.pins.bankB.toNat, d.charter.uptime / 65536,
        d.charter.uptime, d.suspendedSince.isSome.toNat, d.sampler.drifting.toNat, d.engine.lineFrequency,
        d.sampler.locked.toNat, d.applyEcho.1.toNat, d.applyEcho.2, roll (.branch 0) * 256 + roll (.branch 1),
        roll (.branch 2) * 256 + roll (.branch 3), roll (.branch 4) * 256 + roll (.branch 5),
        roll (.phase 0) * 256 + roll (.phase 1), roll (.phase 2) * 256].map (BitVec.ofNat 16)) ++ List.replicate 16 0
  level : ∀ l : Level,
    let m := d.engine.levels.get l
    d.groupWords (.level l) = m.sequence :: (wordsAt 4 (d.packedValue l) ++ wordsAt 3 m.lifetime.packed)
  status : ∀ n : Outlet,
    let o := d.outlet[n]
    let w := d.watch[n]
    let result : Nat :=
      match o.echoResult with
      | .taken => 0x00 | .clamped => 0x01 | .deferred => 0x02 | .noChange => 0x03 | .superseded => 0x04
      | .refusedState => 0x10 | .refusedMode => 0x11 | .refusedLocked => 0x12 | .refusedUnknown => 0x13
      | .refusedAbsent => 0x14 | .refusedHalted => 0x15 | .refusedHold => 0x16
    let state := [OutletState.unmanaged, .absent, .off, .queued, .closing, .inrush, .on, .opening, .dwell,
      .fault].idxOf o.state
    let watch := [WatchState.idle, .grace, .watching, .suspect, .hung, .lockedOut].idxOf w.state
    let fault := [none, some FaultKind.failedClose, some .welded, some .currentWhileOff, some .contactMoved].idxOf o.fault
    d.groupWords (.status n) =
      ([o.echoTag.toNat * 256 + result, state, if o.sensed = .closed then 1 else 0,
        [none, some Target.on, some .off].idxOf o.staged, watch, w.held.toNat,
        [none, some Cause.request, some .verdict].idxOf o.lastCause, w.recent.length, o.since / 65536, o.since,
        fault].map (BitVec.ofNat 16)) ++ List.replicate 7 0
  meter : ∀ n : Outlet,
    let m := d.engine.outlets[n]
    let q := m.quality
    d.groupWords (.meter n) =
      m.sequence :: BitVec.ofNat 16 m.current :: (wordsAt 2 (m.power % 2 ^ 32).toNat ++ wordsAt 2 m.apparent ++
        [BitVec.ofNat 16 (q.noSamples.toNat + q.lowCount.toNat * 2 + q.overrange.toNat * 4 + q.refDrift.toNat * 8 +
            q.noLineSync.toNat * 16),
          BitVec.ofNat 16 ([GainRange.x1, .x4, .x16].idxOf m.range)] ++
        wordsAt 3 m.lifetime.packed ++ wordsAt 2 m.period.packed ++ [BitVec.ofNat 16 m.rollover])

/-! ## Locks (R6) -/

/-- The lock at an offset is on: its word is not 0, and during SWEEPING it has been swept or written since the sweep
began. -/
def Device.LockedBy (d : Device) (off : Nat) : Prop :=
  d.shadow off ≠ 0 ∧ (d.charter.state = .sweeping →
    (∀ pos, d.charter.sweepPosition = some pos → off < pos) ∨ off ∈ d.path.lockWritten)

/-! ## Processor accesses -/

/-- An access that is presented now starts now (R18): WAIT holds none, and the queue is below the threshold. -/
structure Device.BusFree (d : Device) : Prop where
  free : d.path.held = none
  room : d.pub.queue.length < Config.queueThreshold

/-- A write that starts now and that the part accepts in RUNNING or HALTED, to the processor-owned word at an offset:
no lock covers the word, or the write is privileged (R4, R7). -/
structure Device.Accepts (d : Device) (a : WriteAccess) (off : Nat) : Prop extends d.BusFree where
  offset : windowOffset d.pins.windowBase a.addr = some off
  service : d.inService = true
  owned : (place off).kind = .processorOwned
  allowed : d.protectedAt (place off) = false ∨ a.privileged = true

/-- The merged value of a write to a word the Shadow File holds (R5). -/
def Device.merged (d : Device) (off : Nat) (a : WriteAccess) : Word := mergeWord (d.shadow off) a.enables a.data

/-- The block with a merged value stored in RAM and in the Shadow File, and nothing else changed (R4). -/
def Device.stored (d : Device) (off : Nat) (a : WriteAccess) : Device :=
  { d with
    ram := d.ram.writeWord a.addr.toNat (d.merged off a)
    path := { d.path with shadow := Store.write d.path.shadow off (d.merged off a) } }

/-- A write that the part recognises as a request in RUNNING or HALTED (R11). -/
structure Device.Requests (d : Device) (a : WriteAccess) (n : Outlet) (tag code : Byte) : Prop
    extends d.Accepts a (outletWord n requestWord) where
  tagIs : requestTag (d.merged (outletWord n requestWord) a) = tag
  codeIs : requestCodeByte (d.merged (outletWord n requestWord) a) = code
  notZero : tag ≠ 0
  notLast : tag ≠ d.path.lastTag[n]

/-- An outlet's context with an answer in its Echo (R110). -/
def OutletContext.echo (o : OutletContext) (tag : Byte) (r : EchoResult) : OutletContext :=
  { o with echoTag := tag, echoResult := r }

/-- The report of a cycle cancelled as the outlet enters a state: none without an intent (R98). -/
def OutletContext.cancelReport (o : OutletContext) (n : Outlet) (entered : OutletState) : List Report :=
  match o.intent with
  | none => []
  | some i => [⟨.cycleCancelled, .outlet n, i.cause.code, entered.code⟩]

/-- An outlet's context at rest in OFF, its cycle intent cleared. -/
def OutletContext.rested (o : OutletContext) (uptime : Nat) : OutletContext :=
  { o with
    state := .off, since := uptime, intent := none, leakCount := 0, leakSkip := true, mismatch := 0
    dwell := if o.state = .dwell then none else o.dwell }

/-- An outlet's context as OPENING begins, its cycle intent cleared. -/
def OutletContext.opening (o : OutletContext) (uptime : Nat) : OutletContext :=
  { o with
    state := .opening, since := uptime, intent := none, operation := some (.opening, Config.operateTime)
    inrush := if o.state = .inrush then none else o.inrush }

/-- An outlet's context as it enters FAULT (R104). -/
def OutletContext.faulted (o : OutletContext) (kind : FaultKind) (uptime : Nat) : OutletContext :=
  { o with
    state := .fault, since := uptime, fault := some kind, intent := none
    inrush := if o.state = .inrush then none else o.inrush
    dwell := if o.state = .dwell then none else o.dwell }

/-- An outlet's context after the settled-sense check of a close: the second mismatch in a row faults it (R103). -/
def OutletContext.settledBy (o : OutletContext) (uptime : Nat) : OutletContext :=
  let expected : Option Sense :=
    match o.state with
    | .off | .queued | .dwell => some .opened
    | .inrush | .on => some .closed
    | _ => none
  if expected = none then o
  else if some o.sensed = expected then { o with mismatch := 0 }
  else if o.mismatch = 0 then { o with mismatch := 1 }
  else { o with mismatch := o.mismatch + 1 }.faulted .contactMoved uptime

/-- An outlet's context after both checks of a close (R102, R103; a close without samples that is sensed CLOSED leaves the
leak count, log 33). The first close after the state was entered, or after sweep end, is not examined for leaks; the second
one in a row with current through open contacts faults the outlet. -/
def OutletContext.checked (o : OutletContext) (item : SenseItem) (uptime : Nat) : OutletContext :=
  let count :=
    if item.scanned = false then 0
    else if item.quality.noSamples = true then o.leakCount
    else if o.sensed = .opened ∧ 250 ≤ item.current then o.leakCount + 1
    else 0
  if o.state ≠ .off ∧ o.state ≠ .dwell then o.settledBy uptime
  else if o.leakSkip then { o with leakSkip := false }.settledBy uptime
  else if 2 ≤ count then { o with leakCount := count }.faulted .currentWhileOff uptime
  else { o with leakCount := count }.settledBy uptime

/-- An outlet's context with a staged target in its deferred slot; a request there is answered SUPERSEDED (R123). -/
def OutletContext.deferTo (o : OutletContext) (t : Target) : OutletContext :=
  let o' := { o with staged := none, deferred := some (.target t) }
  match o.deferred with
  | some (.request _ tag _) => o'.echo tag .superseded
  | some (.target _) => o'
  | none => o'

/-- An outlet's context after a taken Apply has visited it: the table of R122. -/
def OutletContext.applied (o : OutletContext) (uptime : Nat) : OutletContext :=
  let cleared := { o with staged := none }
  match o.staged, o.state with
  | none, _ => o
  | some _, .fault => o
  | some .on, .off => { cleared with state := .queued, since := uptime, mismatch := 0 }
  | some .on, .dwell => { cleared with state := .queued, since := uptime, mismatch := 0, dwell := none }
  | some .on, .closing => o.deferTo .on
  | some .on, .opening => o.deferTo .on
  | some .on, _ => cleared
  | some .off, .queued => if o.mode = .alwaysOn then cleared else cleared.rested uptime
  | some .off, .inrush => if o.mode = .alwaysOn then cleared else cleared.opening uptime
  | some .off, .on => if o.mode = .alwaysOn then cleared else cleared.opening uptime
  | some .off, .closing => if o.mode = .alwaysOn then cleared else o.deferTo .off
  | some .off, .opening => if o.mode = .alwaysOn then cleared else o.deferTo .off
  | some .off, _ => cleared

/-- The reports a taken Apply makes of an outlet: an OFF target that moves it cancels its cycle (R98, R122). -/
def OutletContext.applyReports (o : OutletContext) (n : Outlet) : List Report :=
  if o.staged = some .off ∧ o.mode ≠ .alwaysOn then
    if o.state = .queued then o.cancelReport n .off
    else if o.state = .inrush ∨ o.state = .on then o.cancelReport n .opening
    else []
  else []

/-- What a taken Apply's change of an outlet hands the Admission Unit (R84, R122). -/
def OutletContext.applyMoves (o : OutletContext) (n : Outlet) : List AdmissionMessage :=
  if o.staged = some .on ∧ (o.state = .off ∨ o.state = .dwell) then [.join n]
  else if o.staged = some .off ∧ o.mode ≠ .alwaysOn ∧ o.state = .queued then [.removal n]
  else if o.staged = some .off ∧ o.mode ≠ .alwaysOn ∧ o.state = .inrush then [.release n]
  else []

/-- A taken Apply counts the outlet: the column of R122's table. -/
def OutletContext.counted (o : OutletContext) : Bool :=
  match o.staged, o.state with
  | some .on, .off | some .on, .dwell | some .on, .closing | some .on, .opening => true
  | some .off, .queued | some .off, .inrush | some .off, .on | some .off, .closing | some .off, .opening =>
    decide (o.mode ≠ .alwaysOn)
  | _, _ => false

/-! ## What completes with the deferred slot full (R119, R124) -/

/-- What an outlet makes of something it takes: its context, and what it hands on. -/
structure Reaction where
  outlet : OutletContext
  reports : List Report
  toAdmission : List AdmissionMessage

/-- A context with nothing handed on. -/
def OutletContext.quietly (o : OutletContext) : Reaction := ⟨o, [], []⟩

/-- A SWITCH_ON deferred during an operation, taken in the state the completion leaves (R112, R119). -/
def OutletContext.takesOn (o : OutletContext) (n : Outlet) (tag : Byte) (uptime : Nat) : Reaction :=
  if o.state = .off ∨ o.state = .dwell then
    ⟨OutletContext.echo
      { o with
        state := .queued, since := uptime, mismatch := 0, dwell := if o.state = .dwell then none else o.dwell }
      tag .taken, [], [.join n]⟩
  else (o.echo tag (if o.state = .fault then .refusedState else .noChange)).quietly

/-- A SWITCH_OFF deferred during an operation, taken in the state the completion leaves (R113, R115, R116, R119). -/
def OutletContext.takesOff (o : OutletContext) (n : Outlet) (tag : Byte) (uptime : Nat) (hold : Bool) : Reaction :=
  if o.state = .fault then (o.echo tag .refusedState).quietly
  else if o.state = .off then (o.echo tag .noChange).quietly
  else if o.state = .dwell then
    if o.mode = .alwaysOn then
      ⟨OutletContext.echo { o.rested uptime with state := .queued } tag .taken, o.cancelReport n .off, [.join n]⟩
    else ⟨(o.rested uptime).echo tag .taken, o.cancelReport n .off, []⟩
  else if o.mode = .alwaysOn then (o.echo tag .refusedMode).quietly
  else if hold then (o.echo tag .refusedHold).quietly
  else ⟨(o.opening uptime).echo tag .taken, o.cancelReport n .opening, [.release n]⟩

/-- A CYCLE deferred during an operation, taken in the state the completion leaves, with its dwell clamped from the one
asked for (R114 to R117, R119). -/
def OutletContext.takesCycle (o : OutletContext) (n : Outlet) (tag : Byte) (uptime : Nat) (hold : Bool)
    (asked dwell : Nat) : Reaction :=
  let result := if dwell = asked then EchoResult.taken else EchoResult.clamped
  let started : Report := ⟨.cycleStart, .outlet n, Cause.request.code, BitVec.ofNat 16 dwell⟩
  if o.state = .fault then (o.echo tag .refusedState).quietly
  else if o.state = .off then
    ⟨OutletContext.echo
      { o with
        state := .dwell, since := uptime, leakCount := 0, leakSkip := true, mismatch := 0
        lastCause := some .request, intent := some ⟨.request, dwell, some uptime, none⟩
        dwell := some (dwell * 1000000) } tag result, o.cancelReport n .dwell ++ [started], []⟩
  else if o.state = .dwell then
    (OutletContext.echo
      { o with
        intent := o.intent.map fun i : Intent => { i with dwell := dwell }
        dwell := o.intent.map fun _ => dwell * 1000000 } tag result).quietly
  else if o.mode = .alwaysOn then (o.echo tag .refusedMode).quietly
  else if hold then (o.echo tag .refusedHold).quietly
  else
    ⟨OutletContext.echo
      { o with
        state := .opening, since := uptime, lastCause := some .request, intent := some ⟨.request, dwell, none, none⟩
        operation := some (.opening, Config.operateTime), inrush := if o.state = .inrush then none else o.inrush }
      tag result, o.cancelReport n .opening ++ [started], [.release n]⟩

/-- A staged target deferred during an operation, taken in the state the completion leaves, or returned (R124). One that is
taken leaves a Staged Target staged since as it stands (the model's choice, log 39). -/
def OutletContext.takesTarget (o : OutletContext) (n : Outlet) (t : Target) (uptime : Nat) (mayAct : Bool) : Reaction :=
  if mayAct = false ∨ o.state = .fault then
    OutletContext.quietly { o with staged := if o.staged = none then some t else o.staged }
  else
    match t with
    | .on =>
      if o.state = .off ∨ o.state = .dwell then
        ⟨{ o with
            state := .queued, since := uptime, mismatch := 0
            dwell := if o.state = .dwell then none else o.dwell }, [], [.join n]⟩
      else o.quietly
    | .off =>
      if o.state = .inrush ∧ o.mode ≠ .alwaysOn then ⟨o.opening uptime, o.cancelReport n .opening, [.release n]⟩
      else o.quietly

/-- What an outlet makes of the content of its deferred slot, in the state `o` that a completion leaves it in. -/
def Device.reactionOf (d : Device) (n : Outlet) (content : Option Deferred) (o : OutletContext) : Reaction :=
  let up := d.charter.uptime
  let hold := d.pins.hold
  let c := d.charter.settings
  let emptied := { o with deferred := none }
  match content with
  | none => o.quietly
  | some (.target t) => emptied.takesTarget n t up (decide (d.charter.state = .running ∧ hold = false))
  | some (.request code tag argument) =>
    let asked := if argument = 0 then min 3600 (d.outletField n 5) else argument
    if d.charter.state = .halted then (emptied.echo tag .refusedHalted).quietly
    else
      match code with
      | .switchOn => emptied.takesOn n tag up
      | .switchOff => emptied.takesOff n tag up hold
      | .cycle =>
        emptied.takesCycle n tag up hold asked
          (max (min c.dwellMin c.dwellMax) (min (max c.dwellMin c.dwellMax) asked))
      | _ => emptied.quietly

/-! ## Answers -/

/-- What every answered request leaves, beside the outlet's own context and the listed parts (R4, R11, R110): the word
stored, its tag the last taken one, the Status group published, every other context as it was. -/
structure Device.Answered (d d' : Device) (a : WriteAccess) (n : Outlet) (tag : Byte) (changed : List Part) : Prop where
  ram : d'.ram = (d.stored (outletWord n requestWord) a).ram
  path : d'.path =
    { (d.stored (outletWord n requestWord) a).path with lastTag := setAt d.path.lastTag n tag }
  others : d.OthersStand d' n
  published : d.Publishes d' [.status n]
  rest : d.Untouched d' ([.ram, .path, .pub, .outlet] ++ changed)

/-! ## Settings (R23) -/

/-- The settings as they are taken from the charter's words, clamped (R23). -/
def Settings.ofWords (word : Nat → Nat) : Settings where
  intervalCycles := max 4 (min 60 (word 2))
  nominal60 := decide (word 3 = 60)
  scanFirst := max 1 (min 48 (word 4))
  scanLast := max 1 (min 48 (word 5))
  refTolerance := min 2000 (word 6)
  dwellMin := max 1 (min 3600 (word 7))
  dwellMax := max 1 (min 3600 (word 8))
  inrushWindow := max 100 (min 10000 (word 9))
  cycleWindow := max 1 (min 1440 (word 10))
  confirmTime := min 600 (word 11)
  quorum := if word 12 = 0 then 0 else max 2 (min 48 (word 12))
  waitLimit := max 10 (min 3600 (word 13))
  collectClear := decide (word 14 ≠ 0)
  stripLock := decide (word 15 ≠ 0)

/-! ## Samples and intervals (R41 to R57) -/

/-- A channel after a current slot's sample: discarded while it settles, else counted (R41). -/
def Channel.counted (c : Channel) (offset r v : Int) : Channel :=
  let x := max (-32768) (min 32767 (r - offset))
  if c.settle ≠ 0 then { c with settle := c.settle - 1 }
  else
    { c with
      count := c.count + 1, sumSq := c.sumSq + x.natAbs ^ 2, sumProd := c.sumProd + x * v
      peak := max c.peak x.natAbs, saturated := c.saturated || decide (32000 ≤ r.natAbs) }

/-- The moment the slot under way completes, 2 µs after it began (R38). -/
def Sampler.slotEnd (s : Sampler) : Nat := s.slotStart + 2

/-- The block as an outlet's current slot has passed, before its samples count: the next slot begins where it ended
(R38, R39). -/
def Device.currentPassed (d : Device) (n : Outlet) (v : Int) : Device :=
  { d.advance (d.sampler.slotEnd - d.now) with sampler := { d.sampler with
      due := d.sampler.scan.find? fun m => decide (n < m)
      lastL1 := if n.phase = 0 then some (d.sampler.slotEnd, v) else d.sampler.lastL1
      slotStart := d.sampler.slotEnd } }

/-- The block as a reference slot has passed (R38, R39). -/
def Device.referencePassed (d : Device) (v : Int) : Device :=
  { d.advance (d.sampler.slotEnd - d.now) with sampler := { d.sampler with
      due := d.sampler.scan.head?, lastL1 := some (d.sampler.slotEnd, v), slotStart := d.sampler.slotEnd } }

/-- The two samples of an outlet's current slot, counted (R41, R42). -/
def Sampler.currentCounted (n : Outlet) (r v : Int) (s : Sampler) : Sampler :=
  let sums := s.voltages[n.phase]
  { s with
    channels := setAt s.channels n ((s.channels[n]).counted s.offset r v)
    voltages := setAt s.voltages n.phase ⟨sums.count + 1, sums.sumSq + v.natAbs ^ 2⟩ }

/-- The sample of a reference slot, counted: ZERO and SPAN in turn (R39, R43). -/
def Sampler.referenceCounted (r : Int) (s : Sampler) : Sampler :=
  if s.nextReference = .zero then
    { s with zeroCount := s.zeroCount + 1, zeroSum := s.zeroSum + r, nextReference := .span }
  else { s with spanCount := s.spanCount + 1, spanSum := s.spanSum + r, nextReference := .zero }

/-- A close that comes now puts the outlet into the next interval's scan set (R39, R40). -/
def Device.NextScans (d : Device) (n : Outlet) : Prop :=
  d.present n = true ∧ min d.charter.settings.scanFirst d.charter.settings.scanLast ≤ n.val + 1 ∧
  n.val + 1 ≤ max d.charter.settings.scanFirst d.charter.settings.scanLast

/-- The interval is in drift (R46). -/
def Device.inDrift (d : Device) : Bool :=
  if d.inService then
    if d.sampler.spanCount = 0 then d.sampler.drifting
    else decide (d.charter.settings.refTolerance <
      (d.sampler.spanSum.tdiv d.sampler.spanCount - d.sampler.offset - 20000).natAbs)
  else false

/-- The gain range of the next interval (R48). -/
def Channel.rangeAfter (c : Channel) : GainRange :=
  match c.range with
  | .x1 => if c.count ≠ 0 ∧ c.peak < 6400 then .x4 else .x1
  | .x4 => if c.count = 0 then .x4 else if c.saturated then .x1 else if c.peak < 6400 then .x16 else .x4
  | .x16 => if c.count ≠ 0 ∧ c.saturated then .x4 else .x16

/-- An interval has closed at a time: the hand-off to the Close Engine, Calibration State, and what the next interval
starts from (R40, R44 to R49, R57). The slot under way goes on across the close, but where a changed scan set begins a new
pass at once (R40; log 42). -/
structure Device.ClosedAt (d d' : Device) (time : Nat) (synchronised : Bool) : Prop where
  record : d'.mail.closes = d.mail.closes ++
    [⟨d.sampler.scan, d.sampler.channels, d.sampler.voltages, time - d.sampler.intervalStart, synchronised, d.inDrift,
      d.sampler.cycles⟩]
  drifting : d'.sampler.drifting = if d.inService then d.inDrift else d.sampler.drifting
  calibration : d.inService = true → d.inDrift ≠ d.sampler.drifting →
    ⟨if d.inDrift then .calDrift else .calRestored, .strip,
      BitVec.ofNat 16 (min 65535
        (d.sampler.spanSum.tdiv d.sampler.spanCount - d.sampler.offset - 20000).natAbs),
      BitVec.ofInt 16 d.sampler.offset⟩ ∈ d'.mail.reports
  offset : d'.sampler.offset =
    if d.sampler.zeroCount = 0 then d.sampler.offset
    else (2 * d.sampler.zeroSum + d.sampler.zeroCount) / (2 * d.sampler.zeroCount)
  scan : ∀ n : Outlet, n ∈ d'.sampler.scan ↔ d.NextScans n
  channels : ∀ n : Outlet,
    let c := d.sampler.channels[n]
    let range := if n ∈ d.sampler.scan then c.rangeAfter else c.range
    d'.sampler.channels[n] =
      ⟨range, if range ≠ c.range ∨ n ∈ d'.sampler.scan ∧ n ∉ d.sampler.scan then 8 else 0, 0, 0, 0, 0, false⟩
  due : d'.sampler.due = if d'.sampler.scan = d.sampler.scan then d.sampler.due else d'.sampler.scan.head?
  sums : d'.sampler.voltages = Vector.replicate 3 ⟨0, 0⟩ ∧ d'.sampler.zeroCount = 0 ∧ d'.sampler.zeroSum = 0 ∧
    d'.sampler.spanCount = 0 ∧ d'.sampler.spanSum = 0
  settings : d'.sampler.cycles = d.charter.settings.intervalCycles ∧
    d'.sampler.nominal60 = d.charter.settings.nominal60
  start : d'.sampler.intervalStart = time
  slot : d'.sampler.slotStart =
    if d'.sampler.scan = d.sampler.scan then d.sampler.slotStart else max d.sampler.slotStart time
  kept : d'.sampler.nextReference = d.sampler.nextReference ∧ d'.sampler.lastL1 = d.sampler.lastL1
  frame : d.Untouched d' [.sampler, .mail, .pub]

/-- The Sampler with nothing accumulated in the interval; ranges and settle counts stand (R44). -/
def Sampler.withoutSamples (s : Sampler) : Sampler :=
  { s with
    channels := Vector.ofFn fun n : Outlet =>
      { s.channels[n] with count := 0, sumSq := 0, sumProd := 0, peak := 0, saturated := false }
    voltages := Vector.replicate 3 ⟨0, 0⟩, zeroCount := 0, zeroSum := 0, spanCount := 0, spanSum := 0 }

/-- The Sampler with what another has accumulated: the samples of each outlet of its own scan set, the voltages of each phase
that has such an outlet, and the reference sums (R40 to R43). -/
def Sampler.withSamplesOf (s held : Sampler) : Sampler :=
  { s with
    channels := Vector.ofFn fun n : Outlet =>
      let c := s.channels[n]
      let x := held.channels[n]
      if n ∈ s.scan then
        { c with count := x.count, sumSq := x.sumSq, sumProd := x.sumProd, peak := x.peak, saturated := x.saturated }
      else c
    voltages := Vector.ofFn fun p : Phase => if ∃ n ∈ s.scan, Outlet.phase n = p then held.voltages[p] else s.voltages[p]
    zeroCount := held.zeroCount, zeroSum := held.zeroSum, spanCount := held.spanCount, spanSum := held.spanSum }

/-! ## The interval close (R61 to R76) -/

/-- The greatest integer whose square does not exceed a number (R61, R63). -/
def IsRoot (x root : Nat) : Prop := root * root ≤ x ∧ x < (root + 1) * (root + 1)

/-- The nearest integer to a quotient, halves away from zero (R65). -/
def nearest (x : Int) (d : Nat) : Int := x.sign * ((2 * x.natAbs + d) / (2 * d) : Nat)

/-- The scale L of a gain range (R64). -/
def GainRange.codes : GainRange → Nat
  | .x1 => 16
  | .x4 => 4
  | .x16 => 1

/-! ## Heads of the branch queues (R156 to R166) -/

/-- The inrush estimate of an outlet, in mA (R159). -/
def Device.headEstimate (d : Device) (n : Outlet) : Nat :=
  let own := d.limit (.branch n.branch)
  let expected := min 320 (d.outletField n 4) * 100
  if own = 0 then expected else min expected (own * 100)

/-- The first of the six checks of R157 that fails for the head of a branch, in the order of its table, with the
Admission Unit as it stands; none when all six pass. -/
def Device.failingCheck (d : Device) (a : Admission) (b : Branch) (n : Outlet) : Option BlockReason :=
  let fits (l : Level) : Bool :=
    decide (d.limit l = 0 ∨ a.loads.get l + a.reserved.get l + d.headEstimate n ≤ d.limit l * 100)
  if d.charter.state ≠ .running then some .halted
  else if d.pins.hold = true then some .hold
  else if a.slots[b] ≠ none then some .slot
  else if fits (.branch b) = false then some .branch
  else if fits (.phase b.phase) = false then some .phase
  else if fits .inlet = false then some .inlet
  else none

/-- What the evaluation of a branch's head makes of the Admission Unit and of the admissions on their way. A head that a
check blocks has that check recorded in its tenure. A head that passes leaves its queue for the slot, its estimate is
reserved at its branch, phase and inlet, its admission is on its way, and the entry behind it becomes head with a tenure
of its own, blocked at the slot (R157, R162, R166, R167). -/
def Device.headSettled (d : Device) (x : Admission × List Outlet) (b : Branch) : Admission × List Outlet :=
  let a := x.1
  match a.queues[b] with
  | [] => x
  | e :: rest =>
    match d.failingCheck a b e.outlet with
    | some r =>
      ({ a with tenures := setAt a.tenures b (a.tenures[b].map fun t : Tenure => { t with reason := some r }) }, x.2)
    | none =>
      let estimate := d.headEstimate e.outlet
      ({ a with
          queues := setAt a.queues b rest
          slots := setAt a.slots b (some ⟨e.outlet, estimate, false, e.rank⟩)
          reserved :=
            { branch := setAt a.reserved.branch b (a.reserved.branch[b] + estimate)
              phase := setAt a.reserved.phase b.phase (a.reserved.phase[b.phase] + estimate)
              inlet := a.reserved.inlet + estimate }
          tenures := setAt a.tenures b
            (if rest = [] then none else some ⟨d.charter.uptime, false, some .slot⟩) }, x.2 ++ [e.outlet])

/-- Every head has been evaluated, one after another in some order, which the part does not fix (R156, R158). -/
def Device.HeadsEvaluated (d d' : Device) : Prop :=
  ∃ order : List Branch, order.Perm (branches.filter fun b => decide (d.admission.queues[b] ≠ [])) ∧
    (d'.admission, d'.mail.admissions) = order.foldl d.headSettled (d.admission, d.mail.admissions)

/-- A branch's slot was free and is occupied: a grant (R162). -/
def Admission.granted (a a' : Admission) (b : Branch) : Nat := if a.slots[b] = none ∧ a'.slots[b] ≠ none then 1 else 0

/-- Each branch group is published so many times between closes, in RUNNING and HALTED: each time its Sequence is one
higher, and nothing else of the Close Engine changes (R77, R173). -/
structure Device.SequencesMove (d d' : Device) (times : Branch → Nat) : Prop where
  engine : d'.engine = { d.engine with levels := d'.engine.levels }
  levels : ∀ l : Level, d'.engine.levels.get l =
    match l with
    | .branch b =>
      let m := d.engine.levels.get (.branch b)
      { m with sequence := m.sequence + BitVec.ofNat 16 (if d.inService then times b else 0) }
    | .phase _ | .inlet => d.engine.levels.get l

/-! ## Watches (R130 to R151) -/

/-- The predicate of R137's table. -/
def WatchContext.suspicious (w : WatchContext) : Bool :=
  match w.policy with
  | .none => false
  | .heartbeat => w.condH
  | .signature => w.condS
  | .either => w.condH || w.condS
  | .both => w.condH && w.condS

/-- A watch in IDLE: nothing runs, nothing is tracked (R130). -/
def WatchContext.stopped (w : WatchContext) : WatchContext :=
  { w with
    state := .idle, grace := none, heartbeat := none, confirm := none, reference := none, flat := 0, latest := none
    cause := none, heldHeartbeat := none, condH := false, condS := false }

/-- A watch that has just entered WATCHING (R132, R150). -/
def WatchContext.fresh (w : WatchContext) : WatchContext :=
  { w with
    state := .watching, grace := none, confirm := none, reference := none, flat := 0, latest := none, cause := none
    condH := false, condS := false
    heartbeat := if w.policy = .heartbeat ∨ w.policy = .either ∨ w.policy = .both then some 0 else none }

/-- A watch that enters GRACE; a Boot Grace of 0 runs out at once (R132). -/
def WatchContext.graced (w : WatchContext) (bootGrace : Nat) : WatchContext :=
  if bootGrace = 0 then w.fresh else { w with state := .grace, grace := some (bootGrace * 1000000) }

/-- A watch whose predicate has been found false leaves SUSPECT and HUNG (R138, R147). -/
def WatchContext.cleared (w : WatchContext) : WatchContext :=
  if w.suspicious then w
  else if w.state = .suspect then { w with state := .watching, confirm := none }
  else if w.state = .hung then { w with state := .watching, cause := none }
  else w

/-- A watch whose predicate has been evaluated: it enters SUSPECT when it is found true in WATCHING (R137, R138). -/
def WatchContext.settled (w : WatchContext) (confirmTime : Nat) : WatchContext :=
  if w.state = .watching ∧ w.suspicious then { w with state := .suspect, confirm := some (confirmTime * 1000000) }
  else w.cleared

/-- The quorum count (R140). -/
def Device.suspects (d : Device) : Nat :=
  outlets.countP fun n => decide ((d.watch[n]).state = .suspect) && (d.watch[n]).condH

/-- A quorum count that begins suspension (R140). -/
def Device.QuorumAt (d : Device) (count : Nat) : Prop :=
  d.charter.settings.quorum ≠ 0 ∧ d.suspendedSince = none ∧ d.charter.settings.quorum ≤ count

/-- The verdict decision of R143 on a watch in HUNG, apart from its report: held, cycled or locked out. -/
def Device.verdictOn (d : Device) (n : Outlet) (w : WatchContext) : WatchContext × VerdictAction :=
  if w.held = true ∨ d.pins.hold = true ∨ d.charter.state = .halted then (w, .held)
  else if w.recent.length < d.cycleLimit n then
    ({ w with
      state := .idle, recent := w.recent ++ [d.charter.uptime], outstanding := true, heldHeartbeat := w.heartbeat
      heartbeat := none, grace := none, confirm := none, offSince := false, condH := false, condS := false }, .cycled)
  else
    ({ w with
      state := .lockedOut, heartbeat := none, grace := none, confirm := none, condH := false, condS := false },
      .lockedOut)

/-- The dwell of an automatic cycle: Default Dwell, clamped to the taken bounds (R144). -/
def Device.verdictDwell (d : Device) (n : Outlet) : Nat :=
  let c := d.charter.settings
  max (min c.dwellMin c.dwellMax) (min (max c.dwellMin c.dwellMax) (min 3600 (d.outletField n 5)))

/-- A watch in HUNG, with the cause that H and S give (R138, R139). -/
def WatchContext.hung (w : WatchContext) : WatchContext :=
  { w with
    state := .hung, confirm := none
    cause :=
      if w.condH then (if w.condS then some .both else some .heartbeat) else if w.condS then some .signature else none }

/-- The verdict on a watch in HUNG as it stands here has been decided: the watch, the VERDICT report, and the cycle if it
is one (R143, R144, R146). -/
structure Device.Decided (d d' : Device) (n : Outlet) (w : WatchContext) : Prop where
  watch : d'.watch[n] = (d.verdictOn n w).1
  others : d.OtherWatchesStand d' n
  mail : d'.mail = { d.mail with
    reports := d.mail.reports ++ [⟨.verdict, .outlet n, verdictCauseCode w.cause, (d.verdictOn n w).2.code⟩]
    verdictCycles := d.mail.verdictCycles ++
      if (d.verdictOn n w).2 = .cycled then [⟨n, d.verdictDwell n, d.charter.uptime⟩] else [] }
  frame : d.Untouched d' [.watch, .pub, .mail]

/-- A watch has taken what `w` says and its predicate has been evaluated, with no suspension begun: it enters or leaves
SUSPECT, or leaves HUNG; where it enters SUSPECT and Confirm Time is 0, the confirm timer runs out at once (R137, R138). -/
structure Device.Judged (d d' : Device) (n : Outlet) (w : WatchContext) : Prop where
  waits : ¬(w.state = .watching ∧ w.suspicious = true ∧ d.charter.settings.confirmTime = 0) →
    d'.watch[n] = w.settled d.charter.settings.confirmTime ∧ d.OtherWatchesStand d' n ∧ d.Untouched d' [.watch, .pub]
  atOnce : w.state = .watching → w.suspicious = true → d.charter.settings.confirmTime = 0 → d.Decided d' n w.hung

/-- A held verdict that nothing holds any more (R147). -/
def Device.verdictFreed (d : Device) (n : Outlet) : Bool :=
  decide ((d.watch[n]).state = .hung ∧ (d.watch[n]).held = false ∧ d.charter.state = .running ∧ d.pins.hold = false)

/-- Every held verdict that nothing holds any more has been decided, one after another in some order, which the part does
not fix: each with its report, and its cycle handed to the Outlet Controller if it is one (R143, R144, R147). -/
def Device.VerdictsReleased (d d' : Device) : Prop :=
  let verdict (n : Outlet) := d.verdictOn n d.watch[n]
  (∀ n : Outlet, d'.watch[n] = if d.verdictFreed n then (verdict n).1 else d.watch[n]) ∧
  ∃ order : List Outlet, order.Perm (outlets.filter d.verdictFreed) ∧
    d'.mail.reports = d.mail.reports ++
      order.map (fun n => ⟨.verdict, .outlet n, verdictCauseCode (d.watch[n]).cause, (verdict n).2.code⟩) ∧
    d'.mail.verdictCycles = d.mail.verdictCycles ++
      (order.filter fun n => decide ((verdict n).2 = .cycled)).map fun n => ⟨n, d.verdictDwell n, d.charter.uptime⟩

/-! ## Stores (R4, log 6) -/

/-- RAM and Shadow File keep their canonical form. -/
structure Device.StoresOk (d : Device) : Prop where
  ram : Memory.wf d.ram
  shadow : Store.wf d.path.shadow

/-! ## The Posting Queue (R15) -/

/-- At most one entry for each group, and at most 64 report entries. -/
structure Publication.Bounded (p : Publication) : Prop where
  distinct : (p.queue.filterMap Entry.group?).Nodup
  reports : p.queue.countP Entry.isReport ≤ Config.maxReportEntries

/-! ## Energy (R68 to R72) -/

/-- An outlet's residual is below one Wh, its strings have 10 and 6 digits, its Rollover Count fits a byte. -/
structure OutletMeter.EnergyOk (m : OutletMeter) : Prop where
  residual : m.residual < Config.wattHour
  lifetime : m.lifetime.length = 10
  period : m.period.length = 6
  rollover : m.rollover ≤ 255

/-- A level's string has 12 digits, and its Rollover Count fits a byte. -/
structure LevelMeter.EnergyOk (m : LevelMeter) : Prop where
  lifetime : m.lifetime.length = 12
  rollover : m.rollover ≤ 255

/-- Every counter of the Close Engine is in its range. -/
structure CloseEngine.EnergyOk (e : CloseEngine) : Prop where
  outlets : ∀ n : Outlet, (e.outlets[n]).EnergyOk
  levels : ∀ l : Level, (e.levels.get l).EnergyOk

/-! ## Restart admission (R153, R166, R183) -/

/-- A branch queue stands in ascending Restart Rank, ranks are 0 to 3, and its outlets are the branch's. -/
structure QueueOk (b : Branch) (q : List QueueEntry) : Prop where
  sorted : q.Pairwise fun x y => x.rank ≤ y.rank
  rank : ∀ e ∈ q, e.rank ≤ 3
  branch : ∀ e ∈ q, Outlet.branch e.outlet = b

/-- The amount a branch's slot reserves: 0 when it is free. -/
def slotAmount (s : Option Slot) : Nat :=
  match s with
  | none => 0
  | some x => x.amount

/-- A slot's occupant is the branch's; its amount is a whole number of 100 mA, at most 32,000 mA; its rank is 0 to 3. -/
structure SlotOk (b : Branch) (s : Slot) : Prop where
  branch : Outlet.branch s.outlet = b
  whole : 100 ∣ s.amount
  amount : s.amount ≤ 32000
  rank : s.rank ≤ 3

/-- The sum of what the slots of some branches reserve. -/
def slotSum (slots : Vector (Option Slot) 6) (bs : List Branch) : Nat := (bs.map fun b => slotAmount slots[b]).sum

/-- The branches on a phase. -/
def branchesOf (p : Phase) : List Branch := branches.filter fun b => decide (b.phase = p)

/-- Queues and slots in order, and each reservation total the sum of the occupants beneath it. -/
structure Admission.Ok (a : Admission) : Prop where
  queues : ∀ b : Branch, QueueOk b a.queues[b]
  slots : ∀ b : Branch, ∀ s, a.slots[b] = some s → SlotOk b s
  branch : ∀ b : Branch, a.reserved.branch[b] = slotSum a.slots [b]
  phase : ∀ p : Phase, a.reserved.phase[p] = slotSum a.slots (branchesOf p)
  inlet : a.reserved.inlet = slotSum a.slots branches

/-! ## Outlet Controller and Admission Unit (R153 to R155, R163 to R165) -/

/-- What the Admission Unit holds of an outlet: nothing, a place in its branch's queue, or the branch's slot. -/
inductive Standing where
  | absent
  | waiting
  | holding (withdrawn : Bool)
  deriving DecidableEq, Repr

/-- What the Admission Unit holds of an outlet; none if the outlet stood in its queue twice, or in queue and slot. -/
def Admission.standing (a : Admission) (n : Outlet) : Option Standing :=
  match a.queues[Outlet.branch n].countP (fun e => decide (e.outlet = n)),
      (a.slots[Outlet.branch n]).filter (fun s => decide (s.outlet = n)) with
  | 0, none => some .absent
  | 1, none => some .waiting
  | 0, some s => some (.holding s.withdrawn)
  | _, _ => none

/-- The outlet that a hand-off to the Admission Unit is about. -/
def AdmissionMessage.outlet : AdmissionMessage → Outlet
  | .join n | .removal n | .release n | .handBack n => n

/-- A hand-off that gives up a slot. -/
def AdmissionMessage.givesUp : AdmissionMessage → Bool
  | .release _ | .handBack _ => true
  | .join _ | .removal _ => false

/-- What a hand-off makes of an outlet's standing (R153, R154, R164, R165); none for one that could not come. -/
def Standing.after : Standing → AdmissionMessage → Option Standing
  | .absent, .join _ => some .waiting
  | .waiting, .removal _ => some .absent
  | .holding true, .join _ => some (.holding false)
  | .holding false, .removal _ => some (.holding true)
  | .holding false, .release _ => some .absent
  | .holding false, .handBack _ => some .waiting
  | .holding true, .handBack _ => some .absent
  | _, _ => none

/-- The hand-offs about one outlet that are on their way to the Admission Unit. -/
def Device.handoffs (d : Device) (n : Outlet) : List AdmissionMessage :=
  d.mail.toAdmission.filter fun m => decide (m.outlet = n)

/-- An outlet's standing once some hand-offs have arrived. -/
def Standing.afterAll (s : Option Standing) (ms : List AdmissionMessage) : Option Standing :=
  ms.foldl (fun s m => s.bind (·.after m)) s

/-- An outlet is in CLOSING or INRUSH (R163). -/
def Device.closes (d : Device) (n : Outlet) : Prop := (d.outlet[n]).state = .closing ∨ (d.outlet[n]).state = .inrush

/-- An outlet's state and what the Admission Unit holds of it agree, once what is on its way has arrived: QUEUED stands in
the queue, or has been admitted; CLOSING and INRUSH hold the slot; any other state stands nowhere, or has been admitted
since and its slot is withdrawn (R155, R162 to R165). -/
structure AgreesWith (state : OutletState) (standing : Option Standing) (ms : List AdmissionMessage) (admitted : Nat) :
    Prop where
  arrives :
    match state with
    | .queued => Standing.afterAll standing ms = some .waiting ∨
        Standing.afterAll standing ms = some (.holding false) ∧ 0 < admitted
    | .closing | .inrush => Standing.afterAll standing ms = some (.holding false) ∧ admitted = 0
    | .unmanaged | .absent | .off | .on | .opening | .dwell | .fault =>
      Standing.afterAll standing ms = some .absent ∨ Standing.afterAll standing ms = some (.holding true) ∧ 0 < admitted
  /-- A held slot has one claim: an admission on its way, a closing outlet, or a release or hand-back on its way. -/
  once :
    admitted + (if state = .closing ∨ state = .inrush then 1 else 0) + ms.countP AdmissionMessage.givesUp =
      if ∃ w, standing = some (.holding w) then 1 else 0

/-- The state an outlet is in while a relay operation runs (R87, R88). -/
def RelayMove.during : RelayMove → OutletState
  | .closing => .closing
  | .opening => .opening

/-- The same of an outlet of the block; and a coil is driven in CLOSING and OPENING alone (R87, R88). -/
structure Device.LinkedAt (d : Device) (n : Outlet) : Prop where
  agrees : AgreesWith (d.outlet[n]).state (d.admission.standing n) (d.handoffs n) (d.mail.admissions.count n)
  coil : ∀ m, (d.outlet[n]).coil = some m → (d.outlet[n]).state = m.during

/-- Before service, no outlet has a state, and the Admission Unit holds nothing and is handed nothing (R85, R170). -/
structure Device.Unstarted (d : Device) : Prop where
  states : ∀ n : Outlet, (d.outlet[n]).state = .unmanaged
  admission : ∀ b : Branch, d.admission.queues[b] = [] ∧ d.admission.slots[b] = none
  handed : d.mail.toAdmission = [] ∧ d.mail.admissions = []

/-- Every outlet's state agrees with the Admission Unit, and nothing has started before service. -/
structure Device.Linked (d : Device) : Prop where
  outlets : ∀ n : Outlet, d.LinkedAt n
  start : d.inService = false → d.Unstarted

/-! ## The charter (R23, R37) -/

/-- The taken settings are in the ranges of R23. -/
structure Settings.InRange (s : Settings) : Prop where
  intervalCycles : 4 ≤ s.intervalCycles ∧ s.intervalCycles ≤ 60
  scanFirst : 1 ≤ s.scanFirst ∧ s.scanFirst ≤ 48
  scanLast : 1 ≤ s.scanLast ∧ s.scanLast ≤ 48
  refTolerance : s.refTolerance ≤ 2000
  dwellMin : 1 ≤ s.dwellMin ∧ s.dwellMin ≤ 3600
  dwellMax : 1 ≤ s.dwellMax ∧ s.dwellMax ≤ 3600
  inrushWindow : 100 ≤ s.inrushWindow ∧ s.inrushWindow ≤ 10000
  cycleWindow : 1 ≤ s.cycleWindow ∧ s.cycleWindow ≤ 1440
  confirmTime : s.confirmTime ≤ 600
  quorum : s.quorum = 0 ∨ 2 ≤ s.quorum ∧ s.quorum ≤ 48
  waitLimit : 10 ≤ s.waitLimit ∧ s.waitLimit ≤ 3600

/-- Uptime and settings of the charter are in their ranges. -/
structure Charter.Ok (c : Charter) : Prop where
  uptime : c.uptime ≤ Config.uptimeMax
  settings : c.settings.InRange

/-! ## The whole -/

/-- The invariant of the block. -/
structure Device.Inv (d : Device) : Prop where
  stores : d.StoresOk
  queue : d.pub.Bounded
  energy : d.engine.EnergyOk
  admission : d.admission.Ok
  charter : d.charter.Ok
  /-- R144: a recent-cycle list never holds more than 7 entries. -/
  recent : ∀ n : Outlet, (d.watch[n]).recent.length ≤ 7
  /-- R177: Lost Count holds at 65,535. -/
  lost : d.reports.lost ≤ 65535
  linked : d.Linked

end Sys2Proof.Machine
end

