-- ==== Sys2Proof/WellFormed.lean ====
section
/-! DEFINITION. Which commands are well formed: an access has at least one byte enabled, and the word it names and the
bytes it carries are those of its row. What the part does with an access follows from the access alone (log 4), so that
a command that is not well formed still has a meaning. -/

namespace Sys2Proof

/-- The window offset an address has when it lies in the window: its low 12 bits (R1). -/
def offsetOf (addr : Word) : Nat := addr.toNat % 4096

/-- A write selects the whole word, the low byte or the high byte (01, "Classifying an access"). -/
def Enables.valid (e : Enables) : Bool := e.high || e.low

/-- Where the word a write names lies. -/
def WriteAccess.place (a : WriteAccess) : Machine.Place := Machine.place (offsetOf a.addr)

/-- Where the word a read names lies. -/
def ReadAccess.place (a : ReadAccess) : Machine.Place := Machine.place (offsetOf a.addr)

/-- The low byte the write carries, when it carries one, is this value. -/
def WriteAccess.lowIs (a : WriteAccess) (v : Byte) : Bool := !a.enables.low || decide (a.data.extractLsb' 0 8 = v)

/-- The high byte the write carries, when it carries one, is this value. -/
def WriteAccess.highIs (a : WriteAccess) (v : Byte) : Bool := !a.enables.high || decide (a.data.extractLsb' 8 8 = v)

/-- A write to word w of some outlet's record. -/
def WriteAccess.toOutletWord (a : WriteAccess) (w : Nat) : Bool :=
  a.enables.valid && match a.place with
    | .outlet _ k => decide (k = w)
    | _ => false

/-- A write to word w of the charter record. -/
def WriteAccess.toCharterWord (a : WriteAccess) (w : Nat) : Bool :=
  a.enables.valid && decide (a.place = .charter w)

/-- A write to an outlet's Request word that carries this code (10, "Code values"). -/
def WriteAccess.isRequest (a : WriteAccess) (code : Byte) : Bool := a.toOutletWord 16 && a.lowIs code

/-- A write to the Command word that carries this command (10, "The charter record"). -/
def WriteAccess.isCommand (a : WriteAccess) (code : Byte) : Bool :=
  a.toCharterWord 1 && a.lowIs code && a.highIs 0

/-- A write to a processor-owned word that a lock may cover: not a Heartbeat word, not the ring Tail (R6). -/
def WriteAccess.isLockable (a : WriteAccess) : Bool :=
  a.enables.valid && decide (a.place.kind = .processorOwned) && decide (a.place ≠ .tail) && !a.toOutletWord 14

/-- A write to an outlet's Request word whose code is none of the eleven. -/
def WriteAccess.isUnknownRequest (a : WriteAccess) : Bool :=
  a.toOutletWord 16 && (!a.enables.low || (Machine.requestCode (a.data.extractLsb' 0 8)).isNone)

/-- The commands that are well formed. -/
def Instr.wellFormed : Instr → Bool
  | .processorWrite a => a.enables.valid
  | .protectedWriteDropped a => a.isLockable && !a.privileged
  | .ownedWriteDropped a => a.enables.valid && decide (a.place.kind = .partOwned)
  | .sequenceRead a => (Machine.sequenceGroup a.place).isSome
  | .lastWordRead a => (Machine.lastWordGroup a.place).isSome
  | .run a => a.isCommand 1
  | .halt a => a.isCommand 2
  | .heartbeat a => a.toOutletWord 14
  | .switchOn a => a.isRequest 1
  | .switchOff a => a.isRequest 2
  | .cycle a => a.isRequest 3
  | .stageOn a => a.isRequest 4
  | .stageOff a => a.isRequest 5
  | .unstage a => a.isRequest 6
  | .holdWatch a => a.isRequest 7
  | .freeWatch a => a.isRequest 8
  | .resume a => a.isRequest 9
  | .clearFault a _ => a.isRequest 10
  | .periodClear a => a.isRequest 11
  | .requestUnknown a => a.isUnknownRequest
  | .apply a => a.toCharterWord 0x10
  | .tailWrite a => a.enables.valid && decide (a.place = .tail)
  | .modeWrite a => a.toOutletWord 0
  | .watchPolicyWrite a => a.toOutletWord 1
  | .limitWrite a => a.enables.valid && match a.place with
    | .level _ w => decide (w = 0)
    | _ => false
  | .heartbeatTimeoutWrite a => a.toOutletWord 6
  | .signatureTimeWrite a => a.toOutletWord 9
  | .signatureFloorWrite a => a.toOutletWord 10 || a.toOutletWord 11
  | .cycleWindowWrite a => a.toCharterWord 0x0A
  | .heartbeatQuorumWrite a => a.toCharterWord 0x0C
  | .admissionWaitLimitWrite a => a.toCharterWord 0x0D
  | .reset _ _ | .holdAssert | .holdRelease | .accessResume _ | .collectClear | .collectClearReturn | .drainWrite
  | .sweepRead _ | .periodClearEvent | .currentSlot _ _ | .referenceSlot _ _ | .lineLoss | .timedClose
  | .closeComputation _ | .contactSenseRead _ | .signatureTrackerUpdate _ | .levelLoadsHandoff | .closingComplete _ _
  | .openingComplete _ _ | .inrushExpiry _ | .dwellExpiry _ | .admission | .join | .removal | .release | .handBack
  | .admissionWait _ | .onEvent | .offEvent | .graceExpiry _ | .heartbeatTimeout _ | .confirmExpiry _ | .verdictCycle
  | .verdictCycleAnswer | .recentCycleAgeing _ | .uptimeIncrease | .reportWrite => true

end Sys2Proof
end

