-- ==== Sys2Proof/Certificates/Slice0/Obligations.lean ====
section
/-! DEFINITION. The statements for the provers, in the order of the chapters of the manual. -/

open Sys2Proof Sys2Proof.Machine

/-! ## The block and its queue of commands -/

/-- One step carries out the command at the front of the queue with the queue's rest; with none waiting the block idles,
which is the model's choice (log 2). -/
def Obligations.StepRunsFrontCommand : Prop :=
  (∀ (c : Instr) (rest : List Instr) (s : State),
    step { s with pending := c :: rest } = exec c { s with pending := rest }) ∧
  ∀ s : State, s.pending = [] → step s = .next s

/-- Every command answers a next state, and leaves the queue of waiting commands as it is: none stops the block. -/
def Obligations.EveryCommandAnswers : Prop :=
  ∀ (c : Instr) (s : State), ∃ d, exec c s = .next { s with dev := d }

/-! ## RESET (02, 05, 08) -/

/-- RESET: the straps are sampled, and every unit takes the values its chapter gives for reset. Where a chapter gives none
(the word last answered to a read, the sensed positions, the Modes and Watch Policies not yet taken), they are the model's
of log 7. HOLD and contact sense are inputs, and stand. What RAM holds at a write under way is open (R185; log 10), so RAM
is named for no such write. (The Admission Unit's values are ResetEmptiesAdmission's.) -/
def Obligations.ResetRestoresEveryUnit : Prop :=
  ∀ (s : State) (wb : BitVec 4) (bpres : Bool), CompletesWith (.reset wb bpres) s fun d' =>
    let scan := outlets.filter fun n => bpres || decide (n.val < 24)
    d'.pins = { s.dev.pins with windowBase := wb, bankB := bpres } ∧
    (s.dev.path.held = none → d'.ram = s.dev.ram) ∧
    d'.now = 0 ∧
    d'.path = { shadow := [], lastTag := Vector.replicate 48 0, held := none, readData := 0, lockWritten := [] } ∧
    d'.pub =
      { queue := [], drained := 0, bracket := none, heldBack := Vector.replicate 48 none
        lastPeriod := Vector.replicate 48 (List.replicate 6 0) } ∧
    d'.charter =
      { state := .unchartered, reject := .none, uptime := 0, subsecond := 0, applyBaseline := 0, sweepPosition := none
        afterSweep := ⟨Vector.replicate 48 false, Vector.replicate 48 none, none, none⟩
        settings := ⟨10, false, 1, 48, 0, 1, 1, 100, 1, 0, 0, 10, false, false⟩ } ∧
    d'.applyEcho = (0, 0) ∧ d'.suspendedSince = none ∧ d'.reports = ⟨0, 0, 0⟩ ∧ d'.mail = Mail.empty ∧
    (∀ n : Outlet, d'.outlet[n] =
      { state := .unmanaged, operation := none, sensed := .opened, intent := none, lastCause := none, inrush := none
        dwell := none, deferred := none, staged := none, fault := none, since := 0, leakCount := 0, leakSkip := false
        mismatch := 0, echoTag := 0, echoResult := .taken, mode := .manual }) ∧
    (∀ n : Outlet, d'.watch[n] =
      { state := .idle, held := false, grace := none, heartbeat := none, confirm := none, reference := none, flat := 0
        latest := none, cause := none, outstanding := false, heldHeartbeat := none, offSince := false, recent := []
        policy := .none, condH := false, condS := false }) ∧
    d'.sampler =
      { scan := scan, due := scan.head?, nextReference := .zero
        channels := Vector.replicate 48 ⟨.x1, 0, 0, 0, 0, 0, false⟩, voltages := Vector.replicate 3 ⟨0, 0⟩
        zeroCount := 0, zeroSum := 0, spanCount := 0, spanSum := 0, offset := 0, drifting := false, cycles := 10
        nominal60 := false, locked := false, crossings := 0, lastCrossing := none, lastL1 := none, timedCloses := 0
        intervalStart := 0, slotStart := 0 } ∧
    (∀ n : Outlet, d'.engine.outlets[n] =
      { current := 0, power := 0, apparent := 0, range := .x1, quality := ⟨false, false, false, false, false⟩
        residual := 0, lifetime := List.replicate 10 0, period := List.replicate 6 0, rollover := 0, sequence := 0 }) ∧
    d'.engine.voltages = Vector.replicate 3 0 ∧ d'.engine.lineFrequency = 0 ∧
    (∀ l : Level, d'.engine.levels.get l =
      { load := 0, power := 0, quality := ⟨false, false, false, false⟩, lifetime := List.replicate 12 0, rollover := 0
        sequence := 0 }) ∧
    (∀ n : Outlet, (d'.outlet[n]).coil = none) ∧ d'.wait = false ∧ d'.attn = false

/-- R170: the Admission Unit after RESET. -/
def Obligations.ResetEmptiesAdmission : Prop :=
  ∀ (s : State) (wb : BitVec 4) (bpres : Bool), CompletesWith (.reset wb bpres) s fun d' =>
    (∀ b : Branch, d'.admission.queues[b] = [] ∧ d'.admission.slots[b] = none ∧ d'.admission.tenures[b] = none) ∧
    (∀ l : Level, d'.admission.reserved.get l = 0 ∧ d'.admission.overLimit.get l = false ∧
      d'.admission.loads.get l = 0) ∧
    d'.mail.admissions = [] ∧ d'.mail.reports = [] ∧ (s.dev.path.held = none → d'.ram = s.dev.ram)

/-- R22, R185, R2: no command but RESET changes the sampled straps, and none but RESET ends enforcement once it is on. -/
def Obligations.OnlyResetUndoes : Prop :=
  ∀ (c : Instr) (s t : State), (∀ wb b, c ≠ .reset wb b) → exec c s = .next t →
    t.dev.pins.windowBase = s.dev.pins.windowBase ∧ t.dev.pins.bankB = s.dev.pins.bankB ∧
    (s.dev.enforcing = true → t.dev.enforcing = true)

/-! ## The pass-through path (01) -/

/-- Storing one word: it reads back, every byte outside it reads as before, and the canonical form is kept (log 6). -/
def Obligations.WordStoreChangesTwoBytes : Prop :=
  ∀ (m : Memory) (a : Nat) (v : Word), Memory.wf m →
    (m.writeWord a v).readWord a = v ∧
    (∀ byte, byte ≠ 2 * a → byte ≠ 2 * a + 1 → (m.writeWord a v).readByte byte = m.readByte byte) ∧
    Memory.wf (m.writeWord a v)

/-- R1: the ownership map, offset by offset. -/
def Obligations.OwnershipMap : Prop :=
  ∀ off, off < 0x1000 →
    ((place off).kind = .processorOwned ↔
      off < 0x20 ∨ 0x40 ≤ off ∧ off < 0xE0 ∧ off % 16 < 8 ∨ 0x100 ≤ off ∧ off < 0xD00 ∧ off % 64 < 32 ∨
      off = 0xD01) ∧
    ((place off).kind = .unclassified ↔
      0xE0 ≤ off ∧ off < 0x100 ∨ 0xD03 ≤ off ∧ off < 0xD08 ∨ 0xF08 ≤ off)

/-- R2, R3, R4, R13: a write outside the window, or to an unclassified word, is merged into RAM and changes nothing else.
With enforcement off every window word is plain memory, and the Shadow File follows the words that are processor-owned by
layout; so too the Command word where the value written is neither RUN nor HALT. -/
def Obligations.PlainWritePasses : Prop :=
  ∀ (s : State) (a : WriteAccess), s.dev.BusFree →
    let v := mergeWord (s.dev.ram.readWord a.addr.toNat) a.enables a.data
    (windowOffset s.dev.pins.windowBase a.addr = none ∨
        (∃ off, windowOffset s.dev.pins.windowBase a.addr = some off ∧ (place off).kind = .unclassified) →
      exec (.processorWrite a) s =
        .next { s with dev := { s.dev with ram := s.dev.ram.writeWord a.addr.toNat v } }) ∧
    ∀ off, s.dev.enforcing = false → windowOffset s.dev.pins.windowBase a.addr = some off →
      (off = 1 → v ≠ 1 ∧ v ≠ 2) →
      exec (.processorWrite a) s = .next { s with dev := { s.dev with
        ram := s.dev.ram.writeWord a.addr.toNat v
        path :=
          if (place off).kind = .processorOwned then
            { s.dev.path with shadow := Store.write s.dev.path.shadow off v }
          else s.dev.path } }

/-- R4, R5, R6, R11, R13, R24, R25: an accepted write that no block acts on at once. In RUNNING or HALTED, to a word that no
block takes, of a value to the Command word that is neither RUN nor HALT, or of a Request word whose merged tag is 0 or the
last taken one: the merged word is in RAM and in the Shadow File, and nothing else changes. So too in SWEEPING, with the word
merged through RAM till it is swept, for every word but a Heartbeat, a Request with a tag that is not 0, the Apply Tag and
the Tail; a lock word so written counts as written since the sweep began. -/
def Obligations.AcceptedWriteStores : Prop :=
  (∀ (s : State) (a : WriteAccess) (off : Nat), s.dev.Accepts a off →
    let v := s.dev.merged off a
    (match place off with
      | .charter w => w = 0 ∨ 17 ≤ w ∨ w = 1 ∧ v ≠ 1 ∧ v ≠ 2
      | .level _ w => w ≠ 0
      | .outlet n w => w ∉ [0, 1, 6, 9, 10, 11, 14, 16] ∨
          w = 16 ∧ (requestTag v = 0 ∨ requestTag v = s.dev.path.lastTag[n])
      | .head | .tail | .lostCount | .slot _ _ | .unclassified => False) →
    exec (.processorWrite a) s = .next { s with dev := s.dev.stored off a }) ∧
  ∀ (s : State) (a : WriteAccess) (off : Nat), s.dev.BusFree → s.dev.charter.state = .sweeping →
    windowOffset s.dev.pins.windowBase a.addr = some off → (place off).kind = .processorOwned →
    s.dev.protectedAt (place off) = false ∨ a.privileged = true →
    let v := mergeWord (if s.dev.swept off then s.dev.shadow off else s.dev.ram.readWord a.addr.toNat) a.enables a.data
    let lock : Prop := off = 0x0F ∨ (∃ b : Branch, off = 0x71 + 16 * b.val) ∨ ∃ n : Outlet, off = outletWord n 2
    let stores (written : List Nat) : Host.Outcome State Fault Refusal := .next { s with dev := { s.dev with
      ram := s.dev.ram.writeWord a.addr.toNat v
      path := { s.dev.path with shadow := Store.write s.dev.path.shadow off v, lockWritten := written } } }
    (match place off with
      | .charter w => w ≠ 0x10
      | .level _ _ => True
      | .outlet _ w => w ≠ 14 ∧ (w = 16 → requestTag v = 0)
      | .head | .tail | .lostCount | .slot _ _ | .unclassified => False) →
    (¬lock → exec (.processorWrite a) s = stores s.dev.path.lockWritten) ∧
    (lock → exec (.processorWrite a) s = stores (off :: s.dev.path.lockWritten))

/-- R23, R24: an accepted write in RUNNING or HALTED to a charter setting is stored, and the setting is taken, clamped to
its range, with every other setting as it was. -/
def Obligations.SettingTakenAtOnce : Prop :=
  ∀ (s : State) (a : WriteAccess) (w : Nat), s.dev.Accepts a w → s.dev.StoresOk →
    w ∈ [2, 3, 4, 5, 6, 7, 8, 9, 11, 14, 15] →
    let x := (s.dev.merged w a).toNat
    let c := s.dev.charter.settings
    let stored := s.dev.stored w a
    exec (.processorWrite a) s = .next { s with dev := { stored with charter := { s.dev.charter with
      settings :=
        { c with
          intervalCycles := if w = 2 then max 4 (min 60 x) else c.intervalCycles
          nominal60 := if w = 3 then decide (x = 60) else c.nominal60
          scanFirst := if w = 4 then max 1 (min 48 x) else c.scanFirst
          scanLast := if w = 5 then max 1 (min 48 x) else c.scanLast
          refTolerance := if w = 6 then min 2000 x else c.refTolerance
          dwellMin := if w = 7 then max 1 (min 3600 x) else c.dwellMin
          dwellMax := if w = 8 then max 1 (min 3600 x) else c.dwellMax
          inrushWindow := if w = 9 then max 100 (min 10000 x) else c.inrushWindow
          confirmTime := if w = 11 then min 600 x else c.confirmTime
          collectClear := if w = 14 then decide (x ≠ 0) else c.collectClear
          stripLock := if w = 15 then decide (x ≠ 0) else c.stripLock } } } }

/-- R6, R7, R16, R108, R111: while enforcement is on, the Strip Lock protects the processor-owned words of every record, a
Branch Lock those of its branch's record and its outlets' records, an Outlet Lock those of its record; no lock protects a
Heartbeat word or the ring Tail, and during SWEEPING a lock counts as off till it is swept or written. With enforcement off
no word is protected. An ordinary write to a protected word is dropped with its PROTECT report. A Request word that is
written so with a new tag in RUNNING or HALTED is answered REFUSED_LOCKED as well, and its Status group is published. -/
def Obligations.ProtectedWriteDropped : Prop :=
  (∀ d : Device,
    let strip : Prop := d.LockedBy 0x0F
    let branch (b : Branch) : Prop := d.LockedBy (0x71 + 16 * b.val)
    (d.enforcing = false → ∀ off, d.protectedAt (place off) = false) ∧
    (d.enforcing = true →
      (∀ w < 0x20, d.protectedAt (place w) = true ↔ strip) ∧
      (∀ p : Phase, ∀ w < 8, d.protectedAt (place (0x40 + 16 * p.val + w)) = true ↔ strip) ∧
      (∀ b : Branch, ∀ w < 8, d.protectedAt (place (0x70 + 16 * b.val + w)) = true ↔ strip ∨ branch b) ∧
      (∀ w < 8, d.protectedAt (place (0xD0 + w)) = true ↔ strip) ∧
      (∀ n : Outlet, ∀ w < 32, d.protectedAt (place (outletWord n w)) = true ↔
        w ≠ 14 ∧ (strip ∨ branch n.branch ∨ d.LockedBy (outletWord n 2))) ∧
      d.protectedAt (place 0xD01) = false)) ∧
  (∀ (s : State) (a : WriteAccess) (off : Nat), s.dev.BusFree → s.dev.charter.state = .sweeping →
    windowOffset s.dev.pins.windowBase a.addr = some off →
    (off = 0x0F ∨ (∃ b : Branch, off = 0x71 + 16 * b.val) ∨ ∃ n : Outlet, off = outletWord n 2) →
    s.dev.protectedAt (place off) = false ∨ a.privileged = true → s.dev.StoresOk →
    CompletesWith (.processorWrite a) s fun d' =>
      d'.LockedBy off ↔ mergeWord (if s.dev.swept off then s.dev.shadow off else s.dev.ram.readWord a.addr.toNat)
        a.enables a.data ≠ 0) ∧
  ∀ (s : State) (a : WriteAccess) (off : Nat), s.dev.BusFree →
    windowOffset s.dev.pins.windowBase a.addr = some off → s.dev.enforcing = true →
    (place off).kind = .processorOwned → s.dev.protectedAt (place off) = true → a.privileged = false →
    let reported := { s.dev.mail with
      reports := s.dev.mail.reports ++
        [⟨.protect, (place off).subject, BitVec.ofNat 16 off, ProtectReason.locked.code⟩] }
    let tag := requestTag (s.dev.merged off a)
    ((∀ n : Outlet, off = outletWord n 16 → s.dev.inService = true → tag = 0 ∨ tag = s.dev.path.lastTag[n]) →
      exec (.protectedWriteDropped a) s = .next { s with dev := { s.dev with mail := reported } }) ∧
    ∀ n : Outlet, off = outletWord n 16 → s.dev.inService = true → tag ≠ 0 → tag ≠ s.dev.path.lastTag[n] →
      CompletesWith (.protectedWriteDropped a) s fun d' =>
        s.dev.Untouched d' [.path, .pub, .outlet, .mail] ∧ s.dev.OthersStand d' n ∧ d'.mail = reported ∧
        d'.path = { s.dev.path with lastTag := setAt s.dev.path.lastTag n tag } ∧
        d'.outlet[n] = (s.dev.outlet[n]).echo tag .refusedLocked ∧
        d'.pub = s.dev.pub.takes (.status n) (d'.groupWords (.status n))

/-- R8: a write to a part-owned word while enforcement is on is dropped with its PROTECT report, and changes nothing
else. -/
def Obligations.OwnedWriteDropped : Prop :=
  ∀ (s : State) (a : WriteAccess) (off : Nat), s.dev.BusFree → s.dev.enforcing = true →
    windowOffset s.dev.pins.windowBase a.addr = some off → (place off).kind = .partOwned →
    let subject : Subject :=
      match place off with
      | .charter _ => .strip
      | .level l _ => .level l
      | .outlet n _ => .outlet n
      | .head | .tail | .lostCount | .slot _ _ | .unclassified => .window
    exec (.ownedWriteDropped a) s = .next { s with dev := { s.dev with mail := { s.dev.mail with
      reports := s.dev.mail.reports ++
        [⟨.protect, subject, BitVec.ofNat 16 off, ProtectReason.owned.code⟩] } } }

/-- R18, R21, R186: WAIT holds a write or a read presented at 128 waiting entries, and a read of a Meter group whose update
is held back for a collect-clear; nothing else changes. While WAIT holds an access, another has no effect, since there is
one bus (log 5). The held access starts when the queue is below the threshold and no update is held back from it, and does
what it would have done at once; till then it waits on, and only the contact-sense lines follow the pins. (That the threshold
still holds a read which a held-back update has held is the model's choice, log 40.) With no access held there is none to
resume, and the lines alone follow the operand (log 3, log 11). -/
def Obligations.AccessWaitsAtThreshold : Prop :=
  ∀ (s : State) (a : WriteAccess) (r : ReadAccess) (lines : SenseLines),
    let full : Prop := 128 ≤ s.dev.pub.queue.length
    let heldBack : Prop := ∃ n w, windowOffset s.dev.pins.windowBase r.addr = some (outletWord n w) ∧ 50 ≤ w ∧ w < 64 ∧
      s.dev.pub.heldBack[n] ≠ none
    let waits (acc : Access) : Device := { s.dev with path := { s.dev.path with held := some acc } }
    let pins := { s.dev.pins with senseLines := lines }
    let begun := { s.dev with path := { s.dev.path with held := none }, pins := pins }
    (s.dev.wait = true ↔ s.dev.path.held ≠ none) ∧
    (s.dev.path.held = none → full → exec (.processorWrite a) s = .next { s with dev := waits (.write a) }) ∧
    (s.dev.path.held = none → full ∨ heldBack →
      exec (.sequenceRead r) s = .next { s with dev := waits (.read r) } ∧
      exec (.lastWordRead r) s = .next { s with dev := waits (.read r) }) ∧
    (s.dev.path.held ≠ none → exec (.processorWrite a) s = .next s ∧ exec (.sequenceRead r) s = .next s) ∧
    (s.dev.path.held = none → exec (.accessResume lines) s = .next { s with dev := { s.dev with pins := pins } }) ∧
    (s.dev.path.held = some (.write a) →
      (full → exec (.accessResume lines) s = .next { s with dev := { s.dev with pins := pins } }) ∧
      (¬full →
        exec (.accessResume lines) s = exec (.processorWrite a) { s with dev := begun } ∧
        (windowOffset s.dev.pins.windowBase a.addr = none →
          exec (.accessResume lines) s = .next { s with dev := { begun with
            ram := s.dev.ram.writeWord a.addr.toNat
              (mergeWord (s.dev.ram.readWord a.addr.toNat) a.enables a.data) } }))) ∧
    (s.dev.path.held = some (.read r) →
      (full ∨ heldBack → exec (.accessResume lines) s = .next { s with dev := { s.dev with pins := pins } }) ∧
      (¬full → ¬heldBack →
        exec (.accessResume lines) s = exec (.sequenceRead r) { s with dev := begun } ∧
        exec (.accessResume lines) s = exec (.lastWordRead r) { s with dev := begun } ∧
        (windowOffset s.dev.pins.windowBase r.addr = none →
          exec (.accessResume lines) s = .next { s with dev := { begun with
            path := { begun.path with readData := s.dev.ram.readWord r.addr.toNat } } })))

/-- R14: a read is answered with the newest value waiting for its word, else from RAM. A word waits in an entry till the
entry's drain has written it: in the entry at the front, only the words from the next drain write on. -/
def Obligations.ReadAnswersNewestValue : Prop :=
  ∀ (d : Device) (a : Word),
    let waiting (older : List Entry) (e : Entry) := e.writes d.reports.lost (if older = [] then d.pub.drained else 0)
    (windowOffset d.pins.windowBase a = none → d.readValue a = d.ram.readWord a.toNat) ∧
    ∀ off, windowOffset d.pins.windowBase a = some off →
      (∀ older e newer v, d.pub.queue = older ++ e :: newer → (waiting older e).lookup off = some v →
        (∀ x ∈ newer, (x.writes d.reports.lost 0).lookup off = none) → d.readValue a = v) ∧
      ((∀ older e newer, d.pub.queue = older ++ e :: newer → (waiting older e).lookup off = none) →
        d.readValue a = d.ram.readWord a.toNat)

/-- R16, R19: a Sequence read opens the bracket on its group with no held update and a close count of 0; a second one on the
same group keeps the held update; a bracket open on another group closes, and its held update enters the queue. Nothing else
of the Publication Unit changes. -/
def Obligations.SequenceReadOpensBracket : Prop :=
  ∀ (s : State) (a : ReadAccess) (off : Nat) (g : Group), s.dev.BusFree → s.dev.heldForCollect a = false →
    s.dev.enforcing = true → windowOffset s.dev.pins.windowBase a.addr = some off →
    sequenceGroup (place off) = some g →
    CompletesWith (.sequenceRead a) s fun d' =>
      let p := s.dev.pub
      s.dev.Untouched d' [.path, .pub] ∧ d'.path = { s.dev.path with readData := s.dev.readValue a.addr } ∧
      (p.bracket = none → d'.pub = { p with bracket := some ⟨g, none, 0⟩ }) ∧
      (∀ b, p.bracket = some b → b.group = g → d'.pub = { p with bracket := some ⟨g, b.held, 0⟩ }) ∧
      (∀ b, p.bracket = some b → b.group ≠ g → b.held = none → d'.pub = { p with bracket := some ⟨g, none, 0⟩ }) ∧
      ∀ b words, p.bracket = some b → b.group ≠ g → b.held = some words →
        d'.pub = { p.entered b.group words with bracket := some ⟨g, none, 0⟩ }

/-- R16, R20, R21: a read of the bracketed group's last word closes the bracket. The held update enters the queue; but with
Collect-Clear taken, an outlet Meter group in RUNNING or HALTED hands the Close Engine its last-published period, and a held
update is held back. Nothing else of the Publication Unit changes. -/
def Obligations.LastWordReadClosesBracket : Prop :=
  ∀ (s : State) (a : ReadAccess) (off : Nat) (b : Bracket), s.dev.BusFree → s.dev.heldForCollect a = false →
    s.dev.enforcing = true → windowOffset s.dev.pins.windowBase a.addr = some off →
    lastWordGroup (place off) = some b.group → s.dev.pub.bracket = some b →
    let collects (n : Outlet) : Prop :=
      b.group = .meter n ∧ s.dev.inService = true ∧ s.dev.charter.settings.collectClear = true
    CompletesWith (.lastWordRead a) s fun d' =>
      s.dev.Untouched d' [.path, .pub, .mail] ∧ d'.path = { s.dev.path with readData := s.dev.readValue a.addr } ∧
      ((∀ n, ¬collects n) → d'.mail = s.dev.mail ∧
        (∀ words, b.held = some words → d'.pub = { s.dev.pub.entered b.group words with bracket := none }) ∧
        (b.held = none → d'.pub = { s.dev.pub with bracket := none })) ∧
      (∀ n, collects n →
        d'.pub = { s.dev.pub with bracket := none, heldBack := setAt s.dev.pub.heldBack n b.held } ∧
        d'.mail = { s.dev.mail with
          collectClears := s.dev.mail.collectClears ++ [⟨n, s.dev.pub.lastPeriod[n], b.held.isSome⟩] })

/-- R17, R18: one drain write puts the next word of the oldest entry into RAM, and the entry leaves the queue after its
last word. -/
def Obligations.DrainWritesOldestEntry : Prop :=
  ∀ (s : State) (e : Entry) (rest : List Entry) (off : Nat) (v : Word) (left : List (Nat × Word)),
    s.dev.pub.queue = e :: rest → s.dev.heldCanStart = false →
    e.writes s.dev.reports.lost s.dev.pub.drained = (off, v) :: left →
    exec .drainWrite s = .next { s with dev := { s.dev with
      ram := s.dev.ram.writeWord (s.dev.pins.windowBase.toNat * 4096 + off) v
      pub :=
        if left = [] then { s.dev.pub with queue := rest, drained := 0 }
        else { s.dev.pub with drained := s.dev.pub.drained + 1 } } }

/-! ## Charter and start-up (02) -/

/-- R16, R25, R26, R36: a RUN in UNCHARTERED or REJECTED compares the shadow Layout Revision with 3: the ring starts again
and the sweep begins, or the charter is REJECTED. The charter group is published, behind the report entries of reports made
before, and nothing else of the Publication Unit changes. (Reports made before go to the ring that ends, so the new ring
starts with this RUN's own: log 19.) -/
def Obligations.RunChecksLayout : Prop :=
  ∀ (s : State) (a : WriteAccess), s.dev.BusFree → s.dev.enforcing = false → s.dev.StoresOk →
    windowOffset s.dev.pins.windowBase a.addr = some 1 →
    mergeWord (s.dev.ram.readWord a.addr.toNat) a.enables a.data = 1 →
    CompletesWith (.run a) s fun d' =>
      d'.ram = s.dev.ram.writeWord a.addr.toNat 1 ∧
      d'.path.shadow = Store.write s.dev.path.shadow 1 1 ∧
      (s.dev.shadow 0 = 3 →
        s.dev.Untouched d' [.ram, .path, .pub, .charter, .reports, .mail] ∧
        d'.charter = { s.dev.charter with
          state := .sweeping, reject := .none, sweepPosition := some 0
          afterSweep := ⟨Vector.replicate 48 false, Vector.replicate 48 none, none, none⟩ } ∧
        d'.path.lockWritten = [] ∧ d'.reports = ⟨0, 0, 0⟩ ∧
        d'.mail = { s.dev.mail with reports := [⟨.charterState, .strip, 1, 0⟩] } ∧
        ∃ told : State, runs (s.dev.mail.reports.map fun _ => .reportWrite) s told ∧
          d'.pub = told.dev.pub.takes .charter (d'.groupWords .charter)) ∧
      (s.dev.shadow 0 ≠ 3 →
        s.dev.Untouched d' [.ram, .path, .pub, .charter, .mail] ∧
        d'.charter = { s.dev.charter with state := .rejected, reject := .layout } ∧
        d'.mail = { s.dev.mail with
          reports := s.dev.mail.reports ++ [⟨.charterState, .strip, 4, 1⟩] } ∧
        d'.pub = s.dev.pub.takes .charter (d'.groupWords .charter))

/-- R25: the commands that have no effect in the charter state they find leave their word stored and nothing else changed. -/
def Obligations.CommandWithoutEffect : Prop :=
  ∀ (s : State) (a : WriteAccess),
    (s.dev.BusFree → s.dev.enforcing = false → windowOffset s.dev.pins.windowBase a.addr = some 1 →
      mergeWord (s.dev.ram.readWord a.addr.toNat) a.enables a.data = 2 →
      exec (.halt a) s = .next { s with dev := { s.dev with
        ram := s.dev.ram.writeWord a.addr.toNat 2
        path := { s.dev.path with shadow := Store.write s.dev.path.shadow 1 2 } } }) ∧
    (s.dev.BusFree → s.dev.charter.state = .sweeping → windowOffset s.dev.pins.windowBase a.addr = some 1 →
      (s.dev.protectedAt (place 1) = false ∨ a.privileged = true) →
      let v := mergeWord (if s.dev.swept 1 then s.dev.shadow 1 else s.dev.ram.readWord a.addr.toNat) a.enables a.data
      let stored := { s.dev with
        ram := s.dev.ram.writeWord a.addr.toNat v
        path := { s.dev.path with shadow := Store.write s.dev.path.shadow 1 v } }
      (v = 1 → exec (.run a) s = .next { s with dev := stored }) ∧
      (v = 2 → exec (.halt a) s = .next { s with dev := stored }) ∧
      exec (.processorWrite a) s = .next { s with dev := stored }) ∧
    (s.dev.Accepts a 1 → s.dev.running = true → s.dev.merged 1 a = 1 →
      exec (.run a) s = .next { s with dev := s.dev.stored 1 a }) ∧
    (s.dev.Accepts a 1 → s.dev.charter.state = .halted → s.dev.merged 1 a = 2 →
      exec (.halt a) s = .next { s with dev := s.dev.stored 1 a })

/-- R16, R34, R35, R36, R108, R147, R156, R162, R173: a HALT taken while RUNNING publishes the charter group. A RUN taken
while HALTED resumes without a sweep and without seeding: every setting is taken again, the charter group is published and
the report made, every head is evaluated, and every held verdict that nothing holds any more is decided; each grant
publishes its branch group once, its Sequence one higher, and each Status group that changes is published; the tags, the
Apply baseline, the outlets and every energy counter keep their values. (The CHARTER_STATE report stands before the VERDICT
reports, the model's choice, log 38; a watch that enters LOCKED_OUT keeps its cause, log 23.) -/
def Obligations.HaltAndRun : Prop :=
  ∀ (s : State) (a : WriteAccess), s.dev.Accepts a 1 →
    let stored := s.dev.stored 1 a
    let told (code : Word) : Report := ⟨.charterState, .strip, code, s.dev.charter.reject.code⟩
    (s.dev.running = true → s.dev.merged 1 a = 2 → CompletesWith (.halt a) s fun d' =>
      stored.Untouched d' [.charter, .mail, .pub] ∧ d'.charter = { s.dev.charter with state := .halted } ∧
      d'.mail = { s.dev.mail with reports := s.dev.mail.reports ++ [told 3] } ∧
      d'.pub = s.dev.pub.takes .charter (d'.groupWords .charter)) ∧
    (s.dev.charter.state = .halted → s.dev.merged 1 a = 1 → CompletesWith (.run a) s fun d' =>
      let resumed := { stored with
        charter := { s.dev.charter with
          state := .running, settings := Settings.ofWords fun w => (stored.shadow w).toNat }
        mail := { s.dev.mail with reports := s.dev.mail.reports ++ [told 2] } }
      resumed.Untouched d' [.pub, .engine, .admission, .watch, .mail, .freeCount] ∧
      resumed.HeadsEvaluated d' ∧ resumed.VerdictsReleased d' ∧
      s.dev.SequencesMove d' (s.dev.admission.granted d'.admission) ∧ s.dev.Publishes d' [.charter] ∧
      d'.mail = { resumed.mail with
        reports := d'.mail.reports, verdictCycles := d'.mail.verdictCycles, admissions := d'.mail.admissions })

/-- R27: one sweep read copies one word from RAM into the Shadow File, and the position moves on: through the 1,649
processor-owned words in ascending window offset, from 0 to the ring Tail. -/
def Obligations.SweepReadsInOrder : Prop :=
  (∀ (s : State) (lines : SenseLines) (off next : Nat), s.dev.charter.state = .sweeping →
    s.dev.charter.sweepPosition = some off → s.dev.pub.queue = [] → s.dev.heldCanStart = false →
    nextSwept off = some next →
    exec (.sweepRead lines) s = .next { s with dev := { s.dev with
      path := { s.dev.path with
        shadow := Store.write s.dev.path.shadow off
          (s.dev.ram.readWord (s.dev.pins.windowBase.toNat * 4096 + off)) }
      charter := { s.dev.charter with sweepPosition := some next } } }) ∧
  (place 0).kind = .processorOwned ∧ nextSwept 0xD01 = none ∧
  ((List.range 0x1000).countP fun off => decide ((place off).kind = .processorOwned)) = 1649 ∧
  ∀ off < 0xD01, (place off).kind = .processorOwned → ∃ next, nextSwept off = some next ∧ off < next ∧
    (place next).kind = .processorOwned ∧ ∀ x, off < x → x < next → (place x).kind ≠ .processorOwned

/-- R29 to R32, R36, R67, R108, R173, R183: the read of the Tail word ends the sweep, with nothing pending: tag baselines
and every setting are taken, the counters are seeded, with a SEED_INVALID report for each seed that holds a digit above 9,
every outlet and watch is set from contact sense, the ALWAYS_ON outlets found open join their queues in ascending number,
each head with a tenure that starts at Uptime, all 107 groups are published in ascending window offset, the charter is
RUNNING with its CHARTER_STATE report, and every head is evaluated; a grant publishes its branch group again, its Sequence
then 1. In every state the words of a group are those of the manual's layout. -/
def Obligations.SweepEndEntersService : Prop :=
  (∀ d : Device, d.WordsLaid) ∧
  ∀ (s : State) (lines : SenseLines), s.dev.charter.state = .sweeping →
    s.dev.charter.sweepPosition = some tailOffset → s.dev.pub.queue = [] → s.dev.heldCanStart = false →
    s.dev.charter.afterSweep = .empty → s.dev.StoresOk →
    CompletesWith (.sweepRead lines) s fun d' =>
      let d := s.dev
      let up := d.charter.uptime
      let rank (n : Outlet) := min 3 (d.outletField n 3)
      let queued (n : Outlet) : Bool :=
        d.present n && decide (lines[n] = .opened) && decide (d.takenMode n = .alwaysOn)
      let queue (b : Branch) : List QueueEntry := [0, 1, 2, 3].flatMap fun r =>
        (outlets.filter fun n => decide (n.branch = b) && queued n && decide (rank n = r)).map fun n => ⟨n, r⟩
      let opened : Admission :=
        { queues := Vector.ofFn queue
          slots := Vector.replicate 6 none
          reserved := ⟨Vector.replicate 3 0, Vector.replicate 6 0, 0⟩
          tenures := Vector.ofFn fun b => if queue b = [] then none else some ⟨up, false, none⟩
          overLimit := ⟨Vector.replicate 3 false, Vector.replicate 6 false, false⟩
          loads := PerLevel.ofFn fun l => (d.engine.levels.get l).load }
      d.Untouched d' [.pins, .path, .pub, .charter, .engine, .outlet, .watch, .suspendedSince, .admission, .mail,
        .freeCount] ∧
      d'.pins = { d.pins with senseLines := lines } ∧
      d'.path = { d.path with
        lastTag := Vector.ofFn fun n => highByte (d.shadow (outletWord n 16))
        shadow := Store.write d.path.shadow tailOffset
          (d.ram.readWord (d.pins.windowBase.toNat * 4096 + tailOffset)) } ∧
      d'.charter = { d.charter with
        state := .running, sweepPosition := none, applyBaseline := d.shadow 0x10
        settings := Settings.ofWords fun w => (d.shadow w).toNat } ∧
      d'.suspendedSince = none ∧
      (∀ n : Outlet, d'.engine.outlets[n] = { d.engine.outlets[n] with
        lifetime := (d.outletSeed n).getD (List.replicate 10 0), period := List.replicate 6 0, residual := 0
        rollover := 0, sequence := 0 }) ∧
      (∀ l : Level, d'.engine.levels.get l = { d.engine.levels.get l with
        lifetime := (d.levelSeed l).getD (List.replicate 12 0), rollover := 0
        sequence :=
          match l with
          | .branch b => BitVec.ofNat 16 (opened.granted d'.admission b)
          | .phase _ | .inlet => 0 }) ∧
      d'.engine.voltages = d.engine.voltages ∧ d'.engine.lineFrequency = d.engine.lineFrequency ∧
      (∀ n : Outlet,
        let o := d'.outlet[n]
        o.since = up ∧ o.mode = d.takenMode n ∧ o.echoTag = 0 ∧ o.echoResult = .taken ∧
        o.operation = none ∧ o.intent = none ∧ o.deferred = none ∧ o.staged = none ∧ o.fault = none ∧
        (d.present n = false → o.state = .absent ∧ o.sensed = .opened) ∧
        (d.present n = true → o.sensed = lines[n]) ∧
        (d.present n = true → lines[n] = .closed → o.state = .on) ∧
        (d.present n = true → lines[n] = .opened →
          o.state = if d.takenMode n = .alwaysOn then .queued else .off)) ∧
      (∀ n : Outlet,
        let w := d'.watch[n]
        w.policy = d.takenPolicy n ∧ w.recent = [] ∧ w.held = false ∧ w.outstanding = false ∧
        (w.state ≠ .idle ↔
          d.present n = true ∧ lines[n] = .closed ∧ d.takenMode n = .managed ∧ d.takenPolicy n ≠ .none) ∧
        (w.state ≠ .idle → w.state = if d.bootGrace n = 0 then .watching else .grace)) ∧
      { d' with admission := opened, mail := d.mail }.HeadsEvaluated d' ∧
      (∃ seeds : List Report, seeds.Perm
        (((levels.filter fun l => decide (d.levelSeed l = none)).map fun l =>
            ⟨.seedInvalid, .level l, BitVec.ofNat 16 (levelBase l + 2), 0⟩) ++
          (outlets.filter fun n => decide (d.outletSeed n = none)).map fun n =>
            ⟨.seedInvalid, .outlet n, BitVec.ofNat 16 (outletWord n 17), 0⟩) ∧
        d'.mail = { d.mail with
          reports := d.mail.reports ++ seeds ++ [⟨.charterState, .strip, 2, d.charter.reject.code⟩]
          admissions := d'.mail.admissions }) ∧
      let groups : List Group := Group.charter :: ((List.finRange 3).map (fun p => .level (.phase p)) ++
        branches.map (fun b => .level (.branch b)) ++ [.level .inlet] ++ outlets.flatMap fun n => [.status n, .meter n])
      d'.pub = d.pub.takesAll d'.groupWords groups ∧
      (d.pub.bracket = none → (∀ n : Outlet, d.pub.heldBack[n] = none) →
        d'.pub.queue = groups.map fun g => .group g (d'.groupWords g))

/-- R9, R28, R33: heartbeats, requests, an Apply and a Tail value written during SWEEPING wait for its end; the word is
stored. At the sweep's end, in RUNNING, each waiting item is handed on just as the write that is recognised in RUNNING hands
it on: outlet by outlet in ascending number its heartbeat and then its request, whose tag becomes the last taken one, then
the Tail value, and the Apply last; nothing waits then. (The Report Writer takes the Tail value before it writes the
reports of the sweep's end, which is the model's choice, log 34.) -/
def Obligations.SweepKeepsPending : Prop :=
  (∀ (s : State) (a : WriteAccess) (off : Nat) (n : Outlet), s.dev.BusFree → s.dev.charter.state = .sweeping →
    windowOffset s.dev.pins.windowBase a.addr = some off →
    (s.dev.protectedAt (place off) = false ∨ a.privileged = true) →
    let v := mergeWord (if s.dev.swept off then s.dev.shadow off else s.dev.ram.readWord a.addr.toNat) a.enables a.data
    let p := s.dev.charter.afterSweep
    let keeps (p' : PendingSet) : Host.Outcome State Fault Refusal := .next { s with dev := { s.dev with
      ram := s.dev.ram.writeWord a.addr.toNat v
      path := { s.dev.path with shadow := Store.write s.dev.path.shadow off v }
      charter := { s.dev.charter with afterSweep := p' } } }
    (off = outletWord n 14 → exec (.heartbeat a) s = keeps { p with heartbeats := setAt p.heartbeats n true }) ∧
    (off = outletWord n 16 → requestTag v ≠ 0 →
      exec (.switchOn a) s =
        keeps { p with requests := setAt p.requests n (some (requestTag v, requestCodeByte v)) }) ∧
    (off = 0x10 → exec (.apply a) s = keeps { p with apply := some v }) ∧
    (off = tailOffset → exec (.tailWrite a) s = keeps { p with tail := some v })) ∧
  (∀ (s : State) (a : WriteAccess) (n : Outlet) (tag code : Byte),
    (s.dev.Accepts a (outletWord n 14) → s.dev.merged (outletWord n 14) a ≠ s.dev.shadow (outletWord n 14) →
      exec (.heartbeat a) s = .next { s with dev := (s.dev.stored (outletWord n 14) a).takeHeartbeat n }) ∧
    (s.dev.Requests a n tag code →
      let tagged := { s.dev.stored (outletWord n 16) a with
        path := { (s.dev.stored (outletWord n 16) a).path with lastTag := setAt s.dev.path.lastTag n tag } }
      exec (.processorWrite a) s = .next { s with dev := tagged.takeRequest n tag code (tagged.outletField n 15) }) ∧
    (s.dev.Accepts a 0x10 → s.dev.merged 0x10 a ≠ s.dev.charter.applyBaseline →
      let moved := { s.dev.stored 0x10 a with
        charter := { s.dev.charter with applyBaseline := s.dev.merged 0x10 a } }
      exec (.apply a) s = .next { s with dev := moved.takeApply (s.dev.merged 0x10 a) })) ∧
  ∀ (s : State) (lines : SenseLines), s.dev.charter.state = .sweeping →
    s.dev.charter.sweepPosition = some tailOffset → s.dev.pub.queue = [] → s.dev.heldCanStart = false →
    let p := s.dev.charter.afterSweep
    let outletReleased (d : Device) (n : Outlet) : Device :=
      let heard := if p.heartbeats[n] then d.takeHeartbeat n else d
      match p.requests[n] with
      | none => heard
      | some (tag, code) =>
        let tagged := { heard with path := { heard.path with lastTag := setAt heard.path.lastTag n tag } }
        tagged.takeRequest n tag code (tagged.outletField n 15)
    ∃ d₁ : Device,
      exec (.sweepRead lines)
        { s with dev := { s.dev with charter := { s.dev.charter with afterSweep := .empty } } } = .next { s with dev := d₁ } ∧
      CompletesWith (.sweepRead lines) s fun d' =>
        let d₂ := outlets.foldl outletReleased d₁
        let d₃ :=
          match p.tail with
          | none => d₂
          | some v => { d₂ with reports := { d₂.reports with tail := v.setWidth 6 } }
        d' = (match p.apply with
          | none => d₃
          | some v => d₃.takeApply v) ∧
        d'.charter.afterSweep = .empty ∧
        (∀ (n : Outlet) tag code, p.requests[n] = some (tag, code) → d'.path.lastTag[n] = tag) ∧
        ∀ v, p.tail = some v → d'.reports.tail = v.setWidth 6

/-- R16, R36, R37: a whole second passes: Uptime, a value of 32 bits as the invariant has it, counts on and holds at its end,
in every charter state, and each increase publishes the charter group while enforcement is on. Running timers have counted
(log 1). -/
def Obligations.UptimeCountsSeconds : Prop :=
  ∀ (s : State), s.dev.charter.uptime ≤ 4294967295 → CompletesWith .uptimeIncrease s fun d' =>
    let us := 1000000 - s.dev.charter.subsecond
    d'.charter = { s.dev.charter with
      uptime := min (s.dev.charter.uptime + 1) 4294967295
      subsecond := s.dev.charter.subsecond + us - 1000000 } ∧
    d'.now = s.dev.now + us ∧
    (∀ n : Outlet, d'.outlet[n] = (s.dev.outlet[n]).tick us) ∧
    (∀ n : Outlet, d'.watch[n] = (s.dev.watch[n]).tick s.dev.suspendedSince.isSome us) ∧
    d'.pub =
      (if s.dev.enforcing = true ∧ s.dev.charter.uptime < 4294967295 then
        s.dev.pub.takes .charter (d'.groupWords .charter)
      else s.dev.pub) ∧
    s.dev.Untouched d' [.charter, .now, .outlet, .watch, .pub]

/-! ## Sampling and calibration (03) -/

/-- R38, R39, R41, R42, R43: a slot that makes no rising pair of L1 codes adds its samples to the accumulators, and nothing
else but the part's clock moves on. Slots of 2 µs follow one another without a gap, whatever else has moved the part's
clock. (The pair is looked for between the completions of slots, log 32; the part's clock moves to the slot's completion,
log 1.) A slot that is not due does not happen (log 3). -/
def Obligations.SlotsAccumulate : Prop :=
  ∀ (s : State) (r v : Word),
    let rises : Prop := ∃ t a, s.dev.sampler.lastL1 = some (t, a) ∧ a < 0 ∧ 0 ≤ v.toInt
    (∀ n, s.dev.sampler.due = some n →
      exec (.referenceSlot r v) s = .next s ∧
      (n.phase ≠ 0 ∨ ¬rises →
        exec (.currentSlot r v) s = .next { s with dev := { s.dev.currentPassed n v.toInt with
          sampler := (s.dev.currentPassed n v.toInt).sampler.currentCounted n r.toInt v.toInt } })) ∧
    (s.dev.sampler.due = none →
      exec (.currentSlot r v) s = .next s ∧
      (¬rises → exec (.referenceSlot r v) s = .next { s with dev := { s.dev.referencePassed v.toInt with
        sampler := (s.dev.referencePassed v.toInt).sampler.referenceCounted r.toInt } }))

/-- R36, R38, R41, R42, R44, R47, R52, R53, R56, R57: a rising pair of L1 codes, in an L1 current slot or a reference slot.
The crossing lies between the samples (a sample's time is its slot's completion, the model's choice, log 32), and is ignored
within a quarter of P of the last accepted one. While LOCKED the N-th accepted crossing closes the interval, synchronised;
while LOST an accepted crossing restores synchronisation and closes the interval (its length where a timed close has passed
it is log 17). Where the earlier sample is not later than the timed close that began the interval, the two were due at the
same moment (the model's choice, log 44): the interval ends with no sample, and the slots since the timed close count in the
one that begins, but for those of an outlet that leaves the scan set. The handling slot's samples count in the interval then
under way: where the crossing closes the interval the one that begins, or the one that ends if the new scan set leaves the
outlet out (log 28; in the short interval of log 44 then in neither); slots completed since the crossing's time have counted
in the one that ends (log 41). A close that changes the scan set begins a new pass at once (log 42). The charter group is
published where Line Sync or Calibration State changes it, and no other. The next interval's length runs from the crossing
(R57). -/
def Obligations.CrossingsCloseIntervals : Prop :=
  ∀ (s : State) (i : Instr) (r v : Word) (passed : Device) (before after : Sampler → Sampler) (t₀ : Nat) (a : Int),
    (i = .referenceSlot r v ∧ s.dev.sampler.due = none ∧ passed = s.dev.referencePassed v.toInt ∧
        before = id ∧ after = Sampler.referenceCounted r.toInt ∨
      ∃ n, n.phase = 0 ∧ i = .currentSlot r v ∧ s.dev.sampler.due = some n ∧ passed = s.dev.currentPassed n v.toInt ∧
        (s.dev.NextScans n ∧ before = id ∧ after = Sampler.currentCounted n r.toInt v.toInt ∨
          ¬s.dev.NextScans n ∧ before = Sampler.currentCounted n r.toInt v.toInt ∧ after = id)) →
    s.dev.sampler.lastL1 = some (t₀, a) → a < 0 → 0 ≤ v.toInt →
    let sam := s.dev.sampler
    let period := if sam.nominal60 then 16667 else 20000
    let time := t₀ + (sam.slotEnd - t₀) * a.natAbs / (v.toInt - a).natAbs
    let accepted : Prop := ∀ last, sam.lastCrossing = some last → last + period / 4 ≤ time
    let ended := { passed with sampler := before passed.sampler }
    (¬accepted → exec i s = .next { s with dev := { ended with sampler := after ended.sampler } }) ∧
    (accepted → sam.locked = true → sam.crossings + 1 < sam.cycles →
      exec i s = .next { s with dev := { ended with sampler := after { ended.sampler with
        lastCrossing := some time, crossings := sam.crossings + 1 } } }) ∧
    (accepted → sam.locked = true → sam.cycles ≤ sam.crossings + 1 → CompletesWith i s fun d' =>
      ∃ closed : Device, d' = { closed with sampler := after closed.sampler } ∧
        ended.ClosedAt closed time true ∧ closed.sampler.locked = true ∧ closed.sampler.crossings = 0 ∧
        closed.sampler.lastCrossing = some time ∧ s.dev.Publishes d' []) ∧
    (accepted → sam.locked = false → CompletesWith i s fun d' =>
      ∃ closed : Device,
        (sam.intervalStart < t₀ →
          ended.ClosedAt closed time false ∧ d' = { closed with sampler := after closed.sampler }) ∧
        (t₀ ≤ sam.intervalStart →
          ({ ended with sampler := ended.sampler.withoutSamples }).ClosedAt closed time false ∧
          d' = { closed with sampler := after (closed.sampler.withSamplesOf ended.sampler) }) ∧
        closed.sampler.locked = true ∧ closed.sampler.crossings = 0 ∧
        closed.sampler.lastCrossing = some time ∧ s.dev.Publishes d' [] ∧
        (s.dev.enforcing = true →
          ⟨.lineRestored, .level (.phase 0), BitVec.ofNat 16 sam.timedCloses, 0⟩ ∈ closed.mail.reports))

/-- R36, R47, R54, R55: synchronisation is lost 2 P after the last accepted crossing, and the interval closes at once when N
× P or more has passed; while it is lost, the interval closes N × P after the previous close. The charter group is published
where it changes, and no other. (An event that cannot happen leaves the state, log 3; the part's clock moves to the event,
log 1. A close of these that changes the scan set ends the slot under way, and the first slot of the new pass begins at the
close: the model's choice, log 42.) -/
def Obligations.LineLossAndTimedClose : Prop :=
  ∀ s : State,
    let sam := s.dev.sampler
    let period := if sam.nominal60 then 16667 else 20000
    (sam.locked = false ∨ sam.lastCrossing = none → exec .lineLoss s = .next s) ∧
    (∀ last, sam.locked = true → sam.lastCrossing = some last → CompletesWith .lineLoss s fun d' =>
      let time := last + 2 * period
      let later := s.dev.advance (time - s.dev.now)
      let lost := { sam with locked := false, timedCloses := 0 }
      s.dev.Publishes d' [] ∧
      (s.dev.enforcing = true → ⟨.lineLoss, .level (.phase 0), 0, 0⟩ ∈ d'.mail.reports) ∧
      (time - sam.intervalStart < sam.cycles * period →
        later.Untouched d' [.sampler, .mail, .pub] ∧ d'.sampler = lost ∧ d'.mail.closes = s.dev.mail.closes) ∧
      (sam.cycles * period ≤ time - sam.intervalStart →
        later.ClosedAt d' time false ∧ d'.sampler.locked = false ∧ d'.sampler.timedCloses = 1)) ∧
    (sam.locked = true → exec .timedClose s = .next s) ∧
    (sam.locked = false → CompletesWith .timedClose s fun d' =>
      let due := sam.intervalStart + sam.cycles * period
      (s.dev.advance (due - s.dev.now)).ClosedAt d' due false ∧ d'.sampler.locked = false ∧
      d'.sampler.timedCloses = min (sam.timedCloses + 1) 65535 ∧ s.dev.Publishes d' [])

/-! ## Meter arithmetic (04) -/

/-- R59 to R67, R73 to R76, R79: the values of a close. Samples counted, phase voltages and outlet values are computed
afresh; without samples they are held, and an outlet not scanned keeps its meter. Totals, Quality and Line Frequency follow,
and in RUNNING or HALTED the other blocks are handed the close: the loads with the Limits taken at it (log 15), and to the
Outlet Controller each outlet's conditions, current and sense, with no condition but NOT_SCANNED for an outlet not scanned.
In every charter state the very reading of contact sense that the estimates use sets Relay Sensed of every present outlet
(R101); the Outlet Controller reads when it has made the checks of the closes before (logs 11, 37). (The bounds hold of
every interval: R41, R42.) -/
def Obligations.CloseComputesValues : Prop :=
  (∀ (s : State) (lines : SenseLines) (h : SenseHandoff) (later : List SenseHandoff), s.dev.mail.closes ≠ [] →
    s.dev.mail.senses = h :: later →
    ∃ t, exec (.contactSenseRead s.dev.pins.senseLines) s = .next t ∧
      exec (.closeComputation lines) s = exec (.closeComputation lines) t) ∧
  ∀ (s : State) (lines : SenseLines) (r : CloseRecord) (later : List CloseRecord), s.dev.mail.closes = r :: later →
    s.dev.mail.senses = [] → r.scan.Nodup → (∀ p : Phase, (r.voltages[p]).sumSq / (r.voltages[p]).count < 2 ^ 34) →
    (∀ n : Outlet, (r.channels[n]).sumSq / (r.channels[n]).count < 2 ^ 34) →
    CompletesWith (.closeComputation lines) s fun d' =>
      let d := s.dev
      let word (off : Nat) := (d.shadow off).toNat
      let factor (x : Nat) := max 16384 (min 49151 x)
      let kv (p : Phase) := factor (word (levelBase (.phase p) + 1))
      let expected (n : Outlet) := min 320 (word (outletWord n 4)) * 100
      let estimated (n : Outlet) : Prop := n ∉ r.scan ∧ d.present n = true ∧ lines[n] = .closed
      let beneath (l : Level) := outlets.filter fun n => l.covers n
      d.Untouched d' [.pins, .pub, .engine, .outlet, .mail, .freeCount] ∧
      d'.pins = { d.pins with senseLines := lines } ∧ d'.mail.closes = later ∧
      (∀ n : Outlet, d'.outlet[n] =
        if d.present n then { d.outlet[n] with sensed := lines[n] } else d.outlet[n]) ∧ d.Announces d' ∧
      (∀ p : Phase,
        let x := r.voltages[p]
        (x.count = 0 → d'.engine.voltages[p] = d.engine.voltages[p]) ∧
        (x.count ≠ 0 → ∃ root, IsRoot (x.sumSq / x.count) root ∧
          d'.engine.voltages[p] = (root * kv p + 81920) / 163840)) ∧
      (∀ n : Outlet,
        let c := r.channels[n]
        let m := d.engine.outlets[n]
        let m' := d'.engine.outlets[n]
        let k := factor (word (outletWord n 13))
        (n ∉ r.scan → m' = m) ∧
        (n ∈ r.scan →
          m'.quality = ⟨decide (c.count = 0), decide (1 ≤ c.count ∧ c.count ≤ 31), c.saturated, r.inDrift,
            !r.synchronised⟩) ∧
        (n ∈ r.scan → c.count = 0 →
          m'.current = m.current ∧ m'.power = m.power ∧ m'.apparent = m.apparent ∧ m'.range = m.range) ∧
        (n ∈ r.scan → c.count ≠ 0 → ∃ root, IsRoot (c.sumSq / c.count) root ∧
          m'.current = min 65535 ((root * c.range.codes * k + 131072) / 262144) ∧
          m'.power = max (-999999) (min 999999
            (nearest (c.sumProd.tdiv c.count * c.range.codes * k * kv n.phase) 42949672960000)) ∧
          m'.apparent = (m'.current * d'.engine.voltages[n.phase] + 500) / 1000 ∧ m'.range = c.range)) ∧
      (∀ l : Level,
        let x := d'.engine.levels.get l
        x.load = min 9999999 ((beneath l).map fun n =>
          if n ∈ r.scan then (d'.engine.outlets[n]).current else if estimated n then expected n else 0).sum ∧
        x.power = max (-99999999) (min 99999999
          ((beneath l).map fun n => if n ∈ r.scan then (d'.engine.outlets[n]).power else 0).sum) ∧
        (x.quality.isPartial = true ↔ ∃ n, l.covers n = true ∧ estimated n) ∧
        (x.quality.noSamples = true ↔ ∃ p, l = .phase p ∧ (r.voltages[p]).count = 0) ∧
        x.quality.refDrift = r.inDrift ∧ x.quality.noLineSync = !r.synchronised) ∧
      d'.engine.lineFrequency =
        (if r.synchronised then (r.cycles * 100000000 + r.length / 2) / r.length else d.engine.lineFrequency) ∧
      (d.inService = true →
        (∃ h, d'.mail.loads = d.mail.loads ++ [h] ∧
          ∀ l, h.loads.get l = (d'.engine.levels.get l).load ∧ h.limits.get l = min (Device.limitMax l) (d.levelField l 0)) ∧
        (∃ hs : List TrackerHandoff, d'.mail.trackers = d.mail.trackers ++ hs ∧ hs.map (·.outlet) = outlets ∧
          ∀ h ∈ hs, h.length = r.length ∧ (h.scanned = true ↔ h.outlet ∈ r.scan) ∧
            (h.outlet ∈ r.scan → h.power = (d'.engine.outlets[h.outlet]).power ∧
              h.quality = (d'.engine.outlets[h.outlet]).quality) ∧
            (h.outlet ∉ r.scan → h.quality = ⟨false, false, false, false, false⟩)) ∧
        ∃ items, d'.mail.senses = [⟨lines, Vector.ofFn fun n : Outlet => (d.outlet[n]).state, items⟩] ∧ ∀ n : Outlet,
          ((items[n]).scanned = true ↔ n ∈ r.scan) ∧
          (n ∈ r.scan → (items[n]).current = (d'.engine.outlets[n]).current ∧
            (items[n]).quality = (d'.engine.outlets[n]).quality) ∧
          (n ∉ r.scan → (items[n]).current = 0 ∧
            (items[n]).quality = ⟨false, false, false, false, false⟩)) ∧
      (d.inService = false → d'.mail = { d.mail with closes := later })

/-- R16, R20, R68, R70, R71, R72, R77, R78: the energy of a close in RUNNING or HALTED. Every scanned outlet's residual
gains its power, if positive, over the interval; the whole watt-hours go to its strings and to those of its levels; every
republished group takes the next Sequence. Before service nothing is counted. What enters the Posting Queue: the held update of a
Snapshot Bracket that this close ends without publishing the group (log 21); the Status groups that the reading of contact
sense has changed (in ascending number, log 35); the charter group if it has changed; and in RUNNING or HALTED the level
groups (their Over-Limit as the waiting loads decide it, log 15) and the Meter groups of the scanned outlets, in ascending
window offset, each through the bracket. -/
def Obligations.CloseAddsEnergy : Prop :=
  ∀ (s : State) (lines : SenseLines) (r : CloseRecord) (later : List CloseRecord), s.dev.mail.closes = r :: later →
    r.scan.Nodup → s.dev.engine.EnergyOk →
    CompletesWith (.closeComputation lines) s fun d' =>
      let e := s.dev.engine
      let total (n : Outlet) := (e.outlets[n]).residual + (d'.engine.outlets[n]).power.toNat * r.length
      let units (n : Outlet) := if n ∈ r.scan then total n / 36000000000 else 0
      let gain (l : Level) := ((outlets.filter fun n => l.covers n).map units).sum
      (s.dev.inService = true →
        (∀ n : Outlet, n ∈ r.scan → units n < 10 ^ 6 →
          let m := e.outlets[n]
          let m' := d'.engine.outlets[n]
          let wraps : Prop := 10 ^ 10 ≤ m.lifetime.value + units n
          m'.residual = total n % 36000000000 ∧
          m'.lifetime.length = 10 ∧ m'.lifetime.value = (m.lifetime.value + units n) % 10 ^ 10 ∧
          m'.period.length = 6 ∧ m'.period.value = min (m.period.value + units n) 999999 ∧
          m'.sequence = m.sequence + 1 ∧
          (¬wraps → m'.rollover = m.rollover) ∧
          (wraps → m'.rollover = min (m.rollover + 1) 255 ∧
            ⟨.rollover, .outlet n, BitVec.ofNat 16 m'.rollover, 0⟩ ∈ d'.mail.reports)) ∧
        ∀ l : Level, gain l < 10 ^ 12 →
          let m := e.levels.get l
          let m' := d'.engine.levels.get l
          let wraps : Prop := 10 ^ 12 ≤ m.lifetime.value + gain l
          m'.lifetime.length = 12 ∧ m'.lifetime.value = (m.lifetime.value + gain l) % 10 ^ 12 ∧
          m'.sequence = m.sequence + 1 ∧
          (¬wraps → m'.rollover = m.rollover) ∧
          (wraps → m'.rollover = min (m.rollover + 1) 255 ∧
            ⟨.rollover, .level l, BitVec.ofNat 16 m'.rollover, 0⟩ ∈ d'.mail.reports)) ∧
      (s.dev.inService = false →
        (∀ n : Outlet,
          let m' := d'.engine.outlets[n]
          m' = { e.outlets[n] with
            current := m'.current, power := m'.power, apparent := m'.apparent, range := m'.range, quality := m'.quality }) ∧
        ∀ l : Level,
          let m' := d'.engine.levels.get l
          m' = { e.levels.get l with load := m'.load, power := m'.power, quality := m'.quality }) ∧
      (s.dev.mail.senses = [] →
        let groups : List Group := if s.dev.inService then levels.map .level ++ r.scan.map .meter else []
        let sensed := outlets.filter fun n =>
          s.dev.inService && s.dev.present n && decide (lines[n] ≠ (s.dev.outlet[n]).sensed)
        let charter : List Group :=
          if s.dev.enforcing ∧ d'.groupWords .charter ≠ s.dev.groupWords .charter then [.charter] else []
        d'.pub = (s.dev.pub.closeCounted groups).takesAll d'.groupWords (sensed.map Group.status ++ charter ++ groups))

/-- R16, R20, R21, R80, R81, R82: a period clear sets the Period string to zeros, and a collect-clear subtracts the value
firmware read, to no less than zero, in a held-back update too. The return places that update in the Posting Queue, or makes a
new publication, whose Sequence and words are those of the return (log 16). A new publication of the Meter group enters the
queue, in the place of a waiting entry of the group or at the back; or it is the held update of a bracket open on the group;
or it takes the place of an update held back. -/
def Obligations.PeriodEnergyReduced : Prop :=
  ∀ (s : State) (n : Outlet),
    let m := s.dev.engine.outlets[n]
    let shows (d' : Device) (words : List Word) (period : Digits) : Prop :=
      Entry.group (.meter n) words ∈ d'.pub.queue ∧ d'.pub.lastPeriod[n] = period
    let others (d' : Device) : Prop :=
      d'.engine = { s.dev.engine with outlets := d'.engine.outlets } ∧
      ∀ k : Outlet, k ≠ n → d'.engine.outlets[k] = s.dev.engine.outlets[k]
    let open_ : Prop := s.dev.pub.heldBack[n] ≠ none ∨ ∃ b, s.dev.pub.bracket = some b ∧ b.group = .meter n
    (∀ later, s.dev.mail.periodClears = n :: later → CompletesWith .periodClearEvent s fun d' =>
      s.dev.Untouched d' [.pub, .engine, .mail] ∧ others d' ∧ d'.mail = { s.dev.mail with periodClears := later } ∧
      d'.engine.outlets[n] = { m with period := List.replicate 6 0, sequence := m.sequence + 1 } ∧
      d'.pub = s.dev.pub.takes (.meter n) (d'.groupWords (.meter n)) ∧
      (¬open_ → shows d' (d'.groupWords (.meter n)) (List.replicate 6 0))) ∧
    (∀ value held later, s.dev.mail.collectClears = ⟨n, value, held⟩ :: later → m.period.length = 6 →
      value.length = 6 → CompletesWith .collectClear s fun d' =>
        let period := d'.engine.outlets[n].period
        s.dev.Untouched d' [.pub, .engine, .mail] ∧ others d' ∧
        d'.engine.outlets[n] = { m with period := period } ∧
        period.length = 6 ∧ period.value = m.period.value - value.value ∧
        d'.pub = { s.dev.pub with
          heldBack := setAt s.dev.pub.heldBack n (s.dev.pub.heldBack[n].map fun words =>
            words.take 11 ++ [BitVec.ofNat 16 (period.packed / 65536), BitVec.ofNat 16 period.packed] ++ words.drop 13) } ∧
        d'.mail = { s.dev.mail with
          collectClears := later, collectReturns := s.dev.mail.collectReturns ++ [⟨n, held⟩] }) ∧
    (∀ words later, s.dev.mail.collectReturns = ⟨n, true⟩ :: later → s.dev.pub.heldBack[n] = some words →
      CompletesWith .collectClearReturn s fun d' =>
        s.dev.Untouched d' [.pub, .mail] ∧ d'.mail = { s.dev.mail with collectReturns := later } ∧
        d'.pub = Publication.entered { s.dev.pub with heldBack := setAt s.dev.pub.heldBack n none } (.meter n) words ∧
        d'.pub.heldBack[n] = none ∧
        shows d' words (unpackDigits 6 (wordsValue ((words.drop 11).take 2)))) ∧
    ∀ later, s.dev.mail.collectReturns = ⟨n, false⟩ :: later → CompletesWith .collectClearReturn s fun d' =>
      s.dev.Untouched d' [.pub, .engine, .mail] ∧ others d' ∧ d'.mail = { s.dev.mail with collectReturns := later } ∧
      d'.engine.outlets[n] = { m with sequence := m.sequence + 1 } ∧
      d'.pub = s.dev.pub.takes (.meter n) (d'.groupWords (.meter n)) ∧
      (¬open_ → m.period.length = 6 → shows d' (d'.groupWords (.meter n)) m.period)

/-- R69, R71, R81, R61: digit-by-digit arithmetic on decimal strings is arithmetic on the numbers they show, and a string
unpacks from its packed words; the root is the greatest integer whose square does not exceed its argument. -/
def Obligations.DecimalArithmetic : Prop :=
  (∀ (ds : Digits) (w : Nat),
    (ds.add w).length = ds.length ∧ (ds.add w).value = (ds.value + w) % 10 ^ ds.length ∧
    (w < 10 ^ ds.length → (ds.wraps w = true ↔ 10 ^ ds.length ≤ ds.value + w) ∧
      (ds.addSaturating w).value = min (ds.value + w) (10 ^ ds.length - 1))) ∧
  (∀ ds es : Digits, es.length = ds.length →
    (ds.subFloor es).length = ds.length ∧ (ds.subFloor es).value = ds.value - es.value) ∧
  (∀ ds : Digits, unpackDigits ds.length ds.packed = ds ∧ seedDigits ds.length ds.packed = some ds) ∧
  ∀ x < 2 ^ 34, IsRoot x (floorSqrt x)

/-! ## The outlet state machine (05) -/

/-- R16, R106, R108, R147, R156, R162, R173: an assertion of HOLD changes the line alone. A release evaluates every head and
decides again the verdict of each HUNG watch that nothing else holds; it moves no relay. Each grant publishes its branch
group once, its Sequence one higher, and each Status group that changes is published. (A release of a released line does not
happen, log 3; a watch that enters LOCKED_OUT keeps its cause, log 23.) -/
def Obligations.HoldLine : Prop :=
  ∀ s : State,
    exec .holdAssert s = .next { s with dev := { s.dev with pins := { s.dev.pins with hold := true } } } ∧
    (s.dev.pins.hold = false → exec .holdRelease s = .next s) ∧
    (s.dev.pins.hold = true → CompletesWith .holdRelease s fun d' =>
      let released := { s.dev with pins := { s.dev.pins with hold := false } }
      released.Untouched d' [.pub, .engine, .admission, .watch, .mail, .freeCount] ∧
      released.HeadsEvaluated d' ∧ released.VerdictsReleased d' ∧
      s.dev.SequencesMove d' (s.dev.admission.granted d'.admission) ∧ s.dev.Publishes d' [] ∧
      d'.mail = { s.dev.mail with
        reports := d'.mail.reports, verdictCycles := d'.mail.verdictCycles, admissions := d'.mail.admissions })

/-- R84, R88 to R92, R96, R99, R104, R119, R124: the operate time of an operation runs out, the coil is driven no longer,
and contact sense is read. The outlet comes to rest in INRUSH, DWELL, OFF, QUEUED or FAULT, and then takes what its deferred
slot holds in that state: a request is answered there, a staged target acts or is returned. A SWITCH_OFF deferred during
CLOSING is so taken against INRUSH, and begins OPENING (R91). The Status group is published, and no other. (The part's clock
moves by the time left, log 1; a target that is taken leaves one staged since as it stands, the model's choice, log 39.) -/
def Obligations.OperationsComplete : Prop :=
  ∀ (s : State) (n : Outlet) (sense : Sense) (left : Nat),
    let later := s.dev.advance left
    let up := s.dev.charter.uptime
    let m := s.dev.mail
    let was := s.dev.outlet[n]
    let o := { later.outlet[n] with operation := none, sensed := sense }
    let slot : Prop := was.deferred = none ∨ s.dev.inService = true ∧
      ((∃ t, was.deferred = some (.target t)) ∨
        ∃ code tag argument, was.deferred = some (.request code tag argument) ∧ code ∈ [.switchOn, .switchOff, .cycle])
    let rests (i : Instr) (o' : OutletContext) (m' : Mail) : Prop := CompletesWith i s fun d' =>
      let taken := s.dev.reactionOf n was.deferred o'
      later.Untouched d' [.pins, .outlet, .pub, .mail] ∧ later.OthersStand d' n ∧
      d'.pins = { s.dev.pins with senseLines := setAt s.dev.pins.senseLines n sense } ∧
      d'.outlet[n] = taken.outlet ∧
      d'.mail = { m' with
        reports := m'.reports ++ taken.reports, toAdmission := m'.toAdmission ++ taken.toAdmission } ∧
      s.dev.Publishes d' [] ∧
      ((d'.outlet[n]).coil = none ∨ (d'.outlet[n]).state = .opening ∧ (d'.outlet[n]).coil = some .opening)
    let fault (kind : FaultKind) : List Report :=
      ⟨.relayFault, .outlet n, kind.code, was.state.code⟩ :: was.cancelReport n .fault
    slot →
    (was.operation = some (.closing, left) → was.state = .closing → was.coil = some .closing ∧
      (sense = .closed → rests (.closingComplete n sense)
        { o with
          state := .inrush, since := up, mismatch := 0
          inrush := some (s.dev.charter.settings.inrushWindow * 1000)
          intent := o.intent.map fun i : Intent => { i with reclosedAt := some up } } m) ∧
      (sense = .opened → rests (.closingComplete n sense) (o.faulted .failedClose up)
        { m with reports := m.reports ++ fault .failedClose, toAdmission := m.toAdmission ++ [.release n] })) ∧
    (was.operation = some (.opening, left) → was.state = .opening → was.coil = some .opening ∧
      (sense = .closed → rests (.openingComplete n sense) (o.faulted .welded up)
        { m with reports := m.reports ++ fault .welded }) ∧
      (∀ i, was.intent = some i → sense = .opened → rests (.openingComplete n sense)
        { o with
          state := .dwell, since := up, mismatch := 0, leakCount := 0, leakSkip := true
          intent := some { i with openSince := some up }, dwell := some (i.dwell * 1000000) } m) ∧
      (was.intent = none → sense = .opened → rests (.openingComplete n sense)
        { o with
          state := if was.mode = .alwaysOn then .queued else .off
          since := up, mismatch := 0, leakCount := 0, leakSkip := true }
        { m with toAdmission := m.toAdmission ++ if was.mode = .alwaysOn then [.join n] else [] }))

/-- R84, R87, R88, R93, R95, R97, R145: the inrush window runs out, the dwell runs out, and an admission and a verdict cycle
reach the Outlet Controller: begun, with the coil driven for 30 ms, while the charter is RUNNING and HOLD is released, else
handed back or returned. A Status group that changes is published, and no other. (The part's clock moves to an expiry by the
time left, log 1.) -/
def Obligations.TimersAndCausesActOnOutlet : Prop :=
  ∀ (s : State) (n : Outlet),
    let o := s.dev.outlet[n]
    let up := s.dev.charter.uptime
    let m := s.dev.mail
    let may : Prop := s.dev.charter.state = .running ∧ s.dev.pins.hold = false
    let acts (later : Device) (i : Instr) (o' : OutletContext) (m' : Mail) : Prop := CompletesWith i s fun d' =>
      later.Untouched d' [.outlet, .pub, .mail] ∧ later.OthersStand d' n ∧ d'.outlet[n] = o' ∧ d'.mail = m' ∧
      (d'.outlet[n]).coil = o'.coil ∧ s.dev.Publishes d' []
    (∀ left, o.inrush = some left → o.state = .inrush →
      acts (s.dev.advance left) (.inrushExpiry n)
        { o.tick left with state := .on, since := up, inrush := none, mismatch := 0, intent := none }
        { m with
          reports := m.reports ++
            match o.intent with
            | none => []
            | some i => [⟨.cycleDone, .outlet n, i.cause.code,
                BitVec.ofNat 16 (min (i.reclosedAt.getD 0 - i.openSince.getD 0) 65535)⟩]
          toAdmission := m.toAdmission ++ [.release n]
          toWatch := m.toWatch ++ [.on n] }) ∧
    (∀ left, o.dwell = some left → o.state = .dwell →
      acts (s.dev.advance left) (.dwellExpiry n)
        { o.tick left with state := .queued, since := up, dwell := none, mismatch := 0 }
        { m with toAdmission := m.toAdmission ++ [.join n] }) ∧
    (∀ later, m.admissions = n :: later →
      (o.state = .queued → may →
        acts s.dev .admission { o with state := .closing, since := up, operation := some (.closing, 30000) }
          { m with admissions := later }) ∧
      (¬(o.state = .queued ∧ may) →
        acts s.dev .admission o { m with admissions := later, toAdmission := m.toAdmission ++ [.handBack n] })) ∧
    ∀ dwell entry later, m.verdictCycles = ⟨n, dwell, entry⟩ :: later →
      (o.state = .on → may →
        acts s.dev .verdictCycle
          { o with
            state := .opening, since := up, lastCause := some .verdict, intent := some ⟨.verdict, dwell, none, none⟩
            operation := some (.opening, 30000) }
          { m with
            verdictCycles := later
            reports := m.reports ++ o.cancelReport n .opening ++
              [⟨.cycleStart, .outlet n, Cause.verdict.code, BitVec.ofNat 16 dwell⟩]
            toWatch := m.toWatch ++ [.off n, .answer n true entry] }) ∧
      (¬(o.state = .on ∧ may) →
        acts s.dev .verdictCycle o { m with verdictCycles := later, toWatch := m.toWatch ++ [.answer n false entry] })

/-- R84, R98, R101 to R104: what the Close Engine hands on of a close reaches the Outlet Controller, which in RUNNING and
HALTED makes the leak check (a close without samples that is sensed CLOSED leaves the leak count, log 33) and the
settled-sense check of each present outlet with the sense read for the close. One that has changed its state or has been
read anew since is not checked (log 37). An outlet that enters FAULT makes its RELAY_FAULT report, and behind it
CYCLE_CANCELLED if a cycle was under way, and gives up its slot, its place in the queue or its watch; the outlets come in
ascending number (log 35). Every Status group that changes is published, and no other. (The command's lines are those that
stand by then, log 11; with no close handed over nothing happens, log 3.) -/
def Obligations.ContactSenseAtClose : Prop :=
  ∀ (s : State) (lines : SenseLines),
    (s.dev.mail.senses = [] → exec (.contactSenseRead lines) s = .next s) ∧
    ∀ (h : SenseHandoff) (later : List SenseHandoff), s.dev.mail.senses = h :: later →
      CompletesWith (.contactSenseRead lines) s fun d' =>
        let d := s.dev
        let m := d.mail
        let o (n : Outlet) := d.outlet[n]
        let checks (n : Outlet) : Bool := d.inService && d.present n && decide ((o n).state = h.states[n]) &&
          decide ((o n).sensed = h.lines[n])
        let o' (n : Outlet) := if checks n then (o n).checked h.items[n] d.charter.uptime else o n
        let faulted := outlets.filter fun n => decide ((o' n).state = .fault) && decide ((o n).state ≠ .fault)
        d.Untouched d' [.pins, .outlet, .pub, .mail] ∧ d'.pins = { d.pins with senseLines := lines } ∧
        (∀ n : Outlet, d'.outlet[n] = o' n) ∧ d.Publishes d' [] ∧
        d'.mail = { m with
          senses := later
          reports := m.reports ++ faulted.flatMap fun n =>
            ⟨.relayFault, .outlet n, faultCode (o' n).fault, (o n).state.code⟩ :: (o n).cancelReport n .fault
          toAdmission := m.toAdmission ++ faulted.flatMap fun n =>
            if (o n).state = .queued then [.removal n] else if (o n).state = .inrush then [.release n] else []
          toWatch := m.toWatch ++ (faulted.filter fun n => decide ((o n).state = .on)).map .off }

/-! ## Outlet requests (06) -/

/-- R109: an unknown code, an ABSENT outlet and a HALTED charter each answer with the Echo alone, whatever the request.
(CLEAR_FAULT carries its contact-sense line as it stands, log 11.) -/
def Obligations.RequestChecks : Prop :=
  ∀ (s : State) (a : WriteAccess) (n : Outlet) (tag code : Byte) (i : Instr) (sense : Sense),
    s.dev.Requests a n tag code →
    i ∈ [.switchOn a, .switchOff a, .cycle a, .stageOn a, .stageOff a, .unstage a, .holdWatch a, .freeWatch a,
      .resume a, .periodClear a, .requestUnknown a] ∨ i = .clearFault a sense ∧ code = 10 →
    let refuses (r : EchoResult) : Prop := CompletesWith i s fun d' =>
      s.dev.Answered d' a n tag [.pins] ∧ d'.outlet[n] = (s.dev.outlet[n]).echo tag r ∧
      d'.pins = if i = .clearFault a sense then
          { s.dev.pins with senseLines := setAt s.dev.pins.senseLines n sense }
        else s.dev.pins
    (requestCode code = none → refuses .refusedUnknown) ∧
    (requestCode code ≠ none → (s.dev.outlet[n]).state = .absent → refuses .refusedAbsent) ∧
    (requestCode code ≠ none → (s.dev.outlet[n]).state ≠ .absent → s.dev.charter.state = .halted →
      refuses .refusedHalted)

/-- R112, R118: SWITCH_ON in each outlet state. -/
def Obligations.SwitchOnByState : Prop :=
  ∀ (s : State) (a : WriteAccess) (n : Outlet) (tag : Byte),
    s.dev.Requests a n tag 1 → s.dev.running = true → s.dev.StoresOk →
    (s.dev.outlet[n]).state ≠ .unmanaged → (s.dev.outlet[n]).state ≠ .absent →
    CompletesWith (.switchOn a) s fun d' =>
      let o := s.dev.outlet[n]
      let later := Deferred.request .switchOn tag (s.dev.requestArgument n)
      s.dev.Answered d' a n tag [.mail] ∧
      (o.state = .off ∨ o.state = .dwell →
        d'.outlet[n] = OutletContext.echo
          { o with
            state := .queued, since := s.dev.charter.uptime, mismatch := 0
            dwell := if o.state = .dwell then none else o.dwell } tag .taken ∧
        d'.mail = { s.dev.mail with toAdmission := s.dev.mail.toAdmission ++ [.join n] }) ∧
      (o.state = .queued ∨ o.state = .inrush ∨ o.state = .on ∨ o.state = .closing ∧ o.deferred = none →
        d'.outlet[n] = o.echo tag .noChange ∧ d'.mail = s.dev.mail) ∧
      (o.state = .opening ∨ o.state = .closing ∧ o.deferred ≠ none →
        d'.outlet[n] = OutletContext.echo { o with deferred := some later } tag .deferred ∧ d'.mail = s.dev.mail) ∧
      (o.state = .fault → d'.outlet[n] = o.echo tag .refusedState ∧ d'.mail = s.dev.mail)

/-- R113, R115, R116, R118: SWITCH_OFF in each outlet state. -/
def Obligations.SwitchOffByState : Prop :=
  ∀ (s : State) (a : WriteAccess) (n : Outlet) (tag : Byte),
    s.dev.Requests a n tag 2 → s.dev.running = true → s.dev.StoresOk →
    (s.dev.outlet[n]).state ≠ .unmanaged → (s.dev.outlet[n]).state ≠ .absent →
    CompletesWith (.switchOff a) s fun d' =>
      let o := s.dev.outlet[n]
      let m := s.dev.mail
      let later := Deferred.request .switchOff tag (s.dev.requestArgument n)
      let keeps (o' : OutletContext) (r : EchoResult) : Prop := d'.outlet[n] = o'.echo tag r ∧ d'.mail = m
      let rests := o.rested s.dev.charter.uptime
      s.dev.Answered d' a n tag [.mail] ∧
      (o.state = .off ∨ o.state = .opening ∧ o.intent = none ∧ o.deferred = none → keeps o .noChange) ∧
      (o.state = .fault → keeps o .refusedState) ∧
      (o.mode = .alwaysOn → o.state = .queued ∨ o.state = .closing ∨ o.state = .inrush ∨ o.state = .on →
        keeps o .refusedMode) ∧
      (o.mode ≠ .alwaysOn → o.state = .inrush ∨ o.state = .on → s.dev.pins.hold = true → keeps o .refusedHold) ∧
      (o.mode ≠ .alwaysOn ∧ o.state = .closing ∨ o.state = .opening ∧ ¬(o.intent = none ∧ o.deferred = none) →
        keeps { o with deferred := some later } .deferred) ∧
      (o.mode ≠ .alwaysOn → o.state = .queued →
        d'.outlet[n] = rests.echo tag .taken ∧
        d'.mail = { m with
          reports := m.reports ++ o.cancelReport n .off, toAdmission := m.toAdmission ++ [.removal n] }) ∧
      (o.mode ≠ .alwaysOn → o.state = .dwell →
        d'.outlet[n] = rests.echo tag .taken ∧ d'.mail = { m with reports := m.reports ++ o.cancelReport n .off }) ∧
      (o.mode = .alwaysOn → o.state = .dwell →
        d'.outlet[n] = OutletContext.echo { rests with state := .queued } tag .taken ∧
        d'.mail = { m with
          reports := m.reports ++ o.cancelReport n .off, toAdmission := m.toAdmission ++ [.join n] }) ∧
      (o.mode ≠ .alwaysOn → o.state = .inrush ∨ o.state = .on → s.dev.pins.hold = false →
        d'.outlet[n] = (o.opening s.dev.charter.uptime).echo tag .taken ∧
        d'.mail = { m with
          reports := m.reports ++ o.cancelReport n .opening
          toAdmission := m.toAdmission ++ (if o.state = .inrush then [.release n] else [])
          toWatch := m.toWatch ++ (if o.state = .on then [.off n] else []) })

/-- R114 to R118: CYCLE in each outlet state. The dwell is the argument, or Default Dwell for an argument of 0, clamped to
the taken dwell bounds; the answer is CLAMPED when that changes it. -/
def Obligations.CycleByState : Prop :=
  ∀ (s : State) (a : WriteAccess) (n : Outlet) (tag : Byte),
    s.dev.Requests a n tag 3 → s.dev.running = true → s.dev.StoresOk →
    (s.dev.outlet[n]).state ≠ .unmanaged → (s.dev.outlet[n]).state ≠ .absent →
    CompletesWith (.cycle a) s fun d' =>
      let o := s.dev.outlet[n]
      let m := s.dev.mail
      let bounds := s.dev.charter.settings
      let asked := if s.dev.requestArgument n = 0 then s.dev.defaultDwell n else s.dev.requestArgument n
      let dwell := max (min bounds.dwellMin bounds.dwellMax) (min (max bounds.dwellMin bounds.dwellMax) asked)
      let result := if dwell = asked then EchoResult.taken else EchoResult.clamped
      let later := Deferred.request .cycle tag (s.dev.requestArgument n)
      let keeps (o' : OutletContext) (r : EchoResult) : Prop := d'.outlet[n] = o'.echo tag r ∧ d'.mail = m
      let started : Report := ⟨.cycleStart, .outlet n, Cause.request.code, BitVec.ofNat 16 dwell⟩
      s.dev.Answered d' a n tag [.mail] ∧
      (o.state = .fault → keeps o .refusedState) ∧
      (o.mode = .alwaysOn → o.state = .queued ∨ o.state = .closing ∨ o.state = .inrush ∨ o.state = .on →
        keeps o .refusedMode) ∧
      (o.mode ≠ .alwaysOn → o.state = .queued → keeps o .noChange) ∧
      (o.mode ≠ .alwaysOn → o.state = .inrush ∨ o.state = .on → s.dev.pins.hold = true → keeps o .refusedHold) ∧
      (o.mode ≠ .alwaysOn ∧ o.state = .closing ∨ o.state = .opening →
        keeps { o with deferred := some later } .deferred) ∧
      (o.state = .dwell →
        keeps { o with
          intent := o.intent.map fun i : Intent => { i with dwell := dwell }
          dwell := o.intent.map fun _ => dwell * 1000000 } result) ∧
      (o.state = .off →
        d'.outlet[n] = OutletContext.echo
          { o with
            state := .dwell, since := s.dev.charter.uptime, leakCount := 0, leakSkip := true, mismatch := 0
            lastCause := some .request, intent := some ⟨.request, dwell, some s.dev.charter.uptime, none⟩
            dwell := some (dwell * 1000000) } tag result ∧
        d'.mail = { m with reports := m.reports ++ o.cancelReport n .dwell ++ [started] }) ∧
      (o.mode ≠ .alwaysOn → o.state = .inrush ∨ o.state = .on → s.dev.pins.hold = false →
        d'.outlet[n] = OutletContext.echo
          { o with
            state := .opening, since := s.dev.charter.uptime
            lastCause := some .request, intent := some ⟨.request, dwell, none, none⟩
            operation := some (.opening, Config.operateTime)
            inrush := if o.state = .inrush then none else o.inrush } tag result ∧
        d'.mail = { m with
          reports := m.reports ++ o.cancelReport n .opening ++ [started]
          toAdmission := m.toAdmission ++ (if o.state = .inrush then [.release n] else [])
          toWatch := m.toWatch ++ (if o.state = .on then [.off n] else []) })

/-- R120, R115: STAGE_ON, STAGE_OFF and UNSTAGE in every state. -/
def Obligations.StagingSetsTarget : Prop :=
  ∀ (s : State) (a : WriteAccess) (n : Outlet) (tag code : Byte) (i : Instr) (t : Option Target),
    s.dev.Requests a n tag code → s.dev.running = true → (s.dev.outlet[n]).state ≠ .absent →
    (code = 4 ∧ i = .stageOn a ∧ t = some .on ∨ code = 5 ∧ i = .stageOff a ∧ t = some .off ∨
      code = 6 ∧ i = .unstage a ∧ t = none) →
    CompletesWith i s fun d' =>
      let o := s.dev.outlet[n]
      s.dev.Answered d' a n tag [] ∧
      d'.outlet[n] =
        (if t = some .off ∧ o.mode = .alwaysOn then o.echo tag .refusedMode
          else if o.staged = t then o.echo tag .noChange
          else OutletContext.echo { o with staged := t } tag .taken)

/-- R126, R149, R147: HOLD_WATCH and FREE_WATCH set Watch Held; a FREE_WATCH that finds a HUNG watch with HOLD released
decides its verdict again, whether or not it changed Watch Held. No event of the Outlet Controller's is on its way to the
Hang Watch (log 18). A watch that enters LOCKED_OUT keeps its verdict cause (log 23), and no cause is reported as 0
(log 22). -/
def Obligations.HoldAndFreeWatch : Prop :=
  ∀ (s : State) (a : WriteAccess) (n : Outlet) (tag code : Byte) (i : Instr) (held : Bool),
    s.dev.Requests a n tag code → s.dev.running = true → (s.dev.outlet[n]).state ≠ .absent →
    s.dev.mail.toWatch = [] → s.dev.StoresOk →
    (code = 7 ∧ i = .holdWatch a ∧ held = true ∨ code = 8 ∧ i = .freeWatch a ∧ held = false) →
    CompletesWith i s fun d' =>
      let w := s.dev.watch[n]
      let m := s.dev.mail
      let released : Prop := held = false ∧ w.state = .hung ∧ s.dev.pins.hold = false
      s.dev.Answered d' a n tag [.watch, .mail] ∧ s.dev.OtherWatchesStand d' n ∧
      d'.outlet[n] = (s.dev.outlet[n]).echo tag (if w.held = held then .noChange else .taken) ∧
      (¬released → d'.watch[n] = { w with held := held } ∧ d'.mail = m) ∧
      (released → w.recent.length < s.dev.cycleLimit n →
        d'.watch[n] =
          { w with
            held := false, state := .idle, recent := w.recent ++ [s.dev.charter.uptime], outstanding := true
            heldHeartbeat := w.heartbeat, heartbeat := none, grace := none, confirm := none, offSince := false
            condH := false, condS := false } ∧
        d'.mail = { m with
          reports := m.reports ++ [⟨.verdict, .outlet n, verdictCauseCode w.cause, VerdictAction.cycled.code⟩]
          verdictCycles := m.verdictCycles ++
            [⟨n, s.dev.clampDwell (s.dev.defaultDwell n), s.dev.charter.uptime⟩] }) ∧
      (released → s.dev.cycleLimit n ≤ w.recent.length →
        d'.watch[n] =
          { w with
            held := false, state := .lockedOut, heartbeat := none, grace := none, confirm := none
            condH := false, condS := false } ∧
        d'.mail = { m with
          reports := m.reports ++ [⟨.verdict, .outlet n, verdictCauseCode w.cause, VerdictAction.lockedOut.code⟩] })

/-- R127, R150: RESUME empties the recent-cycle list and takes a LOCKED_OUT watch to WATCHING afresh. -/
def Obligations.ResumeRestartsWatch : Prop :=
  ∀ (s : State) (a : WriteAccess) (n : Outlet) (tag : Byte),
    s.dev.Requests a n tag 9 → s.dev.running = true → (s.dev.outlet[n]).state ≠ .absent → s.dev.mail.toWatch = [] →
    CompletesWith (.resume a) s fun d' =>
      let w := s.dev.watch[n]
      s.dev.Answered d' a n tag [.watch] ∧ s.dev.OtherWatchesStand d' n ∧
      d'.outlet[n] =
        (s.dev.outlet[n]).echo tag (if w.state = .lockedOut ∨ w.recent ≠ [] then .taken else .noChange) ∧
      d'.watch[n] =
        (if w.state = .lockedOut then
          { w with
            recent := [], state := .watching, grace := none, confirm := none, reference := none, flat := 0
            latest := none, cause := none, condH := false, condS := false
            heartbeat :=
              if w.policy = .heartbeat ∨ w.policy = .either ∨ w.policy = .both then some 0 else none }
        else { w with recent := [] })

/-- R128, R105, R99: CLEAR_FAULT reads contact sense and takes an outlet in FAULT to ON, to OFF, or to QUEUED when it is
ALWAYS_ON. -/
def Obligations.ClearFaultReadsSense : Prop :=
  ∀ (s : State) (a : WriteAccess) (n : Outlet) (tag : Byte) (sense : Sense),
    s.dev.Requests a n tag 10 → s.dev.running = true → (s.dev.outlet[n]).state ≠ .absent →
    CompletesWith (.clearFault a sense) s fun d' =>
      let o := s.dev.outlet[n]
      let m := s.dev.mail
      let up := s.dev.charter.uptime
      s.dev.Answered d' a n tag [.mail, .pins] ∧
      d'.pins = { s.dev.pins with senseLines := setAt s.dev.pins.senseLines n sense } ∧
      (o.state ≠ .fault → d'.outlet[n] = o.echo tag .noChange ∧ d'.mail = m) ∧
      (o.state = .fault → sense = .closed →
        d'.outlet[n] = OutletContext.echo
          { o with state := .on, sensed := .closed, fault := none, since := up, mismatch := 0 } tag .taken ∧
        d'.mail = { m with toWatch := m.toWatch ++ [.on n] }) ∧
      (o.state = .fault → sense = .opened →
        d'.outlet[n] = OutletContext.echo
          { o with
            state := if o.mode = .alwaysOn then .queued else .off
            sensed := .opened, fault := none, since := up, mismatch := 0, leakCount := 0, leakSkip := true } tag .taken ∧
        d'.mail = { m with
          toAdmission := m.toAdmission ++ (if o.mode = .alwaysOn then [.join n] else []) })

/-- R129: PERIOD_CLEAR is answered TAKEN in every state, and the Close Engine is handed a period clear. -/
def Obligations.PeriodClearTaken : Prop :=
  ∀ (s : State) (a : WriteAccess) (n : Outlet) (tag : Byte),
    s.dev.Requests a n tag 11 → s.dev.running = true → (s.dev.outlet[n]).state ≠ .absent →
    CompletesWith (.periodClear a) s fun d' =>
      s.dev.Answered d' a n tag [.mail] ∧
      d'.outlet[n] = (s.dev.outlet[n]).echo tag .taken ∧
      d'.mail = { s.dev.mail with periodClears := s.dev.mail.periodClears ++ [n] }

/-- R84, R121, R122, R123, R125: an Apply that is taken visits every outlet once, in ascending number, with the reports and
hand-offs of each one's change, and shows its tag and count in the Apply Echo; every Status group it changes and the charter
group are published, and no other. One that is not taken moves the baseline alone. -/
def Obligations.ApplyActsOnStagedOutlets : Prop :=
  ∀ (s : State) (a : WriteAccess), s.dev.Accepts a applyTagOffset →
    let v := s.dev.merged applyTagOffset a
    let stored := s.dev.stored applyTagOffset a
    let moved := { s.dev.charter with applyBaseline := v }
    (v = s.dev.charter.applyBaseline → exec (.apply a) s = .next { s with dev := stored }) ∧
    (v ≠ s.dev.charter.applyBaseline → ¬(s.dev.running = true ∧ s.dev.pins.hold = false) →
      exec (.apply a) s = .next { s with dev := { stored with charter := moved } }) ∧
    (v ≠ s.dev.charter.applyBaseline → s.dev.running = true → s.dev.pins.hold = false →
      CompletesWith (.apply a) s fun d' =>
        d'.ram = stored.ram ∧ d'.path = stored.path ∧ d'.charter = moved ∧
        s.dev.Untouched d' [.ram, .path, .charter, .applyEcho, .outlet, .pub, .mail] ∧
        (∀ n : Outlet, d'.outlet[n] = (s.dev.outlet[n]).applied s.dev.charter.uptime) ∧
        d'.mail = { s.dev.mail with
          reports := s.dev.mail.reports ++ outlets.flatMap fun n => (s.dev.outlet[n]).applyReports n
          toAdmission := s.dev.mail.toAdmission ++ outlets.flatMap fun n => (s.dev.outlet[n]).applyMoves n
          toWatch := s.dev.mail.toWatch ++ (outlets.filter fun n =>
            let o := s.dev.outlet[n]
            decide (o.staged = some .off ∧ o.mode ≠ .alwaysOn ∧ o.state = .on)).map .off } ∧
        d'.applyEcho = (v, outlets.countP fun n => (s.dev.outlet[n]).counted) ∧ s.dev.Publishes d' [])

/-! ## The Hang Watch (07) -/

/-- R10, R36, R108, R133, R138, R142, R147: an accepted write that leaves the Heartbeat word as it was is no heartbeat. One that
changes it ends suspension, which sets every running timer to 0, and acts on its own outlet's watch. -/
def Obligations.HeartbeatByWatchState : Prop :=
  ∀ (s : State) (a : WriteAccess) (n : Outlet), s.dev.Accepts a (outletWord n 14) →
    let stored := s.dev.stored (outletWord n 14) a
    let zeroed (w : WatchContext) : WatchContext :=
      if s.dev.suspendedSince = none then w
      else { w with heartbeat := w.heartbeat.map fun _ => 0, heldHeartbeat := w.heldHeartbeat.map fun _ => 0 }
    let w := zeroed s.dev.watch[n]
    let heard := { w with heartbeat := w.heartbeat.map fun _ => 0, condH := false }
    (s.dev.merged (outletWord n 14) a = s.dev.shadow (outletWord n 14) →
      exec (.heartbeat a) s = .next { s with dev := stored }) ∧
    (s.dev.merged (outletWord n 14) a ≠ s.dev.shadow (outletWord n 14) →
      CompletesWith (.heartbeat a) s fun d' =>
        stored.Untouched d' [.watch, .suspendedSince, .mail, .pub] ∧ d'.suspendedSince = none ∧ s.dev.Publishes d' [] ∧
        d'.mail = { s.dev.mail with
          reports := s.dev.mail.reports ++
            match s.dev.suspendedSince with
            | none => []
            | some since => [⟨.hbResume, .outlet n, BitVec.ofNat 16 (min (s.dev.charter.uptime - since) 65535), 0⟩] } ∧
        (∀ m : Outlet, m ≠ n → d'.watch[m] = zeroed s.dev.watch[m]) ∧
        (w.state = .idle → d'.watch[n] =
          if w.outstanding then { w with heldHeartbeat := w.heldHeartbeat.map fun _ => 0 } else w) ∧
        (w.state = .grace → d'.watch[n] = w.fresh) ∧
        (w.state = .lockedOut → d'.watch[n] = w) ∧
        (w.state = .watching → heard.suspicious = false → d'.watch[n] = heard) ∧
        (w.state = .suspect ∨ w.state = .hung → d'.watch[n] = if w.condH then heard.cleared else heard))

/-- R84, R100, R108, R151, R132: a Mode write takes the Mode, an unknown code as MANUAL, and queues an outlet in OFF that it
makes ALWAYS_ON; a Watch Policy write takes the policy, an unknown code as NONE. A watch that restarts out of another state
than IDLE publishes the Status group even where its words come out the same (log 43). Each restarts the watch exactly when
the taken value changes. -/
def Obligations.ModeAndPolicyWrites : Prop :=
  ∀ (s : State) (a : WriteAccess) (n : Outlet), s.dev.StoresOk →
    let o := s.dev.outlet[n]
    let w := s.dev.watch[n]
    let grace := min 3600 (s.dev.outletField n 7)
    let restarted : List Group := if w.state = .idle then [] else [.status n]
    let restart (mode : Mode) (w' : WatchContext) : WatchContext :=
      let idle := { w'.stopped with outstanding := false, offSince := false }
      if mode = .managed ∧ w'.policy ≠ .none ∧ o.state = .on then idle.graced grace else idle
    (s.dev.Accepts a (outletWord n 0) → CompletesWith (.modeWrite a) s fun d' =>
      let v := s.dev.merged (outletWord n 0) a
      let mode : Mode := if v = 1 then .managed else if v = 2 then .alwaysOn else .manual
      let queued : Prop := o.state = .off ∧ mode = .alwaysOn
      (s.dev.stored (outletWord n 0) a).Untouched d' [.outlet, .watch, .mail, .pub] ∧
      s.dev.OthersStand d' n ∧ s.dev.OtherWatchesStand d' n ∧
      s.dev.Publishes d' (if mode ≠ o.mode then restarted else []) ∧
      (¬queued → d'.outlet[n] = { o with mode := mode } ∧ d'.mail = s.dev.mail) ∧
      (queued →
        d'.outlet[n] = { o with mode := mode, state := .queued, since := s.dev.charter.uptime, mismatch := 0 } ∧
        d'.mail = { s.dev.mail with toAdmission := s.dev.mail.toAdmission ++ [.join n] }) ∧
      d'.watch[n] = if mode = o.mode then w else restart mode w) ∧
    (s.dev.Accepts a (outletWord n 1) → CompletesWith (.watchPolicyWrite a) s fun d' =>
      let v := s.dev.merged (outletWord n 1) a
      let policy : WatchPolicy :=
        if v = 1 then .heartbeat else if v = 2 then .signature else if v = 3 then .either
        else if v = 4 then .both else .none
      (s.dev.stored (outletWord n 1) a).Untouched d' [.watch, .pub] ∧ s.dev.OtherWatchesStand d' n ∧
      s.dev.Publishes d' (if policy ≠ w.policy then restarted else []) ∧
      d'.watch[n] = if policy = w.policy then w else restart o.mode { w with policy := policy })

/-- R131, R134, R136, R137, R138: a write of Heartbeat Timeout, Signature Time or Signature Floor evaluates H or S again, clamped
as R131 says, and with it the predicate, for a watch that is WATCHING, SUSPECT or HUNG; a Confirm Time of 0 at entry to
SUSPECT runs out at once. (Where the quorum would begin suspension, the watch goes on as HeartbeatTimerRunsOut states. A
watch that enters LOCKED_OUT keeps its cause, log 23.) -/
def Obligations.WatchSettingWrites : Prop :=
  ∀ (s : State) (a : WriteAccess) (n : Outlet), s.dev.StoresOk →
    ¬s.dev.QuorumAt (s.dev.suspects + 1) →
    let w := s.dev.watch[n]
    let evaluates (off : Nat) (i : Instr) (tracks : Prop) (w' : WatchContext) : Prop :=
      (¬tracks ∨ w' = w → exec i s = .next { s with dev := s.dev.stored off a }) ∧
      (tracks → w' ≠ w → CompletesWith i s fun d' =>
        (s.dev.stored off a).Judged d' n w' ∧ s.dev.Publishes d' [])
    let tracks : Prop := w.state = .watching ∨ w.state = .suspect ∨ w.state = .hung
    let value (k : Nat) := (s.dev.merged (outletWord n k) a).toNat
    let flatFor (seconds floor : Nat) : Bool :=
      decide (max 30 (min 7200 seconds) * 1000000 ≤ w.flat) &&
        w.latest.any fun p => decide (((min 100000 floor : Nat) : Int) ≤ p)
    let floorNow := s.dev.outletField n 10 * 65536 + s.dev.outletField n 11
    (s.dev.Accepts a (outletWord n 6) →
      evaluates (outletWord n 6) (.heartbeatTimeoutWrite a) tracks
        { w with condH := w.heartbeat.any fun t =>
            decide (s.dev.suspendedSince = none) && decide (max 5 (min 3600 (value 6)) * 1000000 ≤ t) }) ∧
    (s.dev.Accepts a (outletWord n 9) →
      evaluates (outletWord n 9) (.signatureTimeWrite a) tracks { w with condS := flatFor (value 9) floorNow }) ∧
    (s.dev.Accepts a (outletWord n 10) →
      evaluates (outletWord n 10) (.signatureFloorWrite a) tracks
        { w with condS := flatFor (s.dev.outletField n 9) (value 10 * 65536 + s.dev.outletField n 11) }) ∧
    (s.dev.Accepts a (outletWord n 11) →
      evaluates (outletWord n 11) (.signatureFloorWrite a) tracks
        { w with condS := flatFor (s.dev.outletField n 9) (s.dev.outletField n 10 * 65536 + value 11) })

/-- R135, R136, R137, R138: a close's hand-off for an outlet updates its tracker, when the watch tracks and the close is used, and S
is evaluated, and the predicate with it; a Confirm Time of 0 at entry to SUSPECT runs out at once (a watch that enters
LOCKED_OUT keeps its cause, log 23). Otherwise the tracker keeps its values. -/
def Obligations.TrackerFollowsClose : Prop :=
  ∀ (s : State) (n : Outlet) (h : TrackerHandoff),
    s.dev.mail.trackers.find? (fun x => decide (x.outlet = n)) = some h →
    ¬s.dev.QuorumAt (s.dev.suspects + 1) →
    let w := s.dev.watch[n]
    let d := { s.dev with mail := { s.dev.mail with
      trackers := s.dev.mail.trackers.eraseP fun x => decide (x.outlet = n) } }
    let used : Prop := (w.state = .watching ∨ w.state = .suspect ∨ w.state = .hung) ∧
      h.scanned = true ∧ h.quality.noSamples = false ∧ h.quality.refDrift = false
    let tracked :=
      match w.reference with
      | none => { w with reference := some h.power, flat := 0, latest := some h.power }
      | some r =>
        if (h.power - r).natAbs ≤ min 10000 (s.dev.outletField n 8) then
          { w with flat := min (w.flat + h.length) 7200000000, latest := some h.power }
        else { w with reference := some h.power, flat := 0, latest := some h.power }
    let isS := decide (max 30 (min 7200 (s.dev.outletField n 9)) * 1000000 ≤ tracked.flat) &&
      decide (((min 100000 (s.dev.outletField n 10 * 65536 + s.dev.outletField n 11) : Nat) : Int) ≤ h.power)
    (¬used → exec (.signatureTrackerUpdate n) s = .next { s with dev := d }) ∧
    (used → CompletesWith (.signatureTrackerUpdate n) s fun d' =>
      s.dev.Publishes d' [] ∧
      (isS = w.condS →
        d.Untouched d' [.watch, .pub] ∧ s.dev.OtherWatchesStand d' n ∧ d'.watch[n] = tracked) ∧
      (isS ≠ w.condS → d.Judged d' n { tracked with condS := isS }))

/-- R108, R130, R132, R145: on and off events, the end of GRACE, and the answer to a verdict cycle. (An on event that finds a
watch not IDLE leaves it, log 24; the part's clock moves to the end of GRACE by the time left, log 1; no cause is reported
as 0, log 22.) -/
def Obligations.WatchEvents : Prop :=
  ∀ (s : State) (n : Outlet) (later : List WatchMessage),
    let o := s.dev.outlet[n]
    let w := s.dev.watch[n]
    let d := { s.dev with mail := { s.dev.mail with toWatch := later } }
    let becomes (i : Instr) (w' : WatchContext) : Prop := CompletesWith i s fun d' =>
      d.Untouched d' [.watch, .pub] ∧ s.dev.OtherWatchesStand d' n ∧ d'.watch[n] = w' ∧ s.dev.Publishes d' []
    (s.dev.mail.toWatch = .on n :: later →
      becomes .onEvent
        (if o.mode = .managed ∧ w.policy ≠ .none ∧ w.state = .idle then w.graced (min 3600 (s.dev.outletField n 7))
          else w)) ∧
    (s.dev.mail.toWatch = .off n :: later → becomes .offEvent { w.stopped with offSince := w.outstanding }) ∧
    (∀ left, w.grace = some left → w.state = .grace → CompletesWith (.graceExpiry n) s fun d' =>
      (s.dev.advance left).Untouched d' [.watch, .pub] ∧ (s.dev.advance left).OtherWatchesStand d' n ∧
      d'.watch[n] = w.fresh ∧ s.dev.Publishes d' []) ∧
    (∀ entry, s.dev.mail.toWatch = .answer n true entry :: later →
      becomes .verdictCycleAnswer { w with outstanding := false, heldHeartbeat := none, offSince := false }) ∧
    ∀ entry, s.dev.mail.toWatch = .answer n false entry :: later →
      let returned := { w with
        recent := if w.recent.getLast? = some entry then w.recent.dropLast else w.recent
        outstanding := false, heldHeartbeat := none }
      let judged := { returned with
        heartbeat := w.heldHeartbeat
        condH := w.heldHeartbeat.any fun t =>
          decide (s.dev.suspendedSince = none) && decide (max 5 (min 3600 (s.dev.outletField n 6)) * 1000000 ≤ t)
        condS := decide (max 30 (min 7200 (s.dev.outletField n 9)) * 1000000 ≤ w.flat) && w.latest.any fun p =>
          decide (((min 100000 (s.dev.outletField n 10 * 65536 + s.dev.outletField n 11) : Nat) : Int) ≤ p) }
      let waits : Prop := w.outstanding = true ∧ w.state = .idle ∧ w.offSince = false
      (¬waits → becomes .verdictCycleAnswer { returned with offSince := false }) ∧
      (waits → judged.suspicious = false →
        becomes .verdictCycleAnswer { judged with state := .watching, cause := none }) ∧
      (waits → judged.suspicious = true → CompletesWith .verdictCycleAnswer s fun d' =>
        d.Untouched d' [.watch, .pub, .mail] ∧ s.dev.OtherWatchesStand d' n ∧
        d'.watch[n] = { judged with state := .hung } ∧ s.dev.Publishes d' [] ∧
        d'.mail = { d.mail with
          reports := d.mail.reports ++ [⟨.verdict, .outlet n, verdictCauseCode w.cause, VerdictAction.held.code⟩] })

/-- R36, R108, R134, R137, R138, R140: a running heartbeat timer reaches its timeout, and H becomes true. In WATCHING, where
the predicate becomes true with it, the watch enters SUSPECT and the confirm timer starts, or, at a Confirm Time of 0, runs
out at once. In SUSPECT the quorum count rises with it; in HUNG nothing is counted; in both the watch stays as long as its
predicate is true. Where the count reaches the quorum, suspension begins: every H is false, and no watch stays SUSPECT or
HUNG whose predicate that makes false. The groups that change are published, and that of a watch that suspension returns to
WATCHING at once (log 43); no other is. (The part's clock moves to the timeout, log 1; a watch that enters LOCKED_OUT keeps
its cause, log 23.) -/
def Obligations.HeartbeatTimerRunsOut : Prop :=
  ∀ (s : State) (n : Outlet) (t : Nat),
    let w := s.dev.watch[n]
    w.heartbeat = some t → w.condH = false → s.dev.suspendedSince = none →
    let later := s.dev.advance (max 5 (min 3600 (s.dev.outletField n 6)) * 1000000 - t)
    let heard := { later.watch[n] with condH := true }
    let settings := s.dev.charter.settings
    let suspends (d' : Device) : Prop :=
      later.Untouched d' [.watch, .pub, .suspendedSince, .mail] ∧
      d'.suspendedSince = some s.dev.charter.uptime ∧
      d'.mail = { s.dev.mail with
        reports := s.dev.mail.reports ++
          [⟨.hbSuspend, .strip, BitVec.ofNat 16 (s.dev.suspects + 1), BitVec.ofNat 16 settings.quorum⟩] } ∧
      ∀ m : Outlet, m ≠ n → d'.watch[m] = { later.watch[m] with condH := false }.cleared
    (w.state = .watching → heard.suspicious = false → CompletesWith (.heartbeatTimeout n) s fun d' =>
      s.dev.Publishes d' [] ∧ later.Untouched d' [.watch, .pub] ∧ later.OtherWatchesStand d' n ∧ d'.watch[n] = heard) ∧
    (w.state = .watching → heard.suspicious = true → ¬s.dev.QuorumAt (s.dev.suspects + 1) →
      CompletesWith (.heartbeatTimeout n) s fun d' => s.dev.Publishes d' [] ∧
        (settings.confirmTime ≠ 0 →
          later.Untouched d' [.watch, .pub] ∧ later.OtherWatchesStand d' n ∧
          d'.watch[n] = { heard with state := .suspect, confirm := some (settings.confirmTime * 1000000) }) ∧
        (settings.confirmTime = 0 → later.Decided d' n heard.hung)) ∧
    (w.state = .watching → heard.suspicious = true → s.dev.QuorumAt (s.dev.suspects + 1) → w.suspicious = false →
      CompletesWith (.heartbeatTimeout n) s fun d' =>
        s.dev.Publishes d' (if s.dev.inService then [.status n] else []) ∧
        suspends d' ∧ d'.watch[n] = { later.watch[n] with confirm := none }) ∧
    (w.state = .suspect → ¬s.dev.QuorumAt (s.dev.suspects + 1) →
      CompletesWith (.heartbeatTimeout n) s fun d' => s.dev.Publishes d' [] ∧
        later.Untouched d' [.watch, .pub] ∧ later.OtherWatchesStand d' n ∧ d'.watch[n] = heard.cleared) ∧
    (w.state = .hung → CompletesWith (.heartbeatTimeout n) s fun d' =>
      s.dev.Publishes d' [] ∧ later.Untouched d' [.watch, .pub] ∧ later.OtherWatchesStand d' n ∧ d'.watch[n] = heard.cleared) ∧
    (w.state = .suspect → s.dev.QuorumAt (s.dev.suspects + 1) → CompletesWith (.heartbeatTimeout n) s fun d' =>
      s.dev.Publishes d' [] ∧ suspends d' ∧ d'.watch[n] = later.watch[n].cleared)

/-- R108, R138, R139, R143, R144, R146: the confirm timer of a SUSPECT watch runs out. The watch is HUNG with the cause that H
and S give, and the verdict is decided: held; or an automatic cycle, handed to the Outlet Controller with the clamped
Default Dwell; or LOCKED_OUT. Its VERDICT report carries the cause and the action. (The part's clock moves
by the time left, log 1; no cause where neither H nor S is true, reported as 0, log 22; the cause kept in LOCKED_OUT,
log 23.) -/
def Obligations.ConfirmTimerRunsOut : Prop :=
  ∀ (s : State) (n : Outlet) (left : Nat),
    let w := s.dev.watch[n]
    w.confirm = some left → w.state = .suspect →
    let later := s.dev.advance left
    let cause :=
      if w.condH then (if w.condS then some VerdictCause.both else some .heartbeat)
      else if w.condS then some .signature else none
    let hung := { later.watch[n] with state := .hung, confirm := none, cause := cause }
    let verdict := s.dev.verdictOn n hung
    let bounds := s.dev.charter.settings
    let dwell := max (min bounds.dwellMin bounds.dwellMax)
      (min (max bounds.dwellMin bounds.dwellMax) (min 3600 (s.dev.outletField n 5)))
    CompletesWith (.confirmExpiry n) s fun d' =>
      later.Untouched d' [.watch, .pub, .mail] ∧ later.OtherWatchesStand d' n ∧ d'.watch[n] = verdict.1 ∧
      s.dev.Publishes d' [] ∧
      d'.mail = { s.dev.mail with
        reports := s.dev.mail.reports ++ [⟨.verdict, .outlet n, verdictCauseCode cause, verdict.2.code⟩]
        verdictCycles := s.dev.mail.verdictCycles ++
          if verdict.2 = .cycled then [⟨n, dwell, s.dev.charter.uptime⟩] else [] }

/-- R23, R140, R148, R168, R24: writes of Cycle Window, Heartbeat Quorum and Admission Wait Limit are stored and taken,
clamped; the lists are aged, the quorum is compared, the head tenures are examined. A list's own ageing, and the
examination of one branch's head, do the same for one. (A head whose tenure has no block reason yet is reported with 0, which
is the model's choice, log 25. One that is not due leaves the state, log 3.) -/
def Obligations.CharterTimingWrites : Prop :=
  ∀ (s : State) (a : WriteAccess), s.dev.StoresOk →
    let c := s.dev.charter.settings
    let up := s.dev.charter.uptime
    let x (w : Nat) := (s.dev.merged w a).toNat
    let aged (window : Nat) (list : List Nat) := list.dropWhile fun entry => decide (window * 60 ≤ up - entry)
    let due (limit : Nat) (b : Branch) : Prop :=
      s.dev.admission.queues[b] ≠ [] ∧
        ∃ t, s.dev.admission.tenures[b] = some t ∧ t.reported = false ∧ limit < up - t.start
    let told (b : Branch) (r : Report) : Prop := ∃ t e rest,
      s.dev.admission.tenures[b] = some t ∧ s.dev.admission.queues[b] = e :: rest ∧
        r = ⟨.admissionWait, .outlet e.outlet, blockReasonCode t.reason, BitVec.ofNat 16 (min (up - t.start) 65535)⟩
    let marked (b : Branch) := s.dev.admission.tenures[b].map fun t : Tenure => { t with reported := true }
    (s.dev.Accepts a 10 → CompletesWith (.cycleWindowWrite a) s fun d' =>
      let window := max 1 (min 1440 (x 10))
      (s.dev.stored 10 a).Untouched d' [.charter, .watch, .pub] ∧ s.dev.Publishes d' [] ∧
      d'.charter = { s.dev.charter with settings := { c with cycleWindow := window } } ∧
      ∀ n : Outlet, d'.watch[n] = { s.dev.watch[n] with recent := aged window (s.dev.watch[n]).recent }) ∧
    (∀ n : Outlet, CompletesWith (.recentCycleAgeing n) s fun d' =>
      s.dev.Untouched d' [.watch, .pub] ∧ s.dev.OtherWatchesStand d' n ∧ s.dev.Publishes d' [] ∧
      d'.watch[n] = { s.dev.watch[n] with recent := aged c.cycleWindow (s.dev.watch[n]).recent }) ∧
    (s.dev.Accepts a 12 →
      let quorum := if x 12 = 0 then 0 else max 2 (min 48 (x 12))
      let taken := { s.dev.stored 12 a with charter := { s.dev.charter with settings := { c with quorum := quorum } } }
      (¬taken.QuorumAt s.dev.suspects → exec (.heartbeatQuorumWrite a) s = .next { s with dev := taken }) ∧
      (taken.QuorumAt s.dev.suspects → CompletesWith (.heartbeatQuorumWrite a) s fun d' =>
        taken.Untouched d' [.watch, .pub, .suspendedSince, .mail] ∧ d'.suspendedSince = some up ∧ s.dev.Publishes d' [] ∧
        d'.mail = { s.dev.mail with
          reports := s.dev.mail.reports ++
            [⟨.hbSuspend, .strip, BitVec.ofNat 16 s.dev.suspects, BitVec.ofNat 16 quorum⟩] } ∧
        ∀ m : Outlet, d'.watch[m] = { s.dev.watch[m] with condH := false }.cleared)) ∧
    (s.dev.Accepts a 13 → CompletesWith (.admissionWaitLimitWrite a) s fun d' =>
      let limit := max 10 (min 3600 (x 13))
      (s.dev.stored 13 a).Untouched d' [.charter, .admission, .mail, .freeCount] ∧
      d'.charter = { s.dev.charter with settings := { c with waitLimit := limit } } ∧
      (∀ b : Branch,
        (due limit b → d'.admission.tenures[b] = marked b ∧ ∃ r ∈ d'.mail.reports, told b r) ∧
        (¬due limit b → d'.admission.tenures[b] = s.dev.admission.tenures[b])) ∧
      d'.admission = { s.dev.admission with tenures := d'.admission.tenures } ∧
      (∃ (order : List Branch) (more : List Report), order.Nodup ∧ (∀ b, b ∈ order ↔ due limit b) ∧
        List.Forall₂ told order more ∧ d'.mail = { s.dev.mail with reports := s.dev.mail.reports ++ more })) ∧
    ∀ b : Branch,
      (due c.waitLimit b → ∃ r, told b r ∧ exec (.admissionWait b) s = .next { s with dev := { s.dev with
        admission := { s.dev.admission with tenures := setAt s.dev.admission.tenures b (marked b) }
        mail := { s.dev.mail with reports := s.dev.mail.reports ++ [r] } } }) ∧
      (¬due c.waitLimit b → exec (.admissionWait b) s = .next s)

/-! ## Restart admission (08) -/

/-- R16, R156, R157, R158, R159, R160, R162, R173: an accepted Limit write in RUNNING or HALTED is stored and evaluates
every head, one after another: each is granted, or has the first check that fails recorded as its block reason. Each grant
publishes its branch group once, its Sequence one higher and its words the present ones, and no other group is published.
Where one branch alone has a head, it is granted when all six checks pass, and the estimate is reserved at its three levels;
else the first check that fails is its block reason. -/
def Obligations.LimitWriteEvaluatesHeads : Prop :=
  ∀ (s : State) (a : WriteAccess) (l : Level), s.dev.Accepts a (levelBase l) →
    let stored := s.dev.stored (levelBase l) a
    let adm := s.dev.admission
    ((∀ b : Branch, adm.queues[b] = []) → exec (.limitWrite a) s = .next { s with dev := stored }) ∧
    (CompletesWith (.limitWrite a) s fun d' =>
      stored.Untouched d' [.pub, .engine, .admission, .mail, .freeCount] ∧ stored.HeadsEvaluated d' ∧
      stored.SequencesMove d' (adm.granted d'.admission) ∧ s.dev.Publishes d' [] ∧
      d'.mail = { s.dev.mail with admissions := d'.mail.admissions }) ∧
    ∀ (b : Branch) (e : QueueEntry) (rest : List QueueEntry), adm.queues[b] = e :: rest →
      (∀ c : Branch, c ≠ b → adm.queues[c] = []) →
      let lim (k : Level) := min (Device.limitMax k) (stored.levelField k 0)
      let expected := min 320 (stored.outletField e.outlet 4) * 100
      let own := Level.branch e.outlet.branch
      let estimate := if lim own = 0 then expected else min expected (lim own * 100)
      let fits (k : Level) : Prop := lim k = 0 ∨ adm.loads.get k + adm.reserved.get k + estimate ≤ lim k * 100
      let fails : Option BlockReason :=
        if s.dev.charter.state ≠ .running then some .halted
        else if s.dev.pins.hold = true then some .hold
        else if adm.slots[b] ≠ none then some .slot
        else if ¬fits (.branch b) then some .branch
        else if ¬fits (.phase b.phase) then some .phase
        else if ¬fits .inlet then some .inlet
        else none
      (∀ r, fails = some r → exec (.limitWrite a) s = .next { s with dev := { stored with
        admission := { adm with
          tenures := setAt adm.tenures b (adm.tenures[b].map fun t : Tenure => { t with reason := some r }) } } }) ∧
      (fails = none → CompletesWith (.limitWrite a) s fun d' =>
        d'.pub = s.dev.pub.takes (.level (.branch b)) (d'.groupWords (.level (.branch b))) ∧
        d'.mail = { s.dev.mail with admissions := s.dev.mail.admissions ++ [e.outlet] } ∧
        d'.admission = { adm with
          queues := setAt adm.queues b rest
          slots := setAt adm.slots b (some ⟨e.outlet, estimate, false, e.rank⟩)
          reserved :=
            { branch := setAt adm.reserved.branch b (adm.reserved.branch[b] + estimate)
              phase := setAt adm.reserved.phase b.phase (adm.reserved.phase[b.phase] + estimate)
              inlet := adm.reserved.inlet + estimate }
          tenures := setAt adm.tenures b
            (if rest = [] then none else some ⟨s.dev.charter.uptime, false, some .slot⟩) })

/-- R16, R153, R154, R155, R157, R162, R167, R173: a join places the outlet after every entry of its rank or lower and
before every higher one, and a removal takes it out. An entry that so becomes head starts a tenure at Uptime. A join, and a
removal of the head, evaluate the branch's head alone: it is granted, or has the first check that fails recorded as its
block reason. A removal from behind the head changes the queue alone. A join or removal that finds the outlet in its slot
turns the withdrawn mark; a join of an outlet that waits already, or a removal of one in neither place, has no effect. In
RUNNING and HALTED the join or removal that changes the queue publishes the branch group, its Sequence one higher and its
words the present ones, and a grant publishes it once more (log 14); no other group is published. -/
def Obligations.JoinsAndRemovals : Prop :=
  ∀ (s : State) (n : Outlet) (later : List AdmissionMessage),
    let b := n.branch
    let adm := s.dev.admission
    let q := adm.queues[b]
    let d := { s.dev with mail := { s.dev.mail with toAdmission := later } }
    let waits : Prop := ∃ e ∈ q, e.outlet = n
    let queued (q' : List QueueEntry) : Admission := { adm with queues := setAt adm.queues b q' }
    let headed (q' : List QueueEntry) : Admission :=
      { queued q' with
        tenures := setAt adm.tenures b (if q' = [] then none else some ⟨s.dev.charter.uptime, false, none⟩) }
    let marked (x : Slot) (v : Bool) : Device :=
      { d with admission := { adm with slots := setAt adm.slots b (some { x with withdrawn := v }) } }
    let once (c : Branch) : Nat := if c = b then 1 else 0
    let evaluated (a' : Admission) (d' : Device) : Prop :=
      d.Untouched d' [.pub, .engine, .admission, .mail] ∧
      d.SequencesMove d' (fun c => once c + a'.granted d'.admission c) ∧ d.Publishes d' [] ∧
      d'.mail = { d.mail with admissions := d'.mail.admissions } ∧
      (d'.admission, d'.mail.admissions) = d.headSettled (a', d.mail.admissions) b
    (s.dev.mail.toAdmission = .join n :: later →
      (waits → exec .join s = .next { s with dev := d }) ∧
      (¬waits → ∀ x, adm.slots[b] = some x → x.outlet = n → x.withdrawn = true →
        exec .join s = .next { s with dev := marked x false }) ∧
      (¬waits → (∀ x, adm.slots[b] = some x → x.outlet = n → x.withdrawn = false) → CompletesWith .join s fun d' =>
        ∃ before after, q = before ++ after ∧ (∀ x ∈ before, x.rank ≤ min 3 (s.dev.outletField n 3)) ∧
          (∀ x ∈ after.head?, min 3 (s.dev.outletField n 3) < x.rank) ∧
          let q' := before ++ ⟨n, min 3 (s.dev.outletField n 3)⟩ :: after
          evaluated (if before = [] then headed q' else queued q') d')) ∧
    (s.dev.mail.toAdmission = .removal n :: later →
      let q' := q.filter fun e => decide (e.outlet ≠ n)
      (waits → q.head?.map (·.outlet) = some n → CompletesWith .removal s fun d' => evaluated (headed q') d') ∧
      (waits → q.head?.map (·.outlet) ≠ some n → CompletesWith .removal s fun d' =>
        d.Untouched d' [.pub, .engine, .admission] ∧ d'.admission = queued q' ∧ d.SequencesMove d' once ∧
        d.Publishes d' []) ∧
      (¬waits → ∀ x, adm.slots[b] = some x → x.outlet = n → exec .removal s = .next { s with dev := marked x true }) ∧
      (¬waits → (∀ x, adm.slots[b] = some x → x.outlet ≠ n) → exec .removal s = .next { s with dev := d }))

/-- R16, R156, R157, R162, R164, R165, R167, R173: a release or a hand-back of a branch's slot frees it and takes its amount
out of the three totals, and every head is evaluated: each is granted, or has the first check that fails recorded as its
block reason. A hand-back puts the outlet back in its queue, ahead of the entries of its rank, unless it is withdrawn; as
head it starts a new tenure. In RUNNING and HALTED the branch group is published, its Sequence one higher and its words the
present ones, and so is the branch group of each grant (log 14); no other group is published. One for an outlet that
occupies no slot has no effect. -/
def Obligations.SlotFreed : Prop :=
  ∀ (s : State) (n : Outlet) (later : List AdmissionMessage),
    let b := n.branch
    let adm := s.dev.admission
    let q := adm.queues[b]
    let d := { s.dev with mail := { s.dev.mail with toAdmission := later } }
    let freed (amount : Nat) : Admission :=
      { adm with
        slots := setAt adm.slots b none
        reserved :=
          { branch := setAt adm.reserved.branch b (adm.reserved.branch[b] - amount)
            phase := setAt adm.reserved.phase b.phase (adm.reserved.phase[b.phase] - amount)
            inlet := adm.reserved.inlet - amount } }
    let once (c : Branch) : Nat := if c = b then 1 else 0
    let evaluated (a' : Admission) (d' : Device) : Prop :=
      d.Untouched d' [.pub, .engine, .admission, .mail, .freeCount] ∧
      d.SequencesMove d' (fun c => once c + a'.granted d'.admission c) ∧ d.Publishes d' [] ∧
      d'.mail = { d.mail with admissions := d'.mail.admissions } ∧ { d with admission := a' }.HeadsEvaluated d'
    (∀ x, adm.slots[b] = some x → x.outlet = n →
      (s.dev.mail.toAdmission = .release n :: later → CompletesWith .release s fun d' => evaluated (freed x.amount) d') ∧
      (s.dev.mail.toAdmission = .handBack n :: later →
        (x.withdrawn = true → CompletesWith .handBack s fun d' => evaluated (freed x.amount) d') ∧
        (x.withdrawn = false → CompletesWith .handBack s fun d' =>
          ∃ before after, q = before ++ after ∧ (∀ y ∈ before, y.rank < x.rank) ∧
            (∀ y ∈ after.head?, x.rank ≤ y.rank) ∧
            let q' := before ++ ⟨n, x.rank⟩ :: after
            evaluated
              { freed x.amount with
                queues := setAt adm.queues b q'
                tenures :=
                  if q'.head?.map (·.outlet) = some n then
                    setAt adm.tenures b (some ⟨s.dev.charter.uptime, false, none⟩)
                  else adm.tenures } d'))) ∧
    ((∀ x, adm.slots[b] = some x → x.outlet ≠ n) →
      (s.dev.mail.toAdmission = .release n :: later → exec .release s = .next { s with dev := d }) ∧
      (s.dev.mail.toAdmission = .handBack n :: later → exec .handBack s = .next { s with dev := d }))

/-- R16, R156, R157, R161, R162, R171, R172, R173: a close's loads are compared with the Limits handed over with them (those
taken at the close, log 15): an Over-Limit is set above the Limit, and clears at 95 % of it or at a Limit of 0, each change
with its report; the loads are kept, and every head is evaluated: each is granted, or has the first check that fails
recorded as its block reason. Each grant publishes its branch group once, its Sequence one higher and its words the present
ones, and no other group is published. -/
def Obligations.LevelLoadsDecideOverLimit : Prop :=
  ∀ (s : State) (h : LoadsHandoff) (later : List LoadsHandoff), s.dev.mail.loads = h :: later →
    CompletesWith .levelLoadsHandoff s fun d' =>
      let adm := s.dev.admission
      let rises (l : Level) : Prop :=
        adm.overLimit.get l = false ∧ h.limits.get l ≠ 0 ∧ h.limits.get l * 100 < h.loads.get l
      let clears (l : Level) : Prop :=
        adm.overLimit.get l = true ∧ (h.limits.get l = 0 ∨ h.loads.get l * 20 ≤ h.limits.get l * 100 * 19)
      let told (kind : ReportKind) (l : Level) : Report :=
        ⟨kind, .level l, BitVec.ofNat 16 (min (h.loads.get l / 100) 65535), BitVec.ofNat 16 (h.limits.get l)⟩
      s.dev.Untouched d' [.pub, .engine, .admission, .mail, .freeCount] ∧
      s.dev.SequencesMove d' (adm.granted d'.admission) ∧ s.dev.Publishes d' [] ∧
      (∀ l : Level,
        (d'.admission.overLimit.get l = true ↔ rises l ∨ adm.overLimit.get l = true ∧ ¬clears l) ∧
        (rises l → told .limitOver l ∈ d'.mail.reports) ∧ (clears l → told .limitClear l ∈ d'.mail.reports)) ∧
      (∃ more : List Report,
        d'.mail = { s.dev.mail with
          loads := later, reports := s.dev.mail.reports ++ more, admissions := d'.mail.admissions } ∧
        ∀ r ∈ more, ∃ l, rises l ∧ r = told .limitOver l ∨ clears l ∧ r = told .limitClear l) ∧
      { s.dev with admission := { adm with loads := h.loads, overLimit := d'.admission.overLimit } }.HeadsEvaluated d'

/-! ## Reports and the attention line (09) -/

/-- R175, R176, R177, R178, R179: a report is written at Head while the ring and the queue have room, and lost with its
count otherwise; Lost Count holds at 65,535. A Tail write is taken modulo 64 and stays in RAM as written. ATTN is asserted
while Head differs from Tail: a report written asserts it, and a Tail write deasserts it when the two are equal. -/
def Obligations.RingTakesReportsAndTail : Prop :=
  ∀ (s : State),
    (s.dev.attn = true ↔ s.dev.reports.head ≠ s.dev.reports.tail) ∧
    (∀ (r : Report) (later : List Report), s.dev.mail.reports = r :: later →
      let w := s.dev.reports
      let up := s.dev.charter.uptime
      let full : Prop := w.head + 1 = w.tail ∨ 64 ≤ s.dev.pub.queue.countP Entry.isReport
      let lost := { s.dev with
        mail := { s.dev.mail with reports := later }
        reports := { w with lost := min (w.lost + 1) 65535 } }
      let written := { s.dev with
        mail := { s.dev.mail with reports := later }
        reports := { w with head := w.head + 1 }
        pub := { s.dev.pub with
          queue := s.dev.pub.queue ++
            [.report w.head
              [r.kind.code, r.subject.kindCode, r.subject.number, BitVec.ofNat 16 (up / 65536), BitVec.ofNat 16 up,
                r.detailA, r.detailB, 0]
              (w.head + 1)] } }
      (full → exec .reportWrite s = .next { s with dev := lost } ∧ lost.attn = s.dev.attn) ∧
      (¬full → exec .reportWrite s = .next { s with dev := written } ∧ written.attn = true)) ∧
    ∀ a : WriteAccess, s.dev.Accepts a tailOffset →
      let taken := { s.dev.stored tailOffset a with
        reports := { s.dev.reports with tail := (s.dev.merged tailOffset a).setWidth 6 } }
      exec (.tailWrite a) s = .next { s with dev := taken } ∧
      (taken.attn = true ↔ s.dev.reports.head ≠ (s.dev.merged tailOffset a).setWidth 6)

/-! ## The whole -/

/-- The invariant holds at reset: stores in canonical form, the bounds of the Posting Queue, counters in their ranges,
queues in rank order, reservation totals the sums of their occupants, settings in range, nothing started. -/
def Obligations.InvariantAtReset : Prop := State.reset.dev.Inv

/-- Every step keeps the invariant: no command leaves a counter, a setting, a queue or a total outside what R15, R23, R68,
R69, R144, R153, R166 and R177 allow, or parts what the Outlet Controller and the Admission Unit hold of an outlet (R84,
R155, R162 to R165). And the invariant gives: at most one outlet of a branch is in CLOSING or INRUSH (R163); a queue holds
at most eight outlets, each of its branch and each once (R153); where nothing about an outlet is on its way, it stands in
its queue exactly when it is QUEUED, and holds the slot exactly when it is in CLOSING or INRUSH (R155); and no coil is
driven outside CLOSING and OPENING (R88). -/
def Obligations.StepKeepsInvariant : Prop :=
  (∀ s t : State, s.dev.Inv → step s = .next t → t.dev.Inv) ∧
  ∀ d : Device, d.Inv →
    (∀ n m : Outlet, n.branch = m.branch → d.closes n → d.closes m → n = m) ∧
    (∀ b : Branch, (d.admission.queues[b]).length ≤ 8 ∧ ((d.admission.queues[b]).map (·.outlet)).Nodup ∧
      ∀ e ∈ d.admission.queues[b], e.outlet.branch = b) ∧
    (∀ n : Outlet, d.handoffs n = [] → n ∉ d.mail.admissions →
      ((d.outlet[n]).state = .queued ↔ ∃ e ∈ d.admission.queues[n.branch], e.outlet = n) ∧
      (d.closes n ↔ ∃ x, d.admission.slots[n.branch] = some x ∧ x.outlet = n)) ∧
    ∀ n : Outlet, (d.outlet[n]).coil ≠ none → (d.outlet[n]).state = .closing ∨ (d.outlet[n]).state = .opening
end

