-- ==== Sys2Proof/Laws/Keeps.lean ====
section
/-! SUPPORT. What the operations can change. `Neutral P` says that a property stands over every change of a unit that
keeps the unit's own invariant, moves no relay and leaves queues, slots and what passes between the Outlet Controller and
the Admission Unit. `Internal P` adds those changes, each where the block makes it. Each operation of the units has one
lemma that carries such a property over it. A property of RAM, of the Shadow File, of the pins, or an invariant of
Safety.lean is shown once to be `Internal` and then stands over every operation. -/

namespace Sys2Proof.Machine
open Sys2Proof

/-- A change of outlet contexts that leaves every state, and every coil but one that is released. -/
abbrev KeepsCourses (old new : Vector OutletContext 48) : Prop :=
  ∀ n : Outlet, (new[n]).state = (old[n]).state ∧ ((new[n]).operation = none ∨ (new[n]).coil = (old[n]).coil)

/-- A change of one outlet's context that leaves its state, and its coil unless it releases it. -/
abbrev KeepsCourse (f : OutletContext → OutletContext) : Prop :=
  ∀ o, (f o).state = o.state ∧ ((f o).operation = none ∨ (f o).coil = o.coil)

/-- A property that stands over every change that moves no relay and touches neither queue nor slot nor what passes
between the Outlet Controller and the Admission Unit. -/
structure Neutral (P : Device → Prop) : Prop where
  lines : ∀ d v, P d → P { d with pins := { d.pins with senseLines := v } }
  now : ∀ d v, P d → P { d with now := v }
  outlet : ∀ d v, KeepsCourses d.outlet v → P d → P { d with outlet := v }
  applyEcho : ∀ d v, P d → P { d with applyEcho := v }
  suspended : ∀ d v, P d → P { d with suspendedSince := v }
  sampler : ∀ d v, P d → P { d with sampler := v }
  handed : ∀ d v, v.toAdmission = d.mail.toAdmission → v.admissions = d.mail.admissions → P d → P { d with mail := v }
  free : ∀ d v, P d → P { d with freeCount := v }
  watch : ∀ d v, ((∀ n : Outlet, (d.watch[n]).recent.length ≤ 7) → ∀ n : Outlet, (v[n]).recent.length ≤ 7) →
    P d → P { d with watch := v }
  charter : ∀ d c, (d.charter.Ok → c.Ok) → (d.enforcing → ({ d with charter := c } : Device).enforcing) →
    (d.inService → ({ d with charter := c } : Device).inService) → P d → P { d with charter := c }
  pub : ∀ d p, (d.pub.Bounded → p.Bounded) → P d → P { d with pub := p }
  engine : ∀ d e, (d.engine.EnergyOk → e.EnergyOk) → P d → P { d with engine := e }
  kept : ∀ d a, (d.admission.Ok → a.Ok) → a.queues = d.admission.queues → a.slots = d.admission.slots → P d →
    P { d with admission := a }
  reports : ∀ d r, (d.reports.lost ≤ 65535 → r.lost ≤ 65535) → P d → P { d with reports := r }

/-- The state changes that the Outlet Controller makes outside a relay operation's start (R84): from CLOSING to INRUSH or
FAULT alone, and into CLOSING or INRUSH from nowhere else. -/
def mayMove : OutletState → OutletState → Bool
  | .closing, .inrush | .closing, .fault => true
  | .closing, _ | .unmanaged, _ | .absent, _ | _, .closing | _, .inrush => false
  | _, _ => true

/-- No coil is driven that a change of the outlet's state would leave behind. -/
def Device.CoilFree (d : Device) (n : Outlet) : Prop :=
  (d.outlet[n]).operation = none ∨ d.outletState n ≠ .closing ∧ d.outletState n ≠ .opening

/-- The block as a relay operation ends and contact sense is read (R89, R90). -/
def Device.finish (d : Device) (n : Outlet) (sense : Sense) : Device :=
  (d.setSense n sense).modOutlet n fun o => { o with operation := none, sensed := sense }

/-- A property that stands whatever the part does inside itself. -/
structure Internal (P : Device → Prop) : Prop extends Neutral P where
  changeState : ∀ d n new, mayMove (d.outletState n) new = true → d.CoilFree n → P d → P (d.changeState n new)
  open_ : ∀ d n us, d.outletState n = .opening → P d →
    P (d.setOutlet n fun o => { o with operation := some (.opening, us) })
  finishClosing : ∀ d n sense left new, (d.outlet[n]).operation = some (.closing, left) →
    new = .inrush ∨ new = .fault → P d → P (((d.advance left).finish n sense).changeState n new)
  finishOpening : ∀ d n sense left new, (d.outlet[n]).operation = some (.opening, left) →
    new = .dwell ∨ new = .off ∨ new = .fault → P d → P (((d.advance left).finish n sense).changeState n new)
  takeAdmission : ∀ d n later, d.mail.admissions = n :: later → P d →
    P (({ d with mail := { d.mail with admissions := later } }).takeAdmission n)
  evaluateHead : ∀ d b, P d → P (d.evaluateHead b)
  takeJoin : ∀ d n later, d.mail.toAdmission = .join n :: later → P d → P (d.dropAdmissionMessage.takeJoin n)
  takeRemoval : ∀ d n later, d.mail.toAdmission = .removal n :: later → P d → P (d.dropAdmissionMessage.takeRemoval n)
  takeRelease : ∀ d n later, d.mail.toAdmission = .release n :: later → P d → P (d.dropAdmissionMessage.takeRelease n)
  takeHandBack : ∀ d n later, d.mail.toAdmission = .handBack n :: later → P d →
    P (d.dropAdmissionMessage.takeHandBack n)
  startService : ∀ d : Device, d.charter.state = .sweeping → P d →
    P (d.setOutlets.setCharter fun c => { c with state := .running, sweepPosition := none })

/-- A property that does not speak of outlet contexts or hand-offs, and of the Admission Unit only by that unit's own
invariant: it is `Internal`, as the operations of the two units show one by one. -/
structure Loose (P : Device → Prop) : Prop extends Neutral P where
  contexts : ∀ d v, P d → P { d with outlet := v }
  mail : ∀ d v, P d → P { d with mail := v }
  admission : ∀ d a, (d.admission.Ok → a.Ok) → P d → P { d with admission := a }

variable {P : Device → Prop}

/-! ## Folds and free orders -/

/-- A property kept by one round is kept by a fold. -/
theorem foldl_keeps {α β : Type} (Q : β → Prop) (f : β → α → β) (hf : ∀ b a, Q b → Q (f b a)) (xs : List α) (b : β)
    (hb : Q b) : Q (xs.foldl f b) := by
  induction xs generalizing b with
  | nil => exact hb
  | cons x xs ih => exact ih _ (hf b x hb)

/-- A fact that every round keeps is kept by a free order. -/
theorem inFreeOrder_keeps {α : Type} (Q : Device → Prop) (index : α → Nat) (work : Device → α → Device)
    (hw : ∀ d a, Q d → Q (work d a)) (hfree : ∀ d k, Q d → Q { d with freeCount := k }) (xs : List α) (d : Device)
    (hd : Q d) : Q (d.inFreeOrder index work xs) := by
  unfold Device.inFreeOrder
  split
  · exact hd
  · exact hw _ _ hd
  · exact foldl_keeps Q work hw _ _ (hfree _ _ hd)

theorem Neutral.foldl (_ : Neutral P) {α : Type} (f : Device → α → Device) (hf : ∀ d a, P d → P (f d a))
    (xs : List α) (d : Device) (hd : P d) : P (xs.foldl f d) := foldl_keeps P f hf xs d hd

theorem Neutral.inFreeOrder (h : Neutral P) {α : Type} (index : α → Nat) (work : Device → α → Device)
    (hw : ∀ d a, P d → P (work d a)) (xs : List α) (d : Device) (hd : P d) :
    P (d.inFreeOrder index work xs) := inFreeOrder_keeps P index work hw h.free xs d hd

/-! ## Posting Queue -/

/-- A queue entry replaced in place stands for the same group. -/
theorem Entry.group?_replaced (g : Group) (ws : List Word) (e : Entry) : (e.replaced g ws).group? = e.group? := by
  cases e with
  | group g' _ => by_cases hg : g' = g <;> simp [Entry.replaced, Entry.group?, hg]
  | report _ _ _ => rfl

/-- A queue entry replaced in place keeps its kind. -/
theorem Entry.isReport_replaced (g : Group) (ws : List Word) (e : Entry) :
    (e.replaced g ws).isReport = e.isReport := by
  cases e with
  | group g' _ => by_cases hg : g' = g <;> simp [Entry.replaced, Entry.isReport, hg]
  | report _ _ _ => rfl

/-- Values replaced in place keep the queue's bound. -/
theorem bounded_replaced (q : List Entry) (g : Group) (ws : List Word) :
    ((q.map (Entry.replaced g ws)).filterMap Entry.group? = q.filterMap Entry.group?)
      ∧ (q.map (Entry.replaced g ws)).countP Entry.isReport = q.countP Entry.isReport := by
  constructor
  · rw [List.filterMap_map]
    exact congrArg (fun f => q.filterMap f) (funext fun e => Entry.group?_replaced g ws e)
  · rw [List.countP_map]
    exact congrArg (fun f => q.countP f) (funext fun e => Entry.isReport_replaced g ws e)

/-- A group that does not wait has no entry. -/
theorem not_mem_of_not_any (q : List Entry) (g : Group) (hg : q.any (Entry.isGroup g) = false) :
    g ∉ q.filterMap Entry.group? := by
  intro hm
  obtain ⟨e, he, hge⟩ := List.mem_filterMap.1 hm
  have := List.any_eq_false.1 hg e he
  cases e with
  | group g' _ => simp_all [Entry.group?, Entry.isGroup]
  | report _ _ _ => simp [Entry.group?] at hge

theorem Neutral.setHeldBack (h : Neutral P) (d : Device) (n : Outlet) (u : Option (List Word)) (hd : P d) :
    P (d.setHeldBack n u) := h.pub _ _ (fun hb => ⟨hb.distinct, hb.reports⟩) hd

theorem Neutral.setBracket (h : Neutral P) (d : Device) (b : Option Bracket) (hd : P d) : P (d.setBracket b) :=
  h.pub _ _ (fun hb => ⟨hb.distinct, hb.reports⟩) hd

theorem Neutral.recordPeriod (h : Neutral P) (d : Device) (g : Group) (ws : List Word) (hd : P d) :
    P (d.recordPeriod g ws) := by
  unfold Device.recordPeriod
  split
  · exact h.pub _ _ (fun hb => ⟨hb.distinct, hb.reports⟩) hd
  all_goals exact hd

theorem Neutral.enqueueGroup (h : Neutral P) (d : Device) (g : Group) (ws : List Word) (hd : P d) :
    P (d.enqueueGroup g ws) := by
  unfold Device.enqueueGroup
  refine h.recordPeriod _ _ _ (h.pub _ _ (fun hb => ?_) hd)
  split
  · exact ⟨(bounded_replaced d.pub.queue g ws).1 ▸ hb.distinct, (bounded_replaced d.pub.queue g ws).2 ▸ hb.reports⟩
  · rename_i hg
    have hn := not_mem_of_not_any d.pub.queue g (by simpa using hg)
    refine ⟨?_, ?_⟩
    · simp only [List.filterMap_append, List.filterMap_cons, List.filterMap_nil, Entry.group?]
      exact List.nodup_append.2 ⟨hb.distinct, by simp, by
        intro a ha b hb' hab
        simp at hb'
        exact hn (hb' ▸ hab ▸ ha)⟩
    · simpa [List.countP_append, Entry.isReport] using hb.reports

theorem Neutral.enqueueReport (h : Neutral P) (d : Device) (s : BitVec 6) (ws : List Word) (head : BitVec 6)
    (room : d.reportsWaiting < Config.maxReportEntries) (hd : P d) : P (d.enqueueReport s ws head) := by
  refine h.pub _ _ (fun hb => ⟨?_, ?_⟩) hd
  · simpa only [List.filterMap_append, List.filterMap_cons, List.filterMap_nil, Entry.group?, List.append_nil]
      using hb.distinct
  · simp only [Device.reportsWaiting] at room
    simp only [List.countP_append, List.countP_cons, List.countP_nil, Entry.isReport]
    simp only [if_true]
    omega

theorem Neutral.publishThroughBracket (h : Neutral P) (d : Device) (g : Group) (ws : List Word) (hd : P d) :
    P (d.publishThroughBracket g ws) := by
  unfold Device.publishThroughBracket
  split
  · split
    · exact h.setBracket _ _ hd
    · exact h.enqueueGroup _ _ _ hd
  · exact h.enqueueGroup _ _ _ hd

theorem Neutral.publish (h : Neutral P) (d : Device) (g : Group) (ws : List Word) (hd : P d) :
    P (d.publish g ws) := by
  unfold Device.publish
  split
  · split
    · exact h.setHeldBack _ _ _ hd
    · exact h.publishThroughBracket _ _ _ hd
  all_goals exact h.publishThroughBracket _ _ _ hd

theorem Neutral.publishCharter (h : Neutral P) (d : Device) (hd : P d) : P d.publishCharter := by
  unfold Device.publishCharter
  split
  · exact h.publish _ _ _ hd
  · exact hd

theorem Neutral.changeCharter (h : Neutral P) (d : Device) (f : Device → Device) (hf : P (f d)) :
    P (d.changeCharter f) := by
  unfold Device.changeCharter
  split
  · exact hf
  · exact h.publishCharter _ hf

theorem Neutral.publishStatus (h : Neutral P) (d : Device) (n : Outlet) (hd : P d) : P (d.publishStatus n) := by
  unfold Device.publishStatus
  split
  · exact h.publish _ _ _ hd
  · exact hd

/-- A table with one entry replaced, read. -/
theorem getElem_setAt {α : Type} {n : Nat} (v : Vector α n) (i j : Fin n) (x : α) :
    (setAt v i x)[j] = if i = j then x else v[j] := by
  simp only [setAt, Fin.getElem_fin, Vector.getElem_set, Fin.ext_iff]

/-- A table with a function applied to every entry, read. -/
theorem getElem_mapAll {α β : Type} {n : Nat} (f : α → β) (v : Vector α n) (i : Fin n) : (mapAll f v)[i] = f v[i] := by
  simp [mapAll]

/-- The same two lemmas in the form in which the simplifier leaves an index. -/
@[simp] theorem getElem_setAt_val {α : Type} {n : Nat} (v : Vector α n) (i j : Fin n) (x : α) :
    (setAt v i x)[j.val] = if i = j then x else v[j.val] := getElem_setAt v i j x

@[simp] theorem getElem_mapAll_val {α β : Type} {n : Nat} (f : α → β) (v : Vector α n) (i : Fin n) :
    (mapAll f v)[i.val] = f v[i.val] := getElem_mapAll f v i

theorem Neutral.setOutlet (h : Neutral P) (d : Device) (n : Outlet) (f : OutletContext → OutletContext) (hd : P d)
    (hf : KeepsCourse f := by exact fun _ => ⟨rfl, .inr rfl⟩) : P (d.setOutlet n f) := by
  refine h.outlet _ _ (fun m => ?_) hd
  rw [getElem_setAt]
  split
  · rename_i hnm; exact hnm ▸ hf _
  · exact ⟨rfl, .inr rfl⟩

theorem Neutral.modOutlet (h : Neutral P) (d : Device) (n : Outlet) (f : OutletContext → OutletContext) (hd : P d)
    (hf : KeepsCourse f := by exact fun _ => ⟨rfl, .inr rfl⟩) : P (d.modOutlet n f) := by
  unfold Device.modOutlet
  split
  · exact h.setOutlet _ _ _ hd hf
  · exact h.publishStatus _ _ (h.setOutlet _ _ _ hd hf)

/-- A watch change that does not lengthen the list beyond 7. -/
abbrev KeepsRecent (f : WatchContext → WatchContext) : Prop :=
  ∀ w, w.recent.length ≤ 7 → (f w).recent.length ≤ 7

theorem Neutral.setWatchAt (h : Neutral P) (d : Device) (n : Outlet) (f : WatchContext → WatchContext)
    (hf : (d.watch[n]).recent.length ≤ 7 → (f d.watch[n]).recent.length ≤ 7) (hd : P d) : P (d.setWatch n f) := by
  refine h.watch _ _ (fun hw m => ?_) hd
  rw [getElem_setAt]
  split
  · exact hf (hw n)
  · exact hw m

theorem Neutral.setWatch (h : Neutral P) (d : Device) (n : Outlet) (f : WatchContext → WatchContext)
    (hf : KeepsRecent f) (hd : P d) : P (d.setWatch n f) := h.setWatchAt _ _ _ (hf _) hd

theorem Neutral.modWatchAt (h : Neutral P) (d : Device) (n : Outlet) (f : WatchContext → WatchContext)
    (hf : (d.watch[n]).recent.length ≤ 7 → (f d.watch[n]).recent.length ≤ 7) (hd : P d) : P (d.modWatch n f) := by
  unfold Device.modWatch
  split
  · exact h.setWatchAt _ _ _ hf hd
  · exact h.publishStatus _ _ (h.setWatchAt _ _ _ hf hd)

theorem Neutral.modWatch (h : Neutral P) (d : Device) (n : Outlet) (f : WatchContext → WatchContext)
    (hf : KeepsRecent f) (hd : P d) : P (d.modWatch n f) := h.modWatchAt _ _ _ (hf _) hd

/-- A meter change that keeps the counters' ranges. -/
theorem Neutral.setMeter (h : Neutral P) (d : Device) (n : Outlet) (f : OutletMeter → OutletMeter)
    (hf : ∀ m, m.EnergyOk → (f m).EnergyOk) (hd : P d) : P (d.setMeter n f) := by
  refine h.engine _ _ (fun he => ⟨fun m => ?_, he.levels⟩) hd
  rw [getElem_setAt]
  split
  · exact hf _ (he.outlets n)
  · exact he.outlets m

/-- The values with one level's replaced, read. -/
theorem PerLevel.get_set {α : Type} (v : PerLevel α) (l k : Level) (x : α) :
    (v.set l x).get k = if l = k then x else v.get k := by
  cases l <;> cases k <;>
    simp only [PerLevel.set, PerLevel.get, getElem_setAt, Level.phase.injEq, Level.branch.injEq, reduceCtorEq,
      if_false, if_true]

/-- The values a function gives the levels, read. -/
theorem PerLevel.get_ofFn {α : Type} (f : Level → α) (l : Level) : (PerLevel.ofFn f).get l = f l := by
  cases l <;> simp [PerLevel.ofFn, PerLevel.get]

theorem Neutral.setLevelMeter (h : Neutral P) (d : Device) (l : Level) (f : LevelMeter → LevelMeter)
    (hf : ∀ m, m.EnergyOk → (f m).EnergyOk) (hd : P d) : P (d.setLevelMeter l f) := by
  refine h.engine _ _ (fun he => ⟨he.outlets, fun k => ?_⟩) hd
  rw [PerLevel.get_set]
  split
  · exact hf _ (he.levels l)
  · exact he.levels k

theorem Neutral.publishMeter (h : Neutral P) (d : Device) (n : Outlet) (hd : P d) : P (d.publishMeter n) := by
  unfold Device.publishMeter
  exact h.publish _ _ _ (h.setMeter _ _ _ (fun _ hm => ⟨hm.residual, hm.lifetime, hm.period, hm.rollover⟩) hd)

theorem Neutral.publishLevel (h : Neutral P) (d : Device) (l : Level) (hd : P d) : P (d.publishLevel l) := by
  unfold Device.publishLevel
  exact h.publish _ _ _ (h.setLevelMeter _ _ _ (fun _ hm => ⟨hm.lifetime, hm.rollover⟩) hd)

theorem Neutral.publishBranch (h : Neutral P) (d : Device) (b : Branch) (hd : P d) : P (d.publishBranch b) := by
  unfold Device.publishBranch
  split
  · exact h.publishLevel _ _ hd
  · exact hd

theorem Neutral.closeBracket (h : Neutral P) (d : Device) (hd : P d) : P d.closeBracket := by
  unfold Device.closeBracket
  split
  · exact hd
  · split
    · exact h.setBracket _ _ hd
    · exact h.enqueueGroup _ _ _ (h.setBracket _ _ hd)

theorem Neutral.openBracket (h : Neutral P) (d : Device) (g : Group) (hd : P d) : P (d.openBracket g) := by
  unfold Device.openBracket
  split
  · split
    · exact h.setBracket _ _ hd
    · exact h.setBracket _ _ (h.closeBracket _ hd)
  · exact h.setBracket _ _ hd

theorem Neutral.countClose (h : Neutral P) (d : Device) (r : Group → Bool) (hd : P d) : P (d.countClose r) := by
  unfold Device.countClose
  split
  · exact hd
  · split
    · exact h.setBracket _ _ hd
    · split
      · exact h.setBracket _ _ hd
      · exact h.closeBracket _ hd

/-! ## Hand-offs and reports -/

theorem Neutral.report (h : Neutral P) (d : Device) (k : ReportKind) (s : Subject) (a b : Word) (hd : P d) :
    P (d.report k s a b) := h.handed _ _ rfl rfl hd

theorem Neutral.toWatch (h : Neutral P) (d : Device) (m : WatchMessage) (hd : P d) : P (d.toWatch m) :=
  h.handed _ _ rfl rfl hd

theorem Neutral.loseReport (h : Neutral P) (d : Device) (hd : P d) : P d.loseReport :=
  h.reports _ _ (fun _ => Nat.min_le_right _ _) hd

theorem Neutral.takeReport (h : Neutral P) (d : Device) (r : Report) (hd : P d) : P (d.takeReport r) := by
  unfold Device.takeReport
  split
  · exact h.loseReport _ hd
  · rename_i hr
    refine h.enqueueReport _ _ _ _ ?_ (h.reports _ _ id hd)
    simp only [not_or, not_le] at hr
    exact hr.2

theorem Neutral.writeReport (h : Neutral P) (d : Device) (hd : P d) : P d.writeReport := by
  unfold Device.writeReport
  split
  · exact hd
  · exact h.takeReport _ _ (h.handed _ _ rfl rfl hd)

theorem Neutral.writeReports (h : Neutral P) (d : Device) (hd : P d) : P d.writeReports :=
  h.foldl _ (fun d r hd => h.takeReport d r hd) _ _ (h.handed _ _ rfl rfl hd)

theorem Neutral.clearRing (h : Neutral P) (d : Device) (hd : P d) : P d.clearRing :=
  h.reports _ _ (fun _ => Nat.zero_le _) (h.writeReports _ hd)

theorem Neutral.takeTail (h : Neutral P) (d : Device) (v : Word) (hd : P d) : P (d.takeTail v) :=
  h.reports _ _ id hd

end Sys2Proof.Machine
end

