-- ==== Sys2Proof/Laws/KeepsAdmission.lean ====
section
/-! SUPPORT. What the Admission Unit's operations can change: queues stay in order (R153, R165) and reservation totals
stay the sums of the occupied slots (R166). -/

namespace Sys2Proof.Machine
open Sys2Proof

variable {P : Device → Prop}

/-! ## Queues -/

/-- A join stands in the queue beside the entries before it. -/
theorem mem_insertJoin (e x : QueueEntry) (q : List QueueEntry) : x ∈ insertJoin e q ↔ x = e ∨ x ∈ q := by
  induction q with
  | nil => simp [insertJoin]
  | cons y ys ih =>
    unfold insertJoin
    split
    · simp only [List.mem_cons, ih]; tauto
    · simp only [List.mem_cons]

/-- A returned entry stands in the queue beside the entries before it. -/
theorem mem_insertReturned (e x : QueueEntry) (q : List QueueEntry) :
    x ∈ insertReturned e q ↔ x = e ∨ x ∈ q := by
  induction q with
  | nil => simp [insertReturned]
  | cons y ys ih =>
    unfold insertReturned
    split
    · simp only [List.mem_cons, ih]; tauto
    · simp only [List.mem_cons]

/-- A join keeps ascending rank. -/
theorem sorted_insertJoin (e : QueueEntry) (q : List QueueEntry) (hq : q.Pairwise fun x y => x.rank ≤ y.rank) :
    (insertJoin e q).Pairwise fun x y => x.rank ≤ y.rank := by
  induction q with
  | nil => simp [insertJoin]
  | cons y ys ih =>
    rw [List.pairwise_cons] at hq
    unfold insertJoin
    split
    · rename_i hle
      refine List.pairwise_cons.2 ⟨fun z hz => ?_, ih hq.2⟩
      rcases (mem_insertJoin e z ys).1 hz with rfl | hz
      · exact hle
      · exact hq.1 z hz
    · rename_i hlt
      refine List.pairwise_cons.2 ⟨fun z hz => ?_, List.pairwise_cons.2 hq⟩
      rcases List.mem_cons.1 hz with rfl | hz
      · omega
      · have := hq.1 z hz; omega

/-- A returned entry keeps ascending rank. -/
theorem sorted_insertReturned (e : QueueEntry) (q : List QueueEntry)
    (hq : q.Pairwise fun x y => x.rank ≤ y.rank) : (insertReturned e q).Pairwise fun x y => x.rank ≤ y.rank := by
  induction q with
  | nil => simp [insertReturned]
  | cons y ys ih =>
    rw [List.pairwise_cons] at hq
    unfold insertReturned
    split
    · rename_i hle
      refine List.pairwise_cons.2 ⟨fun z hz => ?_, ih hq.2⟩
      rcases (mem_insertReturned e z ys).1 hz with rfl | hz
      · omega
      · exact hq.1 z hz
    · rename_i hlt
      refine List.pairwise_cons.2 ⟨fun z hz => ?_, List.pairwise_cons.2 hq⟩
      rcases List.mem_cons.1 hz with rfl | hz
      · omega
      · have := hq.1 z hz; omega

theorem QueueOk.join {b : Branch} {q : List QueueEntry} (hq : QueueOk b q) (e : QueueEntry) (hr : e.rank ≤ 3)
    (hb : Outlet.branch e.outlet = b) : QueueOk b (insertJoin e q) where
  sorted := sorted_insertJoin e q hq.sorted
  rank x hx := ((mem_insertJoin e x q).1 hx).elim (fun h => h ▸ hr) (hq.rank x)
  branch x hx := ((mem_insertJoin e x q).1 hx).elim (fun h => h ▸ hb) (hq.branch x)

theorem QueueOk.returned {b : Branch} {q : List QueueEntry} (hq : QueueOk b q) (e : QueueEntry) (hr : e.rank ≤ 3)
    (hb : Outlet.branch e.outlet = b) : QueueOk b (insertReturned e q) where
  sorted := sorted_insertReturned e q hq.sorted
  rank x hx := ((mem_insertReturned e x q).1 hx).elim (fun h => h ▸ hr) (hq.rank x)
  branch x hx := ((mem_insertReturned e x q).1 hx).elim (fun h => h ▸ hb) (hq.branch x)

theorem QueueOk.filter {b : Branch} {q : List QueueEntry} (hq : QueueOk b q) (f : QueueEntry → Bool) :
    QueueOk b (q.filter f) where
  sorted := hq.sorted.filter _
  rank x hx := hq.rank x (List.mem_of_mem_filter hx)
  branch x hx := hq.branch x (List.mem_of_mem_filter hx)

theorem QueueOk.behind {b : Branch} {e : QueueEntry} {q : List QueueEntry} (hq : QueueOk b (e :: q)) : QueueOk b q where
  sorted := (List.pairwise_cons.1 hq.sorted).2
  rank x hx := hq.rank x (List.mem_cons_of_mem _ hx)
  branch x hx := hq.branch x (List.mem_cons_of_mem _ hx)

theorem Loose.setQueue (h : Loose P) (d : Device) (b : Branch) (q : List QueueEntry)
    (hq : QueueOk b (d.branchQueue b) → QueueOk b q) (hd : P d) : P (d.setQueue b q) := by
  refine h.admission _ _ (fun ha => ⟨fun c => ?_, ha.slots, ha.branch, ha.phase, ha.inlet⟩) hd
  rw [getElem_setAt]
  split
  · rename_i hbc; exact hbc ▸ hq (ha.queues b)
  · exact ha.queues c

theorem Neutral.setTenure (h : Neutral P) (d : Device) (b : Branch) (t : Option Tenure) (hd : P d) :
    P (d.setTenure b t) := h.kept _ _ (fun ha => ⟨ha.queues, ha.slots, ha.branch, ha.phase, ha.inlet⟩) rfl rfl hd

theorem Neutral.beginTenure (h : Neutral P) (d : Device) (b : Branch) (hd : P d) : P (d.beginTenure b) :=
  h.setTenure _ _ _ hd

/-! ## Slots and totals -/

/-- One slot replaced moves the sum of what some branches reserve by that slot's amount, when it is among them. -/
theorem slotSum_setAt (v : Vector (Option Slot) 6) (b : Branch) (x : Option Slot) (bs : List Branch)
    (hn : bs.Nodup) :
    slotSum (setAt v b x) bs + (if b ∈ bs then slotAmount v[b] else 0)
      = slotSum v bs + (if b ∈ bs then slotAmount x else 0) := by
  induction bs with
  | nil => simp [slotSum]
  | cons c cs ih =>
    rw [List.nodup_cons] at hn
    have ih := ih hn.2
    simp only [slotSum, List.map_cons, List.sum_cons, getElem_setAt, List.mem_cons] at ih ⊢
    by_cases hbc : b = c
    · subst hbc
      simp only [hn.1, if_false, if_true, true_or, Nat.add_zero] at ih ⊢
      omega
    · simp only [hbc, if_false, false_or] at ih ⊢
      omega

/-- The branches of a phase are the ones on it, each once. -/
theorem mem_branchesOf (b : Branch) (p : Phase) : b ∈ branchesOf p ↔ b.phase = p := by
  simp [branchesOf, branches]

theorem nodup_branches : branches.Nodup := List.nodup_finRange 6

theorem nodup_branchesOf (p : Phase) : (branchesOf p).Nodup := nodup_branches.filter _

theorem mem_branches (b : Branch) : b ∈ branches := List.mem_finRange b

theorem Loose.markWithdrawn (h : Loose P) (d : Device) (b : Branch) (v : Bool) (hd : P d) :
    P (d.markWithdrawn b v) := by
  have hsum : ∀ bs : List Branch, bs.Nodup → slotSum
      (setAt d.admission.slots b ((d.admission.slots[b]).map fun s => { s with withdrawn := v })) bs
        = slotSum d.admission.slots bs := by
    intro bs hbs
    have hs := slotSum_setAt d.admission.slots b
      ((d.admission.slots[b]).map fun s => { s with withdrawn := v }) bs hbs
    have ha : slotAmount ((d.admission.slots[b]).map fun s => { s with withdrawn := v })
        = slotAmount d.admission.slots[b] := by
      cases d.admission.slots[b] <;> rfl
    rw [ha] at hs
    omega
  refine h.admission _ _ (fun ha => ⟨ha.queues, fun c s hs => ?_, fun c => ?_, fun p => ?_, ?_⟩) hd
  · rw [getElem_setAt] at hs
    split at hs
    · rename_i hbc
      subst hbc
      obtain ⟨t, ht, rfl⟩ := Option.map_eq_some_iff.1 hs
      have := ha.slots b t ht
      exact ⟨this.branch, this.whole, this.amount, this.rank⟩
    · exact ha.slots c s hs
  · exact (ha.branch c).trans (hsum [c] (List.nodup_singleton c)).symm
  · exact (ha.phase p).trans (hsum _ (nodup_branchesOf p)).symm
  · exact ha.inlet.trans (hsum _ nodup_branches).symm

theorem Loose.occupySlot (h : Loose P) (d : Device) (b : Branch) (s : Slot)
    (free : d.admission.slots[b] = none) (hs : SlotOk b s) (hd : P d) : P (d.occupySlot b s) := by
  have hframe : d.occupySlot b s = { d with admission := (d.occupySlot b s).admission } := rfl
  rw [hframe]
  refine h.admission d _ (fun ha => ?_) hd
  have hsum := fun bs (hbs : bs.Nodup) => slotSum_setAt d.admission.slots b (some s) bs hbs
  simp only [free, slotAmount] at hsum
  refine ⟨ha.queues, fun c t ht => ?_, fun c => ?_, fun p => ?_, ?_⟩
  · simp only [Device.occupySlot, Device.setSlot, Device.changeReserved] at ht
    rw [getElem_setAt] at ht
    split at ht
    · rename_i hbc
      cases ht
      exact hbc ▸ hs
    · exact ha.slots c t ht
  · have h1 := hsum [c] (List.nodup_singleton c)
    have h2 := ha.branch c
    simp only [Device.occupySlot, Device.setSlot, Device.changeReserved] at h1 ⊢
    rw [getElem_setAt]
    by_cases hbc : b = c
    · subst hbc; simp only [if_true, List.mem_singleton] at h1 ⊢; omega
    · simp only [hbc, if_false, List.mem_singleton] at h1 ⊢; omega
  · have h1 := hsum (branchesOf p) (nodup_branchesOf p)
    have h2 := ha.phase p
    simp only [mem_branchesOf] at h1
    simp only [Device.occupySlot, Device.setSlot, Device.changeReserved] at h1 ⊢
    rw [getElem_setAt]
    by_cases hbp : b.phase = p
    · subst hbp; simp only [if_true] at h1 ⊢; omega
    · simp only [hbp, if_false] at h1 ⊢; omega
  · have h1 := hsum branches nodup_branches
    have h2 := ha.inlet
    simp only [mem_branches, if_true] at h1
    simp only [Device.occupySlot, Device.setSlot, Device.changeReserved]
    omega

theorem Loose.freeSlot (h : Loose P) (d : Device) (b : Branch) (s : Slot)
    (occupied : d.admission.slots[b] = some s) (hd : P d) : P (d.freeSlot b s) := by
  have hframe : d.freeSlot b s = { d with admission := (d.freeSlot b s).admission } := rfl
  rw [hframe]
  refine h.admission d _ (fun ha => ?_) hd
  have hsum := fun bs (hbs : bs.Nodup) => slotSum_setAt d.admission.slots b none bs hbs
  simp only [occupied, slotAmount] at hsum
  refine ⟨ha.queues, fun c t ht => ?_, fun c => ?_, fun p => ?_, ?_⟩
  · simp only [Device.freeSlot, Device.setSlot, Device.changeReserved] at ht
    rw [getElem_setAt] at ht
    split at ht
    · cases ht
    · exact ha.slots c t ht
  · have h1 := hsum [c] (List.nodup_singleton c)
    have h2 := ha.branch c
    simp only [Device.freeSlot, Device.setSlot, Device.changeReserved] at h1 ⊢
    rw [getElem_setAt]
    by_cases hbc : b = c
    · subst hbc; simp only [if_true, List.mem_singleton] at h1 ⊢; omega
    · simp only [hbc, if_false, List.mem_singleton] at h1 ⊢; omega
  · have h1 := hsum (branchesOf p) (nodup_branchesOf p)
    have h2 := ha.phase p
    simp only [mem_branchesOf] at h1
    simp only [Device.freeSlot, Device.setSlot, Device.changeReserved] at h1 ⊢
    rw [getElem_setAt]
    by_cases hbp : b.phase = p
    · subst hbp; simp only [if_true] at h1 ⊢; omega
    · simp only [hbp, if_false] at h1 ⊢; omega
  · have h1 := hsum branches nodup_branches
    have h2 := ha.inlet
    simp only [mem_branches, if_true] at h1
    simp only [Device.freeSlot, Device.setSlot, Device.changeReserved]
    omega

/-! ## Estimates -/

/-- An inrush estimate is a whole number of 100 mA, at most 32,000 mA (R159, R183). -/
theorem inrushEstimate_range (d : Device) (n : Outlet) :
    100 ∣ d.inrushEstimate n ∧ d.inrushEstimate n ≤ 32000 := by
  have hle : d.expectedInrush n ≤ 320 := by unfold Device.expectedInrush clampNat; omega
  unfold Device.inrushEstimate
  dsimp only
  split
  · exact ⟨Dvd.intro_left _ rfl, by omega⟩
  · refine ⟨?_, by omega⟩
    rcases Nat.le_total (d.expectedInrush n * 100) (d.limit (.branch (Outlet.branch n)) * 100) with hm | hm
    · rw [Nat.min_eq_left hm]; exact Dvd.intro_left _ rfl
    · rw [Nat.min_eq_right hm]; exact Dvd.intro_left _ rfl

/-- A Restart Rank taken is 0 to 3 (R153). -/
theorem restartRank_range (d : Device) (n : Outlet) : d.restartRank n ≤ 3 := by
  unfold Device.restartRank clampNat; omega

/-! ## Evaluation -/

/-- A head that no check blocks has a free slot, the charter RUNNING and HOLD released (R157). -/
theorem blockReason_none (d : Device) (b : Branch) (n : Outlet) (hn : d.blockReason b n = none) :
    d.running = true ∧ d.pins.hold = false ∧ d.admission.slots[b] = none := by
  unfold Device.blockReason at hn
  dsimp only at hn
  split at hn
  · cases hn
  · split at hn
    · cases hn
    · split at hn
      · cases hn
      · rename_i h1 h2 h3
        exact ⟨by simpa using h1, by simpa using h2, by simpa using h3⟩

theorem Loose.handAdmission (h : Loose P) (d : Device) (n : Outlet) (hd : P d) : P (d.handAdmission n) :=
  h.mail _ _ hd

theorem Loose.evaluateHead (h : Loose P) (d : Device) (b : Branch) (hd : P d) : P (d.evaluateHead b) := by
  unfold Device.evaluateHead
  split
  · exact hd
  · rename_i e rest hq
    split
    · rename_i hb
      have hfree := (blockReason_none d b e.outlet hb).2.2
      unfold Device.grant
      refine h.setTenure _ _ _ (h.publishBranch _ _ (h.handAdmission _ _ ?_))
      by_cases hok : d.admission.Ok
      · have hqb : QueueOk b (e :: rest) := hq ▸ hok.queues b
        refine h.occupySlot _ _ _ hfree ?_ (h.setQueue _ _ _ (fun _ => hqb.behind) hd)
        have hr := inrushEstimate_range d e.outlet
        exact ⟨hqb.branch e (List.mem_cons_self ..), hr.1, hr.2, hqb.rank e (List.mem_cons_self ..)⟩
      · exact h.admission d _ (fun ha => absurd ha hok) hd
    · exact h.setTenure _ _ _ hd

theorem Loose.evaluateHeads (h : Loose P) (d : Device) (hd : P d) : P d.evaluateHeads :=
  h.inFreeOrder _ _ (fun d b hd => h.evaluateHead d b hd) _ _ hd

theorem Internal.evaluateHeads (h : Internal P) (d : Device) (hd : P d) : P d.evaluateHeads :=
  h.inFreeOrder _ _ (fun d b hd => h.evaluateHead d b hd) _ _ hd

theorem Loose.placeEntry (h : Loose P) (d : Device) (b : Branch) (q : List QueueEntry) (n : Outlet)
    (hq : QueueOk b (d.branchQueue b) → QueueOk b q) (hd : P d) : P (d.placeEntry b q n) := by
  unfold Device.placeEntry
  dsimp only
  split
  · exact h.beginTenure _ _ (h.setQueue _ _ _ hq hd)
  · exact h.setQueue _ _ _ hq hd

theorem Loose.placeJoin (h : Loose P) (d : Device) (n : Outlet) (hd : P d) : P (d.placeJoin n) :=
  h.placeEntry _ _ _ _ (fun hq => hq.join _ (restartRank_range d n) rfl) hd

theorem Loose.takeJoin (h : Loose P) (d : Device) (n : Outlet) (hd : P d) : P (d.takeJoin n) := by
  unfold Device.takeJoin
  dsimp only
  split
  · exact hd
  · split
    · exact h.markWithdrawn _ _ _ hd
    · exact h.evaluateHead _ _ (h.publishBranch _ _ (h.placeJoin _ _ hd))

theorem Loose.takeRemoval (h : Loose P) (d : Device) (n : Outlet) (hd : P d) : P (d.takeRemoval n) := by
  unfold Device.takeRemoval
  dsimp only
  split
  · split
    · exact h.evaluateHead _ _ (h.publishBranch _ _ (h.beginTenure _ _ (h.setQueue _ _ _ (fun hq => hq.filter _) hd)))
    · exact h.publishBranch _ _ (h.setQueue _ _ _ (fun hq => hq.filter _) hd)
  · split
    · exact h.markWithdrawn _ _ _ hd
    · exact hd

theorem Loose.takeRelease (h : Loose P) (d : Device) (n : Outlet) (hd : P d) : P (d.takeRelease n) := by
  unfold Device.takeRelease
  dsimp only
  split
  · rename_i s hs
    split
    · exact h.evaluateHeads _ (h.publishBranch _ _ (h.freeSlot _ _ _ hs hd))
    · exact hd
  · exact hd

theorem Loose.takeHandBack (h : Loose P) (d : Device) (n : Outlet) (hd : P d) : P (d.takeHandBack n) := by
  unfold Device.takeHandBack
  dsimp only
  split
  · rename_i s hs
    split
    · rename_i hn
      have hf := h.freeSlot _ _ _ hs hd
      refine h.evaluateHeads _ (h.publishBranch _ _ ?_)
      split
      · exact hf
      · by_cases hok : d.admission.Ok
        · exact h.placeEntry _ _ _ _ (fun hq => hq.returned _ (hok.slots _ s hs).rank rfl) hf
        · have hne : P (({ d with admission :=
              (((d.freeSlot (Outlet.branch n) s).placeEntry (Outlet.branch n)
                (insertReturned ⟨n, s.rank⟩ ((d.freeSlot (Outlet.branch n) s).branchQueue (Outlet.branch n))) n)).admission }
                  : Device)) := h.admission d _ (fun ha => absurd ha hok) hd
          convert hne using 1
          unfold Device.placeEntry
          dsimp only
          split <;> rfl
    · exact hd
  · exact hd

/-! ## Waiting and Over-Limit -/

theorem Neutral.examineTenure (h : Neutral P) (d : Device) (b : Branch) (hd : P d) : P (d.examineTenure b) := by
  unfold Device.examineTenure
  split
  · split
    · exact h.report _ _ _ _ _ (h.setTenure _ _ _ hd)
    · exact hd
  · exact hd

theorem Neutral.examineTenures (h : Neutral P) (d : Device) (hd : P d) : P d.examineTenures :=
  h.inFreeOrder _ _ (fun d b hd => h.examineTenure d b hd) _ _ hd

theorem Neutral.decideLevel (h : Neutral P) (x : LoadsHandoff) (d : Device) (l : Level) (hd : P d) :
    P (Device.decideLevel x d l) := by
  unfold Device.decideLevel
  dsimp only
  split
  · exact hd
  · exact h.report _ _ _ _ _
      (h.kept _ _ (fun ha => ⟨ha.queues, ha.slots, ha.branch, ha.phase, ha.inlet⟩) rfl rfl hd)

theorem Internal.takeLoads (h : Internal P) (d : Device) (x : LoadsHandoff) (hd : P d) : P (d.takeLoads x) := by
  unfold Device.takeLoads
  exact h.evaluateHeads _ (h.kept _ _ (fun ha => ⟨ha.queues, ha.slots, ha.branch, ha.phase, ha.inlet⟩) rfl rfl
    (h.inFreeOrder _ _ (fun d l hd => h.decideLevel x d l hd) _ _ hd))

end Sys2Proof.Machine
end

