-- ==== Sys2Proof/Laws/KeepsMeter.lean ====
section
/-! SUPPORT. What the operations of the Sampler and the Close Engine can change: strings keep their digits and residuals
stay below one Wh (R68 to R72). -/

namespace Sys2Proof.Machine
open Sys2Proof

variable {P : Device → Prop}

/-! ## Decimal strings -/

theorem length_addCarry (ds : Digits) (w c : Nat) : (ds.addCarry w c).1.length = ds.length := by
  induction ds generalizing w c with
  | nil => rfl
  | cons d ds ih => simp [Digits.addCarry, ih]

/-- An addition keeps the number of digits. -/
theorem length_add (ds : Digits) (w : Nat) : (ds.add w).length = ds.length := length_addCarry ds w 0

/-- A saturating addition keeps the number of digits. -/
theorem length_addSaturating (ds : Digits) (w : Nat) : (ds.addSaturating w).length = ds.length := by
  unfold Digits.addSaturating
  split
  · exact List.length_map ..
  · exact length_add ds w

theorem length_subBorrow (ds es : Digits) (b : Nat) : (ds.subBorrow es b).1.length = ds.length := by
  induction ds generalizing es b with
  | nil => rfl
  | cons d ds ih => simp [Digits.subBorrow, ih]

/-- A collect-clear's subtraction keeps the number of digits. -/
theorem length_subFloor (ds es : Digits) : (ds.subFloor es).length = ds.length := by
  unfold Digits.subFloor
  dsimp only
  split
  · exact List.length_map ..
  · exact length_subBorrow ds es 0

/-- A seed that passes has as many digits as were asked for (R30). -/
theorem length_seedDigits (k x : Nat) (ds : Digits) (hs : seedDigits k x = some ds) : ds.length = k := by
  induction k generalizing x ds with
  | zero => simp only [seedDigits, Option.some.injEq] at hs; simp [← hs]
  | succ k ih =>
    unfold seedDigits at hs
    split at hs
    · obtain ⟨es, he, rfl⟩ := Option.map_eq_some_iff.1 hs
      simp [ih _ _ he]
    · cases hs

/-! ## Energy -/

theorem OutletMeter.EnergyOk.charged {m : OutletMeter} (hm : m.EnergyOk) (t : Nat) : (m.charged t).EnergyOk where
  residual := Nat.mod_lt _ (by decide)
  lifetime := (length_add _ _).trans hm.lifetime
  period := (length_addSaturating _ _).trans hm.period
  rollover := by
    simp only [OutletMeter.charged]
    split
    · exact Nat.min_le_right _ _
    · exact hm.rollover

theorem LevelMeter.EnergyOk.charged {m : LevelMeter} (hm : m.EnergyOk) (g : Nat) : (m.charged g).EnergyOk where
  lifetime := (length_add _ _).trans hm.lifetime
  rollover := by
    simp only [LevelMeter.charged]
    split
    · exact Nat.min_le_right _ _
    · exact hm.rollover

theorem OutletMeter.EnergyOk.measured {m : OutletMeter} (hm : m.EnergyOk) (c : Channel) (q : Quality) (k kv v : Nat) :
    (m.measured c q k kv v).EnergyOk := by
  unfold OutletMeter.measured
  split <;> exact ⟨hm.residual, hm.lifetime, hm.period, hm.rollover⟩

/-! ## Sampler -/

theorem Neutral.setSampler (h : Neutral P) (d : Device) (f : Sampler → Sampler) (hd : P d) : P (d.setSampler f) :=
  h.sampler _ _ hd

theorem Neutral.reportLine (h : Neutral P) (d : Device) (k : ReportKind) (a : Word) (hd : P d) :
    P (d.reportLine k a) := by
  unfold Device.reportLine
  split
  · exact h.report _ _ _ _ _ hd
  · exact hd

theorem Neutral.measureDrift (h : Neutral P) (d : Device) (hd : P d) : P d.measureDrift.1 := by
  unfold Device.measureDrift
  split
  · split
    · exact hd
    · dsimp only
      split
      · exact hd
      · dsimp only
        refine h.changeCharter _ _ ?_
        exact h.setSampler _ _ (h.report _ _ _ _ _ hd)
  · exact hd

/-- The hand-off of an interval and the next interval's state, in one step. -/
theorem Neutral.handInterval (h : Neutral P) (d : Device) (m : Mail) (s : Sampler)
    (ht : m.toAdmission = d.mail.toAdmission) (ha : m.admissions = d.mail.admissions) (hd : P d) :
    P { d with mail := m, sampler := s } := h.sampler { d with mail := m } s (h.handed d m ht ha hd)

theorem Neutral.closeInterval (h : Neutral P) (d : Device) (t : Nat) (s : Bool) (hd : P d) :
    P (d.closeInterval t s) := by
  have hm := h.measureDrift d hd
  unfold Device.closeInterval
  dsimp only
  generalize d.measureDrift = m at hm ⊢
  exact h.handInterval m.1 _ _ rfl rfl hm

theorem Neutral.timedCloseAt (h : Neutral P) (d : Device) (t : Nat) (hd : P d) : P (d.timedCloseAt t) :=
  h.closeInterval _ _ _ (h.setSampler _ _ hd)

theorem Neutral.restoringClose (h : Neutral P) (d : Device) (e t : Nat) (hd : P d) : P (d.restoringClose e t) := by
  unfold Device.restoringClose
  split
  · exact h.setSampler _ _ (h.closeInterval _ _ _ (h.setSampler _ _ hd))
  · exact h.closeInterval _ _ _ hd

theorem Neutral.acceptCrossing (h : Neutral P) (d : Device) (e t : Nat) (hd : P d) : P (d.acceptCrossing e t) := by
  have h0 := h.setSampler d (fun s => { s with lastCrossing := some t }) hd
  unfold Device.acceptCrossing
  dsimp only
  split
  · split
    · exact h.closeInterval _ _ _ (h.setSampler _ _ h0)
    · exact h.setSampler _ _ h0
  · exact h.reportLine _ _ _ (h.setSampler _ _ (h.restoringClose _ _ _ (h.changeCharter _ _ (h.setSampler _ _ h0))))

theorem Neutral.detect (h : Neutral P) (d : Device) (v : Int) (hd : P d) : P (d.detect v) := by
  unfold Device.detect
  dsimp only
  have h0 := h.setSampler d (fun s => { s with lastL1 := some (d.sampler.slotStart, v) }) hd
  split
  · exact h0
  · split
    · split
      · exact h.acceptCrossing _ _ _ h0
      · exact h0
    · exact h0

theorem Neutral.advance (h : Neutral P) (d : Device) (us : Nat) (hd : P d) : P (d.advance us) := by
  let d1 : Device := { d with now := d.now + us }
  let d2 : Device := { d1 with charter := { d.charter with subsecond := d.charter.subsecond + us } }
  let d3 : Device := { d2 with outlet := mapAll (OutletContext.tick us) d.outlet }
  have h1 : P d1 := h.now _ _ hd
  have h2 : P d2 := h.charter d1 _ (fun hc => ⟨hc.uptime, hc.settings⟩) (fun he => he) (fun he => he) h1
  have h3 : P d3 := h.outlet d2 _ (fun m => by
    rw [getElem_mapAll]
    exact ⟨rfl, .inr (by simp only [OutletContext.coil, OutletContext.tick, Option.map_map]; rfl)⟩) h2
  refine h.watch d3 (mapAll (WatchContext.tick d.suspendedSince.isSome us) d.watch) (fun hw m => ?_) h3
  rw [getElem_mapAll]
  exact hw m

theorem Neutral.passSlot (h : Neutral P) (d : Device) (next : Option Outlet) (hd : P d) : P (d.passSlot next) := by
  unfold Device.passSlot
  exact h.setSampler _ _ (h.advance _ _ hd)

theorem Neutral.completeCurrentSlot (h : Neutral P) (d : Device) (n : Outlet) (r v : Int) (hd : P d) :
    P (d.completeCurrentSlot n r v) := by
  unfold Device.completeCurrentSlot
  dsimp only
  have h0 := h.passSlot d (Device.Sampler.after d.sampler n) hd
  have hw : ∀ e : Device, P e → P (if Outlet.phase n = 0 then e.detect v else e) := by
    intro e he
    split
    · exact h.detect _ _ he
    · exact he
  split
  · exact h.setSampler _ _ (hw _ h0)
  · exact hw _ (h.setSampler _ _ h0)

theorem Neutral.completeReferenceSlot (h : Neutral P) (d : Device) (r v : Int) (hd : P d) :
    P (d.completeReferenceSlot r v) := h.setSampler _ _ (h.detect _ _ (h.passSlot _ _ hd))

theorem Neutral.loseLine (h : Neutral P) (d : Device) (t : Nat) (hd : P d) : P (d.loseLine t) := by
  unfold Device.loseLine
  dsimp only
  have h0 := h.reportLine _ .lineLoss 0
    (h.changeCharter d (fun d => d.setSampler fun s => { s with locked := false, timedCloses := 0 })
      (h.setSampler _ _ hd))
  split
  · exact h.timedCloseAt _ _ h0
  · exact h0

/-! ## Close Engine -/

theorem Neutral.measure (h : Neutral P) (d : Device) (r : CloseRecord) (hd : P d) : P (d.measure r) := by
  refine h.engine _ _ (fun he => ⟨fun n => ?_, he.levels⟩) hd
  simp only [Fin.getElem_fin, Vector.getElem_ofFn]
  split
  · exact (he.outlets n).measured _ _ _ _ _
  · exact he.outlets n

theorem Neutral.chargeOutlet (h : Neutral P) (t : Nat) (d : Device) (n : Outlet) (hd : P d) :
    P (Device.chargeOutlet t d n) := by
  unfold Device.chargeOutlet
  dsimp only
  have h0 := h.setMeter d n (fun m => m.charged t) (fun _ hm => hm.charged t) hd
  split
  · exact h.report _ _ _ _ _ h0
  · exact h0

theorem Neutral.charge (h : Neutral P) (d : Device) (r : CloseRecord) (hd : P d) : P (d.charge r) := by
  unfold Device.charge
  dsimp only
  refine h.inFreeOrder _ _ (fun d l hd => h.report d _ _ _ _ hd) _ _ ?_
  refine h.engine _ _ (fun he => ⟨he.outlets, fun l => ?_⟩) (h.foldl _ (fun d n hd => h.chargeOutlet _ d n hd) _ _ hd)
  rw [PerLevel.get_ofFn]
  exact (he.levels l).charged _

theorem Neutral.total (h : Neutral P) (d : Device) (r : CloseRecord) (hd : P d) : P (d.total r) := by
  refine h.engine _ _ (fun he => ⟨he.outlets, fun l => ?_⟩) hd
  rw [PerLevel.get_ofFn]
  exact ⟨(he.levels l).lifetime, (he.levels l).rollover⟩

theorem Neutral.measureFrequency (h : Neutral P) (d : Device) (r : CloseRecord) (hd : P d) :
    P (d.measureFrequency r) := by
  unfold Device.measureFrequency
  split
  · exact h.engine _ _ (fun he => ⟨he.outlets, he.levels⟩) hd
  · exact hd

theorem Neutral.handOffClose (h : Neutral P) (d : Device) (r : CloseRecord) (hd : P d) : P (d.handOffClose r) :=
  h.handed _ _ rfl rfl hd

theorem Neutral.publishClose (h : Neutral P) (d : Device) (r : CloseRecord) (hd : P d) : P (d.publishClose r) :=
  h.foldl _ (fun d n hd => h.publishMeter d n hd) _ _ (h.foldl _ (fun d l hd => h.publishLevel d l hd) _ _ hd)

theorem Neutral.readSense (h : Neutral P) (d : Device) (lines : SenseLines) (hd : P d) : P (d.readSense lines) := by
  refine h.foldl _ (fun d n hd => ?_) _ _ (h.lines _ _ hd)
  unfold Device.readOutlet
  split
  · exact h.modOutlet _ _ _ hd
  · exact hd

theorem Neutral.compute (h : Neutral P) (d : Device) (r : CloseRecord) (lines : SenseLines) (hd : P d) :
    P (d.compute r lines) := by
  unfold Device.compute
  dsimp only
  have h1 := h.readSense _ lines (h.countClose d (d.republishes r) hd)
  have h2 : ∀ e : Device, P e →
      P (((if (e.measure r).inService then (e.measure r).charge r else e.measure r).total r).measureFrequency r) := by
    intro e he
    refine h.measureFrequency _ _ (h.total _ _ ?_)
    split
    · exact h.charge _ _ (h.measure _ _ he)
    · exact h.measure _ _ he
  have h3 := h.changeCharter _ (fun e : Device =>
    ((if (e.measure r).inService then (e.measure r).charge r else e.measure r).total r).measureFrequency r) (h2 _ h1)
  split
  · exact h.publishClose _ _ (h.handOffClose _ _ h3)
  · exact h3

/-! ## Period energy -/

theorem Neutral.clearPeriod (h : Neutral P) (d : Device) (n : Outlet) (hd : P d) : P (d.clearPeriod n) :=
  h.publishMeter _ _ (h.setMeter _ _ _ (fun _ hm => ⟨hm.residual, hm.lifetime, List.length_replicate .., hm.rollover⟩) hd)

theorem Neutral.collect (h : Neutral P) (d : Device) (c : CollectClear) (hd : P d) : P (d.collect c) := by
  have h1 : P (d.setMeter c.outlet fun m =>
      { m with period := ((d.engine.outlets[c.outlet]).period).subFloor c.value }) := by
    refine h.engine _ _ (fun he => ⟨fun m => ?_, he.levels⟩) hd
    rw [getElem_setAt]
    have ho := he.outlets c.outlet
    split
    · exact ⟨ho.residual, ho.lifetime, (length_subFloor _ _).trans ho.period, ho.rollover⟩
    · exact he.outlets m
  exact h.handed _ _ rfl rfl (h.setHeldBack _ _ _ h1)

theorem Neutral.takeReturn (h : Neutral P) (d : Device) (c : CollectReturn) (hd : P d) : P (d.takeReturn c) := by
  unfold Device.takeReturn
  split
  · split
    · exact h.enqueueGroup _ _ _ (h.setHeldBack _ _ _ hd)
    · exact hd
  · exact h.publishMeter _ _ hd

end Sys2Proof.Machine
end

