-- ==== Sys2Proof/Laws/KeepsWatch.lean ====
section
/-! SUPPORT. What the Hang Watch's operations can change: no recent-cycle list grows beyond 7 entries (R144). -/

namespace Sys2Proof.Machine
open Sys2Proof

variable {P : Device → Prop}

/-! ## The lists that watch changes leave -/

theorem keepsRecent_of_eq {f : WatchContext → WatchContext} (hf : ∀ w, (f w).recent = w.recent) : KeepsRecent f :=
  fun w hw => by rw [hf w]; exact hw

theorem keepsRecent_idled : KeepsRecent WatchContext.idled := keepsRecent_of_eq fun _ => rfl

theorem keepsRecent_watchingAfresh : KeepsRecent WatchContext.watchingAfresh := keepsRecent_of_eq fun _ => rfl

theorem recent_lapsed (w : WatchContext) : w.lapsed.recent = w.recent := by
  unfold WatchContext.lapsed; split <;> rfl

theorem recent_suspended (w : WatchContext) : w.suspended.recent = w.recent := by
  unfold WatchContext.suspended
  dsimp only
  split
  · rfl
  · exact recent_lapsed _

theorem keepsRecent_withoutEntry (entry : Nat) : KeepsRecent fun w => w.withoutEntry entry := by
  intro w hw
  simp only [WatchContext.withoutEntry]
  split
  · simp only [List.length_dropLast]; omega
  · exact hw

theorem recent_track (band : Nat) (p : Int) (t : Nat) (w : WatchContext) : (w.track band p t).recent = w.recent := by
  unfold WatchContext.track
  split
  · rfl
  · split <;> rfl

/-! ## Verdicts -/

theorem Neutral.reportVerdict (h : Neutral P) (d : Device) (n : Outlet) (a : VerdictAction) (hd : P d) :
    P (d.reportVerdict n a) := h.report _ _ _ _ _ hd

/-- The Cycle Limit taken is at most 7 (R131). -/
theorem cycleLimit_range (d : Device) (n : Outlet) : d.cycleLimit n ≤ 7 := by
  unfold Device.cycleLimit clampNat; omega

theorem Neutral.automaticCycle (h : Neutral P) (d : Device) (n : Outlet)
    (room : (d.watch[n]).recent.length < d.cycleLimit n) (hd : P d) : P (d.automaticCycle n) := by
  unfold Device.automaticCycle
  refine h.handed _ _ rfl rfl (h.modWatchAt _ _ _ (fun _ => ?_) (h.reportVerdict _ _ _ hd))
  have := cycleLimit_range d n
  have hw : ((d.reportVerdict n .cycled).watch[n]).recent.length = (d.watch[n]).recent.length := rfl
  simp only [List.length_append, List.length_cons, List.length_nil]
  omega

theorem Neutral.lockOut (h : Neutral P) (d : Device) (n : Outlet) (hd : P d) : P (d.lockOut n) :=
  h.modWatch _ _ _ (keepsRecent_of_eq fun _ => rfl) (h.reportVerdict _ _ _ hd)

theorem Neutral.decideVerdict (h : Neutral P) (d : Device) (n : Outlet) (hd : P d) : P (d.decideVerdict n) := by
  unfold Device.decideVerdict
  split
  · exact h.reportVerdict _ _ _ hd
  · split
    · rename_i hr
      exact h.automaticCycle _ _ hr hd
    · exact h.lockOut _ _ hd

theorem Neutral.confirmed (h : Neutral P) (d : Device) (n : Outlet) (hd : P d) : P (d.confirmed n) :=
  h.decideVerdict _ _ (h.modWatch _ _ _ (keepsRecent_of_eq fun _ => rfl) hd)

theorem Neutral.releaseVerdicts (h : Neutral P) (d : Device) (hd : P d) : P d.releaseVerdicts :=
  h.inFreeOrder _ _ (fun d n hd => h.decideVerdict d n hd) _ _ hd

/-! ## Quorum and suspension -/

theorem Neutral.beginSuspension (h : Neutral P) (d : Device) (hd : P d) : P d.beginSuspension := by
  unfold Device.beginSuspension
  exact h.changeCharter _ _ (h.suspended _ _ (h.report _ _ _ _ _
    (h.foldl _ (fun d n hd => h.modWatch d n _ (keepsRecent_of_eq recent_suspended) hd) _ _ hd)))

theorem Neutral.compareQuorum (h : Neutral P) (d : Device) (hd : P d) : P d.compareQuorum := by
  unfold Device.compareQuorum
  dsimp only
  split
  · exact h.beginSuspension _ hd
  · exact hd

theorem Neutral.endSuspension (h : Neutral P) (d : Device) (since : Nat) (n : Outlet) (hd : P d) :
    P (d.endSuspension since n) := by
  unfold Device.endSuspension
  refine h.changeCharter _ _ (h.suspended _ _ (h.report _ _ _ _ _ (h.watch _ _ (fun hw m => ?_) hd)))
  rw [getElem_mapAll]
  exact hw m

/-! ## Predicate and confirmation -/

theorem Neutral.enterSuspect (h : Neutral P) (d : Device) (n : Outlet) (hd : P d) : P (d.enterSuspect n) := by
  have h1 := h.modWatch d n (fun w => { w with state := .suspect }) (keepsRecent_of_eq fun _ => rfl) hd
  have h2 : P (if ((d.modWatch n fun w => { w with state := .suspect }).watch[n]).condH then
      (d.modWatch n fun w => { w with state := .suspect }).compareQuorum
      else d.modWatch n fun w => { w with state := .suspect }) := by
    split
    · exact h.compareQuorum _ h1
    · exact h1
  unfold Device.enterSuspect
  dsimp only
  generalize (if ((d.modWatch n fun w => { w with state := .suspect }).watch[n]).condH then
      (d.modWatch n fun w => { w with state := .suspect }).compareQuorum
      else d.modWatch n fun w => { w with state := .suspect }) = e at h2 ⊢
  split
  · split
    · exact h.confirmed _ _ h2
    · exact h.modWatch _ _ _ (keepsRecent_of_eq fun _ => rfl) h2
  · exact h2

theorem Neutral.evaluatePredicate (h : Neutral P) (d : Device) (n : Outlet) (hd : P d) :
    P (d.evaluatePredicate n) := by
  unfold Device.evaluatePredicate
  dsimp only
  split
  · split
    · exact h.enterSuspect _ _ hd
    · exact hd
  · split
    · exact hd
    · exact h.modWatch _ _ _ (keepsRecent_of_eq recent_lapsed) hd
  · split
    · exact hd
    · exact h.modWatch _ _ _ (keepsRecent_of_eq recent_lapsed) hd
  all_goals exact hd

theorem Neutral.setH (h : Neutral P) (d : Device) (n : Outlet) (v : Bool) (hd : P d) : P (d.setH n v) := by
  unfold Device.setH
  dsimp only
  split
  · exact hd
  · refine h.evaluatePredicate _ _ ?_
    split
    · exact h.compareQuorum _ (h.modWatch _ _ _ (keepsRecent_of_eq fun _ => rfl) hd)
    · exact h.modWatch _ _ _ (keepsRecent_of_eq fun _ => rfl) hd

theorem Neutral.setS (h : Neutral P) (d : Device) (n : Outlet) (v : Bool) (hd : P d) : P (d.setS n v) := by
  unfold Device.setS
  split
  · exact hd
  · exact h.evaluatePredicate _ _ (h.modWatch _ _ _ (keepsRecent_of_eq fun _ => rfl) hd)

theorem Neutral.evaluateH (h : Neutral P) (d : Device) (n : Outlet) (hd : P d) : P (d.evaluateH n) := by
  unfold Device.evaluateH
  split
  · exact h.setH _ _ _ hd
  · exact hd

theorem Neutral.evaluateS (h : Neutral P) (d : Device) (n : Outlet) (hd : P d) : P (d.evaluateS n) := by
  unfold Device.evaluateS
  split
  · exact h.setS _ _ _ hd
  · exact hd

/-! ## Grace, heartbeats, tracker -/

theorem Neutral.enterGrace (h : Neutral P) (d : Device) (n : Outlet) (hd : P d) : P (d.enterGrace n) := by
  unfold Device.enterGrace
  split
  · exact h.modWatch _ _ _ keepsRecent_watchingAfresh hd
  · exact h.modWatch _ _ _ (keepsRecent_of_eq fun _ => rfl) hd

theorem Neutral.endGrace (h : Neutral P) (d : Device) (n : Outlet) (hd : P d) : P (d.endGrace n) :=
  h.modWatch _ _ _ keepsRecent_watchingAfresh hd

theorem Neutral.watchHeartbeat (h : Neutral P) (d : Device) (n : Outlet) (hd : P d) : P (d.watchHeartbeat n) := by
  unfold Device.watchHeartbeat
  dsimp only
  have hz := h.setH _ n false (h.modWatch d n WatchContext.zeroHeartbeat (keepsRecent_of_eq fun _ => rfl) hd)
  split
  · split
    · exact h.modWatch _ _ _ (keepsRecent_of_eq fun _ => rfl) hd
    · exact hd
  · exact h.endGrace _ _ hd
  · exact hz
  · exact hz
  · exact hz
  · exact hd

theorem Neutral.takeHeartbeat (h : Neutral P) (d : Device) (n : Outlet) (hd : P d) : P (d.takeHeartbeat n) := by
  unfold Device.takeHeartbeat
  split
  · exact h.watchHeartbeat _ _ (h.endSuspension _ _ _ hd)
  · exact h.watchHeartbeat _ _ hd

theorem Neutral.takeTracker (h : Neutral P) (d : Device) (x : TrackerHandoff) (hd : P d) : P (d.takeTracker x) := by
  unfold Device.takeTracker
  dsimp only
  split
  · exact h.evaluateS _ _ (h.modWatch _ _ _ (keepsRecent_of_eq fun w => recent_track _ _ _ w) hd)
  · exact hd

/-! ## The recent-cycle list, events and requests -/

theorem length_dropWhile_le {α : Type} (p : α → Bool) (l : List α) : (l.dropWhile p).length ≤ l.length := by
  induction l with
  | nil => exact Nat.le_refl _
  | cons x xs ih =>
    rw [List.dropWhile_cons]
    split
    · exact Nat.le_succ_of_le ih
    · exact Nat.le_refl _

theorem Neutral.ageList (h : Neutral P) (d : Device) (n : Outlet) (hd : P d) : P (d.ageList n) :=
  h.modWatch _ _ _ (fun w hw => (length_dropWhile_le _ w.recent).trans hw) hd

theorem Neutral.ageLists (h : Neutral P) (d : Device) (hd : P d) : P d.ageLists :=
  h.foldl _ (fun d n hd => h.ageList d n hd) _ _ hd

theorem Neutral.takeOn (h : Neutral P) (d : Device) (n : Outlet) (hd : P d) : P (d.takeOn n) := by
  unfold Device.takeOn
  split
  · exact h.enterGrace _ _ hd
  · exact hd

theorem Neutral.takeOff (h : Neutral P) (d : Device) (n : Outlet) (hd : P d) : P (d.takeOff n) :=
  h.modWatch _ _ _ keepsRecent_idled hd

theorem Neutral.returnToWatch (h : Neutral P) (d : Device) (n : Outlet) (entry : Nat) (hd : P d) :
    P (d.returnToWatch n entry) := by
  unfold Device.returnToWatch
  dsimp only
  split
  · refine h.reportVerdict _ _ _ (h.modWatch _ _ _ (fun w hw => ?_)
      (h.setWatch _ _ _ (keepsRecent_of_eq fun _ => rfl) hd))
    have := keepsRecent_withoutEntry entry w hw
    split <;> exact this
  · refine h.modWatch _ _ _ (fun w hw => ?_) (h.setWatch _ _ _ (keepsRecent_of_eq fun _ => rfl) hd)
    have := keepsRecent_withoutEntry entry w hw
    split <;> exact this

theorem Neutral.takeAnswer (h : Neutral P) (d : Device) (n : Outlet) (started : Bool) (entry : Nat) (hd : P d) :
    P (d.takeAnswer n started entry) := by
  unfold Device.takeAnswer
  dsimp only
  split
  · exact h.setWatch _ _ _ (keepsRecent_of_eq fun _ => rfl) hd
  · split
    · exact h.returnToWatch _ _ _ hd
    · exact h.modWatch _ _ _ (fun w hw => keepsRecent_withoutEntry entry w hw) hd

theorem Neutral.takeWatchMessage (h : Neutral P) (d : Device) (m : WatchMessage) (hd : P d) :
    P (d.takeWatchMessage m) := by
  cases m with
  | on n => exact h.takeOn _ _ hd
  | off n => exact h.takeOff _ _ hd
  | answer n s e => exact h.takeAnswer _ _ _ _ hd

theorem Neutral.takeWatchMessages (h : Neutral P) (d : Device) (hd : P d) : P d.takeWatchMessages :=
  h.foldl _ (fun d m hd => h.takeWatchMessage d m hd) _ _ (h.handed _ _ rfl rfl hd)

theorem Neutral.resumeWatch (h : Neutral P) (d : Device) (n : Outlet) (hd : P d) : P (d.resumeWatch n) := by
  refine h.modWatch _ _ _ (fun w _ => ?_) hd
  dsimp only
  split <;> exact Nat.zero_le _

theorem Neutral.restartWatch (h : Neutral P) (d : Device) (n : Outlet) (hd : P d) : P (d.restartWatch n) := by
  unfold Device.restartWatch
  dsimp only
  split
  · exact h.enterGrace _ _ (h.modWatch _ _ _ (keepsRecent_of_eq fun _ => rfl) hd)
  · exact h.modWatch _ _ _ (keepsRecent_of_eq fun _ => rfl) hd

end Sys2Proof.Machine
end

