-- ==== Sys2Proof/Laws/State.lean ====
section
/-! SUPPORT. What each update of the block leaves in each field: one lemma for each field of each update, so that no proof
unfolds a record update. -/

namespace Sys2Proof.Machine
open Sys2Proof

variable (d : Device)

/-! ### setOutlet -/

@[simp] theorem Device.setOutlet_pins (n : Outlet) (f : OutletContext → OutletContext) : (d.setOutlet n f).pins = d.pins := rfl
@[simp] theorem Device.setOutlet_ram (n : Outlet) (f : OutletContext → OutletContext) : (d.setOutlet n f).ram = d.ram := rfl
@[simp] theorem Device.setOutlet_now (n : Outlet) (f : OutletContext → OutletContext) : (d.setOutlet n f).now = d.now := rfl
@[simp] theorem Device.setOutlet_path (n : Outlet) (f : OutletContext → OutletContext) : (d.setOutlet n f).path = d.path := rfl
@[simp] theorem Device.setOutlet_pub (n : Outlet) (f : OutletContext → OutletContext) : (d.setOutlet n f).pub = d.pub := rfl
@[simp] theorem Device.setOutlet_charter (n : Outlet) (f : OutletContext → OutletContext) : (d.setOutlet n f).charter = d.charter := rfl
@[simp] theorem Device.setOutlet_sampler (n : Outlet) (f : OutletContext → OutletContext) : (d.setOutlet n f).sampler = d.sampler := rfl
@[simp] theorem Device.setOutlet_engine (n : Outlet) (f : OutletContext → OutletContext) : (d.setOutlet n f).engine = d.engine := rfl
@[simp] theorem Device.setOutlet_outlet (n : Outlet) (f : OutletContext → OutletContext) : (d.setOutlet n f).outlet = setAt d.outlet n (f d.outlet[n]) := rfl
@[simp] theorem Device.setOutlet_applyEcho (n : Outlet) (f : OutletContext → OutletContext) : (d.setOutlet n f).applyEcho = d.applyEcho := rfl
@[simp] theorem Device.setOutlet_watch (n : Outlet) (f : OutletContext → OutletContext) : (d.setOutlet n f).watch = d.watch := rfl
@[simp] theorem Device.setOutlet_suspendedSince (n : Outlet) (f : OutletContext → OutletContext) : (d.setOutlet n f).suspendedSince = d.suspendedSince := rfl
@[simp] theorem Device.setOutlet_admission (n : Outlet) (f : OutletContext → OutletContext) : (d.setOutlet n f).admission = d.admission := rfl
@[simp] theorem Device.setOutlet_reports (n : Outlet) (f : OutletContext → OutletContext) : (d.setOutlet n f).reports = d.reports := rfl
@[simp] theorem Device.setOutlet_mail (n : Outlet) (f : OutletContext → OutletContext) : (d.setOutlet n f).mail = d.mail := rfl
@[simp] theorem Device.setOutlet_freeCount (n : Outlet) (f : OutletContext → OutletContext) : (d.setOutlet n f).freeCount = d.freeCount := rfl

/-! ### setWatch -/

@[simp] theorem Device.setWatch_pins (n : Outlet) (f : WatchContext → WatchContext) : (d.setWatch n f).pins = d.pins := rfl
@[simp] theorem Device.setWatch_ram (n : Outlet) (f : WatchContext → WatchContext) : (d.setWatch n f).ram = d.ram := rfl
@[simp] theorem Device.setWatch_now (n : Outlet) (f : WatchContext → WatchContext) : (d.setWatch n f).now = d.now := rfl
@[simp] theorem Device.setWatch_path (n : Outlet) (f : WatchContext → WatchContext) : (d.setWatch n f).path = d.path := rfl
@[simp] theorem Device.setWatch_pub (n : Outlet) (f : WatchContext → WatchContext) : (d.setWatch n f).pub = d.pub := rfl
@[simp] theorem Device.setWatch_charter (n : Outlet) (f : WatchContext → WatchContext) : (d.setWatch n f).charter = d.charter := rfl
@[simp] theorem Device.setWatch_sampler (n : Outlet) (f : WatchContext → WatchContext) : (d.setWatch n f).sampler = d.sampler := rfl
@[simp] theorem Device.setWatch_engine (n : Outlet) (f : WatchContext → WatchContext) : (d.setWatch n f).engine = d.engine := rfl
@[simp] theorem Device.setWatch_outlet (n : Outlet) (f : WatchContext → WatchContext) : (d.setWatch n f).outlet = d.outlet := rfl
@[simp] theorem Device.setWatch_applyEcho (n : Outlet) (f : WatchContext → WatchContext) : (d.setWatch n f).applyEcho = d.applyEcho := rfl
@[simp] theorem Device.setWatch_watch (n : Outlet) (f : WatchContext → WatchContext) : (d.setWatch n f).watch = setAt d.watch n (f d.watch[n]) := rfl
@[simp] theorem Device.setWatch_suspendedSince (n : Outlet) (f : WatchContext → WatchContext) : (d.setWatch n f).suspendedSince = d.suspendedSince := rfl
@[simp] theorem Device.setWatch_admission (n : Outlet) (f : WatchContext → WatchContext) : (d.setWatch n f).admission = d.admission := rfl
@[simp] theorem Device.setWatch_reports (n : Outlet) (f : WatchContext → WatchContext) : (d.setWatch n f).reports = d.reports := rfl
@[simp] theorem Device.setWatch_mail (n : Outlet) (f : WatchContext → WatchContext) : (d.setWatch n f).mail = d.mail := rfl
@[simp] theorem Device.setWatch_freeCount (n : Outlet) (f : WatchContext → WatchContext) : (d.setWatch n f).freeCount = d.freeCount := rfl

/-! ### setMeter -/

@[simp] theorem Device.setMeter_pins (n : Outlet) (f : OutletMeter → OutletMeter) : (d.setMeter n f).pins = d.pins := rfl
@[simp] theorem Device.setMeter_ram (n : Outlet) (f : OutletMeter → OutletMeter) : (d.setMeter n f).ram = d.ram := rfl
@[simp] theorem Device.setMeter_now (n : Outlet) (f : OutletMeter → OutletMeter) : (d.setMeter n f).now = d.now := rfl
@[simp] theorem Device.setMeter_path (n : Outlet) (f : OutletMeter → OutletMeter) : (d.setMeter n f).path = d.path := rfl
@[simp] theorem Device.setMeter_pub (n : Outlet) (f : OutletMeter → OutletMeter) : (d.setMeter n f).pub = d.pub := rfl
@[simp] theorem Device.setMeter_charter (n : Outlet) (f : OutletMeter → OutletMeter) : (d.setMeter n f).charter = d.charter := rfl
@[simp] theorem Device.setMeter_sampler (n : Outlet) (f : OutletMeter → OutletMeter) : (d.setMeter n f).sampler = d.sampler := rfl
@[simp] theorem Device.setMeter_engine (n : Outlet) (f : OutletMeter → OutletMeter) : (d.setMeter n f).engine = { d.engine with outlets := setAt d.engine.outlets n (f d.engine.outlets[n]) } := rfl
@[simp] theorem Device.setMeter_outlet (n : Outlet) (f : OutletMeter → OutletMeter) : (d.setMeter n f).outlet = d.outlet := rfl
@[simp] theorem Device.setMeter_applyEcho (n : Outlet) (f : OutletMeter → OutletMeter) : (d.setMeter n f).applyEcho = d.applyEcho := rfl
@[simp] theorem Device.setMeter_watch (n : Outlet) (f : OutletMeter → OutletMeter) : (d.setMeter n f).watch = d.watch := rfl
@[simp] theorem Device.setMeter_suspendedSince (n : Outlet) (f : OutletMeter → OutletMeter) : (d.setMeter n f).suspendedSince = d.suspendedSince := rfl
@[simp] theorem Device.setMeter_admission (n : Outlet) (f : OutletMeter → OutletMeter) : (d.setMeter n f).admission = d.admission := rfl
@[simp] theorem Device.setMeter_reports (n : Outlet) (f : OutletMeter → OutletMeter) : (d.setMeter n f).reports = d.reports := rfl
@[simp] theorem Device.setMeter_mail (n : Outlet) (f : OutletMeter → OutletMeter) : (d.setMeter n f).mail = d.mail := rfl
@[simp] theorem Device.setMeter_freeCount (n : Outlet) (f : OutletMeter → OutletMeter) : (d.setMeter n f).freeCount = d.freeCount := rfl

/-! ### setLevelMeter -/

@[simp] theorem Device.setLevelMeter_pins (l : Level) (f : LevelMeter → LevelMeter) : (d.setLevelMeter l f).pins = d.pins := rfl
@[simp] theorem Device.setLevelMeter_ram (l : Level) (f : LevelMeter → LevelMeter) : (d.setLevelMeter l f).ram = d.ram := rfl
@[simp] theorem Device.setLevelMeter_now (l : Level) (f : LevelMeter → LevelMeter) : (d.setLevelMeter l f).now = d.now := rfl
@[simp] theorem Device.setLevelMeter_path (l : Level) (f : LevelMeter → LevelMeter) : (d.setLevelMeter l f).path = d.path := rfl
@[simp] theorem Device.setLevelMeter_pub (l : Level) (f : LevelMeter → LevelMeter) : (d.setLevelMeter l f).pub = d.pub := rfl
@[simp] theorem Device.setLevelMeter_charter (l : Level) (f : LevelMeter → LevelMeter) : (d.setLevelMeter l f).charter = d.charter := rfl
@[simp] theorem Device.setLevelMeter_sampler (l : Level) (f : LevelMeter → LevelMeter) : (d.setLevelMeter l f).sampler = d.sampler := rfl
@[simp] theorem Device.setLevelMeter_engine (l : Level) (f : LevelMeter → LevelMeter) : (d.setLevelMeter l f).engine = { d.engine with levels := d.engine.levels.set l (f (d.engine.levels.get l)) } := rfl
@[simp] theorem Device.setLevelMeter_outlet (l : Level) (f : LevelMeter → LevelMeter) : (d.setLevelMeter l f).outlet = d.outlet := rfl
@[simp] theorem Device.setLevelMeter_applyEcho (l : Level) (f : LevelMeter → LevelMeter) : (d.setLevelMeter l f).applyEcho = d.applyEcho := rfl
@[simp] theorem Device.setLevelMeter_watch (l : Level) (f : LevelMeter → LevelMeter) : (d.setLevelMeter l f).watch = d.watch := rfl
@[simp] theorem Device.setLevelMeter_suspendedSince (l : Level) (f : LevelMeter → LevelMeter) : (d.setLevelMeter l f).suspendedSince = d.suspendedSince := rfl
@[simp] theorem Device.setLevelMeter_admission (l : Level) (f : LevelMeter → LevelMeter) : (d.setLevelMeter l f).admission = d.admission := rfl
@[simp] theorem Device.setLevelMeter_reports (l : Level) (f : LevelMeter → LevelMeter) : (d.setLevelMeter l f).reports = d.reports := rfl
@[simp] theorem Device.setLevelMeter_mail (l : Level) (f : LevelMeter → LevelMeter) : (d.setLevelMeter l f).mail = d.mail := rfl
@[simp] theorem Device.setLevelMeter_freeCount (l : Level) (f : LevelMeter → LevelMeter) : (d.setLevelMeter l f).freeCount = d.freeCount := rfl

/-! ### report -/

@[simp] theorem Device.report_pins (k : ReportKind) (s : Subject) (a b : Word) : (d.report k s a b).pins = d.pins := rfl
@[simp] theorem Device.report_ram (k : ReportKind) (s : Subject) (a b : Word) : (d.report k s a b).ram = d.ram := rfl
@[simp] theorem Device.report_now (k : ReportKind) (s : Subject) (a b : Word) : (d.report k s a b).now = d.now := rfl
@[simp] theorem Device.report_path (k : ReportKind) (s : Subject) (a b : Word) : (d.report k s a b).path = d.path := rfl
@[simp] theorem Device.report_pub (k : ReportKind) (s : Subject) (a b : Word) : (d.report k s a b).pub = d.pub := rfl
@[simp] theorem Device.report_charter (k : ReportKind) (s : Subject) (a b : Word) : (d.report k s a b).charter = d.charter := rfl
@[simp] theorem Device.report_sampler (k : ReportKind) (s : Subject) (a b : Word) : (d.report k s a b).sampler = d.sampler := rfl
@[simp] theorem Device.report_engine (k : ReportKind) (s : Subject) (a b : Word) : (d.report k s a b).engine = d.engine := rfl
@[simp] theorem Device.report_outlet (k : ReportKind) (s : Subject) (a b : Word) : (d.report k s a b).outlet = d.outlet := rfl
@[simp] theorem Device.report_applyEcho (k : ReportKind) (s : Subject) (a b : Word) : (d.report k s a b).applyEcho = d.applyEcho := rfl
@[simp] theorem Device.report_watch (k : ReportKind) (s : Subject) (a b : Word) : (d.report k s a b).watch = d.watch := rfl
@[simp] theorem Device.report_suspendedSince (k : ReportKind) (s : Subject) (a b : Word) : (d.report k s a b).suspendedSince = d.suspendedSince := rfl
@[simp] theorem Device.report_admission (k : ReportKind) (s : Subject) (a b : Word) : (d.report k s a b).admission = d.admission := rfl
@[simp] theorem Device.report_reports (k : ReportKind) (s : Subject) (a b : Word) : (d.report k s a b).reports = d.reports := rfl
@[simp] theorem Device.report_mail (k : ReportKind) (s : Subject) (a b : Word) : (d.report k s a b).mail = { d.mail with reports := d.mail.reports ++ [⟨k, s, a, b⟩] } := rfl
@[simp] theorem Device.report_freeCount (k : ReportKind) (s : Subject) (a b : Word) : (d.report k s a b).freeCount = d.freeCount := rfl

/-! ### toAdmission -/

@[simp] theorem Device.toAdmission_pins (m : AdmissionMessage) : (d.toAdmission m).pins = d.pins := rfl
@[simp] theorem Device.toAdmission_ram (m : AdmissionMessage) : (d.toAdmission m).ram = d.ram := rfl
@[simp] theorem Device.toAdmission_now (m : AdmissionMessage) : (d.toAdmission m).now = d.now := rfl
@[simp] theorem Device.toAdmission_path (m : AdmissionMessage) : (d.toAdmission m).path = d.path := rfl
@[simp] theorem Device.toAdmission_pub (m : AdmissionMessage) : (d.toAdmission m).pub = d.pub := rfl
@[simp] theorem Device.toAdmission_charter (m : AdmissionMessage) : (d.toAdmission m).charter = d.charter := rfl
@[simp] theorem Device.toAdmission_sampler (m : AdmissionMessage) : (d.toAdmission m).sampler = d.sampler := rfl
@[simp] theorem Device.toAdmission_engine (m : AdmissionMessage) : (d.toAdmission m).engine = d.engine := rfl
@[simp] theorem Device.toAdmission_outlet (m : AdmissionMessage) : (d.toAdmission m).outlet = d.outlet := rfl
@[simp] theorem Device.toAdmission_applyEcho (m : AdmissionMessage) : (d.toAdmission m).applyEcho = d.applyEcho := rfl
@[simp] theorem Device.toAdmission_watch (m : AdmissionMessage) : (d.toAdmission m).watch = d.watch := rfl
@[simp] theorem Device.toAdmission_suspendedSince (m : AdmissionMessage) : (d.toAdmission m).suspendedSince = d.suspendedSince := rfl
@[simp] theorem Device.toAdmission_admission (m : AdmissionMessage) : (d.toAdmission m).admission = d.admission := rfl
@[simp] theorem Device.toAdmission_reports (m : AdmissionMessage) : (d.toAdmission m).reports = d.reports := rfl
@[simp] theorem Device.toAdmission_mail (m : AdmissionMessage) : (d.toAdmission m).mail = { d.mail with toAdmission := d.mail.toAdmission ++ [m] } := rfl
@[simp] theorem Device.toAdmission_freeCount (m : AdmissionMessage) : (d.toAdmission m).freeCount = d.freeCount := rfl

/-! ### toWatch -/

@[simp] theorem Device.toWatch_pins (m : WatchMessage) : (d.toWatch m).pins = d.pins := rfl
@[simp] theorem Device.toWatch_ram (m : WatchMessage) : (d.toWatch m).ram = d.ram := rfl
@[simp] theorem Device.toWatch_now (m : WatchMessage) : (d.toWatch m).now = d.now := rfl
@[simp] theorem Device.toWatch_path (m : WatchMessage) : (d.toWatch m).path = d.path := rfl
@[simp] theorem Device.toWatch_pub (m : WatchMessage) : (d.toWatch m).pub = d.pub := rfl
@[simp] theorem Device.toWatch_charter (m : WatchMessage) : (d.toWatch m).charter = d.charter := rfl
@[simp] theorem Device.toWatch_sampler (m : WatchMessage) : (d.toWatch m).sampler = d.sampler := rfl
@[simp] theorem Device.toWatch_engine (m : WatchMessage) : (d.toWatch m).engine = d.engine := rfl
@[simp] theorem Device.toWatch_outlet (m : WatchMessage) : (d.toWatch m).outlet = d.outlet := rfl
@[simp] theorem Device.toWatch_applyEcho (m : WatchMessage) : (d.toWatch m).applyEcho = d.applyEcho := rfl
@[simp] theorem Device.toWatch_watch (m : WatchMessage) : (d.toWatch m).watch = d.watch := rfl
@[simp] theorem Device.toWatch_suspendedSince (m : WatchMessage) : (d.toWatch m).suspendedSince = d.suspendedSince := rfl
@[simp] theorem Device.toWatch_admission (m : WatchMessage) : (d.toWatch m).admission = d.admission := rfl
@[simp] theorem Device.toWatch_reports (m : WatchMessage) : (d.toWatch m).reports = d.reports := rfl
@[simp] theorem Device.toWatch_mail (m : WatchMessage) : (d.toWatch m).mail = { d.mail with toWatch := d.mail.toWatch ++ [m] } := rfl
@[simp] theorem Device.toWatch_freeCount (m : WatchMessage) : (d.toWatch m).freeCount = d.freeCount := rfl

/-! ### handAdmission -/

@[simp] theorem Device.handAdmission_pins (n : Outlet) : (d.handAdmission n).pins = d.pins := rfl
@[simp] theorem Device.handAdmission_ram (n : Outlet) : (d.handAdmission n).ram = d.ram := rfl
@[simp] theorem Device.handAdmission_now (n : Outlet) : (d.handAdmission n).now = d.now := rfl
@[simp] theorem Device.handAdmission_path (n : Outlet) : (d.handAdmission n).path = d.path := rfl
@[simp] theorem Device.handAdmission_pub (n : Outlet) : (d.handAdmission n).pub = d.pub := rfl
@[simp] theorem Device.handAdmission_charter (n : Outlet) : (d.handAdmission n).charter = d.charter := rfl
@[simp] theorem Device.handAdmission_sampler (n : Outlet) : (d.handAdmission n).sampler = d.sampler := rfl
@[simp] theorem Device.handAdmission_engine (n : Outlet) : (d.handAdmission n).engine = d.engine := rfl
@[simp] theorem Device.handAdmission_outlet (n : Outlet) : (d.handAdmission n).outlet = d.outlet := rfl
@[simp] theorem Device.handAdmission_applyEcho (n : Outlet) : (d.handAdmission n).applyEcho = d.applyEcho := rfl
@[simp] theorem Device.handAdmission_watch (n : Outlet) : (d.handAdmission n).watch = d.watch := rfl
@[simp] theorem Device.handAdmission_suspendedSince (n : Outlet) : (d.handAdmission n).suspendedSince = d.suspendedSince := rfl
@[simp] theorem Device.handAdmission_admission (n : Outlet) : (d.handAdmission n).admission = d.admission := rfl
@[simp] theorem Device.handAdmission_reports (n : Outlet) : (d.handAdmission n).reports = d.reports := rfl
@[simp] theorem Device.handAdmission_mail (n : Outlet) : (d.handAdmission n).mail = { d.mail with admissions := d.mail.admissions ++ [n] } := rfl
@[simp] theorem Device.handAdmission_freeCount (n : Outlet) : (d.handAdmission n).freeCount = d.freeCount := rfl

/-! ### setCharter -/

@[simp] theorem Device.setCharter_pins (f : Charter → Charter) : (d.setCharter f).pins = d.pins := rfl
@[simp] theorem Device.setCharter_ram (f : Charter → Charter) : (d.setCharter f).ram = d.ram := rfl
@[simp] theorem Device.setCharter_now (f : Charter → Charter) : (d.setCharter f).now = d.now := rfl
@[simp] theorem Device.setCharter_path (f : Charter → Charter) : (d.setCharter f).path = d.path := rfl
@[simp] theorem Device.setCharter_pub (f : Charter → Charter) : (d.setCharter f).pub = d.pub := rfl
@[simp] theorem Device.setCharter_charter (f : Charter → Charter) : (d.setCharter f).charter = f d.charter := rfl
@[simp] theorem Device.setCharter_sampler (f : Charter → Charter) : (d.setCharter f).sampler = d.sampler := rfl
@[simp] theorem Device.setCharter_engine (f : Charter → Charter) : (d.setCharter f).engine = d.engine := rfl
@[simp] theorem Device.setCharter_outlet (f : Charter → Charter) : (d.setCharter f).outlet = d.outlet := rfl
@[simp] theorem Device.setCharter_applyEcho (f : Charter → Charter) : (d.setCharter f).applyEcho = d.applyEcho := rfl
@[simp] theorem Device.setCharter_watch (f : Charter → Charter) : (d.setCharter f).watch = d.watch := rfl
@[simp] theorem Device.setCharter_suspendedSince (f : Charter → Charter) : (d.setCharter f).suspendedSince = d.suspendedSince := rfl
@[simp] theorem Device.setCharter_admission (f : Charter → Charter) : (d.setCharter f).admission = d.admission := rfl
@[simp] theorem Device.setCharter_reports (f : Charter → Charter) : (d.setCharter f).reports = d.reports := rfl
@[simp] theorem Device.setCharter_mail (f : Charter → Charter) : (d.setCharter f).mail = d.mail := rfl
@[simp] theorem Device.setCharter_freeCount (f : Charter → Charter) : (d.setCharter f).freeCount = d.freeCount := rfl

/-! ### setSampler -/

@[simp] theorem Device.setSampler_pins (f : Sampler → Sampler) : (d.setSampler f).pins = d.pins := rfl
@[simp] theorem Device.setSampler_ram (f : Sampler → Sampler) : (d.setSampler f).ram = d.ram := rfl
@[simp] theorem Device.setSampler_now (f : Sampler → Sampler) : (d.setSampler f).now = d.now := rfl
@[simp] theorem Device.setSampler_path (f : Sampler → Sampler) : (d.setSampler f).path = d.path := rfl
@[simp] theorem Device.setSampler_pub (f : Sampler → Sampler) : (d.setSampler f).pub = d.pub := rfl
@[simp] theorem Device.setSampler_charter (f : Sampler → Sampler) : (d.setSampler f).charter = d.charter := rfl
@[simp] theorem Device.setSampler_sampler (f : Sampler → Sampler) : (d.setSampler f).sampler = f d.sampler := rfl
@[simp] theorem Device.setSampler_engine (f : Sampler → Sampler) : (d.setSampler f).engine = d.engine := rfl
@[simp] theorem Device.setSampler_outlet (f : Sampler → Sampler) : (d.setSampler f).outlet = d.outlet := rfl
@[simp] theorem Device.setSampler_applyEcho (f : Sampler → Sampler) : (d.setSampler f).applyEcho = d.applyEcho := rfl
@[simp] theorem Device.setSampler_watch (f : Sampler → Sampler) : (d.setSampler f).watch = d.watch := rfl
@[simp] theorem Device.setSampler_suspendedSince (f : Sampler → Sampler) : (d.setSampler f).suspendedSince = d.suspendedSince := rfl
@[simp] theorem Device.setSampler_admission (f : Sampler → Sampler) : (d.setSampler f).admission = d.admission := rfl
@[simp] theorem Device.setSampler_reports (f : Sampler → Sampler) : (d.setSampler f).reports = d.reports := rfl
@[simp] theorem Device.setSampler_mail (f : Sampler → Sampler) : (d.setSampler f).mail = d.mail := rfl
@[simp] theorem Device.setSampler_freeCount (f : Sampler → Sampler) : (d.setSampler f).freeCount = d.freeCount := rfl

/-! ### setLines -/

@[simp] theorem Device.setLines_pins (l : SenseLines) : (d.setLines l).pins = { d.pins with senseLines := l } := rfl
@[simp] theorem Device.setLines_ram (l : SenseLines) : (d.setLines l).ram = d.ram := rfl
@[simp] theorem Device.setLines_now (l : SenseLines) : (d.setLines l).now = d.now := rfl
@[simp] theorem Device.setLines_path (l : SenseLines) : (d.setLines l).path = d.path := rfl
@[simp] theorem Device.setLines_pub (l : SenseLines) : (d.setLines l).pub = d.pub := rfl
@[simp] theorem Device.setLines_charter (l : SenseLines) : (d.setLines l).charter = d.charter := rfl
@[simp] theorem Device.setLines_sampler (l : SenseLines) : (d.setLines l).sampler = d.sampler := rfl
@[simp] theorem Device.setLines_engine (l : SenseLines) : (d.setLines l).engine = d.engine := rfl
@[simp] theorem Device.setLines_outlet (l : SenseLines) : (d.setLines l).outlet = d.outlet := rfl
@[simp] theorem Device.setLines_applyEcho (l : SenseLines) : (d.setLines l).applyEcho = d.applyEcho := rfl
@[simp] theorem Device.setLines_watch (l : SenseLines) : (d.setLines l).watch = d.watch := rfl
@[simp] theorem Device.setLines_suspendedSince (l : SenseLines) : (d.setLines l).suspendedSince = d.suspendedSince := rfl
@[simp] theorem Device.setLines_admission (l : SenseLines) : (d.setLines l).admission = d.admission := rfl
@[simp] theorem Device.setLines_reports (l : SenseLines) : (d.setLines l).reports = d.reports := rfl
@[simp] theorem Device.setLines_mail (l : SenseLines) : (d.setLines l).mail = d.mail := rfl
@[simp] theorem Device.setLines_freeCount (l : SenseLines) : (d.setLines l).freeCount = d.freeCount := rfl

/-! ### setSense -/

@[simp] theorem Device.setSense_pins (n : Outlet) (s : Sense) : (d.setSense n s).pins = { d.pins with senseLines := setAt d.pins.senseLines n s } := rfl
@[simp] theorem Device.setSense_ram (n : Outlet) (s : Sense) : (d.setSense n s).ram = d.ram := rfl
@[simp] theorem Device.setSense_now (n : Outlet) (s : Sense) : (d.setSense n s).now = d.now := rfl
@[simp] theorem Device.setSense_path (n : Outlet) (s : Sense) : (d.setSense n s).path = d.path := rfl
@[simp] theorem Device.setSense_pub (n : Outlet) (s : Sense) : (d.setSense n s).pub = d.pub := rfl
@[simp] theorem Device.setSense_charter (n : Outlet) (s : Sense) : (d.setSense n s).charter = d.charter := rfl
@[simp] theorem Device.setSense_sampler (n : Outlet) (s : Sense) : (d.setSense n s).sampler = d.sampler := rfl
@[simp] theorem Device.setSense_engine (n : Outlet) (s : Sense) : (d.setSense n s).engine = d.engine := rfl
@[simp] theorem Device.setSense_outlet (n : Outlet) (s : Sense) : (d.setSense n s).outlet = d.outlet := rfl
@[simp] theorem Device.setSense_applyEcho (n : Outlet) (s : Sense) : (d.setSense n s).applyEcho = d.applyEcho := rfl
@[simp] theorem Device.setSense_watch (n : Outlet) (s : Sense) : (d.setSense n s).watch = d.watch := rfl
@[simp] theorem Device.setSense_suspendedSince (n : Outlet) (s : Sense) : (d.setSense n s).suspendedSince = d.suspendedSince := rfl
@[simp] theorem Device.setSense_admission (n : Outlet) (s : Sense) : (d.setSense n s).admission = d.admission := rfl
@[simp] theorem Device.setSense_reports (n : Outlet) (s : Sense) : (d.setSense n s).reports = d.reports := rfl
@[simp] theorem Device.setSense_mail (n : Outlet) (s : Sense) : (d.setSense n s).mail = d.mail := rfl
@[simp] theorem Device.setSense_freeCount (n : Outlet) (s : Sense) : (d.setSense n s).freeCount = d.freeCount := rfl

/-! ### setHold -/

@[simp] theorem Device.setHold_pins (v : Bool) : (d.setHold v).pins = { d.pins with hold := v } := rfl
@[simp] theorem Device.setHold_ram (v : Bool) : (d.setHold v).ram = d.ram := rfl
@[simp] theorem Device.setHold_now (v : Bool) : (d.setHold v).now = d.now := rfl
@[simp] theorem Device.setHold_path (v : Bool) : (d.setHold v).path = d.path := rfl
@[simp] theorem Device.setHold_pub (v : Bool) : (d.setHold v).pub = d.pub := rfl
@[simp] theorem Device.setHold_charter (v : Bool) : (d.setHold v).charter = d.charter := rfl
@[simp] theorem Device.setHold_sampler (v : Bool) : (d.setHold v).sampler = d.sampler := rfl
@[simp] theorem Device.setHold_engine (v : Bool) : (d.setHold v).engine = d.engine := rfl
@[simp] theorem Device.setHold_outlet (v : Bool) : (d.setHold v).outlet = d.outlet := rfl
@[simp] theorem Device.setHold_applyEcho (v : Bool) : (d.setHold v).applyEcho = d.applyEcho := rfl
@[simp] theorem Device.setHold_watch (v : Bool) : (d.setHold v).watch = d.watch := rfl
@[simp] theorem Device.setHold_suspendedSince (v : Bool) : (d.setHold v).suspendedSince = d.suspendedSince := rfl
@[simp] theorem Device.setHold_admission (v : Bool) : (d.setHold v).admission = d.admission := rfl
@[simp] theorem Device.setHold_reports (v : Bool) : (d.setHold v).reports = d.reports := rfl
@[simp] theorem Device.setHold_mail (v : Bool) : (d.setHold v).mail = d.mail := rfl
@[simp] theorem Device.setHold_freeCount (v : Bool) : (d.setHold v).freeCount = d.freeCount := rfl

/-! ### writeRam -/

@[simp] theorem Device.writeRam_pins (a : Nat) (v : Word) : (d.writeRam a v).pins = d.pins := rfl
@[simp] theorem Device.writeRam_ram (a : Nat) (v : Word) : (d.writeRam a v).ram = d.ram.writeWord a v := rfl
@[simp] theorem Device.writeRam_now (a : Nat) (v : Word) : (d.writeRam a v).now = d.now := rfl
@[simp] theorem Device.writeRam_path (a : Nat) (v : Word) : (d.writeRam a v).path = d.path := rfl
@[simp] theorem Device.writeRam_pub (a : Nat) (v : Word) : (d.writeRam a v).pub = d.pub := rfl
@[simp] theorem Device.writeRam_charter (a : Nat) (v : Word) : (d.writeRam a v).charter = d.charter := rfl
@[simp] theorem Device.writeRam_sampler (a : Nat) (v : Word) : (d.writeRam a v).sampler = d.sampler := rfl
@[simp] theorem Device.writeRam_engine (a : Nat) (v : Word) : (d.writeRam a v).engine = d.engine := rfl
@[simp] theorem Device.writeRam_outlet (a : Nat) (v : Word) : (d.writeRam a v).outlet = d.outlet := rfl
@[simp] theorem Device.writeRam_applyEcho (a : Nat) (v : Word) : (d.writeRam a v).applyEcho = d.applyEcho := rfl
@[simp] theorem Device.writeRam_watch (a : Nat) (v : Word) : (d.writeRam a v).watch = d.watch := rfl
@[simp] theorem Device.writeRam_suspendedSince (a : Nat) (v : Word) : (d.writeRam a v).suspendedSince = d.suspendedSince := rfl
@[simp] theorem Device.writeRam_admission (a : Nat) (v : Word) : (d.writeRam a v).admission = d.admission := rfl
@[simp] theorem Device.writeRam_reports (a : Nat) (v : Word) : (d.writeRam a v).reports = d.reports := rfl
@[simp] theorem Device.writeRam_mail (a : Nat) (v : Word) : (d.writeRam a v).mail = d.mail := rfl
@[simp] theorem Device.writeRam_freeCount (a : Nat) (v : Word) : (d.writeRam a v).freeCount = d.freeCount := rfl

/-! ### writeShadow -/

@[simp] theorem Device.writeShadow_pins (o : Nat) (v : Word) : (d.writeShadow o v).pins = d.pins := rfl
@[simp] theorem Device.writeShadow_ram (o : Nat) (v : Word) : (d.writeShadow o v).ram = d.ram := rfl
@[simp] theorem Device.writeShadow_now (o : Nat) (v : Word) : (d.writeShadow o v).now = d.now := rfl
@[simp] theorem Device.writeShadow_path (o : Nat) (v : Word) : (d.writeShadow o v).path = { d.path with shadow := Store.write d.path.shadow o v } := rfl
@[simp] theorem Device.writeShadow_pub (o : Nat) (v : Word) : (d.writeShadow o v).pub = d.pub := rfl
@[simp] theorem Device.writeShadow_charter (o : Nat) (v : Word) : (d.writeShadow o v).charter = d.charter := rfl
@[simp] theorem Device.writeShadow_sampler (o : Nat) (v : Word) : (d.writeShadow o v).sampler = d.sampler := rfl
@[simp] theorem Device.writeShadow_engine (o : Nat) (v : Word) : (d.writeShadow o v).engine = d.engine := rfl
@[simp] theorem Device.writeShadow_outlet (o : Nat) (v : Word) : (d.writeShadow o v).outlet = d.outlet := rfl
@[simp] theorem Device.writeShadow_applyEcho (o : Nat) (v : Word) : (d.writeShadow o v).applyEcho = d.applyEcho := rfl
@[simp] theorem Device.writeShadow_watch (o : Nat) (v : Word) : (d.writeShadow o v).watch = d.watch := rfl
@[simp] theorem Device.writeShadow_suspendedSince (o : Nat) (v : Word) : (d.writeShadow o v).suspendedSince = d.suspendedSince := rfl
@[simp] theorem Device.writeShadow_admission (o : Nat) (v : Word) : (d.writeShadow o v).admission = d.admission := rfl
@[simp] theorem Device.writeShadow_reports (o : Nat) (v : Word) : (d.writeShadow o v).reports = d.reports := rfl
@[simp] theorem Device.writeShadow_mail (o : Nat) (v : Word) : (d.writeShadow o v).mail = d.mail := rfl
@[simp] theorem Device.writeShadow_freeCount (o : Nat) (v : Word) : (d.writeShadow o v).freeCount = d.freeCount := rfl

/-! ### setHeld -/

@[simp] theorem Device.setHeld_pins (acc : Option Access) : (d.setHeld acc).pins = d.pins := rfl
@[simp] theorem Device.setHeld_ram (acc : Option Access) : (d.setHeld acc).ram = d.ram := rfl
@[simp] theorem Device.setHeld_now (acc : Option Access) : (d.setHeld acc).now = d.now := rfl
@[simp] theorem Device.setHeld_path (acc : Option Access) : (d.setHeld acc).path = { d.path with held := acc } := rfl
@[simp] theorem Device.setHeld_pub (acc : Option Access) : (d.setHeld acc).pub = d.pub := rfl
@[simp] theorem Device.setHeld_charter (acc : Option Access) : (d.setHeld acc).charter = d.charter := rfl
@[simp] theorem Device.setHeld_sampler (acc : Option Access) : (d.setHeld acc).sampler = d.sampler := rfl
@[simp] theorem Device.setHeld_engine (acc : Option Access) : (d.setHeld acc).engine = d.engine := rfl
@[simp] theorem Device.setHeld_outlet (acc : Option Access) : (d.setHeld acc).outlet = d.outlet := rfl
@[simp] theorem Device.setHeld_applyEcho (acc : Option Access) : (d.setHeld acc).applyEcho = d.applyEcho := rfl
@[simp] theorem Device.setHeld_watch (acc : Option Access) : (d.setHeld acc).watch = d.watch := rfl
@[simp] theorem Device.setHeld_suspendedSince (acc : Option Access) : (d.setHeld acc).suspendedSince = d.suspendedSince := rfl
@[simp] theorem Device.setHeld_admission (acc : Option Access) : (d.setHeld acc).admission = d.admission := rfl
@[simp] theorem Device.setHeld_reports (acc : Option Access) : (d.setHeld acc).reports = d.reports := rfl
@[simp] theorem Device.setHeld_mail (acc : Option Access) : (d.setHeld acc).mail = d.mail := rfl
@[simp] theorem Device.setHeld_freeCount (acc : Option Access) : (d.setHeld acc).freeCount = d.freeCount := rfl

/-! ### setLastTag -/

@[simp] theorem Device.setLastTag_pins (n : Outlet) (t : Byte) : (d.setLastTag n t).pins = d.pins := rfl
@[simp] theorem Device.setLastTag_ram (n : Outlet) (t : Byte) : (d.setLastTag n t).ram = d.ram := rfl
@[simp] theorem Device.setLastTag_now (n : Outlet) (t : Byte) : (d.setLastTag n t).now = d.now := rfl
@[simp] theorem Device.setLastTag_path (n : Outlet) (t : Byte) : (d.setLastTag n t).path = { d.path with lastTag := setAt d.path.lastTag n t } := rfl
@[simp] theorem Device.setLastTag_pub (n : Outlet) (t : Byte) : (d.setLastTag n t).pub = d.pub := rfl
@[simp] theorem Device.setLastTag_charter (n : Outlet) (t : Byte) : (d.setLastTag n t).charter = d.charter := rfl
@[simp] theorem Device.setLastTag_sampler (n : Outlet) (t : Byte) : (d.setLastTag n t).sampler = d.sampler := rfl
@[simp] theorem Device.setLastTag_engine (n : Outlet) (t : Byte) : (d.setLastTag n t).engine = d.engine := rfl
@[simp] theorem Device.setLastTag_outlet (n : Outlet) (t : Byte) : (d.setLastTag n t).outlet = d.outlet := rfl
@[simp] theorem Device.setLastTag_applyEcho (n : Outlet) (t : Byte) : (d.setLastTag n t).applyEcho = d.applyEcho := rfl
@[simp] theorem Device.setLastTag_watch (n : Outlet) (t : Byte) : (d.setLastTag n t).watch = d.watch := rfl
@[simp] theorem Device.setLastTag_suspendedSince (n : Outlet) (t : Byte) : (d.setLastTag n t).suspendedSince = d.suspendedSince := rfl
@[simp] theorem Device.setLastTag_admission (n : Outlet) (t : Byte) : (d.setLastTag n t).admission = d.admission := rfl
@[simp] theorem Device.setLastTag_reports (n : Outlet) (t : Byte) : (d.setLastTag n t).reports = d.reports := rfl
@[simp] theorem Device.setLastTag_mail (n : Outlet) (t : Byte) : (d.setLastTag n t).mail = d.mail := rfl
@[simp] theorem Device.setLastTag_freeCount (n : Outlet) (t : Byte) : (d.setLastTag n t).freeCount = d.freeCount := rfl

/-! ### setBracket -/

@[simp] theorem Device.setBracket_pins (b : Option Bracket) : (d.setBracket b).pins = d.pins := rfl
@[simp] theorem Device.setBracket_ram (b : Option Bracket) : (d.setBracket b).ram = d.ram := rfl
@[simp] theorem Device.setBracket_now (b : Option Bracket) : (d.setBracket b).now = d.now := rfl
@[simp] theorem Device.setBracket_path (b : Option Bracket) : (d.setBracket b).path = d.path := rfl
@[simp] theorem Device.setBracket_pub (b : Option Bracket) : (d.setBracket b).pub = { d.pub with bracket := b } := rfl
@[simp] theorem Device.setBracket_charter (b : Option Bracket) : (d.setBracket b).charter = d.charter := rfl
@[simp] theorem Device.setBracket_sampler (b : Option Bracket) : (d.setBracket b).sampler = d.sampler := rfl
@[simp] theorem Device.setBracket_engine (b : Option Bracket) : (d.setBracket b).engine = d.engine := rfl
@[simp] theorem Device.setBracket_outlet (b : Option Bracket) : (d.setBracket b).outlet = d.outlet := rfl
@[simp] theorem Device.setBracket_applyEcho (b : Option Bracket) : (d.setBracket b).applyEcho = d.applyEcho := rfl
@[simp] theorem Device.setBracket_watch (b : Option Bracket) : (d.setBracket b).watch = d.watch := rfl
@[simp] theorem Device.setBracket_suspendedSince (b : Option Bracket) : (d.setBracket b).suspendedSince = d.suspendedSince := rfl
@[simp] theorem Device.setBracket_admission (b : Option Bracket) : (d.setBracket b).admission = d.admission := rfl
@[simp] theorem Device.setBracket_reports (b : Option Bracket) : (d.setBracket b).reports = d.reports := rfl
@[simp] theorem Device.setBracket_mail (b : Option Bracket) : (d.setBracket b).mail = d.mail := rfl
@[simp] theorem Device.setBracket_freeCount (b : Option Bracket) : (d.setBracket b).freeCount = d.freeCount := rfl

/-! ### setHeldBack -/

@[simp] theorem Device.setHeldBack_pins (n : Outlet) (u : Option (List Word)) : (d.setHeldBack n u).pins = d.pins := rfl
@[simp] theorem Device.setHeldBack_ram (n : Outlet) (u : Option (List Word)) : (d.setHeldBack n u).ram = d.ram := rfl
@[simp] theorem Device.setHeldBack_now (n : Outlet) (u : Option (List Word)) : (d.setHeldBack n u).now = d.now := rfl
@[simp] theorem Device.setHeldBack_path (n : Outlet) (u : Option (List Word)) : (d.setHeldBack n u).path = d.path := rfl
@[simp] theorem Device.setHeldBack_pub (n : Outlet) (u : Option (List Word)) : (d.setHeldBack n u).pub = { d.pub with heldBack := setAt d.pub.heldBack n u } := rfl
@[simp] theorem Device.setHeldBack_charter (n : Outlet) (u : Option (List Word)) : (d.setHeldBack n u).charter = d.charter := rfl
@[simp] theorem Device.setHeldBack_sampler (n : Outlet) (u : Option (List Word)) : (d.setHeldBack n u).sampler = d.sampler := rfl
@[simp] theorem Device.setHeldBack_engine (n : Outlet) (u : Option (List Word)) : (d.setHeldBack n u).engine = d.engine := rfl
@[simp] theorem Device.setHeldBack_outlet (n : Outlet) (u : Option (List Word)) : (d.setHeldBack n u).outlet = d.outlet := rfl
@[simp] theorem Device.setHeldBack_applyEcho (n : Outlet) (u : Option (List Word)) : (d.setHeldBack n u).applyEcho = d.applyEcho := rfl
@[simp] theorem Device.setHeldBack_watch (n : Outlet) (u : Option (List Word)) : (d.setHeldBack n u).watch = d.watch := rfl
@[simp] theorem Device.setHeldBack_suspendedSince (n : Outlet) (u : Option (List Word)) : (d.setHeldBack n u).suspendedSince = d.suspendedSince := rfl
@[simp] theorem Device.setHeldBack_admission (n : Outlet) (u : Option (List Word)) : (d.setHeldBack n u).admission = d.admission := rfl
@[simp] theorem Device.setHeldBack_reports (n : Outlet) (u : Option (List Word)) : (d.setHeldBack n u).reports = d.reports := rfl
@[simp] theorem Device.setHeldBack_mail (n : Outlet) (u : Option (List Word)) : (d.setHeldBack n u).mail = d.mail := rfl
@[simp] theorem Device.setHeldBack_freeCount (n : Outlet) (u : Option (List Word)) : (d.setHeldBack n u).freeCount = d.freeCount := rfl

/-! ### enqueueReport -/

@[simp] theorem Device.enqueueReport_pins (s : BitVec 6) (w : List Word) (h : BitVec 6) : (d.enqueueReport s w h).pins = d.pins := rfl
@[simp] theorem Device.enqueueReport_ram (s : BitVec 6) (w : List Word) (h : BitVec 6) : (d.enqueueReport s w h).ram = d.ram := rfl
@[simp] theorem Device.enqueueReport_now (s : BitVec 6) (w : List Word) (h : BitVec 6) : (d.enqueueReport s w h).now = d.now := rfl
@[simp] theorem Device.enqueueReport_path (s : BitVec 6) (w : List Word) (h : BitVec 6) : (d.enqueueReport s w h).path = d.path := rfl
@[simp] theorem Device.enqueueReport_pub (s : BitVec 6) (w : List Word) (h : BitVec 6) : (d.enqueueReport s w h).pub = { d.pub with queue := d.pub.queue ++ [.report s w h] } := rfl
@[simp] theorem Device.enqueueReport_charter (s : BitVec 6) (w : List Word) (h : BitVec 6) : (d.enqueueReport s w h).charter = d.charter := rfl
@[simp] theorem Device.enqueueReport_sampler (s : BitVec 6) (w : List Word) (h : BitVec 6) : (d.enqueueReport s w h).sampler = d.sampler := rfl
@[simp] theorem Device.enqueueReport_engine (s : BitVec 6) (w : List Word) (h : BitVec 6) : (d.enqueueReport s w h).engine = d.engine := rfl
@[simp] theorem Device.enqueueReport_outlet (s : BitVec 6) (w : List Word) (h : BitVec 6) : (d.enqueueReport s w h).outlet = d.outlet := rfl
@[simp] theorem Device.enqueueReport_applyEcho (s : BitVec 6) (w : List Word) (h : BitVec 6) : (d.enqueueReport s w h).applyEcho = d.applyEcho := rfl
@[simp] theorem Device.enqueueReport_watch (s : BitVec 6) (w : List Word) (h : BitVec 6) : (d.enqueueReport s w h).watch = d.watch := rfl
@[simp] theorem Device.enqueueReport_suspendedSince (s : BitVec 6) (w : List Word) (h : BitVec 6) : (d.enqueueReport s w h).suspendedSince = d.suspendedSince := rfl
@[simp] theorem Device.enqueueReport_admission (s : BitVec 6) (w : List Word) (h : BitVec 6) : (d.enqueueReport s w h).admission = d.admission := rfl
@[simp] theorem Device.enqueueReport_reports (s : BitVec 6) (w : List Word) (h : BitVec 6) : (d.enqueueReport s w h).reports = d.reports := rfl
@[simp] theorem Device.enqueueReport_mail (s : BitVec 6) (w : List Word) (h : BitVec 6) : (d.enqueueReport s w h).mail = d.mail := rfl
@[simp] theorem Device.enqueueReport_freeCount (s : BitVec 6) (w : List Word) (h : BitVec 6) : (d.enqueueReport s w h).freeCount = d.freeCount := rfl

/-! ### setQueue -/

@[simp] theorem Device.setQueue_pins (b : Branch) (q : List QueueEntry) : (d.setQueue b q).pins = d.pins := rfl
@[simp] theorem Device.setQueue_ram (b : Branch) (q : List QueueEntry) : (d.setQueue b q).ram = d.ram := rfl
@[simp] theorem Device.setQueue_now (b : Branch) (q : List QueueEntry) : (d.setQueue b q).now = d.now := rfl
@[simp] theorem Device.setQueue_path (b : Branch) (q : List QueueEntry) : (d.setQueue b q).path = d.path := rfl
@[simp] theorem Device.setQueue_pub (b : Branch) (q : List QueueEntry) : (d.setQueue b q).pub = d.pub := rfl
@[simp] theorem Device.setQueue_charter (b : Branch) (q : List QueueEntry) : (d.setQueue b q).charter = d.charter := rfl
@[simp] theorem Device.setQueue_sampler (b : Branch) (q : List QueueEntry) : (d.setQueue b q).sampler = d.sampler := rfl
@[simp] theorem Device.setQueue_engine (b : Branch) (q : List QueueEntry) : (d.setQueue b q).engine = d.engine := rfl
@[simp] theorem Device.setQueue_outlet (b : Branch) (q : List QueueEntry) : (d.setQueue b q).outlet = d.outlet := rfl
@[simp] theorem Device.setQueue_applyEcho (b : Branch) (q : List QueueEntry) : (d.setQueue b q).applyEcho = d.applyEcho := rfl
@[simp] theorem Device.setQueue_watch (b : Branch) (q : List QueueEntry) : (d.setQueue b q).watch = d.watch := rfl
@[simp] theorem Device.setQueue_suspendedSince (b : Branch) (q : List QueueEntry) : (d.setQueue b q).suspendedSince = d.suspendedSince := rfl
@[simp] theorem Device.setQueue_admission (b : Branch) (q : List QueueEntry) : (d.setQueue b q).admission = { d.admission with queues := setAt d.admission.queues b q } := rfl
@[simp] theorem Device.setQueue_reports (b : Branch) (q : List QueueEntry) : (d.setQueue b q).reports = d.reports := rfl
@[simp] theorem Device.setQueue_mail (b : Branch) (q : List QueueEntry) : (d.setQueue b q).mail = d.mail := rfl
@[simp] theorem Device.setQueue_freeCount (b : Branch) (q : List QueueEntry) : (d.setQueue b q).freeCount = d.freeCount := rfl

/-! ### setSlot -/

@[simp] theorem Device.setSlot_pins (b : Branch) (s : Option Slot) : (d.setSlot b s).pins = d.pins := rfl
@[simp] theorem Device.setSlot_ram (b : Branch) (s : Option Slot) : (d.setSlot b s).ram = d.ram := rfl
@[simp] theorem Device.setSlot_now (b : Branch) (s : Option Slot) : (d.setSlot b s).now = d.now := rfl
@[simp] theorem Device.setSlot_path (b : Branch) (s : Option Slot) : (d.setSlot b s).path = d.path := rfl
@[simp] theorem Device.setSlot_pub (b : Branch) (s : Option Slot) : (d.setSlot b s).pub = d.pub := rfl
@[simp] theorem Device.setSlot_charter (b : Branch) (s : Option Slot) : (d.setSlot b s).charter = d.charter := rfl
@[simp] theorem Device.setSlot_sampler (b : Branch) (s : Option Slot) : (d.setSlot b s).sampler = d.sampler := rfl
@[simp] theorem Device.setSlot_engine (b : Branch) (s : Option Slot) : (d.setSlot b s).engine = d.engine := rfl
@[simp] theorem Device.setSlot_outlet (b : Branch) (s : Option Slot) : (d.setSlot b s).outlet = d.outlet := rfl
@[simp] theorem Device.setSlot_applyEcho (b : Branch) (s : Option Slot) : (d.setSlot b s).applyEcho = d.applyEcho := rfl
@[simp] theorem Device.setSlot_watch (b : Branch) (s : Option Slot) : (d.setSlot b s).watch = d.watch := rfl
@[simp] theorem Device.setSlot_suspendedSince (b : Branch) (s : Option Slot) : (d.setSlot b s).suspendedSince = d.suspendedSince := rfl
@[simp] theorem Device.setSlot_admission (b : Branch) (s : Option Slot) : (d.setSlot b s).admission = { d.admission with slots := setAt d.admission.slots b s } := rfl
@[simp] theorem Device.setSlot_reports (b : Branch) (s : Option Slot) : (d.setSlot b s).reports = d.reports := rfl
@[simp] theorem Device.setSlot_mail (b : Branch) (s : Option Slot) : (d.setSlot b s).mail = d.mail := rfl
@[simp] theorem Device.setSlot_freeCount (b : Branch) (s : Option Slot) : (d.setSlot b s).freeCount = d.freeCount := rfl

/-! ### setTenure -/

@[simp] theorem Device.setTenure_pins (b : Branch) (t : Option Tenure) : (d.setTenure b t).pins = d.pins := rfl
@[simp] theorem Device.setTenure_ram (b : Branch) (t : Option Tenure) : (d.setTenure b t).ram = d.ram := rfl
@[simp] theorem Device.setTenure_now (b : Branch) (t : Option Tenure) : (d.setTenure b t).now = d.now := rfl
@[simp] theorem Device.setTenure_path (b : Branch) (t : Option Tenure) : (d.setTenure b t).path = d.path := rfl
@[simp] theorem Device.setTenure_pub (b : Branch) (t : Option Tenure) : (d.setTenure b t).pub = d.pub := rfl
@[simp] theorem Device.setTenure_charter (b : Branch) (t : Option Tenure) : (d.setTenure b t).charter = d.charter := rfl
@[simp] theorem Device.setTenure_sampler (b : Branch) (t : Option Tenure) : (d.setTenure b t).sampler = d.sampler := rfl
@[simp] theorem Device.setTenure_engine (b : Branch) (t : Option Tenure) : (d.setTenure b t).engine = d.engine := rfl
@[simp] theorem Device.setTenure_outlet (b : Branch) (t : Option Tenure) : (d.setTenure b t).outlet = d.outlet := rfl
@[simp] theorem Device.setTenure_applyEcho (b : Branch) (t : Option Tenure) : (d.setTenure b t).applyEcho = d.applyEcho := rfl
@[simp] theorem Device.setTenure_watch (b : Branch) (t : Option Tenure) : (d.setTenure b t).watch = d.watch := rfl
@[simp] theorem Device.setTenure_suspendedSince (b : Branch) (t : Option Tenure) : (d.setTenure b t).suspendedSince = d.suspendedSince := rfl
@[simp] theorem Device.setTenure_admission (b : Branch) (t : Option Tenure) : (d.setTenure b t).admission = { d.admission with tenures := setAt d.admission.tenures b t } := rfl
@[simp] theorem Device.setTenure_reports (b : Branch) (t : Option Tenure) : (d.setTenure b t).reports = d.reports := rfl
@[simp] theorem Device.setTenure_mail (b : Branch) (t : Option Tenure) : (d.setTenure b t).mail = d.mail := rfl
@[simp] theorem Device.setTenure_freeCount (b : Branch) (t : Option Tenure) : (d.setTenure b t).freeCount = d.freeCount := rfl

/-! ### loseReport -/

@[simp] theorem Device.loseReport_pins : (d.loseReport).pins = d.pins := rfl
@[simp] theorem Device.loseReport_ram : (d.loseReport).ram = d.ram := rfl
@[simp] theorem Device.loseReport_now : (d.loseReport).now = d.now := rfl
@[simp] theorem Device.loseReport_path : (d.loseReport).path = d.path := rfl
@[simp] theorem Device.loseReport_pub : (d.loseReport).pub = d.pub := rfl
@[simp] theorem Device.loseReport_charter : (d.loseReport).charter = d.charter := rfl
@[simp] theorem Device.loseReport_sampler : (d.loseReport).sampler = d.sampler := rfl
@[simp] theorem Device.loseReport_engine : (d.loseReport).engine = d.engine := rfl
@[simp] theorem Device.loseReport_outlet : (d.loseReport).outlet = d.outlet := rfl
@[simp] theorem Device.loseReport_applyEcho : (d.loseReport).applyEcho = d.applyEcho := rfl
@[simp] theorem Device.loseReport_watch : (d.loseReport).watch = d.watch := rfl
@[simp] theorem Device.loseReport_suspendedSince : (d.loseReport).suspendedSince = d.suspendedSince := rfl
@[simp] theorem Device.loseReport_admission : (d.loseReport).admission = d.admission := rfl
@[simp] theorem Device.loseReport_reports : (d.loseReport).reports = { d.reports with lost := min (d.reports.lost + 1) 65535 } := rfl
@[simp] theorem Device.loseReport_mail : (d.loseReport).mail = d.mail := rfl
@[simp] theorem Device.loseReport_freeCount : (d.loseReport).freeCount = d.freeCount := rfl

/-! ### takeTail -/

@[simp] theorem Device.takeTail_pins (v : Word) : (d.takeTail v).pins = d.pins := rfl
@[simp] theorem Device.takeTail_ram (v : Word) : (d.takeTail v).ram = d.ram := rfl
@[simp] theorem Device.takeTail_now (v : Word) : (d.takeTail v).now = d.now := rfl
@[simp] theorem Device.takeTail_path (v : Word) : (d.takeTail v).path = d.path := rfl
@[simp] theorem Device.takeTail_pub (v : Word) : (d.takeTail v).pub = d.pub := rfl
@[simp] theorem Device.takeTail_charter (v : Word) : (d.takeTail v).charter = d.charter := rfl
@[simp] theorem Device.takeTail_sampler (v : Word) : (d.takeTail v).sampler = d.sampler := rfl
@[simp] theorem Device.takeTail_engine (v : Word) : (d.takeTail v).engine = d.engine := rfl
@[simp] theorem Device.takeTail_outlet (v : Word) : (d.takeTail v).outlet = d.outlet := rfl
@[simp] theorem Device.takeTail_applyEcho (v : Word) : (d.takeTail v).applyEcho = d.applyEcho := rfl
@[simp] theorem Device.takeTail_watch (v : Word) : (d.takeTail v).watch = d.watch := rfl
@[simp] theorem Device.takeTail_suspendedSince (v : Word) : (d.takeTail v).suspendedSince = d.suspendedSince := rfl
@[simp] theorem Device.takeTail_admission (v : Word) : (d.takeTail v).admission = d.admission := rfl
@[simp] theorem Device.takeTail_reports (v : Word) : (d.takeTail v).reports = { d.reports with tail := v.setWidth 6 } := rfl
@[simp] theorem Device.takeTail_mail (v : Word) : (d.takeTail v).mail = d.mail := rfl
@[simp] theorem Device.takeTail_freeCount (v : Word) : (d.takeTail v).freeCount = d.freeCount := rfl

/-! ### takeSettingWord -/

@[simp] theorem Device.takeSettingWord_pins (w : Nat) : (d.takeSettingWord w).pins = d.pins := rfl
@[simp] theorem Device.takeSettingWord_ram (w : Nat) : (d.takeSettingWord w).ram = d.ram := rfl
@[simp] theorem Device.takeSettingWord_now (w : Nat) : (d.takeSettingWord w).now = d.now := rfl
@[simp] theorem Device.takeSettingWord_path (w : Nat) : (d.takeSettingWord w).path = d.path := rfl
@[simp] theorem Device.takeSettingWord_pub (w : Nat) : (d.takeSettingWord w).pub = d.pub := rfl
@[simp] theorem Device.takeSettingWord_charter (w : Nat) : (d.takeSettingWord w).charter = { d.charter with settings := d.takeSetting w d.charter.settings } := rfl
@[simp] theorem Device.takeSettingWord_sampler (w : Nat) : (d.takeSettingWord w).sampler = d.sampler := rfl
@[simp] theorem Device.takeSettingWord_engine (w : Nat) : (d.takeSettingWord w).engine = d.engine := rfl
@[simp] theorem Device.takeSettingWord_outlet (w : Nat) : (d.takeSettingWord w).outlet = d.outlet := rfl
@[simp] theorem Device.takeSettingWord_applyEcho (w : Nat) : (d.takeSettingWord w).applyEcho = d.applyEcho := rfl
@[simp] theorem Device.takeSettingWord_watch (w : Nat) : (d.takeSettingWord w).watch = d.watch := rfl
@[simp] theorem Device.takeSettingWord_suspendedSince (w : Nat) : (d.takeSettingWord w).suspendedSince = d.suspendedSince := rfl
@[simp] theorem Device.takeSettingWord_admission (w : Nat) : (d.takeSettingWord w).admission = d.admission := rfl
@[simp] theorem Device.takeSettingWord_reports (w : Nat) : (d.takeSettingWord w).reports = d.reports := rfl
@[simp] theorem Device.takeSettingWord_mail (w : Nat) : (d.takeSettingWord w).mail = d.mail := rfl
@[simp] theorem Device.takeSettingWord_freeCount (w : Nat) : (d.takeSettingWord w).freeCount = d.freeCount := rfl

/-! ### keepPending -/

@[simp] theorem Device.keepPending_pins (f : PendingSet → PendingSet) : (d.keepPending f).pins = d.pins := rfl
@[simp] theorem Device.keepPending_ram (f : PendingSet → PendingSet) : (d.keepPending f).ram = d.ram := rfl
@[simp] theorem Device.keepPending_now (f : PendingSet → PendingSet) : (d.keepPending f).now = d.now := rfl
@[simp] theorem Device.keepPending_path (f : PendingSet → PendingSet) : (d.keepPending f).path = d.path := rfl
@[simp] theorem Device.keepPending_pub (f : PendingSet → PendingSet) : (d.keepPending f).pub = d.pub := rfl
@[simp] theorem Device.keepPending_charter (f : PendingSet → PendingSet) : (d.keepPending f).charter = { d.charter with afterSweep := f d.charter.afterSweep } := rfl
@[simp] theorem Device.keepPending_sampler (f : PendingSet → PendingSet) : (d.keepPending f).sampler = d.sampler := rfl
@[simp] theorem Device.keepPending_engine (f : PendingSet → PendingSet) : (d.keepPending f).engine = d.engine := rfl
@[simp] theorem Device.keepPending_outlet (f : PendingSet → PendingSet) : (d.keepPending f).outlet = d.outlet := rfl
@[simp] theorem Device.keepPending_applyEcho (f : PendingSet → PendingSet) : (d.keepPending f).applyEcho = d.applyEcho := rfl
@[simp] theorem Device.keepPending_watch (f : PendingSet → PendingSet) : (d.keepPending f).watch = d.watch := rfl
@[simp] theorem Device.keepPending_suspendedSince (f : PendingSet → PendingSet) : (d.keepPending f).suspendedSince = d.suspendedSince := rfl
@[simp] theorem Device.keepPending_admission (f : PendingSet → PendingSet) : (d.keepPending f).admission = d.admission := rfl
@[simp] theorem Device.keepPending_reports (f : PendingSet → PendingSet) : (d.keepPending f).reports = d.reports := rfl
@[simp] theorem Device.keepPending_mail (f : PendingSet → PendingSet) : (d.keepPending f).mail = d.mail := rfl
@[simp] theorem Device.keepPending_freeCount (f : PendingSet → PendingSet) : (d.keepPending f).freeCount = d.freeCount := rfl

/-! ### dropAdmissionMessage -/

@[simp] theorem Device.dropAdmissionMessage_pins : (d.dropAdmissionMessage).pins = d.pins := rfl
@[simp] theorem Device.dropAdmissionMessage_ram : (d.dropAdmissionMessage).ram = d.ram := rfl
@[simp] theorem Device.dropAdmissionMessage_now : (d.dropAdmissionMessage).now = d.now := rfl
@[simp] theorem Device.dropAdmissionMessage_path : (d.dropAdmissionMessage).path = d.path := rfl
@[simp] theorem Device.dropAdmissionMessage_pub : (d.dropAdmissionMessage).pub = d.pub := rfl
@[simp] theorem Device.dropAdmissionMessage_charter : (d.dropAdmissionMessage).charter = d.charter := rfl
@[simp] theorem Device.dropAdmissionMessage_sampler : (d.dropAdmissionMessage).sampler = d.sampler := rfl
@[simp] theorem Device.dropAdmissionMessage_engine : (d.dropAdmissionMessage).engine = d.engine := rfl
@[simp] theorem Device.dropAdmissionMessage_outlet : (d.dropAdmissionMessage).outlet = d.outlet := rfl
@[simp] theorem Device.dropAdmissionMessage_applyEcho : (d.dropAdmissionMessage).applyEcho = d.applyEcho := rfl
@[simp] theorem Device.dropAdmissionMessage_watch : (d.dropAdmissionMessage).watch = d.watch := rfl
@[simp] theorem Device.dropAdmissionMessage_suspendedSince : (d.dropAdmissionMessage).suspendedSince = d.suspendedSince := rfl
@[simp] theorem Device.dropAdmissionMessage_admission : (d.dropAdmissionMessage).admission = d.admission := rfl
@[simp] theorem Device.dropAdmissionMessage_reports : (d.dropAdmissionMessage).reports = d.reports := rfl
@[simp] theorem Device.dropAdmissionMessage_mail : (d.dropAdmissionMessage).mail = { d.mail with toAdmission := d.mail.toAdmission.tail } := rfl
@[simp] theorem Device.dropAdmissionMessage_freeCount : (d.dropAdmissionMessage).freeCount = d.freeCount := rfl

/-! ### dropWatchMessage -/

@[simp] theorem Device.dropWatchMessage_pins : (d.dropWatchMessage).pins = d.pins := rfl
@[simp] theorem Device.dropWatchMessage_ram : (d.dropWatchMessage).ram = d.ram := rfl
@[simp] theorem Device.dropWatchMessage_now : (d.dropWatchMessage).now = d.now := rfl
@[simp] theorem Device.dropWatchMessage_path : (d.dropWatchMessage).path = d.path := rfl
@[simp] theorem Device.dropWatchMessage_pub : (d.dropWatchMessage).pub = d.pub := rfl
@[simp] theorem Device.dropWatchMessage_charter : (d.dropWatchMessage).charter = d.charter := rfl
@[simp] theorem Device.dropWatchMessage_sampler : (d.dropWatchMessage).sampler = d.sampler := rfl
@[simp] theorem Device.dropWatchMessage_engine : (d.dropWatchMessage).engine = d.engine := rfl
@[simp] theorem Device.dropWatchMessage_outlet : (d.dropWatchMessage).outlet = d.outlet := rfl
@[simp] theorem Device.dropWatchMessage_applyEcho : (d.dropWatchMessage).applyEcho = d.applyEcho := rfl
@[simp] theorem Device.dropWatchMessage_watch : (d.dropWatchMessage).watch = d.watch := rfl
@[simp] theorem Device.dropWatchMessage_suspendedSince : (d.dropWatchMessage).suspendedSince = d.suspendedSince := rfl
@[simp] theorem Device.dropWatchMessage_admission : (d.dropWatchMessage).admission = d.admission := rfl
@[simp] theorem Device.dropWatchMessage_reports : (d.dropWatchMessage).reports = d.reports := rfl
@[simp] theorem Device.dropWatchMessage_mail : (d.dropWatchMessage).mail = { d.mail with toWatch := d.mail.toWatch.tail } := rfl
@[simp] theorem Device.dropWatchMessage_freeCount : (d.dropWatchMessage).freeCount = d.freeCount := rfl

/-! ### takeMode -/

@[simp] theorem Device.takeMode_pins (n : Outlet) : (d.takeMode n).pins = d.pins := rfl
@[simp] theorem Device.takeMode_ram (n : Outlet) : (d.takeMode n).ram = d.ram := rfl
@[simp] theorem Device.takeMode_now (n : Outlet) : (d.takeMode n).now = d.now := rfl
@[simp] theorem Device.takeMode_path (n : Outlet) : (d.takeMode n).path = d.path := rfl
@[simp] theorem Device.takeMode_pub (n : Outlet) : (d.takeMode n).pub = d.pub := rfl
@[simp] theorem Device.takeMode_charter (n : Outlet) : (d.takeMode n).charter = d.charter := rfl
@[simp] theorem Device.takeMode_sampler (n : Outlet) : (d.takeMode n).sampler = d.sampler := rfl
@[simp] theorem Device.takeMode_engine (n : Outlet) : (d.takeMode n).engine = d.engine := rfl
@[simp] theorem Device.takeMode_outlet (n : Outlet) : (d.takeMode n).outlet = setAt d.outlet n { d.outlet[n] with mode := d.takenMode n } := rfl
@[simp] theorem Device.takeMode_applyEcho (n : Outlet) : (d.takeMode n).applyEcho = d.applyEcho := rfl
@[simp] theorem Device.takeMode_watch (n : Outlet) : (d.takeMode n).watch = d.watch := rfl
@[simp] theorem Device.takeMode_suspendedSince (n : Outlet) : (d.takeMode n).suspendedSince = d.suspendedSince := rfl
@[simp] theorem Device.takeMode_admission (n : Outlet) : (d.takeMode n).admission = d.admission := rfl
@[simp] theorem Device.takeMode_reports (n : Outlet) : (d.takeMode n).reports = d.reports := rfl
@[simp] theorem Device.takeMode_mail (n : Outlet) : (d.takeMode n).mail = d.mail := rfl
@[simp] theorem Device.takeMode_freeCount (n : Outlet) : (d.takeMode n).freeCount = d.freeCount := rfl

/-! ### advance -/

@[simp] theorem Device.advance_pins (us : Nat) : (d.advance us).pins = d.pins := rfl
@[simp] theorem Device.advance_ram (us : Nat) : (d.advance us).ram = d.ram := rfl
@[simp] theorem Device.advance_now (us : Nat) : (d.advance us).now = d.now + us := rfl
@[simp] theorem Device.advance_path (us : Nat) : (d.advance us).path = d.path := rfl
@[simp] theorem Device.advance_pub (us : Nat) : (d.advance us).pub = d.pub := rfl
@[simp] theorem Device.advance_charter (us : Nat) : (d.advance us).charter = { d.charter with subsecond := d.charter.subsecond + us } := rfl
@[simp] theorem Device.advance_sampler (us : Nat) : (d.advance us).sampler = d.sampler := rfl
@[simp] theorem Device.advance_engine (us : Nat) : (d.advance us).engine = d.engine := rfl
@[simp] theorem Device.advance_outlet (us : Nat) : (d.advance us).outlet = mapAll (OutletContext.tick us) d.outlet := rfl
@[simp] theorem Device.advance_applyEcho (us : Nat) : (d.advance us).applyEcho = d.applyEcho := rfl
@[simp] theorem Device.advance_watch (us : Nat) : (d.advance us).watch = mapAll (WatchContext.tick d.suspendedSince.isSome us) d.watch := rfl
@[simp] theorem Device.advance_suspendedSince (us : Nat) : (d.advance us).suspendedSince = d.suspendedSince := rfl
@[simp] theorem Device.advance_admission (us : Nat) : (d.advance us).admission = d.admission := rfl
@[simp] theorem Device.advance_reports (us : Nat) : (d.advance us).reports = d.reports := rfl
@[simp] theorem Device.advance_mail (us : Nat) : (d.advance us).mail = d.mail := rfl
@[simp] theorem Device.advance_freeCount (us : Nat) : (d.advance us).freeCount = d.freeCount := rfl

end Sys2Proof.Machine
end

