-- ==== Sys2Proof/Laws/Publication.lean ====
section
/-! SUPPORT. What publication leaves alone: the operations that only publish change nothing but the Publication Unit, and
a change of a context is that change and a publication. One lemma for each field of each operation. -/

namespace Sys2Proof.Machine
open Sys2Proof

/-- The second block is the first but for its Publication Unit. -/
def Device.OnlyPub (d d' : Device) : Prop := d' = { d with pub := d'.pub }

theorem Device.OnlyPub.refl (d : Device) : d.OnlyPub d := rfl

theorem Device.OnlyPub.trans {d e f : Device} (h : d.OnlyPub e) (k : e.OnlyPub f) : d.OnlyPub f := by
  unfold Device.OnlyPub at *
  rw [k, h]

theorem Device.OnlyPub.withPub (d : Device) (p : Publication) : d.OnlyPub { d with pub := p } := rfl

theorem Device.OnlyPub.pins {d d' : Device} (h : d.OnlyPub d') : d'.pins = d.pins := by rw [h]
theorem Device.OnlyPub.ram {d d' : Device} (h : d.OnlyPub d') : d'.ram = d.ram := by rw [h]
theorem Device.OnlyPub.now {d d' : Device} (h : d.OnlyPub d') : d'.now = d.now := by rw [h]
theorem Device.OnlyPub.path {d d' : Device} (h : d.OnlyPub d') : d'.path = d.path := by rw [h]
theorem Device.OnlyPub.charter {d d' : Device} (h : d.OnlyPub d') : d'.charter = d.charter := by rw [h]
theorem Device.OnlyPub.sampler {d d' : Device} (h : d.OnlyPub d') : d'.sampler = d.sampler := by rw [h]
theorem Device.OnlyPub.engine {d d' : Device} (h : d.OnlyPub d') : d'.engine = d.engine := by rw [h]
theorem Device.OnlyPub.outlet {d d' : Device} (h : d.OnlyPub d') : d'.outlet = d.outlet := by rw [h]
theorem Device.OnlyPub.applyEcho {d d' : Device} (h : d.OnlyPub d') : d'.applyEcho = d.applyEcho := by rw [h]
theorem Device.OnlyPub.watch {d d' : Device} (h : d.OnlyPub d') : d'.watch = d.watch := by rw [h]
theorem Device.OnlyPub.suspendedSince {d d' : Device} (h : d.OnlyPub d') : d'.suspendedSince = d.suspendedSince := by rw [h]
theorem Device.OnlyPub.admission {d d' : Device} (h : d.OnlyPub d') : d'.admission = d.admission := by rw [h]
theorem Device.OnlyPub.reports {d d' : Device} (h : d.OnlyPub d') : d'.reports = d.reports := by rw [h]
theorem Device.OnlyPub.mail {d d' : Device} (h : d.OnlyPub d') : d'.mail = d.mail := by rw [h]
theorem Device.OnlyPub.freeCount {d d' : Device} (h : d.OnlyPub d') : d'.freeCount = d.freeCount := by rw [h]

variable (d : Device)

theorem Device.recordPeriod_onlyPub (g : Group) (ws : List Word) : d.OnlyPub (d.recordPeriod g ws) := by
  cases g <;> rfl

theorem Device.enqueueGroup_onlyPub (g : Group) (ws : List Word) : d.OnlyPub (d.enqueueGroup g ws) :=
  .trans (.withPub d _) (Device.recordPeriod_onlyPub _ g ws)

theorem Device.publishThroughBracket_onlyPub (g : Group) (ws : List Word) :
    d.OnlyPub (d.publishThroughBracket g ws) := by
  unfold Device.publishThroughBracket
  repeat' split
  all_goals first | exact Device.enqueueGroup_onlyPub _ _ _ | exact .withPub d _

theorem Device.publish_onlyPub (g : Group) (ws : List Word) : d.OnlyPub (d.publish g ws) := by
  unfold Device.publish
  repeat' split
  all_goals first | exact Device.publishThroughBracket_onlyPub _ _ _ | exact .withPub d _

theorem Device.publishCharter_onlyPub : d.OnlyPub d.publishCharter := by
  unfold Device.publishCharter
  split
  · exact Device.publish_onlyPub _ _ _
  · exact .refl d

theorem Device.publishStatus_onlyPub (n : Outlet) : d.OnlyPub (d.publishStatus n) := by
  unfold Device.publishStatus
  split
  · exact Device.publish_onlyPub _ _ _
  · exact .refl d

theorem Device.closeBracket_onlyPub : d.OnlyPub d.closeBracket := by
  unfold Device.closeBracket
  repeat' split
  · exact .refl d
  · exact .withPub d _
  · exact .trans (.withPub d _) (Device.enqueueGroup_onlyPub _ _ _)

theorem Device.openBracket_onlyPub (g : Group) : d.OnlyPub (d.openBracket g) := by
  unfold Device.openBracket
  repeat' split
  · exact .withPub d _
  · exact .trans (Device.closeBracket_onlyPub d) (.withPub _ _)
  · exact .withPub d _

theorem Device.countClose_onlyPub (r : Group → Bool) : d.OnlyPub (d.countClose r) := by
  unfold Device.countClose
  repeat' split
  · exact .refl d
  · exact .withPub d _
  · exact .withPub d _
  · exact Device.closeBracket_onlyPub d

@[simp] theorem Device.recordPeriod_pins (g : Group) (ws : List Word) : (d.recordPeriod g ws).pins = d.pins := (Device.recordPeriod_onlyPub d g ws).pins
@[simp] theorem Device.recordPeriod_ram (g : Group) (ws : List Word) : (d.recordPeriod g ws).ram = d.ram := (Device.recordPeriod_onlyPub d g ws).ram
@[simp] theorem Device.recordPeriod_now (g : Group) (ws : List Word) : (d.recordPeriod g ws).now = d.now := (Device.recordPeriod_onlyPub d g ws).now
@[simp] theorem Device.recordPeriod_path (g : Group) (ws : List Word) : (d.recordPeriod g ws).path = d.path := (Device.recordPeriod_onlyPub d g ws).path
@[simp] theorem Device.recordPeriod_charter (g : Group) (ws : List Word) : (d.recordPeriod g ws).charter = d.charter := (Device.recordPeriod_onlyPub d g ws).charter
@[simp] theorem Device.recordPeriod_sampler (g : Group) (ws : List Word) : (d.recordPeriod g ws).sampler = d.sampler := (Device.recordPeriod_onlyPub d g ws).sampler
@[simp] theorem Device.recordPeriod_engine (g : Group) (ws : List Word) : (d.recordPeriod g ws).engine = d.engine := (Device.recordPeriod_onlyPub d g ws).engine
@[simp] theorem Device.recordPeriod_outlet (g : Group) (ws : List Word) : (d.recordPeriod g ws).outlet = d.outlet := (Device.recordPeriod_onlyPub d g ws).outlet
@[simp] theorem Device.recordPeriod_applyEcho (g : Group) (ws : List Word) : (d.recordPeriod g ws).applyEcho = d.applyEcho := (Device.recordPeriod_onlyPub d g ws).applyEcho
@[simp] theorem Device.recordPeriod_watch (g : Group) (ws : List Word) : (d.recordPeriod g ws).watch = d.watch := (Device.recordPeriod_onlyPub d g ws).watch
@[simp] theorem Device.recordPeriod_suspendedSince (g : Group) (ws : List Word) : (d.recordPeriod g ws).suspendedSince = d.suspendedSince := (Device.recordPeriod_onlyPub d g ws).suspendedSince
@[simp] theorem Device.recordPeriod_admission (g : Group) (ws : List Word) : (d.recordPeriod g ws).admission = d.admission := (Device.recordPeriod_onlyPub d g ws).admission
@[simp] theorem Device.recordPeriod_reports (g : Group) (ws : List Word) : (d.recordPeriod g ws).reports = d.reports := (Device.recordPeriod_onlyPub d g ws).reports
@[simp] theorem Device.recordPeriod_mail (g : Group) (ws : List Word) : (d.recordPeriod g ws).mail = d.mail := (Device.recordPeriod_onlyPub d g ws).mail
@[simp] theorem Device.recordPeriod_freeCount (g : Group) (ws : List Word) : (d.recordPeriod g ws).freeCount = d.freeCount := (Device.recordPeriod_onlyPub d g ws).freeCount

@[simp] theorem Device.enqueueGroup_pins (g : Group) (ws : List Word) : (d.enqueueGroup g ws).pins = d.pins := (Device.enqueueGroup_onlyPub d g ws).pins
@[simp] theorem Device.enqueueGroup_ram (g : Group) (ws : List Word) : (d.enqueueGroup g ws).ram = d.ram := (Device.enqueueGroup_onlyPub d g ws).ram
@[simp] theorem Device.enqueueGroup_now (g : Group) (ws : List Word) : (d.enqueueGroup g ws).now = d.now := (Device.enqueueGroup_onlyPub d g ws).now
@[simp] theorem Device.enqueueGroup_path (g : Group) (ws : List Word) : (d.enqueueGroup g ws).path = d.path := (Device.enqueueGroup_onlyPub d g ws).path
@[simp] theorem Device.enqueueGroup_charter (g : Group) (ws : List Word) : (d.enqueueGroup g ws).charter = d.charter := (Device.enqueueGroup_onlyPub d g ws).charter
@[simp] theorem Device.enqueueGroup_sampler (g : Group) (ws : List Word) : (d.enqueueGroup g ws).sampler = d.sampler := (Device.enqueueGroup_onlyPub d g ws).sampler
@[simp] theorem Device.enqueueGroup_engine (g : Group) (ws : List Word) : (d.enqueueGroup g ws).engine = d.engine := (Device.enqueueGroup_onlyPub d g ws).engine
@[simp] theorem Device.enqueueGroup_outlet (g : Group) (ws : List Word) : (d.enqueueGroup g ws).outlet = d.outlet := (Device.enqueueGroup_onlyPub d g ws).outlet
@[simp] theorem Device.enqueueGroup_applyEcho (g : Group) (ws : List Word) : (d.enqueueGroup g ws).applyEcho = d.applyEcho := (Device.enqueueGroup_onlyPub d g ws).applyEcho
@[simp] theorem Device.enqueueGroup_watch (g : Group) (ws : List Word) : (d.enqueueGroup g ws).watch = d.watch := (Device.enqueueGroup_onlyPub d g ws).watch
@[simp] theorem Device.enqueueGroup_suspendedSince (g : Group) (ws : List Word) : (d.enqueueGroup g ws).suspendedSince = d.suspendedSince := (Device.enqueueGroup_onlyPub d g ws).suspendedSince
@[simp] theorem Device.enqueueGroup_admission (g : Group) (ws : List Word) : (d.enqueueGroup g ws).admission = d.admission := (Device.enqueueGroup_onlyPub d g ws).admission
@[simp] theorem Device.enqueueGroup_reports (g : Group) (ws : List Word) : (d.enqueueGroup g ws).reports = d.reports := (Device.enqueueGroup_onlyPub d g ws).reports
@[simp] theorem Device.enqueueGroup_mail (g : Group) (ws : List Word) : (d.enqueueGroup g ws).mail = d.mail := (Device.enqueueGroup_onlyPub d g ws).mail
@[simp] theorem Device.enqueueGroup_freeCount (g : Group) (ws : List Word) : (d.enqueueGroup g ws).freeCount = d.freeCount := (Device.enqueueGroup_onlyPub d g ws).freeCount

@[simp] theorem Device.publishThroughBracket_pins (g : Group) (ws : List Word) : (d.publishThroughBracket g ws).pins = d.pins := (Device.publishThroughBracket_onlyPub d g ws).pins
@[simp] theorem Device.publishThroughBracket_ram (g : Group) (ws : List Word) : (d.publishThroughBracket g ws).ram = d.ram := (Device.publishThroughBracket_onlyPub d g ws).ram
@[simp] theorem Device.publishThroughBracket_now (g : Group) (ws : List Word) : (d.publishThroughBracket g ws).now = d.now := (Device.publishThroughBracket_onlyPub d g ws).now
@[simp] theorem Device.publishThroughBracket_path (g : Group) (ws : List Word) : (d.publishThroughBracket g ws).path = d.path := (Device.publishThroughBracket_onlyPub d g ws).path
@[simp] theorem Device.publishThroughBracket_charter (g : Group) (ws : List Word) : (d.publishThroughBracket g ws).charter = d.charter := (Device.publishThroughBracket_onlyPub d g ws).charter
@[simp] theorem Device.publishThroughBracket_sampler (g : Group) (ws : List Word) : (d.publishThroughBracket g ws).sampler = d.sampler := (Device.publishThroughBracket_onlyPub d g ws).sampler
@[simp] theorem Device.publishThroughBracket_engine (g : Group) (ws : List Word) : (d.publishThroughBracket g ws).engine = d.engine := (Device.publishThroughBracket_onlyPub d g ws).engine
@[simp] theorem Device.publishThroughBracket_outlet (g : Group) (ws : List Word) : (d.publishThroughBracket g ws).outlet = d.outlet := (Device.publishThroughBracket_onlyPub d g ws).outlet
@[simp] theorem Device.publishThroughBracket_applyEcho (g : Group) (ws : List Word) : (d.publishThroughBracket g ws).applyEcho = d.applyEcho := (Device.publishThroughBracket_onlyPub d g ws).applyEcho
@[simp] theorem Device.publishThroughBracket_watch (g : Group) (ws : List Word) : (d.publishThroughBracket g ws).watch = d.watch := (Device.publishThroughBracket_onlyPub d g ws).watch
@[simp] theorem Device.publishThroughBracket_suspendedSince (g : Group) (ws : List Word) : (d.publishThroughBracket g ws).suspendedSince = d.suspendedSince := (Device.publishThroughBracket_onlyPub d g ws).suspendedSince
@[simp] theorem Device.publishThroughBracket_admission (g : Group) (ws : List Word) : (d.publishThroughBracket g ws).admission = d.admission := (Device.publishThroughBracket_onlyPub d g ws).admission
@[simp] theorem Device.publishThroughBracket_reports (g : Group) (ws : List Word) : (d.publishThroughBracket g ws).reports = d.reports := (Device.publishThroughBracket_onlyPub d g ws).reports
@[simp] theorem Device.publishThroughBracket_mail (g : Group) (ws : List Word) : (d.publishThroughBracket g ws).mail = d.mail := (Device.publishThroughBracket_onlyPub d g ws).mail
@[simp] theorem Device.publishThroughBracket_freeCount (g : Group) (ws : List Word) : (d.publishThroughBracket g ws).freeCount = d.freeCount := (Device.publishThroughBracket_onlyPub d g ws).freeCount

@[simp] theorem Device.publish_pins (g : Group) (ws : List Word) : (d.publish g ws).pins = d.pins := (Device.publish_onlyPub d g ws).pins
@[simp] theorem Device.publish_ram (g : Group) (ws : List Word) : (d.publish g ws).ram = d.ram := (Device.publish_onlyPub d g ws).ram
@[simp] theorem Device.publish_now (g : Group) (ws : List Word) : (d.publish g ws).now = d.now := (Device.publish_onlyPub d g ws).now
@[simp] theorem Device.publish_path (g : Group) (ws : List Word) : (d.publish g ws).path = d.path := (Device.publish_onlyPub d g ws).path
@[simp] theorem Device.publish_charter (g : Group) (ws : List Word) : (d.publish g ws).charter = d.charter := (Device.publish_onlyPub d g ws).charter
@[simp] theorem Device.publish_sampler (g : Group) (ws : List Word) : (d.publish g ws).sampler = d.sampler := (Device.publish_onlyPub d g ws).sampler
@[simp] theorem Device.publish_engine (g : Group) (ws : List Word) : (d.publish g ws).engine = d.engine := (Device.publish_onlyPub d g ws).engine
@[simp] theorem Device.publish_outlet (g : Group) (ws : List Word) : (d.publish g ws).outlet = d.outlet := (Device.publish_onlyPub d g ws).outlet
@[simp] theorem Device.publish_applyEcho (g : Group) (ws : List Word) : (d.publish g ws).applyEcho = d.applyEcho := (Device.publish_onlyPub d g ws).applyEcho
@[simp] theorem Device.publish_watch (g : Group) (ws : List Word) : (d.publish g ws).watch = d.watch := (Device.publish_onlyPub d g ws).watch
@[simp] theorem Device.publish_suspendedSince (g : Group) (ws : List Word) : (d.publish g ws).suspendedSince = d.suspendedSince := (Device.publish_onlyPub d g ws).suspendedSince
@[simp] theorem Device.publish_admission (g : Group) (ws : List Word) : (d.publish g ws).admission = d.admission := (Device.publish_onlyPub d g ws).admission
@[simp] theorem Device.publish_reports (g : Group) (ws : List Word) : (d.publish g ws).reports = d.reports := (Device.publish_onlyPub d g ws).reports
@[simp] theorem Device.publish_mail (g : Group) (ws : List Word) : (d.publish g ws).mail = d.mail := (Device.publish_onlyPub d g ws).mail
@[simp] theorem Device.publish_freeCount (g : Group) (ws : List Word) : (d.publish g ws).freeCount = d.freeCount := (Device.publish_onlyPub d g ws).freeCount

@[simp] theorem Device.publishCharter_pins : (d.publishCharter).pins = d.pins := (Device.publishCharter_onlyPub d).pins
@[simp] theorem Device.publishCharter_ram : (d.publishCharter).ram = d.ram := (Device.publishCharter_onlyPub d).ram
@[simp] theorem Device.publishCharter_now : (d.publishCharter).now = d.now := (Device.publishCharter_onlyPub d).now
@[simp] theorem Device.publishCharter_path : (d.publishCharter).path = d.path := (Device.publishCharter_onlyPub d).path
@[simp] theorem Device.publishCharter_charter : (d.publishCharter).charter = d.charter := (Device.publishCharter_onlyPub d).charter
@[simp] theorem Device.publishCharter_sampler : (d.publishCharter).sampler = d.sampler := (Device.publishCharter_onlyPub d).sampler
@[simp] theorem Device.publishCharter_engine : (d.publishCharter).engine = d.engine := (Device.publishCharter_onlyPub d).engine
@[simp] theorem Device.publishCharter_outlet : (d.publishCharter).outlet = d.outlet := (Device.publishCharter_onlyPub d).outlet
@[simp] theorem Device.publishCharter_applyEcho : (d.publishCharter).applyEcho = d.applyEcho := (Device.publishCharter_onlyPub d).applyEcho
@[simp] theorem Device.publishCharter_watch : (d.publishCharter).watch = d.watch := (Device.publishCharter_onlyPub d).watch
@[simp] theorem Device.publishCharter_suspendedSince : (d.publishCharter).suspendedSince = d.suspendedSince := (Device.publishCharter_onlyPub d).suspendedSince
@[simp] theorem Device.publishCharter_admission : (d.publishCharter).admission = d.admission := (Device.publishCharter_onlyPub d).admission
@[simp] theorem Device.publishCharter_reports : (d.publishCharter).reports = d.reports := (Device.publishCharter_onlyPub d).reports
@[simp] theorem Device.publishCharter_mail : (d.publishCharter).mail = d.mail := (Device.publishCharter_onlyPub d).mail
@[simp] theorem Device.publishCharter_freeCount : (d.publishCharter).freeCount = d.freeCount := (Device.publishCharter_onlyPub d).freeCount

@[simp] theorem Device.publishStatus_pins (n : Outlet) : (d.publishStatus n).pins = d.pins := (Device.publishStatus_onlyPub d n).pins
@[simp] theorem Device.publishStatus_ram (n : Outlet) : (d.publishStatus n).ram = d.ram := (Device.publishStatus_onlyPub d n).ram
@[simp] theorem Device.publishStatus_now (n : Outlet) : (d.publishStatus n).now = d.now := (Device.publishStatus_onlyPub d n).now
@[simp] theorem Device.publishStatus_path (n : Outlet) : (d.publishStatus n).path = d.path := (Device.publishStatus_onlyPub d n).path
@[simp] theorem Device.publishStatus_charter (n : Outlet) : (d.publishStatus n).charter = d.charter := (Device.publishStatus_onlyPub d n).charter
@[simp] theorem Device.publishStatus_sampler (n : Outlet) : (d.publishStatus n).sampler = d.sampler := (Device.publishStatus_onlyPub d n).sampler
@[simp] theorem Device.publishStatus_engine (n : Outlet) : (d.publishStatus n).engine = d.engine := (Device.publishStatus_onlyPub d n).engine
@[simp] theorem Device.publishStatus_outlet (n : Outlet) : (d.publishStatus n).outlet = d.outlet := (Device.publishStatus_onlyPub d n).outlet
@[simp] theorem Device.publishStatus_applyEcho (n : Outlet) : (d.publishStatus n).applyEcho = d.applyEcho := (Device.publishStatus_onlyPub d n).applyEcho
@[simp] theorem Device.publishStatus_watch (n : Outlet) : (d.publishStatus n).watch = d.watch := (Device.publishStatus_onlyPub d n).watch
@[simp] theorem Device.publishStatus_suspendedSince (n : Outlet) : (d.publishStatus n).suspendedSince = d.suspendedSince := (Device.publishStatus_onlyPub d n).suspendedSince
@[simp] theorem Device.publishStatus_admission (n : Outlet) : (d.publishStatus n).admission = d.admission := (Device.publishStatus_onlyPub d n).admission
@[simp] theorem Device.publishStatus_reports (n : Outlet) : (d.publishStatus n).reports = d.reports := (Device.publishStatus_onlyPub d n).reports
@[simp] theorem Device.publishStatus_mail (n : Outlet) : (d.publishStatus n).mail = d.mail := (Device.publishStatus_onlyPub d n).mail
@[simp] theorem Device.publishStatus_freeCount (n : Outlet) : (d.publishStatus n).freeCount = d.freeCount := (Device.publishStatus_onlyPub d n).freeCount

@[simp] theorem Device.closeBracket_pins : (d.closeBracket).pins = d.pins := (Device.closeBracket_onlyPub d).pins
@[simp] theorem Device.closeBracket_ram : (d.closeBracket).ram = d.ram := (Device.closeBracket_onlyPub d).ram
@[simp] theorem Device.closeBracket_now : (d.closeBracket).now = d.now := (Device.closeBracket_onlyPub d).now
@[simp] theorem Device.closeBracket_path : (d.closeBracket).path = d.path := (Device.closeBracket_onlyPub d).path
@[simp] theorem Device.closeBracket_charter : (d.closeBracket).charter = d.charter := (Device.closeBracket_onlyPub d).charter
@[simp] theorem Device.closeBracket_sampler : (d.closeBracket).sampler = d.sampler := (Device.closeBracket_onlyPub d).sampler
@[simp] theorem Device.closeBracket_engine : (d.closeBracket).engine = d.engine := (Device.closeBracket_onlyPub d).engine
@[simp] theorem Device.closeBracket_outlet : (d.closeBracket).outlet = d.outlet := (Device.closeBracket_onlyPub d).outlet
@[simp] theorem Device.closeBracket_applyEcho : (d.closeBracket).applyEcho = d.applyEcho := (Device.closeBracket_onlyPub d).applyEcho
@[simp] theorem Device.closeBracket_watch : (d.closeBracket).watch = d.watch := (Device.closeBracket_onlyPub d).watch
@[simp] theorem Device.closeBracket_suspendedSince : (d.closeBracket).suspendedSince = d.suspendedSince := (Device.closeBracket_onlyPub d).suspendedSince
@[simp] theorem Device.closeBracket_admission : (d.closeBracket).admission = d.admission := (Device.closeBracket_onlyPub d).admission
@[simp] theorem Device.closeBracket_reports : (d.closeBracket).reports = d.reports := (Device.closeBracket_onlyPub d).reports
@[simp] theorem Device.closeBracket_mail : (d.closeBracket).mail = d.mail := (Device.closeBracket_onlyPub d).mail
@[simp] theorem Device.closeBracket_freeCount : (d.closeBracket).freeCount = d.freeCount := (Device.closeBracket_onlyPub d).freeCount

@[simp] theorem Device.openBracket_pins (g : Group) : (d.openBracket g).pins = d.pins := (Device.openBracket_onlyPub d g).pins
@[simp] theorem Device.openBracket_ram (g : Group) : (d.openBracket g).ram = d.ram := (Device.openBracket_onlyPub d g).ram
@[simp] theorem Device.openBracket_now (g : Group) : (d.openBracket g).now = d.now := (Device.openBracket_onlyPub d g).now
@[simp] theorem Device.openBracket_path (g : Group) : (d.openBracket g).path = d.path := (Device.openBracket_onlyPub d g).path
@[simp] theorem Device.openBracket_charter (g : Group) : (d.openBracket g).charter = d.charter := (Device.openBracket_onlyPub d g).charter
@[simp] theorem Device.openBracket_sampler (g : Group) : (d.openBracket g).sampler = d.sampler := (Device.openBracket_onlyPub d g).sampler
@[simp] theorem Device.openBracket_engine (g : Group) : (d.openBracket g).engine = d.engine := (Device.openBracket_onlyPub d g).engine
@[simp] theorem Device.openBracket_outlet (g : Group) : (d.openBracket g).outlet = d.outlet := (Device.openBracket_onlyPub d g).outlet
@[simp] theorem Device.openBracket_applyEcho (g : Group) : (d.openBracket g).applyEcho = d.applyEcho := (Device.openBracket_onlyPub d g).applyEcho
@[simp] theorem Device.openBracket_watch (g : Group) : (d.openBracket g).watch = d.watch := (Device.openBracket_onlyPub d g).watch
@[simp] theorem Device.openBracket_suspendedSince (g : Group) : (d.openBracket g).suspendedSince = d.suspendedSince := (Device.openBracket_onlyPub d g).suspendedSince
@[simp] theorem Device.openBracket_admission (g : Group) : (d.openBracket g).admission = d.admission := (Device.openBracket_onlyPub d g).admission
@[simp] theorem Device.openBracket_reports (g : Group) : (d.openBracket g).reports = d.reports := (Device.openBracket_onlyPub d g).reports
@[simp] theorem Device.openBracket_mail (g : Group) : (d.openBracket g).mail = d.mail := (Device.openBracket_onlyPub d g).mail
@[simp] theorem Device.openBracket_freeCount (g : Group) : (d.openBracket g).freeCount = d.freeCount := (Device.openBracket_onlyPub d g).freeCount

@[simp] theorem Device.countClose_pins (r : Group → Bool) : (d.countClose r).pins = d.pins := (Device.countClose_onlyPub d r).pins
@[simp] theorem Device.countClose_ram (r : Group → Bool) : (d.countClose r).ram = d.ram := (Device.countClose_onlyPub d r).ram
@[simp] theorem Device.countClose_now (r : Group → Bool) : (d.countClose r).now = d.now := (Device.countClose_onlyPub d r).now
@[simp] theorem Device.countClose_path (r : Group → Bool) : (d.countClose r).path = d.path := (Device.countClose_onlyPub d r).path
@[simp] theorem Device.countClose_charter (r : Group → Bool) : (d.countClose r).charter = d.charter := (Device.countClose_onlyPub d r).charter
@[simp] theorem Device.countClose_sampler (r : Group → Bool) : (d.countClose r).sampler = d.sampler := (Device.countClose_onlyPub d r).sampler
@[simp] theorem Device.countClose_engine (r : Group → Bool) : (d.countClose r).engine = d.engine := (Device.countClose_onlyPub d r).engine
@[simp] theorem Device.countClose_outlet (r : Group → Bool) : (d.countClose r).outlet = d.outlet := (Device.countClose_onlyPub d r).outlet
@[simp] theorem Device.countClose_applyEcho (r : Group → Bool) : (d.countClose r).applyEcho = d.applyEcho := (Device.countClose_onlyPub d r).applyEcho
@[simp] theorem Device.countClose_watch (r : Group → Bool) : (d.countClose r).watch = d.watch := (Device.countClose_onlyPub d r).watch
@[simp] theorem Device.countClose_suspendedSince (r : Group → Bool) : (d.countClose r).suspendedSince = d.suspendedSince := (Device.countClose_onlyPub d r).suspendedSince
@[simp] theorem Device.countClose_admission (r : Group → Bool) : (d.countClose r).admission = d.admission := (Device.countClose_onlyPub d r).admission
@[simp] theorem Device.countClose_reports (r : Group → Bool) : (d.countClose r).reports = d.reports := (Device.countClose_onlyPub d r).reports
@[simp] theorem Device.countClose_mail (r : Group → Bool) : (d.countClose r).mail = d.mail := (Device.countClose_onlyPub d r).mail
@[simp] theorem Device.countClose_freeCount (r : Group → Bool) : (d.countClose r).freeCount = d.freeCount := (Device.countClose_onlyPub d r).freeCount

theorem Device.modOutlet_onlyPub (n : Outlet) (f : OutletContext → OutletContext) :
    (d.setOutlet n f).OnlyPub (d.modOutlet n f) := by
  unfold Device.modOutlet
  split
  · exact .refl _
  · exact Device.publishStatus_onlyPub _ n

theorem Device.modWatch_onlyPub (n : Outlet) (f : WatchContext → WatchContext) :
    (d.setWatch n f).OnlyPub (d.modWatch n f) := by
  unfold Device.modWatch
  split
  · exact .refl _
  · exact Device.publishStatus_onlyPub _ n

theorem Device.answer_onlyPub (n : Outlet) (t : Byte) (r : EchoResult) :
    (d.setOutlet n fun o => { o with echoTag := t, echoResult := r }).OnlyPub (d.answer n t r) :=
  Device.publishStatus_onlyPub _ n

theorem Device.publishMeter_onlyPub (n : Outlet) :
    (d.setMeter n fun m => { m with sequence := m.sequence + 1 }).OnlyPub (d.publishMeter n) := by
  unfold Device.publishMeter
  exact Device.publish_onlyPub _ _ _

theorem Device.publishLevel_onlyPub (l : Level) :
    (d.setLevelMeter l fun m => { m with sequence := m.sequence + 1 }).OnlyPub (d.publishLevel l) := by
  unfold Device.publishLevel
  exact Device.publish_onlyPub _ _ _

theorem Device.changeCharter_onlyPub (f : Device → Device) : (f d).OnlyPub (d.changeCharter f) := by
  unfold Device.changeCharter
  split
  · exact .refl _
  · exact Device.publishCharter_onlyPub _

@[simp] theorem Device.modOutlet_pins (n : Outlet) (f : OutletContext → OutletContext) : (d.modOutlet n f).pins = d.pins := (Device.modOutlet_onlyPub d n f).pins
@[simp] theorem Device.modOutlet_ram (n : Outlet) (f : OutletContext → OutletContext) : (d.modOutlet n f).ram = d.ram := (Device.modOutlet_onlyPub d n f).ram
@[simp] theorem Device.modOutlet_now (n : Outlet) (f : OutletContext → OutletContext) : (d.modOutlet n f).now = d.now := (Device.modOutlet_onlyPub d n f).now
@[simp] theorem Device.modOutlet_path (n : Outlet) (f : OutletContext → OutletContext) : (d.modOutlet n f).path = d.path := (Device.modOutlet_onlyPub d n f).path
@[simp] theorem Device.modOutlet_charter (n : Outlet) (f : OutletContext → OutletContext) : (d.modOutlet n f).charter = d.charter := (Device.modOutlet_onlyPub d n f).charter
@[simp] theorem Device.modOutlet_sampler (n : Outlet) (f : OutletContext → OutletContext) : (d.modOutlet n f).sampler = d.sampler := (Device.modOutlet_onlyPub d n f).sampler
@[simp] theorem Device.modOutlet_engine (n : Outlet) (f : OutletContext → OutletContext) : (d.modOutlet n f).engine = d.engine := (Device.modOutlet_onlyPub d n f).engine
@[simp] theorem Device.modOutlet_outlet (n : Outlet) (f : OutletContext → OutletContext) : (d.modOutlet n f).outlet = setAt d.outlet n (f d.outlet[n]) := (Device.modOutlet_onlyPub d n f).outlet
@[simp] theorem Device.modOutlet_applyEcho (n : Outlet) (f : OutletContext → OutletContext) : (d.modOutlet n f).applyEcho = d.applyEcho := (Device.modOutlet_onlyPub d n f).applyEcho
@[simp] theorem Device.modOutlet_watch (n : Outlet) (f : OutletContext → OutletContext) : (d.modOutlet n f).watch = d.watch := (Device.modOutlet_onlyPub d n f).watch
@[simp] theorem Device.modOutlet_suspendedSince (n : Outlet) (f : OutletContext → OutletContext) : (d.modOutlet n f).suspendedSince = d.suspendedSince := (Device.modOutlet_onlyPub d n f).suspendedSince
@[simp] theorem Device.modOutlet_admission (n : Outlet) (f : OutletContext → OutletContext) : (d.modOutlet n f).admission = d.admission := (Device.modOutlet_onlyPub d n f).admission
@[simp] theorem Device.modOutlet_reports (n : Outlet) (f : OutletContext → OutletContext) : (d.modOutlet n f).reports = d.reports := (Device.modOutlet_onlyPub d n f).reports
@[simp] theorem Device.modOutlet_mail (n : Outlet) (f : OutletContext → OutletContext) : (d.modOutlet n f).mail = d.mail := (Device.modOutlet_onlyPub d n f).mail
@[simp] theorem Device.modOutlet_freeCount (n : Outlet) (f : OutletContext → OutletContext) : (d.modOutlet n f).freeCount = d.freeCount := (Device.modOutlet_onlyPub d n f).freeCount

@[simp] theorem Device.modWatch_pins (n : Outlet) (f : WatchContext → WatchContext) : (d.modWatch n f).pins = d.pins := (Device.modWatch_onlyPub d n f).pins
@[simp] theorem Device.modWatch_ram (n : Outlet) (f : WatchContext → WatchContext) : (d.modWatch n f).ram = d.ram := (Device.modWatch_onlyPub d n f).ram
@[simp] theorem Device.modWatch_now (n : Outlet) (f : WatchContext → WatchContext) : (d.modWatch n f).now = d.now := (Device.modWatch_onlyPub d n f).now
@[simp] theorem Device.modWatch_path (n : Outlet) (f : WatchContext → WatchContext) : (d.modWatch n f).path = d.path := (Device.modWatch_onlyPub d n f).path
@[simp] theorem Device.modWatch_charter (n : Outlet) (f : WatchContext → WatchContext) : (d.modWatch n f).charter = d.charter := (Device.modWatch_onlyPub d n f).charter
@[simp] theorem Device.modWatch_sampler (n : Outlet) (f : WatchContext → WatchContext) : (d.modWatch n f).sampler = d.sampler := (Device.modWatch_onlyPub d n f).sampler
@[simp] theorem Device.modWatch_engine (n : Outlet) (f : WatchContext → WatchContext) : (d.modWatch n f).engine = d.engine := (Device.modWatch_onlyPub d n f).engine
@[simp] theorem Device.modWatch_outlet (n : Outlet) (f : WatchContext → WatchContext) : (d.modWatch n f).outlet = d.outlet := (Device.modWatch_onlyPub d n f).outlet
@[simp] theorem Device.modWatch_applyEcho (n : Outlet) (f : WatchContext → WatchContext) : (d.modWatch n f).applyEcho = d.applyEcho := (Device.modWatch_onlyPub d n f).applyEcho
@[simp] theorem Device.modWatch_watch (n : Outlet) (f : WatchContext → WatchContext) : (d.modWatch n f).watch = setAt d.watch n (f d.watch[n]) := (Device.modWatch_onlyPub d n f).watch
@[simp] theorem Device.modWatch_suspendedSince (n : Outlet) (f : WatchContext → WatchContext) : (d.modWatch n f).suspendedSince = d.suspendedSince := (Device.modWatch_onlyPub d n f).suspendedSince
@[simp] theorem Device.modWatch_admission (n : Outlet) (f : WatchContext → WatchContext) : (d.modWatch n f).admission = d.admission := (Device.modWatch_onlyPub d n f).admission
@[simp] theorem Device.modWatch_reports (n : Outlet) (f : WatchContext → WatchContext) : (d.modWatch n f).reports = d.reports := (Device.modWatch_onlyPub d n f).reports
@[simp] theorem Device.modWatch_mail (n : Outlet) (f : WatchContext → WatchContext) : (d.modWatch n f).mail = d.mail := (Device.modWatch_onlyPub d n f).mail
@[simp] theorem Device.modWatch_freeCount (n : Outlet) (f : WatchContext → WatchContext) : (d.modWatch n f).freeCount = d.freeCount := (Device.modWatch_onlyPub d n f).freeCount

@[simp] theorem Device.answer_pins (n : Outlet) (t : Byte) (r : EchoResult) : (d.answer n t r).pins = d.pins := (Device.answer_onlyPub d n t r).pins
@[simp] theorem Device.answer_ram (n : Outlet) (t : Byte) (r : EchoResult) : (d.answer n t r).ram = d.ram := (Device.answer_onlyPub d n t r).ram
@[simp] theorem Device.answer_now (n : Outlet) (t : Byte) (r : EchoResult) : (d.answer n t r).now = d.now := (Device.answer_onlyPub d n t r).now
@[simp] theorem Device.answer_path (n : Outlet) (t : Byte) (r : EchoResult) : (d.answer n t r).path = d.path := (Device.answer_onlyPub d n t r).path
@[simp] theorem Device.answer_charter (n : Outlet) (t : Byte) (r : EchoResult) : (d.answer n t r).charter = d.charter := (Device.answer_onlyPub d n t r).charter
@[simp] theorem Device.answer_sampler (n : Outlet) (t : Byte) (r : EchoResult) : (d.answer n t r).sampler = d.sampler := (Device.answer_onlyPub d n t r).sampler
@[simp] theorem Device.answer_engine (n : Outlet) (t : Byte) (r : EchoResult) : (d.answer n t r).engine = d.engine := (Device.answer_onlyPub d n t r).engine
@[simp] theorem Device.answer_outlet (n : Outlet) (t : Byte) (r : EchoResult) : (d.answer n t r).outlet = setAt d.outlet n { d.outlet[n] with echoTag := t, echoResult := r } := (Device.answer_onlyPub d n t r).outlet
@[simp] theorem Device.answer_applyEcho (n : Outlet) (t : Byte) (r : EchoResult) : (d.answer n t r).applyEcho = d.applyEcho := (Device.answer_onlyPub d n t r).applyEcho
@[simp] theorem Device.answer_watch (n : Outlet) (t : Byte) (r : EchoResult) : (d.answer n t r).watch = d.watch := (Device.answer_onlyPub d n t r).watch
@[simp] theorem Device.answer_suspendedSince (n : Outlet) (t : Byte) (r : EchoResult) : (d.answer n t r).suspendedSince = d.suspendedSince := (Device.answer_onlyPub d n t r).suspendedSince
@[simp] theorem Device.answer_admission (n : Outlet) (t : Byte) (r : EchoResult) : (d.answer n t r).admission = d.admission := (Device.answer_onlyPub d n t r).admission
@[simp] theorem Device.answer_reports (n : Outlet) (t : Byte) (r : EchoResult) : (d.answer n t r).reports = d.reports := (Device.answer_onlyPub d n t r).reports
@[simp] theorem Device.answer_mail (n : Outlet) (t : Byte) (r : EchoResult) : (d.answer n t r).mail = d.mail := (Device.answer_onlyPub d n t r).mail
@[simp] theorem Device.answer_freeCount (n : Outlet) (t : Byte) (r : EchoResult) : (d.answer n t r).freeCount = d.freeCount := (Device.answer_onlyPub d n t r).freeCount

@[simp] theorem Device.publishMeter_pins (n : Outlet) : (d.publishMeter n).pins = d.pins := (Device.publishMeter_onlyPub d n).pins
@[simp] theorem Device.publishMeter_ram (n : Outlet) : (d.publishMeter n).ram = d.ram := (Device.publishMeter_onlyPub d n).ram
@[simp] theorem Device.publishMeter_now (n : Outlet) : (d.publishMeter n).now = d.now := (Device.publishMeter_onlyPub d n).now
@[simp] theorem Device.publishMeter_path (n : Outlet) : (d.publishMeter n).path = d.path := (Device.publishMeter_onlyPub d n).path
@[simp] theorem Device.publishMeter_charter (n : Outlet) : (d.publishMeter n).charter = d.charter := (Device.publishMeter_onlyPub d n).charter
@[simp] theorem Device.publishMeter_sampler (n : Outlet) : (d.publishMeter n).sampler = d.sampler := (Device.publishMeter_onlyPub d n).sampler
@[simp] theorem Device.publishMeter_engine (n : Outlet) : (d.publishMeter n).engine = { d.engine with outlets := setAt d.engine.outlets n { d.engine.outlets[n] with sequence := (d.engine.outlets[n]).sequence + 1 } } := (Device.publishMeter_onlyPub d n).engine
@[simp] theorem Device.publishMeter_outlet (n : Outlet) : (d.publishMeter n).outlet = d.outlet := (Device.publishMeter_onlyPub d n).outlet
@[simp] theorem Device.publishMeter_applyEcho (n : Outlet) : (d.publishMeter n).applyEcho = d.applyEcho := (Device.publishMeter_onlyPub d n).applyEcho
@[simp] theorem Device.publishMeter_watch (n : Outlet) : (d.publishMeter n).watch = d.watch := (Device.publishMeter_onlyPub d n).watch
@[simp] theorem Device.publishMeter_suspendedSince (n : Outlet) : (d.publishMeter n).suspendedSince = d.suspendedSince := (Device.publishMeter_onlyPub d n).suspendedSince
@[simp] theorem Device.publishMeter_admission (n : Outlet) : (d.publishMeter n).admission = d.admission := (Device.publishMeter_onlyPub d n).admission
@[simp] theorem Device.publishMeter_reports (n : Outlet) : (d.publishMeter n).reports = d.reports := (Device.publishMeter_onlyPub d n).reports
@[simp] theorem Device.publishMeter_mail (n : Outlet) : (d.publishMeter n).mail = d.mail := (Device.publishMeter_onlyPub d n).mail
@[simp] theorem Device.publishMeter_freeCount (n : Outlet) : (d.publishMeter n).freeCount = d.freeCount := (Device.publishMeter_onlyPub d n).freeCount

@[simp] theorem Device.publishLevel_pins (l : Level) : (d.publishLevel l).pins = d.pins := (Device.publishLevel_onlyPub d l).pins
@[simp] theorem Device.publishLevel_ram (l : Level) : (d.publishLevel l).ram = d.ram := (Device.publishLevel_onlyPub d l).ram
@[simp] theorem Device.publishLevel_now (l : Level) : (d.publishLevel l).now = d.now := (Device.publishLevel_onlyPub d l).now
@[simp] theorem Device.publishLevel_path (l : Level) : (d.publishLevel l).path = d.path := (Device.publishLevel_onlyPub d l).path
@[simp] theorem Device.publishLevel_charter (l : Level) : (d.publishLevel l).charter = d.charter := (Device.publishLevel_onlyPub d l).charter
@[simp] theorem Device.publishLevel_sampler (l : Level) : (d.publishLevel l).sampler = d.sampler := (Device.publishLevel_onlyPub d l).sampler
@[simp] theorem Device.publishLevel_engine (l : Level) : (d.publishLevel l).engine = { d.engine with levels := d.engine.levels.set l { d.engine.levels.get l with sequence := (d.engine.levels.get l).sequence + 1 } } := (Device.publishLevel_onlyPub d l).engine
@[simp] theorem Device.publishLevel_outlet (l : Level) : (d.publishLevel l).outlet = d.outlet := (Device.publishLevel_onlyPub d l).outlet
@[simp] theorem Device.publishLevel_applyEcho (l : Level) : (d.publishLevel l).applyEcho = d.applyEcho := (Device.publishLevel_onlyPub d l).applyEcho
@[simp] theorem Device.publishLevel_watch (l : Level) : (d.publishLevel l).watch = d.watch := (Device.publishLevel_onlyPub d l).watch
@[simp] theorem Device.publishLevel_suspendedSince (l : Level) : (d.publishLevel l).suspendedSince = d.suspendedSince := (Device.publishLevel_onlyPub d l).suspendedSince
@[simp] theorem Device.publishLevel_admission (l : Level) : (d.publishLevel l).admission = d.admission := (Device.publishLevel_onlyPub d l).admission
@[simp] theorem Device.publishLevel_reports (l : Level) : (d.publishLevel l).reports = d.reports := (Device.publishLevel_onlyPub d l).reports
@[simp] theorem Device.publishLevel_mail (l : Level) : (d.publishLevel l).mail = d.mail := (Device.publishLevel_onlyPub d l).mail
@[simp] theorem Device.publishLevel_freeCount (l : Level) : (d.publishLevel l).freeCount = d.freeCount := (Device.publishLevel_onlyPub d l).freeCount

@[simp] theorem Device.changeCharter_pins (f : Device → Device) : (d.changeCharter f).pins = (f d).pins := (Device.changeCharter_onlyPub d f).pins
@[simp] theorem Device.changeCharter_ram (f : Device → Device) : (d.changeCharter f).ram = (f d).ram := (Device.changeCharter_onlyPub d f).ram
@[simp] theorem Device.changeCharter_now (f : Device → Device) : (d.changeCharter f).now = (f d).now := (Device.changeCharter_onlyPub d f).now
@[simp] theorem Device.changeCharter_path (f : Device → Device) : (d.changeCharter f).path = (f d).path := (Device.changeCharter_onlyPub d f).path
@[simp] theorem Device.changeCharter_charter (f : Device → Device) : (d.changeCharter f).charter = (f d).charter := (Device.changeCharter_onlyPub d f).charter
@[simp] theorem Device.changeCharter_sampler (f : Device → Device) : (d.changeCharter f).sampler = (f d).sampler := (Device.changeCharter_onlyPub d f).sampler
@[simp] theorem Device.changeCharter_engine (f : Device → Device) : (d.changeCharter f).engine = (f d).engine := (Device.changeCharter_onlyPub d f).engine
@[simp] theorem Device.changeCharter_outlet (f : Device → Device) : (d.changeCharter f).outlet = (f d).outlet := (Device.changeCharter_onlyPub d f).outlet
@[simp] theorem Device.changeCharter_applyEcho (f : Device → Device) : (d.changeCharter f).applyEcho = (f d).applyEcho := (Device.changeCharter_onlyPub d f).applyEcho
@[simp] theorem Device.changeCharter_watch (f : Device → Device) : (d.changeCharter f).watch = (f d).watch := (Device.changeCharter_onlyPub d f).watch
@[simp] theorem Device.changeCharter_suspendedSince (f : Device → Device) : (d.changeCharter f).suspendedSince = (f d).suspendedSince := (Device.changeCharter_onlyPub d f).suspendedSince
@[simp] theorem Device.changeCharter_admission (f : Device → Device) : (d.changeCharter f).admission = (f d).admission := (Device.changeCharter_onlyPub d f).admission
@[simp] theorem Device.changeCharter_reports (f : Device → Device) : (d.changeCharter f).reports = (f d).reports := (Device.changeCharter_onlyPub d f).reports
@[simp] theorem Device.changeCharter_mail (f : Device → Device) : (d.changeCharter f).mail = (f d).mail := (Device.changeCharter_onlyPub d f).mail
@[simp] theorem Device.changeCharter_freeCount (f : Device → Device) : (d.changeCharter f).freeCount = (f d).freeCount := (Device.changeCharter_onlyPub d f).freeCount

/-! ### publishBranch -/

@[simp] theorem Device.publishBranch_pins (b : Branch) : (d.publishBranch b).pins = d.pins := by unfold Device.publishBranch; split <;> simp
@[simp] theorem Device.publishBranch_ram (b : Branch) : (d.publishBranch b).ram = d.ram := by unfold Device.publishBranch; split <;> simp
@[simp] theorem Device.publishBranch_now (b : Branch) : (d.publishBranch b).now = d.now := by unfold Device.publishBranch; split <;> simp
@[simp] theorem Device.publishBranch_path (b : Branch) : (d.publishBranch b).path = d.path := by unfold Device.publishBranch; split <;> simp
@[simp] theorem Device.publishBranch_charter (b : Branch) : (d.publishBranch b).charter = d.charter := by unfold Device.publishBranch; split <;> simp
@[simp] theorem Device.publishBranch_sampler (b : Branch) : (d.publishBranch b).sampler = d.sampler := by unfold Device.publishBranch; split <;> simp
@[simp] theorem Device.publishBranch_outlet (b : Branch) : (d.publishBranch b).outlet = d.outlet := by unfold Device.publishBranch; split <;> simp
@[simp] theorem Device.publishBranch_applyEcho (b : Branch) : (d.publishBranch b).applyEcho = d.applyEcho := by unfold Device.publishBranch; split <;> simp
@[simp] theorem Device.publishBranch_watch (b : Branch) : (d.publishBranch b).watch = d.watch := by unfold Device.publishBranch; split <;> simp
@[simp] theorem Device.publishBranch_suspendedSince (b : Branch) : (d.publishBranch b).suspendedSince = d.suspendedSince := by unfold Device.publishBranch; split <;> simp
@[simp] theorem Device.publishBranch_admission (b : Branch) : (d.publishBranch b).admission = d.admission := by unfold Device.publishBranch; split <;> simp
@[simp] theorem Device.publishBranch_reports (b : Branch) : (d.publishBranch b).reports = d.reports := by unfold Device.publishBranch; split <;> simp
@[simp] theorem Device.publishBranch_mail (b : Branch) : (d.publishBranch b).mail = d.mail := by unfold Device.publishBranch; split <;> simp
@[simp] theorem Device.publishBranch_freeCount (b : Branch) : (d.publishBranch b).freeCount = d.freeCount := by unfold Device.publishBranch; split <;> simp

/-! ### changeState -/

/-- What a change of state hands the Admission Unit (R84). -/
def admissionHandoffs (n : Outlet) (old new : OutletState) : List AdmissionMessage :=
  (match old with
    | .queued => if new = .closing then [] else [.removal n]
    | .closing => if new = .fault then [.release n] else []
    | .inrush => [.release n]
    | .on | .unmanaged | .absent | .off | .opening | .dwell | .fault => [])
  ++ (match new with
    | .queued => [.join n]
    | .on | .unmanaged | .absent | .off | .closing | .inrush | .opening | .dwell | .fault => [])

/-- What a change of state hands the Hang Watch (R84). -/
def watchHandoffs (n : Outlet) (old new : OutletState) : List WatchMessage :=
  (match old with
    | .on => [.off n]
    | .queued | .closing | .inrush | .unmanaged | .absent | .off | .opening | .dwell | .fault => [])
  ++ (match new with
    | .on => [.on n]
    | .queued | .unmanaged | .absent | .off | .closing | .inrush | .opening | .dwell | .fault => [])

/-- A change of state is the change of the context, a publication and its hand-offs. -/
theorem Device.changeState_eq (n : Outlet) (new : OutletState) :
    d.changeState n new =
      { d.modOutlet n (enterState d.charter.uptime new) with
        mail := { d.mail with
          toAdmission := d.mail.toAdmission ++ admissionHandoffs n (d.outletState n) new
          toWatch := d.mail.toWatch ++ watchHandoffs n (d.outletState n) new } } := by
  have hm : (d.modOutlet n (enterState d.charter.uptime new)).mail = d.mail := Device.modOutlet_mail d _ _
  unfold Device.changeState
  generalize d.modOutlet n (enterState d.charter.uptime new) = e at *
  generalize d.outletState n = old
  rw [← hm]
  cases old <;> cases new <;>
    simp [Device.handLeaving, Device.handEntering, admissionHandoffs, watchHandoffs, Device.toAdmission, Device.toWatch]

@[simp] theorem Device.changeState_pins (n : Outlet) (s : OutletState) : (d.changeState n s).pins = d.pins := by rw [Device.changeState_eq]; simp
@[simp] theorem Device.changeState_ram (n : Outlet) (s : OutletState) : (d.changeState n s).ram = d.ram := by rw [Device.changeState_eq]; simp
@[simp] theorem Device.changeState_now (n : Outlet) (s : OutletState) : (d.changeState n s).now = d.now := by rw [Device.changeState_eq]; simp
@[simp] theorem Device.changeState_path (n : Outlet) (s : OutletState) : (d.changeState n s).path = d.path := by rw [Device.changeState_eq]; simp
@[simp] theorem Device.changeState_charter (n : Outlet) (s : OutletState) : (d.changeState n s).charter = d.charter := by rw [Device.changeState_eq]; simp
@[simp] theorem Device.changeState_sampler (n : Outlet) (s : OutletState) : (d.changeState n s).sampler = d.sampler := by rw [Device.changeState_eq]; simp
@[simp] theorem Device.changeState_engine (n : Outlet) (s : OutletState) : (d.changeState n s).engine = d.engine := by rw [Device.changeState_eq]; simp
@[simp] theorem Device.changeState_applyEcho (n : Outlet) (s : OutletState) : (d.changeState n s).applyEcho = d.applyEcho := by rw [Device.changeState_eq]; simp
@[simp] theorem Device.changeState_watch (n : Outlet) (s : OutletState) : (d.changeState n s).watch = d.watch := by rw [Device.changeState_eq]; simp
@[simp] theorem Device.changeState_suspendedSince (n : Outlet) (s : OutletState) : (d.changeState n s).suspendedSince = d.suspendedSince := by rw [Device.changeState_eq]; simp
@[simp] theorem Device.changeState_admission (n : Outlet) (s : OutletState) : (d.changeState n s).admission = d.admission := by rw [Device.changeState_eq]; simp
@[simp] theorem Device.changeState_reports (n : Outlet) (s : OutletState) : (d.changeState n s).reports = d.reports := by rw [Device.changeState_eq]; simp
@[simp] theorem Device.changeState_freeCount (n : Outlet) (s : OutletState) : (d.changeState n s).freeCount = d.freeCount := by rw [Device.changeState_eq]; simp
@[simp] theorem Device.changeState_outlet (n : Outlet) (s : OutletState) :
    (d.changeState n s).outlet = setAt d.outlet n (enterState d.charter.uptime s d.outlet[n]) := by
  rw [Device.changeState_eq]; simp

@[simp] theorem Device.changeState_mail (n : Outlet) (s : OutletState) :
    (d.changeState n s).mail = { d.mail with
      toAdmission := d.mail.toAdmission ++ admissionHandoffs n (d.outletState n) s
      toWatch := d.mail.toWatch ++ watchHandoffs n (d.outletState n) s } := by
  rw [Device.changeState_eq]

theorem Device.changeState_pub (n : Outlet) (s : OutletState) :
    (d.changeState n s).pub = (d.modOutlet n (enterState d.charter.uptime s)).pub := by
  rw [Device.changeState_eq]

end Sys2Proof.Machine
end

