-- ==== Sys2Proof/Laws/KeepsOutlet.lean ====
section
/-! SUPPORT. What the Outlet Controller's operations can change. -/

namespace Sys2Proof.Machine
open Sys2Proof

variable {P : Device → Prop}

/-! ## State changes -/

/-- An outlet whose state drives no coil can change state freely. -/
theorem Device.CoilFree.of_state {d : Device} {n : Outlet} {s : OutletState} (hs : d.outletState n = s)
    (hc : s ≠ .closing ∧ s ≠ .opening := by decide) : d.CoilFree n := .inr (hs ▸ hc)

/-- A block whose outlet n is where it was, with the same coil. -/
structure Device.SameCourse (d e : Device) (n : Outlet) : Prop where
  state : e.outletState n = d.outletState n
  operation : (e.outlet[n]).operation = (d.outlet[n]).operation

theorem Device.CoilFree.congr {d e : Device} {n : Outlet} (hd : d.CoilFree n) (h : d.SameCourse e n) : e.CoilFree n := by
  unfold Device.CoilFree
  rw [h.state, h.operation]
  exact hd

theorem Device.cancelCycle_course (d : Device) (n : Outlet) (s : OutletState) : d.SameCourse (d.cancelCycle n s) n := by
  unfold Device.cancelCycle
  split
  · exact ⟨rfl, rfl⟩
  · constructor <;> simp [Device.outletState, Device.report, Device.setOutlet]

theorem Device.changeState_state (d : Device) (n : Outlet) (s : OutletState) : (d.changeState n s).outletState n = s := by
  simp [Device.outletState, Device.enterState]

theorem Device.changeState_operation (d : Device) (n : Outlet) (s : OutletState) :
    ((d.changeState n s).outlet[n]).operation = (d.outlet[n]).operation := by simp [Device.enterState]

/-- A move that is allowed and leaves no coil behind. -/
structure Device.CanMove (d : Device) (n : Outlet) (new : OutletState) : Prop where
  may : mayMove (d.outletState n) new = true
  free : d.CoilFree n

theorem Device.CanMove.congr {d e : Device} {n : Outlet} {s : OutletState} (hd : d.CanMove n s) (h : d.SameCourse e n) :
    e.CanMove n s := ⟨by rw [h.state]; exact hd.may, hd.free.congr h⟩

/-- From a state that drives no coil, a move that `mayMove` allows. -/
theorem Device.CanMove.of_state {d : Device} {n : Outlet} {s new : OutletState} (hs : d.outletState n = s)
    (hm : mayMove s new = true := by rfl) (hc : s ≠ .closing ∧ s ≠ .opening := by decide) : d.CanMove n new :=
  ⟨hs ▸ hm, .of_state hs hc⟩

theorem Internal.move (h : Internal P) (d : Device) (n : Outlet) (new : OutletState) (hm : d.CanMove n new) (hd : P d) :
    P (d.changeState n new) := h.changeState _ _ _ hm.may hm.free hd

/-- Entry to OFF, from the change of state that makes it. -/
theorem Internal.offEntered (h : Internal P) (d : Device) (n : Outlet) (hd : P (d.changeState n .off)) :
    P (d.enterOff n) := by
  unfold Device.enterOff
  dsimp only
  split
  · exact h.move _ _ _ (.of_state (Device.changeState_state d n .off)) hd
  · exact hd

theorem Internal.enterOff (h : Internal P) (d : Device) (n : Outlet) (hm : d.CanMove n .off) (hd : P d) :
    P (d.enterOff n) := h.offEntered _ _ (h.move _ _ _ hm hd)

theorem Internal.beginOpening (h : Internal P) (d : Device) (n : Outlet) (hm : d.CanMove n .opening) (hd : P d) :
    P (d.beginOperation n .opening) :=
  h.open_ _ _ _ (Device.changeState_state d n .opening) (h.move _ _ _ hm hd)

/-! ## Cycles and faults -/

theorem Neutral.cancelCycle (h : Neutral P) (d : Device) (n : Outlet) (s : OutletState) (hd : P d) :
    P (d.cancelCycle n s) := by
  unfold Device.cancelCycle
  split
  · exact hd
  · exact h.setOutlet _ _ _ (h.report _ _ _ _ _ hd)

theorem Neutral.startDwell (h : Neutral P) (d : Device) (n : Outlet) (hd : P d) : P (d.startDwell n) :=
  h.setOutlet _ _ _ hd

theorem Internal.startCycle (h : Internal P) (d : Device) (n : Outlet) (c : Cause) (w : Nat)
    (hm : d.outletState n = .off ∨ d.CanMove n .opening) (hd : P d) : P (d.startCycle n c w) := by
  unfold Device.startCycle
  dsimp only
  have hk := Device.cancelCycle_course d n (if decide (d.outletState n = .off) then .dwell else .opening)
  have he := h.cancelCycle d n (if decide (d.outletState n = .off) then .dwell else .opening) hd
  generalize d.cancelCycle n (if decide (d.outletState n = .off) then .dwell else .opening) = e at hk he ⊢
  have hs := hk.state
  have ho := hk.operation
  simp only [Device.outletState, Fin.getElem_fin] at hs ho
  split
  · rename_i hoff
    refine h.startDwell _ _ (h.move _ _ _ (.of_state (s := .off) ?_) (h.report _ _ _ _ _ (h.modOutlet _ _ _ he)))
    simp only [Device.outletState, Fin.getElem_fin] at hoff
    simpa [Device.outletState, Device.report, hs] using of_decide_eq_true hoff
  · rename_i hoff
    refine h.beginOpening _ _ ((hm.resolve_left (by simpa using hoff)).congr ⟨?_, ?_⟩)
      (h.report _ _ _ _ _ (h.modOutlet _ _ _ he))
    · simp [Device.outletState, Device.report, hs]
    · simp [Device.report, ho]

/-- Entry to FAULT, from the change of state that makes it. -/
theorem Neutral.faultEntered (h : Neutral P) (d : Device) (n : Outlet) (k : FaultKind)
    (hd : P (d.changeState n .fault)) : P (d.enterFault n k) := by
  unfold Device.enterFault
  exact h.cancelCycle _ _ _ (h.report _ _ _ _ _ (h.modOutlet _ _ _ hd))

theorem Internal.enterFault (h : Internal P) (d : Device) (n : Outlet) (k : FaultKind) (hm : d.CanMove n .fault)
    (hd : P d) : P (d.enterFault n k) := h.faultEntered _ _ _ (h.move _ _ _ hm hd)

/-! ## Requests -/

theorem Neutral.answer (h : Neutral P) (d : Device) (n : Outlet) (tag : Byte) (r : EchoResult) (hd : P d) :
    P (d.answer n tag r) := h.publishStatus _ _ (h.setOutlet _ _ _ hd)

theorem Neutral.defer (h : Neutral P) (d : Device) (n : Outlet) (c : RequestCode) (tag : Byte) (x : Nat)
    (hd : P d) : P (d.defer n c tag x) := h.answer _ _ _ _ (h.setOutlet _ _ _ hd)

theorem Internal.switchOn (h : Internal P) (d : Device) (n : Outlet) (tag : Byte) (x : Nat) (hd : P d) :
    P (d.switchOn n tag x) := by
  unfold Device.switchOn
  split
  · rename_i hs; exact h.answer _ _ _ _ (h.move _ _ _ (.of_state hs) hd)
  · rename_i hs; exact h.answer _ _ _ _ (h.move _ _ _ (.of_state hs) hd)
  · exact h.answer _ _ _ _ hd
  · exact h.answer _ _ _ _ hd
  · exact h.answer _ _ _ _ hd
  · split
    · exact h.answer _ _ _ _ hd
    · exact h.defer _ _ _ _ _ hd
  · exact h.defer _ _ _ _ _ hd
  all_goals exact h.answer _ _ _ _ hd

/-- A cycle is cancelled, and the outlet goes to OFF. -/
theorem Internal.cancelToOff (h : Internal P) (d : Device) (n : Outlet) (hm : d.CanMove n .off) (hd : P d) :
    P ((d.cancelCycle n .off).enterOff n) :=
  h.enterOff _ _ (hm.congr (Device.cancelCycle_course d n .off)) (h.cancelCycle _ _ _ hd)

/-- A cycle is cancelled, and the relay opens. -/
theorem Internal.cancelToOpening (h : Internal P) (d : Device) (n : Outlet) (hm : d.CanMove n .opening) (hd : P d) :
    P ((d.cancelCycle n .opening).beginOperation n .opening) :=
  h.beginOpening _ _ (hm.congr (Device.cancelCycle_course d n .opening)) (h.cancelCycle _ _ _ hd)

theorem Internal.switchOff (h : Internal P) (d : Device) (n : Outlet) (tag : Byte) (x : Nat) (hd : P d) :
    P (d.switchOff n tag x) := by
  have ha : ∀ r, P (d.answer n tag r) := fun r => h.answer _ _ _ _ hd
  have hf : P (d.defer n .switchOff tag x) := h.defer _ _ _ _ _ hd
  have hoff : d.CanMove n .off → P (((d.cancelCycle n .off).enterOff n).answer n tag .taken) := fun hm =>
    h.answer _ _ _ _ (h.cancelToOff _ _ hm hd)
  have hopen : d.CanMove n .opening → P (((d.cancelCycle n .opening).beginOperation n .opening).answer n tag .taken) :=
    fun hm => h.answer _ _ _ _ (h.cancelToOpening _ _ hm hd)
  unfold Device.switchOff
  split
  · exact ha _
  · rename_i hs
    split
    · exact ha _
    · exact hoff (.of_state hs)
  · split
    · exact ha _
    · exact hf
  · rename_i hs
    split
    · exact ha _
    · split
      · exact ha _
      · exact hopen (.of_state hs)
  · rename_i hs
    split
    · exact ha _
    · split
      · exact ha _
      · exact hopen (.of_state hs)
  · split
    · exact ha _
    · exact hf
  · rename_i hs; exact hoff (.of_state hs)
  all_goals exact ha _

theorem Internal.cycle (h : Internal P) (d : Device) (n : Outlet) (tag : Byte) (x : Nat) (hd : P d) :
    P (d.cycle n tag x) := by
  have ha : ∀ r, P (d.answer n tag r) := fun r => h.answer _ _ _ _ hd
  have hf : P (d.defer n .cycle tag x) := h.defer _ _ _ _ _ hd
  have hc : d.outletState n = .off ∨ d.CanMove n .opening → ∀ w r, P ((d.startCycle n .request w).answer n tag r) :=
    fun hm w r => h.answer _ _ _ _ (h.startCycle _ _ _ _ hm hd)
  unfold Device.cycle
  dsimp only
  split
  · rename_i hs; exact hc (.inl hs) _ _
  · split
    · exact ha _
    · exact ha _
  · split
    · exact ha _
    · exact hf
  · rename_i hs
    split
    · exact ha _
    · split
      · exact ha _
      · exact hc (.inr (.of_state hs)) _ _
  · rename_i hs
    split
    · exact ha _
    · split
      · exact ha _
      · exact hc (.inr (.of_state hs)) _ _
  · exact hf
  · exact h.answer _ _ _ _ (h.startDwell _ _ (h.setOutlet _ _ _ hd))
  all_goals exact ha _

theorem Neutral.stage (h : Neutral P) (d : Device) (n : Outlet) (tag : Byte) (t : Option Target) (hd : P d) :
    P (d.stage n tag t) := by
  unfold Device.stage
  split
  · exact h.answer _ _ _ _ hd
  · split
    · exact h.answer _ _ _ _ hd
    · exact h.answer _ _ _ _ (h.setOutlet _ _ _ hd)

theorem Neutral.holdWatch (h : Neutral P) (d : Device) (n : Outlet) (tag : Byte) (v : Bool) (hd : P d) :
    P (d.holdWatch n tag v) := by
  unfold Device.holdWatch
  dsimp only
  generalize (if (d.takeWatchMessages.watch[n]).held = v then EchoResult.noChange else .taken) = r
  have ha := h.answer _ n tag r
    (h.modWatch _ n (fun w => { w with held := v }) (keepsRecent_of_eq fun _ => rfl) (h.takeWatchMessages d hd))
  split
  · exact h.decideVerdict _ _ ha
  · exact ha

theorem Neutral.resume (h : Neutral P) (d : Device) (n : Outlet) (tag : Byte) (hd : P d) :
    P (d.resume n tag) := h.answer _ _ _ _ (h.resumeWatch _ _ (h.takeWatchMessages _ hd))

theorem Internal.clearFault (h : Internal P) (d : Device) (n : Outlet) (tag : Byte) (hd : P d) :
    P (d.clearFault n tag) := by
  unfold Device.clearFault
  dsimp only
  split
  · rename_i hs
    have hs' : (d.modOutlet n fun o => { o with sensed := d.pins.senseLines[n], fault := none }).outletState n = .fault := by
      simp only [Device.outletState, Fin.getElem_fin] at hs
      simp [Device.outletState, hs]
    refine h.answer _ _ _ _ ?_
    split
    · exact h.move _ _ _ (.of_state hs') (h.modOutlet _ _ _ hd)
    · exact h.enterOff _ _ (.of_state hs') (h.modOutlet _ _ _ hd)
  · exact h.answer _ _ _ _ hd

theorem Neutral.periodClear (h : Neutral P) (d : Device) (n : Outlet) (tag : Byte) (hd : P d) :
    P (d.periodClear n tag) := h.answer _ _ _ _ (h.handed _ _ rfl rfl hd)

theorem Internal.handleCode (h : Internal P) (d : Device) (n : Outlet) (c : RequestCode) (tag : Byte) (x : Nat)
    (hd : P d) : P (d.handleCode n c tag x) := by
  cases c
  · exact h.switchOn _ _ _ _ hd
  · exact h.switchOff _ _ _ _ hd
  · exact h.cycle _ _ _ _ hd
  · exact h.stage _ _ _ _ hd
  · exact h.stage _ _ _ _ hd
  · exact h.stage _ _ _ _ hd
  · exact h.holdWatch d n tag true hd
  · exact h.holdWatch d n tag false hd
  · exact h.resume _ _ _ hd
  · exact h.clearFault _ _ _ hd
  · exact h.periodClear _ _ _ hd

theorem Internal.takeRequest (h : Internal P) (d : Device) (n : Outlet) (tag code : Byte) (x : Nat) (hd : P d) :
    P (d.takeRequest n tag code x) := by
  unfold Device.takeRequest
  split
  · exact h.answer _ _ _ _ hd
  · split
    · exact h.answer _ _ _ _ hd
    · split
      · exact h.answer _ _ _ _ hd
      · exact h.handleCode _ _ _ _ _ hd

/-! ## Targets and Apply -/

theorem Internal.actOnTarget (h : Internal P) (d : Device) (n : Outlet) (t : Target) (hd : P d) :
    P (d.actOnTarget n t) := by
  unfold Device.actOnTarget
  split
  · rename_i hs; exact h.move _ _ _ (.of_state hs) hd
  · rename_i hs; exact h.move _ _ _ (.of_state hs) hd
  · rename_i hs
    split
    · exact hd
    · exact h.cancelToOff _ _ (.of_state hs) hd
  · rename_i hs
    split
    · exact hd
    · exact h.cancelToOpening _ _ (.of_state hs) hd
  · rename_i hs
    split
    · exact hd
    · exact h.cancelToOpening _ _ (.of_state hs) hd
  · exact hd

theorem Neutral.deferTarget (h : Neutral P) (d : Device) (n : Outlet) (t : Target) (hd : P d) :
    P (d.deferTarget n t) := by
  unfold Device.deferTarget
  dsimp only
  split
  · exact h.answer _ _ _ _ (h.setOutlet _ _ _ hd)
  · exact h.setOutlet _ _ _ hd
  · exact h.setOutlet _ _ _ hd

theorem Internal.visit (h : Internal P) (acc : Device × Nat) (n : Outlet) (hd : P acc.1) :
    P (Device.visit acc n).1 := by
  unfold Device.visit
  dsimp only
  split
  · exact hd
  · split
    · exact hd
    · split
      · exact h.modOutlet _ _ _ hd
      · split
        · exact h.deferTarget _ _ _ (h.modOutlet _ _ _ hd)
        · exact h.actOnTarget _ _ _ (h.modOutlet _ _ _ hd)

theorem Internal.takeApply (h : Internal P) (d : Device) (tag : Word) (hd : P d) : P (d.takeApply tag) := by
  unfold Device.takeApply
  split
  · exact h.changeCharter _ _ (h.applyEcho _ _
      (foldl_keeps (fun acc : Device × Nat => P acc.1) Device.visit (fun acc n ha => h.visit acc n ha) _ _ hd))
  · exact hd

theorem Internal.takeTarget (h : Internal P) (d : Device) (n : Outlet) (t : Target) (hd : P d) :
    P (d.takeTarget n t) := by
  unfold Device.takeTarget
  split
  · exact h.actOnTarget _ _ _ hd
  · exact h.modOutlet _ _ _ hd

theorem Internal.takeDeferred (h : Internal P) (d : Device) (n : Outlet) (hd : P d) : P (d.takeDeferred n) := by
  unfold Device.takeDeferred
  split
  · exact hd
  · dsimp only
    split
    · exact h.takeTarget _ _ _ (h.setOutlet _ _ _ hd)
    · split
      · exact h.answer _ _ _ _ (h.setOutlet _ _ _ hd)
      · exact h.handleCode _ _ _ _ _ (h.setOutlet _ _ _ hd)

/-! ## Completions, expiries, hand-offs -/

theorem Neutral.setSense (h : Neutral P) (d : Device) (n : Outlet) (s : Sense) (hd : P d) : P (d.setSense n s) :=
  h.lines _ _ hd

theorem Internal.completeClosing (h : Internal P) (d : Device) (n : Outlet) (s : Sense) (left : Nat)
    (ho : (d.outlet[n]).operation = some (.closing, left)) (hd : P d) : P ((d.advance left).completeClosing n s) := by
  have hf := fun new hn => h.finishClosing d n s left new ho hn hd
  unfold Device.completeClosing
  dsimp only
  refine h.takeDeferred _ _ ?_
  split
  · exact h.setOutlet _ _ _ (hf _ (.inl rfl))
  · exact h.faultEntered _ _ _ (hf _ (.inr rfl))

theorem Internal.completeOpening (h : Internal P) (d : Device) (n : Outlet) (s : Sense) (left : Nat)
    (ho : (d.outlet[n]).operation = some (.opening, left)) (hd : P d) : P ((d.advance left).completeOpening n s) := by
  have hf := fun new hn => h.finishOpening d n s left new ho hn hd
  unfold Device.completeOpening
  dsimp only
  refine h.takeDeferred _ _ ?_
  split
  · exact h.faultEntered _ _ _ (hf _ (.inr (.inr rfl)))
  · split
    · exact h.startDwell _ _ (h.setOutlet _ _ _ (hf _ (.inl rfl)))
    · exact h.offEntered _ _ (hf _ (.inr (.inl rfl)))

theorem Internal.endInrush (h : Internal P) (d : Device) (n : Outlet) (hs : d.outletState n = .inrush) (hd : P d) :
    P (d.endInrush n) := by
  unfold Device.endInrush
  dsimp only
  split
  · exact h.move _ _ _ (.of_state hs) hd
  · refine h.move _ _ _ (.of_state (s := .inrush) ?_) (h.setOutlet _ _ _ (h.report _ _ _ _ _ hd))
    simp only [Device.outletState, Fin.getElem_fin] at hs
    simp [Device.outletState, Device.setOutlet, Device.report, hs]

theorem Internal.takeVerdictCycle (h : Internal P) (d : Device) (v : VerdictCycle) (hd : P d) :
    P (d.takeVerdictCycle v) := by
  unfold Device.takeVerdictCycle
  split
  · rename_i hs
    exact h.toWatch _ _ (h.startCycle _ _ _ _ (.inr (.of_state hs.1)) hd)
  · exact h.toWatch _ _ hd

theorem Neutral.takeMode (h : Neutral P) (d : Device) (n : Outlet) (hd : P d) : P (d.takeMode n) :=
  h.setOutlet _ _ _ hd

theorem Internal.queueIfAlwaysOn (h : Internal P) (d : Device) (n : Outlet) (hd : P d) : P (d.queueIfAlwaysOn n) := by
  unfold Device.queueIfAlwaysOn
  split
  · rename_i hs
    exact h.move _ _ _ (.of_state hs.1) hd
  · exact hd

/-! ## Checks -/

theorem Internal.leakCheck (h : Internal P) (d : Device) (n : Outlet) (i : SenseItem) (hd : P d) :
    P (d.leakCheck n i) := by
  unfold Device.leakCheck
  dsimp only
  split
  · rename_i hs
    split
    · exact h.setOutlet _ _ _ hd
    · split
      · refine h.enterFault _ _ _ ?_ (h.setOutlet _ _ _ hd)
        simp only [Fin.getElem_fin] at hs
        rcases hs with hs | hs
        · exact .of_state (s := .off) (by simp [Device.outletState, Device.setOutlet, hs])
        · exact .of_state (s := .dwell) (by simp [Device.outletState, Device.setOutlet, hs])
      · exact h.setOutlet _ _ _ hd
  · exact hd

/-- An outlet whose relay is at rest can be faulted. -/
theorem Device.CanMove.of_rest {d : Device} {n : Outlet} {s : Sense} (hs : (d.outletState n).expected = some s) :
    d.CanMove n .fault := by
  cases ho : d.outletState n <;> rw [ho] at hs <;> first
    | exact .of_state ho
    | exact absurd hs (by simp [OutletState.expected])

theorem Internal.settledCheck (h : Internal P) (d : Device) (n : Outlet) (hd : P d) : P (d.settledCheck n) := by
  unfold Device.settledCheck
  dsimp only
  split
  · exact hd
  · rename_i s hs
    generalize (if (d.outlet[n]).sensed = s then 0 else (d.outlet[n]).mismatch + 1) = count
    split
    · refine h.enterFault _ _ _ (.of_rest (s := s) ?_) (h.setOutlet _ _ _ hd)
      simp only [Fin.getElem_fin] at hs
      simp [Device.outletState, Device.setOutlet, hs]
    · exact h.setOutlet _ _ _ hd

theorem Internal.checkOutlet (h : Internal P) (x : SenseHandoff) (d : Device) (n : Outlet) (hd : P d) :
    P (Device.checkOutlet x d n) := by
  unfold Device.checkOutlet
  split
  · exact h.settledCheck _ _ (h.leakCheck _ _ _ hd)
  · exact hd

theorem Internal.takeChecks (h : Internal P) (d : Device) (x : SenseHandoff) (hd : P d) : P (d.takeChecks x) := by
  unfold Device.takeChecks Device.checkClose
  split
  · exact h.foldl _ (fun d n hd => h.checkOutlet x d n hd) _ _ (h.handed _ _ rfl rfl hd)
  · exact h.handed _ _ rfl rfl hd

end Sys2Proof.Machine
end

