-- ==== Sys2Proof/Laws/KeepsBus.lean ====
section
/-! SUPPORT. What the charter, the accesses of the processor and each command can change. `Stable P` adds to `Internal`
the writes to RAM and to the Shadow File, the Through-Path's own fields and the HOLD line; RESET stands apart. -/

namespace Sys2Proof.Machine
open Sys2Proof

variable {P : Device → Prop}

/-- A property that stands whatever commands but RESET come. -/
structure Stable (P : Device → Prop) : Prop extends Internal P where
  ram : ∀ d a v, P d → P (d.writeRam a v)
  shadow : ∀ d off v, P d → P (d.writeShadow off v)
  path : ∀ d p, p.shadow = d.path.shadow → P d → P { d with path := p }
  hold : ∀ d v, P d → P (d.setHold v)

/-! ## Settings (R23, R24) -/

theorem clampNat_range (lo hi x : Nat) (hle : lo ≤ hi) : lo ≤ clampNat lo hi x ∧ clampNat lo hi x ≤ hi := by
  unfold clampNat; omega

theorem Settings.InRange.takeSetting {s : Settings} (hs : s.InRange) (d : Device) (w : Nat) :
    (d.takeSetting w s).InRange := by
  unfold Device.takeSetting
  dsimp only
  split
  · exact { hs with intervalCycles := clampNat_range _ _ _ (by decide) }
  · exact ⟨hs.intervalCycles, hs.scanFirst, hs.scanLast, hs.refTolerance, hs.dwellMin, hs.dwellMax, hs.inrushWindow,
      hs.cycleWindow, hs.confirmTime, hs.quorum, hs.waitLimit⟩
  · exact { hs with scanFirst := clampNat_range _ _ _ (by decide) }
  · exact { hs with scanLast := clampNat_range _ _ _ (by decide) }
  · exact { hs with refTolerance := (clampNat_range _ _ _ (by decide)).2 }
  · exact { hs with dwellMin := clampNat_range _ _ _ (by decide) }
  · exact { hs with dwellMax := clampNat_range _ _ _ (by decide) }
  · exact { hs with inrushWindow := clampNat_range _ _ _ (by decide) }
  · exact { hs with cycleWindow := clampNat_range _ _ _ (by decide) }
  · exact { hs with confirmTime := (clampNat_range _ _ _ (by decide)).2 }
  · refine { hs with quorum := ?_ }
    dsimp only
    split
    · exact Or.inl rfl
    · exact Or.inr (clampNat_range _ _ _ (by decide))
  · exact { hs with waitLimit := clampNat_range _ _ _ (by decide) }
  · exact ⟨hs.intervalCycles, hs.scanFirst, hs.scanLast, hs.refTolerance, hs.dwellMin, hs.dwellMax, hs.inrushWindow,
      hs.cycleWindow, hs.confirmTime, hs.quorum, hs.waitLimit⟩
  · exact ⟨hs.intervalCycles, hs.scanFirst, hs.scanLast, hs.refTolerance, hs.dwellMin, hs.dwellMax, hs.inrushWindow,
      hs.cycleWindow, hs.confirmTime, hs.quorum, hs.waitLimit⟩
  · exact hs

/-- A change of the charter's own state that keeps Uptime and settings, and does not end enforcement. -/
theorem Neutral.setCharter (h : Neutral P) (d : Device) (f : Charter → Charter)
    (hf : (f d.charter).uptime ≤ max d.charter.uptime Config.uptimeMax)
    (hs : (f d.charter).settings = d.charter.settings) (he : d.enforcing → (d.setCharter f).enforcing)
    (hv : d.inService → (d.setCharter f).inService) (hd : P d) : P (d.setCharter f) := by
  refine h.charter _ _ (fun hc => ⟨hf.trans (Nat.max_le.2 ⟨hc.uptime, Nat.le_refl _⟩), ?_⟩) he hv hd
  rw [hs]
  exact hc.settings

theorem Neutral.takeSettingWord (h : Neutral P) (d : Device) (w : Nat) (hd : P d) : P (d.takeSettingWord w) :=
  h.charter _ _ (fun hc => ⟨hc.uptime, hc.settings.takeSetting d w⟩) (fun he => he) (fun hv => hv) hd

theorem Settings.InRange.takeAll {s : Settings} (hs : s.InRange) (d : Device) (ws : List Nat) :
    (ws.foldl (fun s w => d.takeSetting w s) s).InRange :=
  foldl_keeps Settings.InRange _ (fun _ w hs => hs.takeSetting d w) ws s hs

theorem Neutral.takeSettings (h : Neutral P) (d : Device) (hd : P d) : P d.takeSettings := by
  unfold Device.takeSettings
  generalize hs : Device.settingWords.foldl (fun s w => d.takeSetting w s) d.charter.settings = s'
  exact h.charter d { d.charter with settings := s' }
    (fun hc => ⟨hc.uptime, hs ▸ hc.settings.takeAll d Device.settingWords⟩) (fun he => he) (fun hv => hv) hd

/-! ## The charter -/

theorem Neutral.setLines (h : Neutral P) (d : Device) (v : SenseLines) (hd : P d) : P (d.setLines v) :=
  h.lines _ _ hd

theorem Neutral.reportCharter (h : Neutral P) (d : Device) (hd : P d) : P d.reportCharter :=
  h.report _ _ _ _ _ hd

/-- In service, enforcement is on. -/
theorem enforcing_of_state {d : Device} (hs : d.charter.state = .sweeping ∨ d.charter.state = .running
    ∨ d.charter.state = .halted) : d.enforcing = true := by
  unfold Device.enforcing
  rcases hs with hs | hs | hs <;> rw [hs]

theorem inService_enforcing {d : Device} (h : d.inService = true) : d.enforcing = true := by
  unfold Device.inService at h
  unfold Device.enforcing
  cases hs : d.charter.state <;> rw [hs] at h <;> first | rfl | exact h

/-- In RUNNING and HALTED the charter is in service. -/
theorem inService_of_state {d : Device} (hs : d.charter.state = .running ∨ d.charter.state = .halted) :
    d.inService = true := by
  unfold Device.inService
  rcases hs with hs | hs <;> rw [hs]

theorem Neutral.rejectRun (h : Neutral P) (d : Device) (off : d.enforcing = false) (hd : P d) : P d.rejectRun := by
  unfold Device.rejectRun
  refine h.reportCharter _ (h.publish _ _ _
    (h.setCharter _ _ (Nat.le_max_left _ _) rfl (fun he => ?_) (fun hv => ?_) hd))
  · rw [off] at he
    cases he
  · rw [inService_enforcing hv] at off
    cases off

theorem Device.takeReport_charter (d : Device) (r : Report) : (d.takeReport r).charter = d.charter := by
  unfold Device.takeReport
  split <;> rfl

/-- A ring that starts again leaves the charter as it is. -/
theorem Device.clearRing_charter (d : Device) : d.clearRing.charter = d.charter :=
  foldl_keeps (fun e => e.charter = d.charter) Device.takeReport
    (fun e r he => (Device.takeReport_charter e r).trans he) d.mail.reports
    { d with mail := { d.mail with reports := [] } } rfl

theorem Stable.beginSweep (h : Stable P) (d : Device) (off : d.enforcing = false) (hd : P d) : P d.beginSweep := by
  unfold Device.beginSweep
  refine h.publishCharter _ (h.reportCharter _ (h.path _ _ rfl ?_))
  refine h.setCharter _ _ (Nat.le_max_left _ _) rfl (fun _ => enforcing_of_state (Or.inl rfl)) (fun hv => ?_)
    (h.clearRing _ hd)
  have hoff : d.clearRing.enforcing = d.enforcing := by
    unfold Device.enforcing
    rw [Device.clearRing_charter]
  rw [inService_enforcing hv, off] at hoff
  cases hoff

theorem Internal.leaveHalt (h : Internal P) (d : Device) (hd : P d) : P d.leaveHalt := by
  unfold Device.leaveHalt
  refine h.releaseVerdicts _ (h.evaluateHeads _ (h.reportCharter _ (h.publishCharter _ (h.takeSettings _ ?_))))
  exact h.setCharter _ _ (Nat.le_max_left _ _) rfl (fun _ => enforcing_of_state (Or.inr (Or.inl rfl)))
    (fun _ => inService_of_state (Or.inl rfl)) hd

theorem Stable.takeRun (h : Stable P) (d : Device) (hd : P d) : P d.takeRun := by
  have hcheck : d.enforcing = false → P d.layoutCheck := by
    intro off
    unfold Device.layoutCheck
    split
    · exact h.beginSweep _ off hd
    · exact h.rejectRun _ off hd
  unfold Device.takeRun
  split
  · rename_i hs; exact hcheck (by unfold Device.enforcing; rw [hs])
  · rename_i hs; exact hcheck (by unfold Device.enforcing; rw [hs])
  · exact hd
  · exact hd
  · exact h.leaveHalt _ hd

theorem Internal.takeHalt (h : Internal P) (d : Device) (hd : P d) : P d.takeHalt := by
  unfold Device.takeHalt
  split
  · exact h.reportCharter _ (h.publishCharter _
      (h.setCharter _ _ (Nat.le_max_left _ _) rfl (fun _ => enforcing_of_state (Or.inr (Or.inr rfl)))
        (fun _ => inService_of_state (Or.inr rfl)) hd))
  all_goals exact hd

theorem Stable.takeCommand (h : Stable P) (d : Device) (v : Word) (hd : P d) : P (d.takeCommand v) := by
  unfold Device.takeCommand
  split
  · exact h.takeRun _ hd
  · split
    · exact h.takeHalt _ hd
    · exact hd

/-! ## Sweep end -/

theorem Stable.takeBaselines (h : Stable P) (d : Device) (hd : P d) : P d.takeBaselines := by
  unfold Device.takeBaselines
  refine h.takeSettings _ ?_
  exact h.setCharter _ _ (Nat.le_max_left _ _) rfl (fun he => he) (fun hv => hv) (h.path d _ rfl hd)

theorem length_zeros (k : Nat) : (zeros k).length = k := List.length_replicate ..

theorem length_seed (k x : Nat) : ((seedDigits k x).getD (zeros k)).length = k := by
  cases hs : seedDigits k x with
  | none => exact length_zeros k
  | some ds => exact length_seedDigits k x ds hs

theorem Neutral.seedCounters (h : Neutral P) (d : Device) (hd : P d) : P d.seedCounters := by
  unfold Device.seedCounters
  dsimp only
  refine h.engine _ _ (fun _ => ⟨fun n => ?_, fun l => ?_⟩)
    (h.inFreeOrder _ _ (fun d x hd => h.report d _ _ _ _ hd) _ _ hd)
  · simp only [Fin.getElem_fin, Vector.getElem_ofFn]
    exact ⟨Nat.succ_pos _, length_seed _ _, length_zeros 6, Nat.zero_le _⟩
  · rw [PerLevel.get_ofFn]
    exact ⟨length_seed _ _, Nat.zero_le _⟩

/-- Nothing queued, no slot taken, every total 0. -/
theorem Admission.ok_afterReset (loads : PerLevel Nat) : ({ Admission.afterReset with loads := loads }).Ok := by
  have hq : ∀ b : Branch, Admission.afterReset.queues[b] = [] := by decide
  have hs : ∀ b : Branch, Admission.afterReset.slots[b] = none := by decide
  refine ⟨fun b => ?_, fun b s hb => ?_, ?_, ?_, ?_⟩
  · show QueueOk b Admission.afterReset.queues[b]
    rw [hq b]
    exact ⟨List.Pairwise.nil, by simp, by simp⟩
  · exact absurd ((hs b).symm.trans hb) (by simp)
  · show ∀ b : Branch, Admission.afterReset.reserved.branch[b] = slotSum Admission.afterReset.slots [b]
    decide
  · show ∀ p : Phase, Admission.afterReset.reserved.phase[p] = slotSum Admission.afterReset.slots (branchesOf p)
    decide
  · show Admission.afterReset.reserved.inlet = slotSum Admission.afterReset.slots branches
    decide

theorem recent_startingWatch (d : Device) (n : Outlet) : (d.startingWatch n).recent = [] := by
  unfold Device.startingWatch
  dsimp only
  repeat' split
  all_goals rfl

theorem Loose.setOutlets (h : Loose P) (d : Device) (hd : P d) : P d.setOutlets := by
  unfold Device.setOutlets
  dsimp only
  refine h.foldl _ (fun d n hd => h.placeJoin d n hd) _ _ ?_
  let d1 : Device := { d with outlet := Vector.ofFn d.startingOutlet }
  let d2 : Device := { d1 with watch := Vector.ofFn d.startingWatch }
  let d3 : Device := { d2 with suspendedSince := none }
  have h1 : P d1 := h.contexts d _ hd
  have h2 : P d2 := h.watch d1 _ (fun _ n => by
    simp only [Fin.getElem_fin, Vector.getElem_ofFn, recent_startingWatch]
    exact Nat.zero_le _) h1
  exact h.admission d3 _ (fun _ => Admission.ok_afterReset _) (h.suspended d2 _ h2)

/-- The outlets are set and the charter goes to RUNNING (R31, R32). -/
theorem Loose.startService (h : Loose P) (d : Device) (hd : P d) :
    P (d.setOutlets.setCharter fun c => { c with state := .running, sweepPosition := none }) := by
  have he := h.setOutlets d hd
  generalize d.setOutlets = e at he ⊢
  exact h.setCharter _ _ (Nat.le_max_left _ _) rfl (fun _ => enforcing_of_state (Or.inr (Or.inl rfl)))
    (fun _ => inService_of_state (Or.inl rfl)) he

theorem Internal.enterService (h : Internal P) (d : Device) (hs : d.charter.state = .sweeping) (hd : P d) :
    P d.setOutlets.enterService := by
  have he := h.startService d hs hd
  unfold Device.enterService
  dsimp only
  generalize d.setOutlets.setCharter (fun c => { c with state := .running, sweepPosition := none }) = e at he ⊢
  exact h.evaluateHeads _ (h.reportCharter _ (h.foldl _ (fun d g hd => h.publish d g _ hd) _ _ he))

theorem Stable.setLastTag (h : Stable P) (d : Device) (n : Outlet) (tag : Byte) (hd : P d) :
    P (d.setLastTag n tag) := h.path _ _ rfl hd

theorem Stable.releaseOutlet (h : Stable P) (p : PendingSet) (d : Device) (n : Outlet) (hd : P d) :
    P (Device.releaseOutlet p d n) := by
  have h1 : P (if p.heartbeats[n] then d.takeHeartbeat n else d) := by
    split
    · exact h.takeHeartbeat _ _ hd
    · exact hd
  unfold Device.releaseOutlet
  dsimp only
  generalize (if p.heartbeats[n] then d.takeHeartbeat n else d) = e at h1 ⊢
  split
  · exact h1
  · exact h.takeRequest _ _ _ _ _ (h.path e _ rfl h1)

theorem Neutral.setPending (h : Neutral P) (d : Device) (f : PendingSet → PendingSet) (hd : P d) :
    P (d.setCharter fun c => { c with afterSweep := f c.afterSweep }) :=
  h.setCharter _ _ (Nat.le_max_left _ _) rfl (fun he => he) (fun hv => hv) hd

theorem Neutral.keepPending (h : Neutral P) (d : Device) (f : PendingSet → PendingSet) (hd : P d) :
    P (d.keepPending f) := h.setPending _ _ hd

theorem Stable.releasePending (h : Stable P) (d : Device) (hd : P d) : P d.releasePending := by
  have h1 := h.foldl _ (fun e n he => h.releaseOutlet d.charter.afterSweep e n he) outlets _
    (h.setPending d (fun _ => .empty) hd)
  unfold Device.releasePending
  dsimp only
  generalize outlets.foldl (Device.releaseOutlet d.charter.afterSweep)
    (d.setCharter fun c => { c with afterSweep := .empty }) = e at h1 ⊢
  have h2 : P (match d.charter.afterSweep.tail with
      | some v => e.takeTail v
      | none => e) := by
    split
    · exact h.takeTail _ _ h1
    · exact h1
  split
  · exact h.takeApply _ _ h2
  · exact h2

/-- The charter state stands while the counters are seeded. -/
theorem Device.seedCounters_charter (d : Device) : d.seedCounters.charter = d.charter :=
by
  have h : ∀ xs : List (Nat × Subject), (d.inFreeOrder (fun x => x.1) Device.reportSeed xs).charter = d.charter :=
    fun xs => inFreeOrder_keeps (fun e => e.charter = d.charter) (fun x : Nat × Subject => x.1) Device.reportSeed
      (fun _ _ he => he) (fun _ _ he => he) xs d rfl
  unfold Device.seedCounters
  exact h d.invalidSeeds

theorem Stable.endSweep (h : Stable P) (d : Device) (lines : SenseLines) (hs : d.charter.state = .sweeping) (hd : P d) :
    P (d.endSweep lines) := by
  have he := h.seedCounters _ (h.takeBaselines _ (h.setLines d lines hd))
  have hc : (d.setLines lines).takeBaselines.seedCounters.charter.state = .sweeping := by
    rw [Device.seedCounters_charter]
    unfold Device.takeBaselines Device.takeSettings Device.setCharter
    exact hs
  unfold Device.endSweep
  generalize (d.setLines lines).takeBaselines.seedCounters = e at he hc ⊢
  exact h.releasePending _ (h.enterService _ hc he)

theorem Stable.sweepWord (h : Stable P) (d : Device) (off : Nat) (lines : SenseLines)
    (hs : d.charter.state = .sweeping) (hd : P d) : P (d.sweepWord off lines) := by
  have h1 := h.shadow d off (d.ram.readWord (d.windowAddress off)) hd
  unfold Device.sweepWord
  dsimp only
  split
  · exact h.setCharter _ _ (Nat.le_max_left _ _) rfl (fun he => he) (fun hv => hv) h1
  · exact h.endSweep _ _ hs h1

theorem Neutral.nextSecond (h : Neutral P) (d : Device) (hd : P d) : P d.nextSecond := by
  unfold Device.nextSecond
  dsimp only
  refine h.changeCharter _ _ ?_
  refine h.setCharter _ _ ?_ rfl (fun he => he) (fun hv => hv) (h.advance _ _ hd)
  exact (Nat.min_le_right _ _).trans (Nat.le_max_right _ _)

/-! ## Writes -/

theorem Internal.recogniseApply (h : Internal P) (d : Device) (v : Word) (hd : P d) : P (d.recogniseApply v) := by
  unfold Device.recogniseApply
  split
  · exact hd
  · refine h.takeApply _ _ ?_
    exact h.setCharter _ _ (Nat.le_max_left _ _) rfl (fun he => he) (fun hv => hv) hd

theorem Stable.recogniseRequest (h : Stable P) (d : Device) (n : Outlet) (v : Word) (hd : P d) :
    P (d.recogniseRequest n v) := by
  unfold Device.recogniseRequest
  split
  · exact h.takeRequest _ _ _ _ _ (h.setLastTag _ _ _ hd)
  · exact hd

theorem Internal.takeModeWrite (h : Internal P) (d : Device) (n : Outlet) (hd : P d) : P (d.takeModeWrite n) := by
  unfold Device.takeModeWrite
  dsimp only
  have h1 := h.queueIfAlwaysOn _ n (h.takeMode d n hd)
  split
  · exact h1
  · exact h.restartWatch _ _ h1

theorem Neutral.takePolicyWrite (h : Neutral P) (d : Device) (n : Outlet) (hd : P d) : P (d.takePolicyWrite n) := by
  unfold Device.takePolicyWrite
  dsimp only
  have h1 := h.setWatch d n (fun w => { w with policy := d.takenPolicy n }) (keepsRecent_of_eq fun _ => rfl) hd
  split
  · exact h1
  · exact h.restartWatch _ _ h1

theorem Stable.takeCharterWord (h : Stable P) (d : Device) (w : Nat) (v : Word) (hd : P d) :
    P (d.takeCharterWord w v) := by
  have h1 := h.takeSettingWord d w hd
  unfold Device.takeCharterWord
  dsimp only
  split
  · exact h.takeCommand _ _ hd
  · split
    · exact h.recogniseApply _ _ hd
    · split
      · exact h.ageLists _ h1
      · split
        · exact h.compareQuorum _ h1
        · split
          · exact h.examineTenures _ h1
          · exact h1

theorem Stable.takeOutletWord (h : Stable P) (d : Device) (n : Outlet) (w : Nat) (old v : Word) (hd : P d) :
    P (d.takeOutletWord n w old v) := by
  unfold Device.takeOutletWord
  repeat' split
  · exact h.takeModeWrite _ _ hd
  · exact h.takePolicyWrite _ _ hd
  · exact h.evaluateH _ _ hd
  · exact h.evaluateS _ _ hd
  · exact hd
  · exact h.takeHeartbeat _ _ hd
  · exact h.recogniseRequest _ _ _ hd
  · exact hd

theorem Stable.recogniseInService (h : Stable P) (d : Device) (p : Place) (old v : Word) (hd : P d) :
    P (d.recogniseInService p old v) := by
  unfold Device.recogniseInService
  split
  · exact h.takeCharterWord _ _ _ hd
  · split
    · exact h.evaluateHeads _ hd
    · exact hd
  · exact h.takeOutletWord _ _ _ _ _ hd
  · exact h.takeTail _ _ hd
  all_goals exact hd

theorem Stable.recogniseSweeping (h : Stable P) (d : Device) (p : Place) (v : Word) (hd : P d) :
    P (d.recogniseSweeping p v) := by
  unfold Device.recogniseSweeping
  split
  · split
    · exact h.takeCommand _ _ hd
    · split
      · exact h.keepPending _ _ hd
      · exact hd
  · split
    · exact h.keepPending _ _ hd
    · split
      · exact h.keepPending _ _ hd
      · exact hd
  · exact h.keepPending _ _ hd
  all_goals exact hd

theorem Stable.recognise (h : Stable P) (d : Device) (p : Place) (old v : Word) (hd : P d) :
    P (d.recognise p old v) := by
  unfold Device.recognise
  split
  · split
    · exact h.takeCommand _ _ hd
    · exact hd
  · split
    · exact h.takeCommand _ _ hd
    · exact hd
  · exact h.recogniseSweeping _ _ _ hd
  · exact h.recogniseInService _ _ _ _ hd
  · exact h.recogniseInService _ _ _ _ hd

theorem Stable.storeOwned (h : Stable P) (d : Device) (p : Place) (off : Nat) (a : WriteAccess) (v : Word) (hd : P d) :
    P (d.storeOwned p off a v) := by
  have h1 := h.shadow _ off v (h.ram d a.addr.toNat v hd)
  unfold Device.storeOwned Device.noteLock
  split
  · exact h.path _ _ rfl h1
  · exact h1

theorem Stable.acceptWrite (h : Stable P) (d : Device) (p : Place) (off : Nat) (a : WriteAccess) (hd : P d) :
    P (d.acceptWrite p off a) := h.recognise _ _ _ _ (h.storeOwned _ _ _ _ _ hd)

theorem Neutral.reportProtect (h : Neutral P) (d : Device) (p : Place) (off : Nat) (r : ProtectReason) (hd : P d) :
    P (d.reportProtect p off r) := h.report _ _ _ _ _ hd

theorem Stable.dropLocked (h : Stable P) (d : Device) (p : Place) (off : Nat) (a : WriteAccess) (hd : P d) :
    P (d.dropLocked p off a) := by
  have h1 := h.reportProtect d p off .locked hd
  unfold Device.dropLocked Device.refuseLocked
  split
  · split
    · exact h.answer _ _ _ _ (h.setLastTag _ _ _ h1)
    · exact h1
  · exact h1

theorem Stable.performWrite (h : Stable P) (d : Device) (a : WriteAccess) (hd : P d) : P (d.performWrite a) := by
  have hplain : P (d.plainWrite a) := h.ram _ _ _ hd
  unfold Device.performWrite
  split
  · exact hplain
  · split
    · unfold Device.enforcedWrite
      split
      · exact hplain
      · exact h.reportProtect _ _ _ _ hd
      · split
        · exact h.dropLocked _ _ _ _ hd
        · exact h.acceptWrite _ _ _ _ hd
    · unfold Device.unenforcedWrite
      dsimp only
      split
      · exact h.recognise _ _ _ _ (h.shadow _ _ _ hplain)
      · exact hplain

/-! ## Reads and the arbiter -/

theorem Neutral.handCollectClear (h : Neutral P) (d : Device) (n : Outlet) (u : Option (List Word)) (hd : P d) :
    P (d.handCollectClear n u) := h.handed _ _ rfl rfl (h.setHeldBack _ _ _ (h.setBracket _ _ hd))

theorem Neutral.bracketRead (h : Neutral P) (d : Device) (p : Place) (hd : P d) : P (d.bracketRead p) := by
  unfold Device.bracketRead
  split
  · exact h.openBracket _ _ hd
  · split
    · unfold Device.readLastWord
      split
      · exact hd
      · split
        · split
          · split
            · exact h.handCollectClear _ _ _ hd
            · exact h.closeBracket _ hd
          all_goals exact h.closeBracket _ hd
        · exact hd
    · exact hd

theorem Stable.performRead (h : Stable P) (d : Device) (a : ReadAccess) (hd : P d) : P (d.performRead a) := by
  have h1 := h.path d { d.path with readData := d.readValue a.addr } rfl hd
  unfold Device.performRead
  dsimp only
  split
  · exact h1
  · split
    · exact h.bracketRead _ _ h1
    · exact h1

theorem Stable.performAccess (h : Stable P) (d : Device) (acc : Access) (hd : P d) : P (d.performAccess acc) := by
  cases acc with
  | write a => exact h.performWrite _ _ hd
  | read a => exact h.performRead _ _ hd

theorem Stable.setHeld (h : Stable P) (d : Device) (acc : Option Access) (hd : P d) : P (d.setHeld acc) :=
  h.path _ _ rfl hd

theorem Stable.presentAccess (h : Stable P) (d : Device) (acc : Access) (hd : P d) : P (d.presentAccess acc) := by
  unfold Device.presentAccess
  split
  · exact hd
  · split
    · exact h.performAccess _ _ hd
    · exact h.setHeld _ _ hd

theorem Stable.resumeAccess (h : Stable P) (d : Device) (lines : SenseLines) (hd : P d) : P (d.resumeAccess lines) := by
  have h1 := h.setLines d lines hd
  unfold Device.resumeAccess
  dsimp only
  split
  · exact h1
  · split
    · exact h.performAccess _ _ (h.setHeld _ _ h1)
    · exact h1

/-- A queue whose oldest entry has left keeps its bound. -/
theorem Publication.Bounded.behind {p : Publication} (hp : p.Bounded) {e : Entry} {es : List Entry}
    (hq : p.queue = e :: es) (k : Nat) : ({ p with queue := es, drained := k } : Publication).Bounded where
  distinct := by
    have h1 := hp.distinct
    rw [hq] at h1
    cases hg : e.group? with
    | none => simpa [List.filterMap_cons, hg] using h1
    | some g => rw [List.filterMap_cons, hg] at h1; exact (List.nodup_cons.1 h1).2
  reports := by
    have h1 := hp.reports
    rw [hq, List.countP_cons] at h1
    exact (Nat.le_add_right _ _).trans h1

theorem Stable.drain (h : Stable P) (d : Device) (hd : P d) : P d.drain := by
  unfold Device.drain
  split
  · exact hd
  · rename_i e es hq
    split
    · exact h.pub _ _ (fun hb => hb.behind hq 0) hd
    · rename_i off v _
      exact h.pub (d.writeRam (d.windowAddress off) v) _ (fun hb => hb.behind hq 0) (h.ram _ _ _ hd)
    · rename_i off v _ _ _
      exact h.pub (d.writeRam (d.windowAddress off) v) _ (fun hb => ⟨hb.distinct, hb.reports⟩) (h.ram _ _ _ hd)

theorem Stable.drainWrite (h : Stable P) (d : Device) (hd : P d) : P d.drainWrite := by
  unfold Device.drainWrite
  split
  · exact hd
  · exact h.drain _ hd

theorem Stable.sweepRead (h : Stable P) (d : Device) (lines : SenseLines) (hd : P d) : P (d.sweepRead lines) := by
  unfold Device.sweepRead
  split
  · exact hd
  · split
    · rename_i hs; exact h.sweepWord _ _ _ hs.1 hd
    · exact hd

theorem Stable.releaseHold (h : Stable P) (d : Device) (hd : P d) : P d.releaseHold := by
  unfold Device.releaseHold
  split
  · exact h.releaseVerdicts _ (h.evaluateHeads _ (h.hold _ _ hd))
  · exact hd

theorem Neutral.senseForWrite (h : Neutral P) (d : Device) (a : WriteAccess) (s : Sense) (hd : P d) :
    P (d.senseForWrite a s) := by
  unfold Device.senseForWrite
  repeat' split
  · exact hd
  · exact h.setSense _ _ _ hd
  all_goals exact hd

end Sys2Proof.Machine
end

