-- ==== Sys2Proof/Laws/Stores.lean ====
section
/-! SUPPORT. The laws of stores: what a write changes, and that it keeps the canonical form; the same for words of RAM
and of the Shadow File. -/

namespace Sys2Proof.Machine
open Sys2Proof

/-! ## Stores -/

/-- Reading below every listed address finds nothing. -/
theorem Store.read_below {w : Nat} (m : Store w) (a : Nat) (hm : ∀ c ∈ m, a < c.1) : m.read a = Store.blank w := by
  induction m with
  | nil => rfl
  | cons c cs ih =>
    have h1 := hm c (List.mem_cons_self ..)
    unfold Store.read
    rw [if_neg (by omega)]
    exact ih fun x hx => hm x (List.mem_cons_of_mem _ hx)

/-- A written address reads as the value written. -/
theorem Store.read_write_same {w : Nat} (m : Store w) (a : Nat) (v : BitVec w) (hm : m.wf) :
    (m.write a v).read a = v := by
  induction m with
  | nil =>
    unfold Store.write
    split
    · rename_i h; simpa [Store.read] using h.symm
    · simp [Store.read]
  | cons c cs ih =>
    obtain ⟨k, x⟩ := c
    have hs := List.pairwise_cons.1 hm.1
    unfold Store.write
    split
    · rename_i hlt
      have hbelow : ∀ y ∈ (k, x) :: cs, a < y.1 := by
        intro y hy
        rcases List.mem_cons.1 hy with rfl | hy
        · exact hlt
        · exact Nat.lt_trans hlt (hs.1 y hy)
      split
      · rename_i hv; rw [Store.read_below _ _ hbelow, hv]
      · simp [Store.read]
    · split
      · rename_i hlt heq
        subst heq
        split
        · rename_i hv; rw [Store.read_below _ _ fun y hy => hs.1 y hy, hv]
        · simp [Store.read]
      · rename_i hlt hne
        unfold Store.read
        rw [if_neg (fun h => hne h.symm)]
        exact ih ⟨hs.2, fun c hc => hm.2 c (List.mem_cons_of_mem _ hc)⟩

/-- Every other address reads as before. -/
theorem Store.read_write_other {w : Nat} (m : Store w) (a b : Nat) (v : BitVec w) (hab : a ≠ b) (hm : m.wf) :
    (m.write a v).read b = m.read b := by
  induction m with
  | nil =>
    unfold Store.write
    split
    · rfl
    · simp [Store.read, hab]
  | cons c cs ih =>
    obtain ⟨k, x⟩ := c
    have hs := List.pairwise_cons.1 hm.1
    unfold Store.write
    split
    · split
      · rfl
      · simp [Store.read, hab]
    · split
      · rename_i hlt heq
        subst heq
        split
        · conv_rhs => unfold Store.read
          rw [if_neg hab]
        · simp [Store.read, hab]
      · have hi := ih ⟨hs.2, fun c hc => hm.2 c (List.mem_cons_of_mem _ hc)⟩
        unfold Store.read
        split
        · rfl
        · exact hi

/-- A listed address after a write is the written one or was listed before. -/
theorem Store.mem_write {w : Nat} (m : Store w) (a : Nat) (v : BitVec w) (c : Nat × BitVec w) (hc : c ∈ m.write a v) :
    (c = (a, v) ∧ v ≠ Store.blank w) ∨ c ∈ m := by
  induction m with
  | nil =>
    unfold Store.write at hc
    split at hc
    · cases hc
    · rename_i hv; exact Or.inl ⟨List.mem_singleton.1 hc, hv⟩
  | cons y ys ih =>
    obtain ⟨k, x⟩ := y
    unfold Store.write at hc
    split at hc
    · split at hc
      · exact Or.inr hc
      · rename_i hv
        exact (List.mem_cons.1 hc).imp (fun h => ⟨h, hv⟩) id
    · split at hc
      · split at hc
        · exact Or.inr (List.mem_cons_of_mem _ hc)
        · rename_i hv
          exact (List.mem_cons.1 hc).imp (fun h => ⟨h, hv⟩) (List.mem_cons_of_mem _)
      · rcases List.mem_cons.1 hc with rfl | hc
        · exact Or.inr (List.mem_cons_self ..)
        · exact (ih hc).imp id (List.mem_cons_of_mem _)

/-- A write keeps the canonical form. -/
theorem Store.wf_write {w : Nat} (m : Store w) (a : Nat) (v : BitVec w) (hm : m.wf) : (m.write a v).wf := by
  refine ⟨?_, fun c hc => (m.mem_write a v c hc).elim (fun h => by rw [h.1]; exact h.2) (hm.2 c)⟩
  have hsorted := hm.1
  clear hm
  induction m with
  | nil =>
    unfold Store.write
    split <;> simp
  | cons y ys ih =>
    obtain ⟨k, x⟩ := y
    have hs := List.pairwise_cons.1 hsorted
    unfold Store.write
    split
    · rename_i hlt
      split
      · exact hsorted
      · refine List.pairwise_cons.2 ⟨fun c hc => ?_, hsorted⟩
        rcases List.mem_cons.1 hc with rfl | hc
        · exact hlt
        · exact Nat.lt_trans hlt (hs.1 c hc)
    · split
      · rename_i hlt heq
        subst heq
        split
        · exact hs.2
        · exact List.pairwise_cons.2 ⟨hs.1, hs.2⟩
      · rename_i hlt hne
        refine List.pairwise_cons.2 ⟨fun c hc => ?_, ih hs.2⟩
        rcases Store.mem_write ys a v c hc with h | h
        · rw [h.1]; show k < a; omega
        · exact hs.1 c h

/-! ## RAM -/

/-- A word write keeps RAM's canonical form. -/
theorem Memory.wf_writeWord (m : Memory) (a : Nat) (v : Word) (hm : m.wf) : (m.writeWord a v).wf :=
  Store.wf_write _ _ _ (Store.wf_write _ _ _ hm)

theorem wordOf_bytes (v : Word) : wordOf (highByte v) (lowByte v) = v := by
  unfold wordOf highByte lowByte
  ext i hi
  simp only [BitVec.getElem_append, BitVec.getElem_extractLsb', Nat.zero_add]
  split
  · exact BitVec.getLsbD_eq_getElem _
  · rw [show 8 + (i - 8) = i by omega]; exact BitVec.getLsbD_eq_getElem _

/-- A written word of RAM reads as the value written. -/
theorem Memory.readWord_writeWord_same (m : Memory) (a : Nat) (v : Word) (hm : m.wf) :
    (m.writeWord a v).readWord a = v := by
  have h1 := Store.wf_write (w := 8) m (2 * a) (lowByte v) hm
  show wordOf (Store.read (w := 8) _ _) (Store.read (w := 8) _ _) = v
  unfold Memory.writeWord Memory.writeByte
  rw [Store.read_write_same _ _ _ h1, Store.read_write_other _ _ _ _ (by omega) h1, Store.read_write_same _ _ _ hm,
    wordOf_bytes]

/-- Every other word of RAM reads as before. -/
theorem Memory.readWord_writeWord_other (m : Memory) (a b : Nat) (v : Word) (hab : a ≠ b) (hm : m.wf) :
    (m.writeWord a v).readWord b = m.readWord b := by
  have h1 := Store.wf_write (w := 8) m (2 * a) (lowByte v) hm
  show wordOf (Store.read (w := 8) _ _) (Store.read (w := 8) _ _) = wordOf (Store.read (w := 8) _ _) (Store.read (w := 8) _ _)
  unfold Memory.writeWord Memory.writeByte
  rw [Store.read_write_other _ _ _ _ (by omega) h1, Store.read_write_other _ _ _ _ (by omega) hm,
    Store.read_write_other _ _ _ _ (by omega) h1, Store.read_write_other _ _ _ _ (by omega) hm]

end Sys2Proof.Machine
end

