-- ==== Sys2Proof/Laws/Exec.lean ====
section
/-! SUPPORT. What one command can do, said once: it answers a next state and leaves the queue of waiting commands; and a
property that is `Stable` stands over every command but RESET. -/

namespace Sys2Proof.Machine
open Sys2Proof

variable {P : Device → Prop}

/-- Every command answers a next state in which only the block has changed. -/
theorem exec_answers (i : Instr) (s : State) : ∃ d, exec i s = .next { s with dev := d } := by
  cases i <;> exact ⟨_, rfl⟩

/-- The block a command leaves. -/
def afterCommand (i : Instr) (d : Device) : Device :=
  match exec i ⟨d, []⟩ with
  | .next t => t.dev
  | .fault _ => d
  | .refused _ => d

/-- A command's answer is the block it leaves, with the queue as it is. -/
theorem exec_eq (i : Instr) (s : State) : exec i s = .next { s with dev := afterCommand i s.dev } := by
  cases i <;> rfl

/-- A property that stands whatever the part does stands over every command but RESET. -/
theorem Stable.command (h : Stable P) (i : Instr) (hi : ∀ wb b, i ≠ .reset wb b) (d : Device) (hd : P d) :
    P (afterCommand i d) := by
  have hw : ∀ a, P (d.presentAccess (.write a)) := fun a => h.presentAccess _ _ hd
  have hr : ∀ a, P (d.presentAccess (.read a)) := fun a => h.presentAccess _ _ hd
  cases i with
  | reset wb b => exact absurd rfl (hi wb b)
  | holdAssert => exact h.hold _ _ hd
  | holdRelease => exact h.releaseHold _ hd
  | processorWrite a => exact hw a
  | accessResume lines => exact h.resumeAccess _ _ hd
  | protectedWriteDropped a => exact hw a
  | ownedWriteDropped a => exact hw a
  | sequenceRead a => exact hr a
  | lastWordRead a => exact hr a
  | collectClear =>
    show P d.nextCollectClear
    unfold Device.nextCollectClear
    split
    · exact hd
    · exact h.collect _ _ (h.handed _ _ rfl rfl hd)
  | collectClearReturn =>
    show P d.nextCollectReturn
    unfold Device.nextCollectReturn
    split
    · exact hd
    · exact h.takeReturn _ _ (h.handed _ _ rfl rfl hd)
  | drainWrite => exact h.drainWrite _ hd
  | run a => exact hw a
  | halt a => exact hw a
  | sweepRead lines => exact h.sweepRead _ _ hd
  | heartbeat a => exact hw a
  | switchOn a => exact hw a
  | switchOff a => exact hw a
  | cycle a => exact hw a
  | stageOn a => exact hw a
  | stageOff a => exact hw a
  | unstage a => exact hw a
  | holdWatch a => exact hw a
  | freeWatch a => exact hw a
  | resume a => exact hw a
  | clearFault a s => exact h.presentAccess _ _ (h.senseForWrite _ _ _ hd)
  | periodClear a => exact hw a
  | periodClearEvent =>
    show P d.nextPeriodClear
    unfold Device.nextPeriodClear
    split
    · exact hd
    · exact h.clearPeriod _ _ (h.handed _ _ rfl rfl hd)
  | requestUnknown a => exact hw a
  | apply a => exact hw a
  | tailWrite a => exact hw a
  | modeWrite a => exact hw a
  | watchPolicyWrite a => exact hw a
  | limitWrite a => exact hw a
  | heartbeatTimeoutWrite a => exact hw a
  | signatureTimeWrite a => exact hw a
  | signatureFloorWrite a => exact hw a
  | cycleWindowWrite a => exact hw a
  | heartbeatQuorumWrite a => exact hw a
  | admissionWaitLimitWrite a => exact hw a
  | currentSlot r v =>
    show P (d.currentSlot r v)
    unfold Device.currentSlot
    split
    · exact hd
    · exact h.completeCurrentSlot _ _ _ _ hd
  | referenceSlot r v =>
    show P (d.referenceSlot r v)
    unfold Device.referenceSlot
    split
    · exact hd
    · exact h.completeReferenceSlot _ _ _ hd
  | lineLoss =>
    show P d.lineLoss
    unfold Device.lineLoss
    split
    · exact hd
    · exact h.loseLine _ _ (h.advance _ _ hd)
  | timedClose =>
    show P d.timedClose
    unfold Device.timedClose
    dsimp only
    split
    · exact hd
    · exact h.timedCloseAt _ _ (h.advance _ _ hd)
  | closeComputation lines =>
    show P (d.nextClose lines)
    unfold Device.nextClose
    split
    · exact hd
    · exact h.compute _ _ _ (h.handed _ _ rfl rfl (h.foldl _ (fun d x hd => h.takeChecks d x hd) _ _ hd))
  | contactSenseRead lines =>
    show P (d.nextCheck lines)
    unfold Device.nextCheck
    split
    · exact hd
    · exact h.takeChecks _ _ (h.lines _ _ hd)
  | signatureTrackerUpdate n =>
    show P (d.nextTracker n)
    unfold Device.nextTracker
    split
    · exact hd
    · exact h.takeTracker _ _ (h.handed _ _ rfl rfl hd)
  | levelLoadsHandoff =>
    show P d.nextLoads
    unfold Device.nextLoads
    split
    · exact hd
    · exact h.takeLoads _ _ (h.handed _ _ rfl rfl hd)
  | closingComplete n s =>
    show P (d.closingDue n s)
    unfold Device.closingDue
    split
    · rename_i ho; exact h.completeClosing _ _ _ _ ho hd
    all_goals exact hd
  | openingComplete n s =>
    show P (d.openingDue n s)
    unfold Device.openingDue
    split
    · rename_i ho; exact h.completeOpening _ _ _ _ ho hd
    all_goals exact hd
  | inrushExpiry n =>
    show P (d.inrushDue n)
    unfold Device.inrushDue
    split
    · exact hd
    · split
      · rename_i hs
        refine h.endInrush _ _ ?_ (h.advance _ _ hd)
        simpa [Device.outletState, Device.advance, OutletContext.tick] using hs
      · exact hd
  | dwellExpiry n =>
    show P (d.dwellDue n)
    unfold Device.dwellDue
    split
    · exact hd
    · split
      · rename_i hs
        refine h.move _ _ _ (.of_state (s := .dwell) ?_) (h.advance _ _ hd)
        simpa [Device.outletState, Device.advance, OutletContext.tick] using hs
      · exact hd
  | admission =>
    show P d.nextAdmission
    unfold Device.nextAdmission
    split
    · exact hd
    · rename_i hq; exact h.takeAdmission _ _ _ hq hd
  | join =>
    show P d.nextJoin
    unfold Device.nextJoin
    split
    · rename_i hq; exact h.takeJoin _ _ _ hq hd
    · exact hd
  | removal =>
    show P d.nextRemoval
    unfold Device.nextRemoval
    split
    · rename_i hq; exact h.takeRemoval _ _ _ hq hd
    · exact hd
  | release =>
    show P d.nextRelease
    unfold Device.nextRelease
    split
    · rename_i hq; exact h.takeRelease _ _ _ hq hd
    · exact hd
  | handBack =>
    show P d.nextHandBack
    unfold Device.nextHandBack
    split
    · rename_i hq; exact h.takeHandBack _ _ _ hq hd
    · exact hd
  | admissionWait b => exact h.examineTenure _ _ hd
  | onEvent =>
    show P d.nextOn
    unfold Device.nextOn
    split
    · exact h.takeOn _ _ (h.handed _ _ rfl rfl hd)
    · exact hd
  | offEvent =>
    show P d.nextOff
    unfold Device.nextOff
    split
    · exact h.takeOff _ _ (h.handed _ _ rfl rfl hd)
    · exact hd
  | graceExpiry n =>
    show P (d.graceDue n)
    unfold Device.graceDue
    split
    · exact hd
    · split
      · exact h.endGrace _ _ (h.advance _ _ hd)
      · exact hd
  | heartbeatTimeout n =>
    show P (d.heartbeatTimerDue n)
    unfold Device.heartbeatTimerDue
    split
    · exact hd
    · split
      · exact h.setH _ _ _ (h.advance _ _ hd)
      · exact hd
  | confirmExpiry n =>
    show P (d.confirmDue n)
    unfold Device.confirmDue
    split
    · exact hd
    · split
      · exact h.confirmed _ _ (h.advance _ _ hd)
      · exact hd
  | verdictCycle =>
    show P d.nextVerdictCycle
    unfold Device.nextVerdictCycle
    split
    · exact hd
    · exact h.takeVerdictCycle _ _ (h.handed _ _ rfl rfl hd)
  | verdictCycleAnswer =>
    show P d.nextAnswer
    unfold Device.nextAnswer
    split
    · exact h.takeAnswer _ _ _ _ (h.handed _ _ rfl rfl hd)
    · exact hd
  | recentCycleAgeing n => exact h.ageList _ _ hd
  | uptimeIncrease => exact h.nextSecond _ hd
  | reportWrite => exact h.writeReport _ hd

end Sys2Proof.Machine
end

