-- ==== Sys2Proof/Laws/Publishing.lean ====
section
/-! SUPPORT. What publications make of the Publication Unit, in the words of Safety.lean: one, and several with the words that
their groups show in the end; and the trail of publications that a change leaves. -/

namespace Sys2Proof.Machine
open Sys2Proof

/-! ## Publications (R16, R20, R21) -/

/-- An entry stands for one group. -/
theorem Entry.isGroup_eq (g : Group) (e : Entry) : e.isGroup g = decide (e.group? = some g) := by
  cases e <;> simp [Entry.isGroup, Entry.group?]
/-- A group's waiting entry takes new values in place. -/
theorem Entry.replaced_eq (g : Group) (words : List Word) (e : Entry) :
    e.replaced g words = if e.group? = some g then .group g words else e := by
  cases e <;> simp [Entry.replaced, Entry.group?]
/-- A publication enters the queue (R16). -/
theorem Device.enqueueGroup_eq (d : Device) (g : Group) (words : List Word) :
    d.enqueueGroup g words = { d with pub := d.pub.entered g words } := by
  have hq : (Entry.isGroup g) = fun e => decide (e.group? = some g) := funext fun e => Entry.isGroup_eq g e
  have hr : (Entry.replaced g words) = fun e => if e.group? = some g then .group g words else e :=
    funext fun e => Entry.replaced_eq g words e
  have hd : ((d.pub.queue.head?.map fun e => decide (e.group? = some g)).getD false = true) ↔
      d.pub.queue.head?.bind Entry.group? = some g := by cases d.pub.queue.head? <;> simp
  have hn : (d.pub.queue.any fun e => decide (e.group? = some g)) = false →
      ¬d.pub.queue.head?.bind Entry.group? = some g := by
    cases d.pub.queue <;> simp +contextual
  unfold Device.enqueueGroup Publication.entered Device.recordPeriod
  rw [hq, hr]
  dsimp only
  cases h : d.pub.queue.any fun e => decide (e.group? = some g)
  · simp only [hn h, Bool.false_eq_true, ↓reduceIte]
    cases g <;> rfl
  · simp only [hd, ↓reduceIte]
    cases g <;> rfl
/-- A publication of a group (R16, R20, R21). -/
theorem Device.publish_eq (d : Device) (g : Group) (words : List Word) :
    d.publish g words = { d with pub := d.pub.takes g words } := by
  have ht : d.publishThroughBracket g words = { d with pub :=
      match d.pub.bracket with
      | some b =>
        if g.isMeter ∧ b.group = g then { d.pub with bracket := some { b with held := some words } }
        else d.pub.entered g words
      | none => d.pub.entered g words } := by
    unfold Device.publishThroughBracket
    split
    · split <;> simp_all [Device.setBracket, Device.enqueueGroup_eq]
    · simp_all [Device.enqueueGroup_eq]
  unfold Device.publish Publication.takes
  cases g with
  | meter n =>
    dsimp only
    rw [ht]
    cases d.pub.heldBack[n] <;> rfl
  | charter => exact ht
  | level l => exact ht
  | status n => exact ht
/-- A close counts for the bracket (R20). -/
theorem Device.countClose_eq (d : Device) (r : Group → Bool) (gs : List Group) (h : ∀ g, r g = true ↔ g ∈ gs) :
    d.countClose r = { d with pub := d.pub.closeCounted gs } := by
  unfold Device.countClose Publication.closeCounted Device.closeBracket
  cases hb : d.pub.bracket with
  | none => rfl
  | some b =>
    dsimp only
    by_cases h0 : b.closes = 0
    · simp [h0, Device.setBracket]
    · by_cases hr : r b.group = true
      · simp [h0, hr, (h _).mp hr, Device.setBracket]
      · have := mt (h b.group).mpr hr
        cases hh : b.held <;> simp [h0, hr, this, Device.setBracket, Device.enqueueGroup_eq]

/-! ## Where a group's new words go (R16, R20, R21) -/

/-- The places a new publication goes to. -/
inductive Way where
  | heldBack | bracket | queue
  deriving DecidableEq

/-- A group's place: its update held back, the bracket open on it, or the queue. -/
def Publication.way (p : Publication) (g : Group) : Way :=
  match g with
  | .meter n =>
    if p.heldBack[n] ≠ none then .heldBack
    else if p.bracket.map Bracket.group = some g then .bracket
    else .queue
  | .level l => if p.bracket.map Bracket.group = some (.level l) then .bracket else .queue
  | .charter | .status _ => .queue

/-- The update of an outlet's Meter group held back, given new words. -/
def Publication.holdingBack (p : Publication) (g : Group) (w : List Word) : Publication :=
  match g with
  | .meter n => { p with heldBack := setAt p.heldBack n (some w) }
  | .charter | .level _ | .status _ => p

/-- The open bracket's held update, given new words. -/
def Publication.bracketing (p : Publication) (w : List Word) : Publication :=
  { p with bracket := p.bracket.map fun b => { b with held := some w } }

/-- The last-published period of an outlet's Meter group that has entered the queue (R16). -/
def periodAfter (periods : Vector Digits 48) (g : Group) (w : List Word) : Vector Digits 48 :=
  match g with
  | .meter n => setAt periods n (unpackDigits 6 (wordsValue ((w.drop 11).take 2)))
  | .charter | .level _ | .status _ => periods

/-- The waiting entries of a group, given new words. -/
def reword (g : Group) (w : List Word) (q : List Entry) : List Entry :=
  q.map fun e => if e.group? = some g then .group g w else e

/-- A group's words given where its publication stands. -/
def Publication.rewritten (p : Publication) (g : Group) (w : List Word) : Publication :=
  match p.way g with
  | .heldBack => p.holdingBack g w
  | .bracket => p.bracketing w
  | .queue => { p with queue := reword g w p.queue, lastPeriod := periodAfter p.lastPeriod g w }

theorem Publication.takes_way (p : Publication) (g : Group) (w : List Word) :
    p.takes g w =
      match p.way g with
      | .heldBack => p.holdingBack g w
      | .bracket => p.bracketing w
      | .queue => p.entered g w := by
  unfold Publication.takes Publication.way Publication.holdingBack Publication.bracketing
  cases g with
  | meter n =>
    dsimp only
    by_cases hh : p.heldBack[n] = none
    · rw [if_pos hh, if_neg (not_not.2 hh)]
      cases hb : p.bracket with
      | none => rfl
      | some b => by_cases hg : b.group = .meter n <;> simp [hg, Group.isMeter]
    · rw [if_neg hh, if_pos hh]
  | level l =>
    cases hb : p.bracket with
    | none => rfl
    | some b => by_cases hg : b.group = .level l <;> simp [hg, Group.isMeter]
  | charter | status n =>
    cases hb : p.bracket with
    | none => rfl
    | some b => exact if_neg fun h => absurd h.1 (by simp [Group.isMeter])

theorem Publication.entered_eq (p : Publication) (g : Group) (w : List Word) :
    p.entered g w = { p with
      queue := if p.queue.any (fun e => decide (e.group? = some g)) then reword g w p.queue else p.queue ++ [.group g w]
      drained := if p.queue.head?.bind Entry.group? = some g then 0 else p.drained
      lastPeriod := periodAfter p.lastPeriod g w } := rfl

/-- A place depends on the bracket's group and on which updates are held back. -/
theorem Publication.way_congr {p q : Publication} (hb : q.bracket.map Bracket.group = p.bracket.map Bracket.group)
    (hh : ∀ n : Outlet, q.heldBack[n] = none ↔ p.heldBack[n] = none) (g : Group) : q.way g = p.way g := by
  unfold Publication.way
  cases g with
  | meter n => simp only [hb, ne_eq, hh]
  | level l => simp only [hb]
  | charter | status n => rfl

theorem Publication.holdingBack_none (p : Publication) (g : Group) (w : List Word) (hw : p.way g = .heldBack)
    (n : Outlet) : (p.holdingBack g w).heldBack[n] = none ↔ p.heldBack[n] = none := by
  unfold Publication.holdingBack
  cases g with
  | meter m =>
    have hm : p.heldBack[m] ≠ none := by
      unfold Publication.way at hw
      dsimp only at hw
      intro h
      rw [if_neg (not_not.2 h)] at hw
      split at hw <;> exact absurd hw (by decide)
    dsimp only
    rw [getElem_setAt]
    split
    · rename_i h
      subst h
      exact ⟨fun h => absurd h (by simp), fun h => absurd h hm⟩
    · rfl
  | charter | level l | status m => rfl

theorem Publication.bracketing_group (p : Publication) (w : List Word) :
    (p.bracketing w).bracket.map Bracket.group = p.bracket.map Bracket.group := by
  unfold Publication.bracketing
  cases p.bracket <;> rfl

/-- No publication moves a place. -/
theorem Publication.way_takes (p : Publication) (h : Group) (w : List Word) (g : Group) :
    (p.takes h w).way g = p.way g := by
  rw [Publication.takes_way]
  cases hw : p.way h <;> dsimp only
  · exact Publication.way_congr (by cases h <;> rfl) (Publication.holdingBack_none p h w hw) g
  · exact Publication.way_congr (p.bracketing_group w) (fun _ => Iff.rfl) g
  · exact Publication.way_congr rfl (fun _ => Iff.rfl) g

theorem Publication.way_rewritten (p : Publication) (h : Group) (w : List Word) (g : Group) :
    (p.rewritten h w).way g = p.way g := by
  unfold Publication.rewritten
  cases hw : p.way h <;> dsimp only
  · exact Publication.way_congr (by cases h <;> rfl) (Publication.holdingBack_none p h w hw) g
  · exact Publication.way_congr (p.bracketing_group w) (fun _ => Iff.rfl) g
  · exact Publication.way_congr rfl (fun _ => Iff.rfl) g

theorem Publication.way_bracket {p : Publication} {g : Group} (h : p.way g = .bracket) :
    p.bracket.map Bracket.group = some g := by
  unfold Publication.way at h
  cases g with
  | meter n =>
    dsimp only at h
    split at h
    · exact absurd h (by decide)
    · split at h
      · assumption
      · exact absurd h (by decide)
  | level l =>
    dsimp only at h
    split at h
    · assumption
    · exact absurd h (by decide)
  | charter | status n => exact absurd h (by simp)

/-! ## Words that are overwritten -/

theorem Entry.group?_group (g : Group) (w : List Word) : (Entry.group g w).group? = some g := rfl

theorem reword_reword (g : Group) (w v : List Word) (q : List Entry) : reword g v (reword g w q) = reword g v q := by
  unfold reword
  rw [List.map_map]
  refine List.map_congr_left fun e _ => ?_
  by_cases h : e.group? = some g <;> simp [h, Entry.group?_group]

theorem reword_comm {g h : Group} (hne : g ≠ h) (w v : List Word) (q : List Entry) :
    reword g w (reword h v q) = reword h v (reword g w q) := by
  unfold reword
  rw [List.map_map, List.map_map]
  refine List.map_congr_left fun e _ => ?_
  by_cases h1 : e.group? = some g <;> by_cases h2 : e.group? = some h <;> simp_all [Entry.group?_group]

theorem reword_group? (g : Group) (w : List Word) (q : List Entry) :
    (reword g w q).map Entry.group? = q.map Entry.group? := by
  unfold reword
  rw [List.map_map]
  refine List.map_congr_left fun e _ => ?_
  by_cases h : e.group? = some g <;> simp [h, Entry.group?_group]

theorem reword_any (g h : Group) (w : List Word) (q : List Entry) :
    (reword g w q).any (fun e => decide (e.group? = some h)) = q.any fun e => decide (e.group? = some h) := by
  have key : ∀ l : List Entry, (l.any fun e => decide (e.group? = some h)) =
      (l.map Entry.group?).any fun o => decide (o = some h) := fun l => by rw [List.any_map]; rfl
  rw [key, key, reword_group?]

theorem reword_head (g : Group) (w : List Word) (q : List Entry) :
    (reword g w q).head?.bind Entry.group? = q.head?.bind Entry.group? := by
  have key : ∀ l : List Entry, l.head?.bind Entry.group? = (l.map Entry.group?).head?.join := fun l => by cases l <;> rfl
  rw [key, key, reword_group?]

theorem reword_of_not_any {g : Group} {q : List Entry} (h : (q.any fun e => decide (e.group? = some g)) = false)
    (w : List Word) : reword g w q = q := by
  unfold reword
  conv => rhs; rw [← List.map_id q]
  refine List.map_congr_left fun e he => ?_
  have := List.any_eq_false.1 h e he
  simp_all

/-- Two entries of a table are set in either order. -/
theorem setAt_comm {α : Type} {k : Nat} (v : Vector α k) {i j : Fin k} (h : i ≠ j) (x y : α) :
    setAt (setAt v j y) i x = setAt (setAt v i x) j y := by
  unfold setAt
  exact Vector.set_comm _ _ fun hv => h (Fin.ext hv.symm)

/-- One entry of a table is set twice. -/
theorem setAt_setAt {α : Type} {k : Nat} (v : Vector α k) (i : Fin k) (x y : α) :
    setAt (setAt v i x) i y = setAt v i y := by
  simp [setAt]

theorem periodAfter_periodAfter (ps : Vector Digits 48) (g : Group) (w v : List Word) :
    periodAfter (periodAfter ps g w) g v = periodAfter ps g v := by
  cases g <;> simp [periodAfter, setAt_setAt]

theorem periodAfter_comm (ps : Vector Digits 48) {g h : Group} (hne : g ≠ h) (w v : List Word) :
    periodAfter (periodAfter ps h v) g w = periodAfter (periodAfter ps g w) h v := by
  cases g <;> cases h <;> try rfl
  rename_i n m
  have : n ≠ m := fun h => hne (by rw [h])
  exact setAt_comm ps this _ _

theorem Publication.holdingBack_twice (p : Publication) (g : Group) (w v : List Word) :
    (p.holdingBack g w).holdingBack g v = p.holdingBack g v := by
  cases g <;> simp [Publication.holdingBack, setAt_setAt]

theorem Publication.holdingBack_comm (p : Publication) {g h : Group} (hne : g ≠ h) (w v : List Word) :
    (p.holdingBack h v).holdingBack g w = (p.holdingBack g w).holdingBack h v := by
  cases g <;> cases h <;> try rfl
  rename_i n m
  have : n ≠ m := fun h => hne (by rw [h])
  simp [Publication.holdingBack, setAt_comm _ this]

theorem Publication.bracketing_twice (p : Publication) (w v : List Word) :
    (p.bracketing w).bracketing v = p.bracketing v := by
  simp [Publication.bracketing, Option.map_map, Function.comp_def]

theorem Publication.bracketing_holdingBack (p : Publication) (g : Group) (w v : List Word) :
    (p.holdingBack g w).bracketing v = (p.bracketing v).holdingBack g w := by
  cases g <;> rfl

theorem Publication.entered_holdingBack (p : Publication) (g h : Group) (w v : List Word) :
    (p.holdingBack g w).entered h v = (p.entered h v).holdingBack g w := by
  cases g <;> rfl

theorem Publication.entered_bracketing (p : Publication) (h : Group) (w v : List Word) :
    (p.bracketing w).entered h v = (p.entered h v).bracketing w := rfl

/-- A group's publication is one with any words, and these words in its place. -/
theorem Publication.takes_rewritten (p : Publication) (g : Group) (w v : List Word) :
    (p.takes g w).rewritten g v = p.takes g v := by
  have hw := p.way_takes g w g
  unfold Publication.rewritten
  rw [hw, p.takes_way g w, p.takes_way g v]
  cases p.way g <;> dsimp only
  · exact p.holdingBack_twice g w v
  · exact p.bracketing_twice w v
  · rw [Publication.entered_eq, Publication.entered_eq]
    dsimp only
    rw [periodAfter_periodAfter]
    congr 1
    split
    · exact reword_reword g w v _
    · rename_i h
      have := reword_of_not_any (g := g) (q := p.queue) (by simpa using h) v
      unfold reword at this ⊢
      rw [List.map_append, this]
      simp [Entry.group?_group]

/-- Words given in a group's place are overwritten by the group's next publication. -/
theorem Publication.rewritten_takes (p : Publication) (g : Group) (w v : List Word) :
    (p.rewritten g w).takes g v = p.takes g v := by
  rw [Publication.takes_way, Publication.way_rewritten, p.takes_way g v]
  unfold Publication.rewritten
  cases p.way g <;> dsimp only
  · exact p.holdingBack_twice g w v
  · exact p.bracketing_twice w v
  · rw [Publication.entered_eq, Publication.entered_eq]
    dsimp only
    rw [periodAfter_periodAfter, reword_any, reword_head, reword_reword]
    congr 1
    split
    · rfl
    · rename_i h
      rw [reword_of_not_any (by simpa using h)]

/-- Words given in a group's place and a publication of another group come in either order. -/
theorem Publication.takes_rewritten_comm (p : Publication) {g h : Group} (hne : g ≠ h) (w v : List Word) :
    (p.takes h v).rewritten g w = (p.rewritten g w).takes h v := by
  have h1 := p.way_takes h v g
  have h2 := p.way_rewritten g w h
  rw [Publication.takes_way (p.rewritten g w), h2]
  unfold Publication.rewritten
  rw [h1, p.takes_way h v]
  cases hg : p.way g <;> cases hh : p.way h <;> dsimp only
  · exact p.holdingBack_comm hne w v
  · exact (p.bracketing_holdingBack g w v).symm
  · exact (p.entered_holdingBack g h w v).symm
  · exact p.bracketing_holdingBack h v w
  · exact absurd (Option.some.inj ((Publication.way_bracket hg).symm.trans (Publication.way_bracket hh))) hne
  · rfl
  · cases h <;> rfl
  · rfl
  · rw [Publication.entered_eq, Publication.entered_eq]
    dsimp only
    rw [periodAfter_comm _ hne, reword_any, reword_head]
    congr 1
    split
    · exact reword_comm hne w v _
    · unfold reword
      rw [List.map_append]
      simp [Entry.group?_group, Ne.symm hne]

/-! ## Several publications (R16) -/

theorem Publication.takesAll_append (p : Publication) (words : Group → List Word) (gs hs : List Group) :
    p.takesAll words (gs ++ hs) = (p.takesAll words gs).takesAll words hs := List.foldl_append

/-- Words that a later publication of the group overwrites are of no account. -/
theorem Publication.rewritten_takesAll (words : Group → List Word) {g : Group} (w : List Word) {gs : List Group}
    (hg : g ∈ gs) (p : Publication) : (p.rewritten g w).takesAll words gs = p.takesAll words gs := by
  induction gs generalizing p with
  | nil => exact absurd hg (by simp)
  | cons h gs ih =>
    show ((p.rewritten g w).takes h (words h)).takesAll words gs = (p.takes h (words h)).takesAll words gs
    by_cases hh : g = h
    · subst hh
      rw [Publication.rewritten_takes]
    · rw [← Publication.takes_rewritten_comm p hh, ih ((List.mem_cons.1 hg).resolve_left hh)]

/-- Publications with the words of their moment, and then some more, are publications with the words of the end: for the
groups published again, whatever the words were. -/
theorem Publication.takesAll_again (first last : Group → List Word) {gs hs : List Group}
    (h : ∀ g ∈ gs, g ∉ hs → first g = last g) (p : Publication) :
    (p.takesAll first gs).takesAll last hs = p.takesAll last (gs ++ hs) := by
  induction gs generalizing p with
  | nil => rfl
  | cons g gs ih =>
    show ((p.takes g (first g)).takesAll first gs).takesAll last hs = (p.takes g (last g)).takesAll last (gs ++ hs)
    rw [ih (fun x hx => h x (List.mem_cons_of_mem _ hx))]
    by_cases hg : g ∈ gs ++ hs
    · rw [← Publication.takes_rewritten p g (first g) (last g), Publication.rewritten_takesAll _ _ hg]
    · rw [h g (by simp) fun hm => hg (by simp [hm])]

/-! ## The trail of publications that a change leaves -/

theorem Device.enforcing_charter {d e : Device} (h : e.charter = d.charter) : e.enforcing = d.enforcing := by
  unfold Device.enforcing
  rw [h]

theorem Device.inService_charter {d e : Device} (h : e.charter = d.charter) : e.inService = d.inService := by
  unfold Device.inService
  rw [h]

/-- A change has published these groups in this order, with the words they show in the end, and every group it moves is among
them. -/
structure Device.Trail (d d' : Device) (gs : List Group) : Prop where
  pub : d'.pub = d.pub.takesAll d'.groupWords gs
  moves : ∀ g, d.Moves d' g → g ∈ gs

/-- A trail of groups that were moved, or are published at all events, is what `Publishes` says. -/
theorem Device.Trail.publishes {d d' : Device} {gs anyhow : List Group} (h : d.Trail d' gs)
    (hg : ∀ g ∈ gs, d.Moves d' g ∨ g ∈ anyhow) (ha : ∀ g ∈ anyhow, g ∈ gs) : d.Publishes d' anyhow :=
  ⟨gs, fun g => ⟨hg g, fun k => k.elim (h.moves g) (ha g)⟩, h.pub⟩

/-- What shows the same words in the same charter state, with the same Sequences, has moved nothing. -/
theorem Device.Moves.of_same {d e f : Device} {g : Group} (h : d.Moves f g) (hw : e.groupWords g = d.groupWords g)
    (hl : ∀ l : Level, (e.engine.levels.get l).sequence = (d.engine.levels.get l).sequence)
    (hm : ∀ n : Outlet, (e.engine.outlets[n]).sequence = (d.engine.outlets[n]).sequence) : e.Moves f g := by
  unfold Device.Moves at *
  cases g with
  | charter | status n => exact ⟨h.1, by rw [hw]; exact h.2⟩
  | level l => dsimp only at h ⊢; rw [hl]; exact h
  | meter n => dsimp only at h ⊢; rw [hm]; exact h

/-- A trail from a block that shows the same as this one is a trail from this one. -/
theorem Device.Trail.from {d e f : Device} {gs : List Group} (h : e.Trail f gs) (hp : e.pub = d.pub)
    (hw : ∀ g, e.groupWords g = d.groupWords g)
    (hl : ∀ l : Level, (e.engine.levels.get l).sequence = (d.engine.levels.get l).sequence)
    (hm : ∀ n : Outlet, (e.engine.outlets[n]).sequence = (d.engine.outlets[n]).sequence) : d.Trail f gs :=
  ⟨by rw [← hp]; exact h.pub, fun g hg => h.moves g (hg.of_same (hw g) hl hm)⟩

/-- A change that moves nothing and publishes nothing leaves no trail. -/
theorem Device.Trail.quiet {d e : Device} (hp : e.pub = d.pub) (hm : ∀ g, ¬d.Moves e g) : d.Trail e [] :=
  ⟨hp, fun g h => absurd h (hm g)⟩

theorem Device.Trail.refl (d : Device) : d.Trail d [] := by
  refine .quiet rfl fun g h => ?_
  cases g <;> first | exact h.2 rfl | exact h rfl

/-- Two trails, one after the other, where what the second changes of a group already published it publishes again. -/
theorem Device.Trail.trans {d e f : Device} {gs hs : List Group} (h : d.Trail e gs) (k : e.Trail f hs)
    (hw : ∀ g ∈ gs, g ∉ hs → e.groupWords g = f.groupWords g) (he : f.enforcing = true → e.enforcing = true)
    (hi : f.inService = true → e.inService = true) : d.Trail f (gs ++ hs) where
  pub := by rw [k.pub, h.pub]; exact Publication.takesAll_again _ _ hw _
  moves g hg := by
    by_contra hn
    have h1 : g ∉ gs := fun hm => hn (List.mem_append.2 (.inl hm))
    have h2 : g ∉ hs := fun hm => hn (List.mem_append.2 (.inr hm))
    have n1 := mt (h.moves g) h1
    have n2 := mt (k.moves g) h2
    unfold Device.Moves at hg n1 n2
    cases g with
    | charter =>
      have a := not_not.1 fun hne => n1 ⟨he hg.1, hne⟩
      have b := not_not.1 fun hne => n2 ⟨hg.1, hne⟩
      exact hg.2 (b.trans a)
    | status n =>
      have a := not_not.1 fun hne => n1 ⟨hi hg.1, hne⟩
      have b := not_not.1 fun hne => n2 ⟨hg.1, hne⟩
      exact hg.2 (b.trans a)
    | level l => exact hg ((not_not.1 n2).trans (not_not.1 n1))
    | meter n => exact hg ((not_not.1 n2).trans (not_not.1 n1))

/-- A trail goes on over a change that publishes nothing, moves no group and changes no word of a group of the trail. -/
theorem Device.Trail.still {d e f : Device} {gs : List Group} (h : d.Trail e gs) (hp : f.pub = e.pub)
    (hm : ∀ g, ¬e.Moves f g) (hw : ∀ g ∈ gs, e.groupWords g = f.groupWords g) (he : f.enforcing = true → e.enforcing = true)
    (hi : f.inService = true → e.inService = true) : d.Trail f gs := by
  simpa using h.trans (.quiet hp hm) (fun g hg _ => hw g hg) he hi

/-- The words of the groups do not depend on what has been published. -/
theorem Device.OnlyPub.groupWords {d e : Device} (h : d.OnlyPub e) : e.groupWords = d.groupWords := by
  rw [h]
  rfl

/-- A change of one group, and its publication. -/
theorem Device.Trail.published {d e : Device} (hp : e.pub = d.pub) (g : Group) (hm : ∀ x, d.Moves e x → x = g) :
    d.Trail (e.publish g (e.groupWords g)) [g] := by
  have ho := Device.publish_onlyPub e g (e.groupWords g)
  refine ⟨?_, fun x hx => ?_⟩
  · show _ = d.pub.takes g _
    rw [ho.groupWords, Device.publish_eq, ← hp]
  · rw [ho] at hx
    exact List.mem_singleton.2 (hm x hx)

/-- The charter group after a change of charter fields (R36). -/
theorem Device.changeCharter_trail (d : Device) (f : Device → Device) (hp : (f d).pub = d.pub)
    (hm : ∀ x, d.Moves (f d) x → x = .charter) :
    d.Trail (d.changeCharter f)
      (if (f d).enforcing = true ∧ (f d).charterWords ≠ d.charterWords then [.charter] else []) := by
  unfold Device.changeCharter
  by_cases hw : (f d).charterWords = d.charterWords
  · rw [if_pos hw, if_neg fun h => h.2 hw]
    exact .quiet hp fun g hg => by
      have := hm g hg
      subst this
      exact hg.2 hw
  · rw [if_neg hw]
    unfold Device.publishCharter
    by_cases he : (f d).enforcing = true
    · rw [if_pos he, if_pos ⟨he, hw⟩]
      exact .published hp .charter hm
    · rw [if_neg he, if_neg fun h => he h.1]
      exact .quiet hp fun g hg => by
        have := hm g hg
        subst this
        exact he hg.1

/-- A Status group published in service (R108). -/
theorem Device.publishStatus_trail {d e : Device} (hp : e.pub = d.pub) (n : Outlet)
    (hm : ∀ x, d.Moves e x → x = .status n) :
    d.Trail (e.publishStatus n) (if e.inService then [.status n] else []) := by
  unfold Device.publishStatus
  by_cases hi : e.inService = true
  · rw [if_pos hi, if_pos hi]
    exact .published hp (.status n) hm
  · rw [if_neg hi, if_neg hi]
    exact .quiet hp fun g hg => by
      have := hm g hg
      subst this
      exact hi hg.1

/-- A change of one outlet's context moves its Status group at most. -/
theorem Device.setOutlet_moves (d : Device) (n : Outlet) (f : OutletContext → OutletContext) {x : Group}
    (h : d.Moves (d.setOutlet n f) x) : x = .status n := by
  cases x with
  | charter => exact absurd rfl h.2
  | level l => exact absurd rfl h
  | meter m => exact absurd rfl h
  | status m =>
    by_contra hne
    have hm : n ≠ m := fun h => hne (by rw [h])
    refine h.2 ?_
    show (d.setOutlet n f).statusWords m = d.statusWords m
    unfold Device.statusWords
    simp [Device.setOutlet, hm]

/-- A change of one watch moves its outlet's Status group at most. -/
theorem Device.setWatch_moves (d : Device) (n : Outlet) (f : WatchContext → WatchContext) {x : Group}
    (h : d.Moves (d.setWatch n f) x) : x = .status n := by
  cases x with
  | charter => exact absurd rfl h.2
  | level l => exact absurd rfl h
  | meter m => exact absurd rfl h
  | status m =>
    by_contra hne
    have hm : n ≠ m := fun h => hne (by rw [h])
    refine h.2 ?_
    show (d.setWatch n f).statusWords m = d.statusWords m
    unfold Device.statusWords
    simp [Device.setWatch, hm]

/-- A change of an outlet's context, with its publication (R108). -/
theorem Device.modOutlet_trail (d : Device) (n : Outlet) (f : OutletContext → OutletContext) :
    d.Trail (d.modOutlet n f)
      (if (d.setOutlet n f).statusWords n = d.statusWords n then [] else if d.inService then [.status n] else []) := by
  unfold Device.modOutlet
  by_cases hw : (d.setOutlet n f).statusWords n = d.statusWords n
  · rw [if_pos hw, if_pos hw]
    exact .quiet rfl fun g hg => by
      have := Device.setOutlet_moves d n f hg
      subst this
      exact hg.2 hw
  · rw [if_neg hw, if_neg hw]
    exact Device.publishStatus_trail (d := d) (e := d.setOutlet n f) rfl n fun x => Device.setOutlet_moves d n f

/-- A change of a watch, with its publication (R108). -/
theorem Device.modWatch_trail (d : Device) (n : Outlet) (f : WatchContext → WatchContext) :
    d.Trail (d.modWatch n f)
      (if (d.setWatch n f).statusWords n = d.statusWords n then [] else if d.inService then [.status n] else []) := by
  unfold Device.modWatch
  by_cases hw : (d.setWatch n f).statusWords n = d.statusWords n
  · rw [if_pos hw, if_pos hw]
    exact .quiet rfl fun g hg => by
      have := Device.setWatch_moves d n f hg
      subst this
      exact hg.2 hw
  · rw [if_neg hw, if_neg hw]
    exact Device.publishStatus_trail (d := d) (e := d.setWatch n f) rfl n fun x => Device.setWatch_moves d n f

/-- A new publication of a branch group between closes (R173). -/
theorem Device.publishBranch_trail (d : Device) (b : Branch) :
    d.Trail (d.publishBranch b) (if d.inService then [.level (.branch b)] else []) := by
  unfold Device.publishBranch
  by_cases hi : d.inService = true
  · rw [if_pos hi, if_pos hi]
    unfold Device.publishLevel
    refine Device.Trail.published (d := d)
      (e := d.setLevelMeter (.branch b) fun m => { m with sequence := m.sequence + 1 }) rfl (.level (.branch b))
      fun x hx => ?_
    cases x with
    | level l =>
      by_contra hne
      have hl : ¬Level.branch b = l := fun h => hne (by rw [h])
      exact hx (by simp [Device.setLevelMeter, PerLevel.get_set, hl])
    | meter n => exact absurd rfl hx
    | status n => exact absurd rfl hx.2
    | charter =>
      have hr : ∀ l : Level, ((d.setLevelMeter (.branch b) fun m => { m with sequence := m.sequence + 1 }).engine.levels.get
          l).rollover = (d.engine.levels.get l).rollover := fun l => by
        show ((d.engine.levels.set (.branch b) _).get l).rollover = _
        rw [PerLevel.get_set]
        split
        · rename_i h
          rw [h]
        · rfl
      refine absurd ?_ hx.2
      show Device.charterWords _ = d.charterWords
      unfold Device.charterWords
      dsimp only
      rw [hr, hr, hr, hr, hr, hr, hr, hr, hr]
      rfl
  · rw [if_neg hi, if_neg hi]
    exact .refl d

end Sys2Proof.Machine
end

