-- ==== Sys2Proof/Laws/Accesses.lean ====
section
/-! SUPPORT. What a processor access comes down to once the arbiter, the ownership map and the locks have passed it: an
accepted write is its word stored and its recognition; a request reaches the Outlet Controller with the block so left. -/

namespace Sys2Proof.Machine
open Sys2Proof

variable {d : Device} {a : WriteAccess} {off : Nat} {n : Outlet} {tag code : Byte}

/-- A word of an outlet's record lies in that record. -/
theorem place_outletWord (n : Outlet) (w : Nat) (hw : w < 64) : place (outletWord n w) = .outlet n w := by
  have hn := n.isLt
  unfold place outletWord
  rw [if_neg (by omega), if_neg (by omega), if_neg (by omega), if_neg (by omega), if_neg (by omega),
    if_pos (by omega)]
  congr 1
  · apply Fin.ext
    simp only [Fin.ofNat]
    omega
  · omega

/-- The place of word w of a level's record. -/
theorem place_level (l : Level) (w : Nat) (hw : w < 16) : place (levelBase l + w) = .level l w := by
  obtain ⟨x, hx⟩ : ∃ x, x = levelBase l + w := ⟨_, rfl⟩
  rw [← hx]
  unfold place
  cases l with
  | phase p =>
    have := p.isLt
    have hx' : x = 64 + 16 * p.val + w := hx
    rw [if_neg (by omega), if_pos (by omega)]
    congr 1
    · congr 1; apply Fin.ext; simp [Fin.ofNat]; omega
    · omega
  | branch b =>
    have := b.isLt
    have hx' : x = 112 + 16 * b.val + w := hx
    rw [if_neg (by omega), if_neg (by omega), if_pos (by omega)]
    congr 1
    · congr 1; apply Fin.ext; simp [Fin.ofNat]; omega
    · omega
  | inlet =>
    have hx' : x = 208 + w := hx
    rw [if_neg (by omega), if_neg (by omega), if_neg (by omega), if_pos (by omega)]
    congr 1
    omega

theorem place_charter (w : Nat) (hw : w < 64) : place w = .charter w := by
  unfold place
  rw [if_pos (by omega)]

theorem Device.enforcing_of_inService (h : d.inService = true) : d.enforcing = true := by
  unfold Device.inService at h
  unfold Device.enforcing
  cases hs : d.charter.state <;> simp_all

theorem Device.not_sweeping_of_inService (h : d.inService = true) : d.charter.state ≠ .sweeping := by
  unfold Device.inService at h
  intro hs
  simp [hs] at h

theorem Device.inService_of_running (h : d.running = true) : d.inService = true := by
  unfold Device.running at h
  unfold Device.inService
  simp only [decide_eq_true_eq] at h
  rw [h]

theorem Device.state_of_running (h : d.running = true) : d.charter.state = .running := by
  simpa [Device.running] using h

theorem Device.swept_of_inService (h : d.inService = true) (off : Nat) : d.swept off = true := by
  unfold Device.swept
  have := Device.not_sweeping_of_inService h
  split <;> simp [this]

theorem Device.BusFree.start_write (h : d.BusFree) (a : WriteAccess) :
    d.presentAccess (.write a) = d.performWrite a := by
  unfold Device.presentAccess Device.canStart
  simp [h.free, h.room, Device.performAccess]

/-- An accepted write is its word stored and its recognition (R4, R9). -/
theorem Device.Accepts.present (h : d.Accepts a off) :
    d.presentAccess (.write a) = (d.stored off a).recogniseInService (place off) (d.shadow off) (d.merged off a) := by
  rw [h.toBusFree.start_write]
  have hs := Device.not_sweeping_of_inService h.service
  unfold Device.performWrite
  simp only [h.offset, Device.enforcing_of_inService h.service, if_true]
  unfold Device.enforcedWrite
  simp only [h.owned]
  rw [if_neg (by rcases h.allowed with hp | hp <;> simp [hp])]
  have hm : d.ownedMerged off a = d.merged off a := by
    unfold Device.ownedMerged Device.merged
    rw [if_pos (Device.swept_of_inService h.service off)]
  unfold Device.acceptWrite
  rw [hm]
  have hst : d.storeOwned (place off) off a (d.merged off a) = d.stored off a := by
    unfold Device.storeOwned Device.noteLock
    rw [if_neg (by simp [hs])]
    rfl
  rw [hst]
  have hserv := h.service
  unfold Device.inService at hserv
  unfold Device.recognise
  have he : (d.stored off a).charter = d.charter := rfl
  rw [he]
  cases hc : d.charter.state <;> simp_all

/-- The block as a recognised request finds it: the word stored, the tag taken (R11). -/
def Device.requested (d : Device) (a : WriteAccess) (n : Outlet) (tag : Byte) : Device :=
  (d.stored (outletWord n requestWord) a).setLastTag n tag

/-- A recognised request reaches the Outlet Controller (R11). -/
theorem Device.Requests.present (h : d.Requests a n tag code) :
    d.presentAccess (.write a) =
      (d.requested a n tag).takeRequest n tag code ((d.stored (outletWord n requestWord) a).requestArgument n) := by
  rw [h.toAccepts.present, place_outletWord n requestWord (by decide)]
  unfold Device.recogniseInService Device.takeOutletWord
  simp only [requestWord, heartbeatWord]
  norm_num
  unfold Device.recogniseRequest
  have ht := h.tagIs
  have hc := h.codeIs
  simp only [requestWord] at ht hc
  rw [if_pos]
  · rw [ht, hc]
    rfl
  · rw [ht]
    unfold Device.newTag
    simp only [Bool.and_eq_true, decide_eq_true_eq]
    exact ⟨h.notZero, h.notLast⟩

/-! ## Publication -/

theorem Device.mem_enqueueGroup (d : Device) (g : Group) (ws : List Word) :
    Entry.group g ws ∈ (d.enqueueGroup g ws).pub.queue := by
  have hr : ∀ e : Device, (e.recordPeriod g ws).pub.queue = e.pub.queue := fun e => by cases g <;> rfl
  unfold Device.enqueueGroup
  dsimp only
  rw [hr]
  split
  · rename_i hq
    obtain ⟨e, he, hg⟩ := List.any_eq_true.1 hq
    refine List.mem_map.2 ⟨e, he, ?_⟩
    cases e with
    | group g' w =>
      simp only [Entry.isGroup, decide_eq_true_eq] at hg
      simp [Entry.replaced, hg]
    | report _ _ _ => simp [Entry.isGroup] at hg
  · exact List.mem_append.2 (Or.inr (List.mem_singleton.2 rfl))

theorem Device.statusWords_congr {d e : Device} (n : Outlet) (ho : e.outlet[n] = d.outlet[n])
    (hw : e.watch[n] = d.watch[n]) : e.statusWords n = d.statusWords n := by
  unfold Device.statusWords
  rw [ho, hw]

theorem Device.mem_publish_status (d : Device) (n : Outlet) (ws : List Word) :
    Entry.group (.status n) ws ∈ (d.publish (.status n) ws).pub.queue := by
  unfold Device.publish Device.publishThroughBracket
  dsimp only
  split
  · rw [if_neg (by simp [Group.isMeter])]
    exact Device.mem_enqueueGroup _ _ _
  · exact Device.mem_enqueueGroup _ _ _

theorem Device.mem_publish_charter (d : Device) (ws : List Word) :
    Entry.group .charter ws ∈ (d.publish .charter ws).pub.queue := by
  unfold Device.publish Device.publishThroughBracket
  dsimp only
  split
  · rw [if_neg (by simp [Group.isMeter])]
    exact Device.mem_enqueueGroup _ _ _
  · exact Device.mem_enqueueGroup _ _ _

/-- In service a Status publication shows the present words. -/
theorem Device.published_publishStatus (h : d.inService = true) (n : Outlet) :
    (d.publishStatus n).Published (.status n) := by
  have hw : (d.publishStatus n).statusWords n = d.statusWords n := Device.statusWords_congr n (by simp) (by simp)
  show Entry.group (.status n) ((d.publishStatus n).statusWords n) ∈ _
  rw [hw]
  unfold Device.publishStatus
  rw [if_pos h]
  exact Device.mem_publish_status d n _

/-- An answer shows in the Status group (R110). -/
theorem Device.published_answer (h : d.inService = true) (n : Outlet) (t : Byte) (r : EchoResult) :
    (d.answer n t r).Published (.status n) :=
  Device.published_publishStatus (d := d.setOutlet n fun o => { o with echoTag := t, echoResult := r }) h n

/-- A publication in the queue still shows the group when neither the queue nor the group's words have changed. -/
theorem Device.Published.congr {d e : Device} {g : Group} (h : d.Published g) (hq : e.pub.queue = d.pub.queue)
    (hw : e.groupWords g = d.groupWords g) : e.Published g := by
  unfold Device.Published at *
  rw [hq, hw]
  exact h

theorem Device.inService_congr_charter {d e : Device} (h : e.charter = d.charter) : e.inService = d.inService := by
  unfold Device.inService
  rw [h]

/-! ## Requests -/

@[simp] theorem Device.stored_ram (d : Device) (off : Nat) (a : WriteAccess) :
    (d.stored off a).ram = d.ram.writeWord a.addr.toNat (d.merged off a) := rfl

@[simp] theorem Device.stored_path (d : Device) (off : Nat) (a : WriteAccess) :
    (d.stored off a).path = { d.path with shadow := Store.write d.path.shadow off (d.merged off a) } := rfl

@[simp] theorem Device.stored_pins (d : Device) (off : Nat) (a : WriteAccess) : (d.stored off a).pins = d.pins := rfl
@[simp] theorem Device.stored_now (d : Device) (off : Nat) (a : WriteAccess) : (d.stored off a).now = d.now := rfl
@[simp] theorem Device.stored_pub (d : Device) (off : Nat) (a : WriteAccess) : (d.stored off a).pub = d.pub := rfl
@[simp] theorem Device.stored_charter (d : Device) (off : Nat) (a : WriteAccess) : (d.stored off a).charter = d.charter := rfl
@[simp] theorem Device.stored_sampler (d : Device) (off : Nat) (a : WriteAccess) : (d.stored off a).sampler = d.sampler := rfl
@[simp] theorem Device.stored_engine (d : Device) (off : Nat) (a : WriteAccess) : (d.stored off a).engine = d.engine := rfl
@[simp] theorem Device.stored_outlet (d : Device) (off : Nat) (a : WriteAccess) : (d.stored off a).outlet = d.outlet := rfl
@[simp] theorem Device.stored_applyEcho (d : Device) (off : Nat) (a : WriteAccess) : (d.stored off a).applyEcho = d.applyEcho := rfl
@[simp] theorem Device.stored_watch (d : Device) (off : Nat) (a : WriteAccess) : (d.stored off a).watch = d.watch := rfl
@[simp] theorem Device.stored_suspendedSince (d : Device) (off : Nat) (a : WriteAccess) : (d.stored off a).suspendedSince = d.suspendedSince := rfl
@[simp] theorem Device.stored_admission (d : Device) (off : Nat) (a : WriteAccess) : (d.stored off a).admission = d.admission := rfl
@[simp] theorem Device.stored_reports (d : Device) (off : Nat) (a : WriteAccess) : (d.stored off a).reports = d.reports := rfl
@[simp] theorem Device.stored_mail (d : Device) (off : Nat) (a : WriteAccess) : (d.stored off a).mail = d.mail := rfl
@[simp] theorem Device.stored_freeCount (d : Device) (off : Nat) (a : WriteAccess) : (d.stored off a).freeCount = d.freeCount := rfl
@[simp] theorem Device.requested_pins (d : Device) (a : WriteAccess) (n : Outlet) (tag : Byte) : (d.requested a n tag).pins = d.pins := rfl
@[simp] theorem Device.requested_now (d : Device) (a : WriteAccess) (n : Outlet) (tag : Byte) : (d.requested a n tag).now = d.now := rfl
@[simp] theorem Device.requested_pub (d : Device) (a : WriteAccess) (n : Outlet) (tag : Byte) : (d.requested a n tag).pub = d.pub := rfl
@[simp] theorem Device.requested_charter (d : Device) (a : WriteAccess) (n : Outlet) (tag : Byte) : (d.requested a n tag).charter = d.charter := rfl
@[simp] theorem Device.requested_sampler (d : Device) (a : WriteAccess) (n : Outlet) (tag : Byte) : (d.requested a n tag).sampler = d.sampler := rfl
@[simp] theorem Device.requested_engine (d : Device) (a : WriteAccess) (n : Outlet) (tag : Byte) : (d.requested a n tag).engine = d.engine := rfl
@[simp] theorem Device.requested_outlet (d : Device) (a : WriteAccess) (n : Outlet) (tag : Byte) : (d.requested a n tag).outlet = d.outlet := rfl
@[simp] theorem Device.requested_applyEcho (d : Device) (a : WriteAccess) (n : Outlet) (tag : Byte) : (d.requested a n tag).applyEcho = d.applyEcho := rfl
@[simp] theorem Device.requested_watch (d : Device) (a : WriteAccess) (n : Outlet) (tag : Byte) : (d.requested a n tag).watch = d.watch := rfl
@[simp] theorem Device.requested_suspendedSince (d : Device) (a : WriteAccess) (n : Outlet) (tag : Byte) : (d.requested a n tag).suspendedSince = d.suspendedSince := rfl
@[simp] theorem Device.requested_admission (d : Device) (a : WriteAccess) (n : Outlet) (tag : Byte) : (d.requested a n tag).admission = d.admission := rfl
@[simp] theorem Device.requested_reports (d : Device) (a : WriteAccess) (n : Outlet) (tag : Byte) : (d.requested a n tag).reports = d.reports := rfl
@[simp] theorem Device.requested_mail (d : Device) (a : WriteAccess) (n : Outlet) (tag : Byte) : (d.requested a n tag).mail = d.mail := rfl
@[simp] theorem Device.requested_freeCount (d : Device) (a : WriteAccess) (n : Outlet) (tag : Byte) : (d.requested a n tag).freeCount = d.freeCount := rfl

/-- A stored word leaves every other word of the Shadow File. -/
theorem Device.stored_shadow_other (d : Device) (off o : Nat) (a : WriteAccess) (hd : Store.wf d.path.shadow)
    (ho : off ≠ o) : (d.stored off a).shadow o = d.shadow o :=
  Store.read_write_other d.path.shadow off o _ ho hd

/-- A stored word reads as its merged value. -/
theorem Device.stored_shadow_same (d : Device) (off : Nat) (a : WriteAccess) (hd : Store.wf d.path.shadow) :
    (d.stored off a).shadow off = d.merged off a :=
  Store.read_write_same d.path.shadow off _ hd

/-- A request that passes the checks of R109 is handled by its code. -/
theorem Device.takeRequest_handled (d : Device) (n : Outlet) (tag code : Byte) (arg : Nat) (c : RequestCode)
    (hc : requestCode code = some c) (ha : d.outletState n ≠ .absent) (hr : d.running = true) :
    d.takeRequest n tag code arg = d.handleCode n c tag arg := by
  unfold Device.takeRequest
  rw [hc]
  dsimp only
  rw [if_neg ha, if_neg]
  rw [Device.state_of_running hr]
  decide

/-- A request's word and tag show in no published group. -/
theorem Device.requested_groupWords (d : Device) (a : WriteAccess) (n : Outlet) (tag : Byte) (g : Group) :
    (d.requested a n tag).groupWords g = d.groupWords g := by
  cases g <;> rfl

/-- An answer publishes the outlet's Status group (R110). -/
theorem Device.answer_trail (d : Device) (n : Outlet) (t : Byte) (r : EchoResult) :
    d.Trail (d.answer n t r) (if d.inService then [.status n] else []) :=
  Device.publishStatus_trail (d := d) (e := d.setOutlet n fun o => { o with echoTag := t, echoResult := r }) rfl n
    fun _ => Device.setOutlet_moves d n _

/-- What an answered request leaves, from what its handling leaves of the block it found. -/
theorem Device.Answered.of {d d' : Device} {changed : List Part}
    (hpub : d.Publishes d' [.status n])
    (hothers : ∀ m : Outlet, m ≠ n → d'.outlet[m] = d.outlet[m])
    (hrest : (d.requested a n tag).Untouched d' ([.pub, .outlet] ++ changed))
    (hram : Part.ram ∉ changed) (hpath : Part.path ∉ changed) :
    d.Answered d' a n tag changed where
  ram := hrest .ram (by simp [hram])
  path := hrest .path (by simp [hpath])
  others := hothers
  published := hpub
  rest := fun p hp => by
    have h := hrest p (by simp_all)
    cases p <;> simp_all [Part.same, Device.requested, Device.stored, Device.setLastTag]

/-- An answer given in the block that a request's handling leaves. -/
theorem Device.Answered.answer {d e : Device} {changed : List Part} (hs : d.inService = true)
    (hothers : ∀ m : Outlet, m ≠ n → e.outlet[m] = d.outlet[m])
    (hrest : (d.requested a n tag).Untouched e ([.pub, .outlet] ++ changed))
    (hram : Part.ram ∉ changed) (hpath : Part.path ∉ changed) (hch : Part.charter ∉ changed)
    (htrail : ∃ gs, (d.requested a n tag).Trail e gs ∧ ∀ g ∈ gs, g = .status n) (r : EchoResult) :
    d.Answered (e.answer n tag r) a n tag changed := by
  have hc : e.charter = d.charter := hrest .charter (by simp [hch])
  have hi : e.inService = true := by rw [Device.inService_congr_charter hc]; exact hs
  obtain ⟨gs, ht, hg⟩ := htrail
  have ha := Device.answer_trail e n tag r
  rw [if_pos hi] at ha
  have hd : d.Trail (e.answer n tag r) (gs ++ [.status n]) :=
    .from (e := d.requested a n tag) (ht.trans ha (fun g h h' => absurd (List.mem_singleton.2 (hg g h)) h')
      (fun h => by rwa [Device.enforcing_charter (d := e) (by simp)] at h) fun _ => hi) rfl
      (fun g => Device.requested_groupWords d a n tag g) (fun _ => rfl) fun _ => rfl
  refine .of (hd.publishes (fun g h => .inr (List.mem_singleton.2 ?_)) fun g h => ?_) ?_ ?_ hram hpath
  · exact (List.mem_append.1 h).elim (hg g) List.mem_singleton.1
  · exact List.mem_append.2 (.inr h)
  · intro m hm
    have ho := hothers m hm
    have hne := Ne.symm hm
    simp_all
  · intro p hp
    have := hrest p hp
    cases p <;> simp_all [Part.same]

/-- A request that is handled completes with what its handling leaves. -/
theorem Device.Requests.completes {s : State} {i : Instr} {post : Device → Prop} {c : RequestCode}
    (hi : exec i s = s.onWrite a) (h : s.dev.Requests a n tag code) (hc : requestCode code = some c)
    (hr : s.dev.running = true) (ha : (s.dev.outlet[n]).state ≠ .absent)
    (hp : post ((s.dev.requested a n tag).handleCode n c tag
      ((s.dev.stored (outletWord n requestWord) a).requestArgument n))) :
    CompletesWith i s post := by
  refine ⟨{ s with dev := s.dev.presentAccess (.write a) }, hi, rfl, ?_⟩
  rw [h.present, Device.takeRequest_handled (s.dev.requested a n tag) n tag code _ c hc ha hr]
  exact hp

/-- The Request word does not change what another word of an outlet's record reads as. -/
theorem Device.requested_outletField (d : Device) (a : WriteAccess) (n m : Outlet) (tag : Byte) (w : Nat)
    (hd : Store.wf d.path.shadow) (hw : w < 64) (hne : w ≠ 16) :
    (d.requested a n tag).outletField m w = d.outletField m w := by
  show ((d.stored (outletWord n requestWord) a).shadow (outletWord m w)).toNat = _
  rw [Device.stored_shadow_other d _ _ a hd (by unfold outletWord requestWord; omega)]
  rfl

theorem Device.stored_requestArgument (d : Device) (a : WriteAccess) (n : Outlet) (hd : Store.wf d.path.shadow) :
    (d.stored (outletWord n requestWord) a).requestArgument n = d.requestArgument n :=
  Device.requested_outletField d a n n 0 15 hd (by decide) (by decide)

/-- Every setting taken again, as Safety.lean writes them (R23, R24). -/
theorem Device.takeSettings_eq (d : Device) :
    d.takeSettings = { d with charter := { d.charter with settings := Settings.ofWords fun w => (d.shadow w).toNat } } := by
  unfold Device.takeSettings Device.settingWords Device.takeSetting Settings.ofWords clampNat
  simp

end Sys2Proof.Machine
end

