-- ==== Sys2Proof/Laws/Outlets.lean ====
section
/-! SUPPORT. What the Outlet Controller's operations leave: one lemma for each field of each operation. Only the outlet's
own context, the hand-offs and the Publication Unit change. -/

namespace Sys2Proof.Machine
open Sys2Proof

set_option linter.unusedSimpArgs false

@[simp] theorem setAt_same {α : Type} {n : Nat} (v : Vector α n) (i : Fin n) (x y : α) :
    setAt (setAt v i x) i y = setAt v i y := by
  simp [setAt]

@[simp] theorem setAt_get {α : Type} {n : Nat} (v : Vector α n) (i : Fin n) : setAt v i v[i.val] = v := by
  simp [setAt]

@[simp] theorem setAt_at {α : Type} {n : Nat} (v : Vector α n) (i : Fin n) (x : α) : (setAt v i x)[i.val] = x := by
  simp [setAt]

variable (d : Device)

theorem Device.outletState_eq (n : Outlet) : d.outletState n = (d.outlet[n.val]).state := rfl

theorem Device.alwaysOn_eq (n : Outlet) : d.alwaysOn n = decide ((d.outlet[n.val]).mode = .alwaysOn) := rfl

@[simp] theorem enterState_state (u : Nat) (s : OutletState) (o : OutletContext) : (Device.enterState u s o).state = s := rfl
@[simp] theorem enterState_operation (u : Nat) (s : OutletState) (o : OutletContext) : (Device.enterState u s o).operation = o.operation := rfl
@[simp] theorem enterState_sensed (u : Nat) (s : OutletState) (o : OutletContext) : (Device.enterState u s o).sensed = o.sensed := rfl
@[simp] theorem enterState_intent (u : Nat) (s : OutletState) (o : OutletContext) : (Device.enterState u s o).intent = o.intent := rfl
@[simp] theorem enterState_lastCause (u : Nat) (s : OutletState) (o : OutletContext) : (Device.enterState u s o).lastCause = o.lastCause := rfl
@[simp] theorem enterState_inrush (u : Nat) (s : OutletState) (o : OutletContext) : (Device.enterState u s o).inrush = if o.state = .inrush then none else o.inrush := rfl
@[simp] theorem enterState_dwell (u : Nat) (s : OutletState) (o : OutletContext) : (Device.enterState u s o).dwell = if o.state = .dwell then none else o.dwell := rfl
@[simp] theorem enterState_deferred (u : Nat) (s : OutletState) (o : OutletContext) : (Device.enterState u s o).deferred = o.deferred := rfl
@[simp] theorem enterState_staged (u : Nat) (s : OutletState) (o : OutletContext) : (Device.enterState u s o).staged = o.staged := rfl
@[simp] theorem enterState_fault (u : Nat) (s : OutletState) (o : OutletContext) : (Device.enterState u s o).fault = o.fault := rfl
@[simp] theorem enterState_since (u : Nat) (s : OutletState) (o : OutletContext) : (Device.enterState u s o).since = u := rfl
@[simp] theorem enterState_leakCount (u : Nat) (s : OutletState) (o : OutletContext) : (Device.enterState u s o).leakCount = if decide (s = .off) || decide (s = .dwell) then 0 else o.leakCount := rfl
@[simp] theorem enterState_leakSkip (u : Nat) (s : OutletState) (o : OutletContext) : (Device.enterState u s o).leakSkip = if decide (s = .off) || decide (s = .dwell) then true else o.leakSkip := rfl
@[simp] theorem enterState_mismatch (u : Nat) (s : OutletState) (o : OutletContext) : (Device.enterState u s o).mismatch = if s.expected.isSome then 0 else o.mismatch := rfl
@[simp] theorem enterState_echoTag (u : Nat) (s : OutletState) (o : OutletContext) : (Device.enterState u s o).echoTag = o.echoTag := rfl
@[simp] theorem enterState_echoResult (u : Nat) (s : OutletState) (o : OutletContext) : (Device.enterState u s o).echoResult = o.echoResult := rfl
@[simp] theorem enterState_mode (u : Nat) (s : OutletState) (o : OutletContext) : (Device.enterState u s o).mode = o.mode := rfl

theorem OutletContext.with_no_intent (o : OutletContext) (h : o.intent = none) : { o with intent := none } = o := by
  cases o
  simp_all

/-! ### cancelCycle -/

@[simp] theorem Device.cancelCycle_pins (n : Outlet) (e : OutletState) : (d.cancelCycle n e).pins = d.pins := by
  unfold Device.cancelCycle; split <;> rename_i h <;> simp only [Fin.getElem_fin] at h <;> simp [OutletContext.cancelReport, h, OutletContext.with_no_intent]
@[simp] theorem Device.cancelCycle_ram (n : Outlet) (e : OutletState) : (d.cancelCycle n e).ram = d.ram := by
  unfold Device.cancelCycle; split <;> rename_i h <;> simp only [Fin.getElem_fin] at h <;> simp [OutletContext.cancelReport, h, OutletContext.with_no_intent]
@[simp] theorem Device.cancelCycle_now (n : Outlet) (e : OutletState) : (d.cancelCycle n e).now = d.now := by
  unfold Device.cancelCycle; split <;> rename_i h <;> simp only [Fin.getElem_fin] at h <;> simp [OutletContext.cancelReport, h, OutletContext.with_no_intent]
@[simp] theorem Device.cancelCycle_path (n : Outlet) (e : OutletState) : (d.cancelCycle n e).path = d.path := by
  unfold Device.cancelCycle; split <;> rename_i h <;> simp only [Fin.getElem_fin] at h <;> simp [OutletContext.cancelReport, h, OutletContext.with_no_intent]
@[simp] theorem Device.cancelCycle_charter (n : Outlet) (e : OutletState) : (d.cancelCycle n e).charter = d.charter := by
  unfold Device.cancelCycle; split <;> rename_i h <;> simp only [Fin.getElem_fin] at h <;> simp [OutletContext.cancelReport, h, OutletContext.with_no_intent]
@[simp] theorem Device.cancelCycle_sampler (n : Outlet) (e : OutletState) : (d.cancelCycle n e).sampler = d.sampler := by
  unfold Device.cancelCycle; split <;> rename_i h <;> simp only [Fin.getElem_fin] at h <;> simp [OutletContext.cancelReport, h, OutletContext.with_no_intent]
@[simp] theorem Device.cancelCycle_engine (n : Outlet) (e : OutletState) : (d.cancelCycle n e).engine = d.engine := by
  unfold Device.cancelCycle; split <;> rename_i h <;> simp only [Fin.getElem_fin] at h <;> simp [OutletContext.cancelReport, h, OutletContext.with_no_intent]
@[simp] theorem Device.cancelCycle_outlet (n : Outlet) (e : OutletState) : (d.cancelCycle n e).outlet = setAt d.outlet n { d.outlet[n] with intent := none } := by
  unfold Device.cancelCycle; split <;> rename_i h <;> simp only [Fin.getElem_fin] at h <;> simp [OutletContext.cancelReport, h, OutletContext.with_no_intent]
@[simp] theorem Device.cancelCycle_applyEcho (n : Outlet) (e : OutletState) : (d.cancelCycle n e).applyEcho = d.applyEcho := by
  unfold Device.cancelCycle; split <;> rename_i h <;> simp only [Fin.getElem_fin] at h <;> simp [OutletContext.cancelReport, h, OutletContext.with_no_intent]
@[simp] theorem Device.cancelCycle_watch (n : Outlet) (e : OutletState) : (d.cancelCycle n e).watch = d.watch := by
  unfold Device.cancelCycle; split <;> rename_i h <;> simp only [Fin.getElem_fin] at h <;> simp [OutletContext.cancelReport, h, OutletContext.with_no_intent]
@[simp] theorem Device.cancelCycle_suspendedSince (n : Outlet) (e : OutletState) : (d.cancelCycle n e).suspendedSince = d.suspendedSince := by
  unfold Device.cancelCycle; split <;> rename_i h <;> simp only [Fin.getElem_fin] at h <;> simp [OutletContext.cancelReport, h, OutletContext.with_no_intent]
@[simp] theorem Device.cancelCycle_admission (n : Outlet) (e : OutletState) : (d.cancelCycle n e).admission = d.admission := by
  unfold Device.cancelCycle; split <;> rename_i h <;> simp only [Fin.getElem_fin] at h <;> simp [OutletContext.cancelReport, h, OutletContext.with_no_intent]
@[simp] theorem Device.cancelCycle_reports (n : Outlet) (e : OutletState) : (d.cancelCycle n e).reports = d.reports := by
  unfold Device.cancelCycle; split <;> rename_i h <;> simp only [Fin.getElem_fin] at h <;> simp [OutletContext.cancelReport, h, OutletContext.with_no_intent]
@[simp] theorem Device.cancelCycle_mail (n : Outlet) (e : OutletState) : (d.cancelCycle n e).mail = { d.mail with reports := d.mail.reports ++ (d.outlet[n]).cancelReport n e } := by
  unfold Device.cancelCycle; split <;> rename_i h <;> simp only [Fin.getElem_fin] at h <;> simp [OutletContext.cancelReport, h, OutletContext.with_no_intent]
@[simp] theorem Device.cancelCycle_freeCount (n : Outlet) (e : OutletState) : (d.cancelCycle n e).freeCount = d.freeCount := by
  unfold Device.cancelCycle; split <;> rename_i h <;> simp only [Fin.getElem_fin] at h <;> simp [OutletContext.cancelReport, h, OutletContext.with_no_intent]

/-! ### enterOff -/

@[simp] theorem Device.enterOff_pins (n : Outlet) : (d.enterOff n).pins = d.pins := by
  unfold Device.enterOff; dsimp only; split <;> simp_all [Device.alwaysOn_eq, Device.outletState_eq, admissionHandoffs, watchHandoffs]
@[simp] theorem Device.enterOff_ram (n : Outlet) : (d.enterOff n).ram = d.ram := by
  unfold Device.enterOff; dsimp only; split <;> simp_all [Device.alwaysOn_eq, Device.outletState_eq, admissionHandoffs, watchHandoffs]
@[simp] theorem Device.enterOff_now (n : Outlet) : (d.enterOff n).now = d.now := by
  unfold Device.enterOff; dsimp only; split <;> simp_all [Device.alwaysOn_eq, Device.outletState_eq, admissionHandoffs, watchHandoffs]
@[simp] theorem Device.enterOff_path (n : Outlet) : (d.enterOff n).path = d.path := by
  unfold Device.enterOff; dsimp only; split <;> simp_all [Device.alwaysOn_eq, Device.outletState_eq, admissionHandoffs, watchHandoffs]
@[simp] theorem Device.enterOff_charter (n : Outlet) : (d.enterOff n).charter = d.charter := by
  unfold Device.enterOff; dsimp only; split <;> simp_all [Device.alwaysOn_eq, Device.outletState_eq, admissionHandoffs, watchHandoffs]
@[simp] theorem Device.enterOff_sampler (n : Outlet) : (d.enterOff n).sampler = d.sampler := by
  unfold Device.enterOff; dsimp only; split <;> simp_all [Device.alwaysOn_eq, Device.outletState_eq, admissionHandoffs, watchHandoffs]
@[simp] theorem Device.enterOff_engine (n : Outlet) : (d.enterOff n).engine = d.engine := by
  unfold Device.enterOff; dsimp only; split <;> simp_all [Device.alwaysOn_eq, Device.outletState_eq, admissionHandoffs, watchHandoffs]
@[simp] theorem Device.enterOff_outlet (n : Outlet) : (d.enterOff n).outlet = setAt d.outlet n (if d.alwaysOn n then Device.enterState d.charter.uptime .queued (Device.enterState d.charter.uptime .off d.outlet[n]) else Device.enterState d.charter.uptime .off d.outlet[n]) := by
  unfold Device.enterOff; dsimp only; split <;> simp_all [Device.alwaysOn_eq, Device.outletState_eq, admissionHandoffs, watchHandoffs]
@[simp] theorem Device.enterOff_applyEcho (n : Outlet) : (d.enterOff n).applyEcho = d.applyEcho := by
  unfold Device.enterOff; dsimp only; split <;> simp_all [Device.alwaysOn_eq, Device.outletState_eq, admissionHandoffs, watchHandoffs]
@[simp] theorem Device.enterOff_watch (n : Outlet) : (d.enterOff n).watch = d.watch := by
  unfold Device.enterOff; dsimp only; split <;> simp_all [Device.alwaysOn_eq, Device.outletState_eq, admissionHandoffs, watchHandoffs]
@[simp] theorem Device.enterOff_suspendedSince (n : Outlet) : (d.enterOff n).suspendedSince = d.suspendedSince := by
  unfold Device.enterOff; dsimp only; split <;> simp_all [Device.alwaysOn_eq, Device.outletState_eq, admissionHandoffs, watchHandoffs]
@[simp] theorem Device.enterOff_admission (n : Outlet) : (d.enterOff n).admission = d.admission := by
  unfold Device.enterOff; dsimp only; split <;> simp_all [Device.alwaysOn_eq, Device.outletState_eq, admissionHandoffs, watchHandoffs]
@[simp] theorem Device.enterOff_reports (n : Outlet) : (d.enterOff n).reports = d.reports := by
  unfold Device.enterOff; dsimp only; split <;> simp_all [Device.alwaysOn_eq, Device.outletState_eq, admissionHandoffs, watchHandoffs]
@[simp] theorem Device.enterOff_mail (n : Outlet) : (d.enterOff n).mail = { d.mail with toAdmission := d.mail.toAdmission ++ admissionHandoffs n (d.outletState n) .off ++ (if d.alwaysOn n then [.join n] else []), toWatch := d.mail.toWatch ++ watchHandoffs n (d.outletState n) .off } := by
  unfold Device.enterOff; dsimp only; split <;> simp_all [Device.alwaysOn_eq, Device.outletState_eq, admissionHandoffs, watchHandoffs]
@[simp] theorem Device.enterOff_freeCount (n : Outlet) : (d.enterOff n).freeCount = d.freeCount := by
  unfold Device.enterOff; dsimp only; split <;> simp_all [Device.alwaysOn_eq, Device.outletState_eq, admissionHandoffs, watchHandoffs]

/-! ### beginOperation -/

@[simp] theorem Device.beginOperation_pins (n : Outlet) (m : RelayMove) : (d.beginOperation n m).pins = d.pins := by
  unfold Device.beginOperation; cases m <;> simp
@[simp] theorem Device.beginOperation_ram (n : Outlet) (m : RelayMove) : (d.beginOperation n m).ram = d.ram := by
  unfold Device.beginOperation; cases m <;> simp
@[simp] theorem Device.beginOperation_now (n : Outlet) (m : RelayMove) : (d.beginOperation n m).now = d.now := by
  unfold Device.beginOperation; cases m <;> simp
@[simp] theorem Device.beginOperation_path (n : Outlet) (m : RelayMove) : (d.beginOperation n m).path = d.path := by
  unfold Device.beginOperation; cases m <;> simp
@[simp] theorem Device.beginOperation_charter (n : Outlet) (m : RelayMove) : (d.beginOperation n m).charter = d.charter := by
  unfold Device.beginOperation; cases m <;> simp
@[simp] theorem Device.beginOperation_sampler (n : Outlet) (m : RelayMove) : (d.beginOperation n m).sampler = d.sampler := by
  unfold Device.beginOperation; cases m <;> simp
@[simp] theorem Device.beginOperation_engine (n : Outlet) (m : RelayMove) : (d.beginOperation n m).engine = d.engine := by
  unfold Device.beginOperation; cases m <;> simp
@[simp] theorem Device.beginOperation_outlet (n : Outlet) (m : RelayMove) : (d.beginOperation n m).outlet = setAt d.outlet n { Device.enterState d.charter.uptime (match m with | .closing => .closing | .opening => .opening) d.outlet[n] with operation := some (m, Config.operateTime) } := by
  unfold Device.beginOperation; cases m <;> simp
@[simp] theorem Device.beginOperation_applyEcho (n : Outlet) (m : RelayMove) : (d.beginOperation n m).applyEcho = d.applyEcho := by
  unfold Device.beginOperation; cases m <;> simp
@[simp] theorem Device.beginOperation_watch (n : Outlet) (m : RelayMove) : (d.beginOperation n m).watch = d.watch := by
  unfold Device.beginOperation; cases m <;> simp
@[simp] theorem Device.beginOperation_suspendedSince (n : Outlet) (m : RelayMove) : (d.beginOperation n m).suspendedSince = d.suspendedSince := by
  unfold Device.beginOperation; cases m <;> simp
@[simp] theorem Device.beginOperation_admission (n : Outlet) (m : RelayMove) : (d.beginOperation n m).admission = d.admission := by
  unfold Device.beginOperation; cases m <;> simp
@[simp] theorem Device.beginOperation_reports (n : Outlet) (m : RelayMove) : (d.beginOperation n m).reports = d.reports := by
  unfold Device.beginOperation; cases m <;> simp
@[simp] theorem Device.beginOperation_mail (n : Outlet) (m : RelayMove) : (d.beginOperation n m).mail = { d.mail with toAdmission := d.mail.toAdmission ++ admissionHandoffs n (d.outletState n) (match m with | .closing => .closing | .opening => .opening), toWatch := d.mail.toWatch ++ watchHandoffs n (d.outletState n) (match m with | .closing => .closing | .opening => .opening) } := by
  unfold Device.beginOperation; cases m <;> simp
@[simp] theorem Device.beginOperation_freeCount (n : Outlet) (m : RelayMove) : (d.beginOperation n m).freeCount = d.freeCount := by
  unfold Device.beginOperation; cases m <;> simp

/-! ### startDwell -/

@[simp] theorem Device.startDwell_pins (n : Outlet) : (d.startDwell n).pins = d.pins := by
  unfold Device.startDwell; simp
@[simp] theorem Device.startDwell_ram (n : Outlet) : (d.startDwell n).ram = d.ram := by
  unfold Device.startDwell; simp
@[simp] theorem Device.startDwell_now (n : Outlet) : (d.startDwell n).now = d.now := by
  unfold Device.startDwell; simp
@[simp] theorem Device.startDwell_path (n : Outlet) : (d.startDwell n).path = d.path := by
  unfold Device.startDwell; simp
@[simp] theorem Device.startDwell_charter (n : Outlet) : (d.startDwell n).charter = d.charter := by
  unfold Device.startDwell; simp
@[simp] theorem Device.startDwell_sampler (n : Outlet) : (d.startDwell n).sampler = d.sampler := by
  unfold Device.startDwell; simp
@[simp] theorem Device.startDwell_engine (n : Outlet) : (d.startDwell n).engine = d.engine := by
  unfold Device.startDwell; simp
@[simp] theorem Device.startDwell_outlet (n : Outlet) : (d.startDwell n).outlet = setAt d.outlet n { d.outlet[n] with dwell := (d.outlet[n]).intent.map fun i => i.dwell * 1000000 } := by
  unfold Device.startDwell; simp
@[simp] theorem Device.startDwell_applyEcho (n : Outlet) : (d.startDwell n).applyEcho = d.applyEcho := by
  unfold Device.startDwell; simp
@[simp] theorem Device.startDwell_watch (n : Outlet) : (d.startDwell n).watch = d.watch := by
  unfold Device.startDwell; simp
@[simp] theorem Device.startDwell_suspendedSince (n : Outlet) : (d.startDwell n).suspendedSince = d.suspendedSince := by
  unfold Device.startDwell; simp
@[simp] theorem Device.startDwell_admission (n : Outlet) : (d.startDwell n).admission = d.admission := by
  unfold Device.startDwell; simp
@[simp] theorem Device.startDwell_reports (n : Outlet) : (d.startDwell n).reports = d.reports := by
  unfold Device.startDwell; simp
@[simp] theorem Device.startDwell_mail (n : Outlet) : (d.startDwell n).mail = d.mail := by
  unfold Device.startDwell; simp
@[simp] theorem Device.startDwell_freeCount (n : Outlet) : (d.startDwell n).freeCount = d.freeCount := by
  unfold Device.startDwell; simp

/-! ### defer -/

@[simp] theorem Device.defer_pins (n : Outlet) (c : RequestCode) (t : Byte) (x : Nat) : (d.defer n c t x).pins = d.pins := by
  unfold Device.defer; simp
@[simp] theorem Device.defer_ram (n : Outlet) (c : RequestCode) (t : Byte) (x : Nat) : (d.defer n c t x).ram = d.ram := by
  unfold Device.defer; simp
@[simp] theorem Device.defer_now (n : Outlet) (c : RequestCode) (t : Byte) (x : Nat) : (d.defer n c t x).now = d.now := by
  unfold Device.defer; simp
@[simp] theorem Device.defer_path (n : Outlet) (c : RequestCode) (t : Byte) (x : Nat) : (d.defer n c t x).path = d.path := by
  unfold Device.defer; simp
@[simp] theorem Device.defer_charter (n : Outlet) (c : RequestCode) (t : Byte) (x : Nat) : (d.defer n c t x).charter = d.charter := by
  unfold Device.defer; simp
@[simp] theorem Device.defer_sampler (n : Outlet) (c : RequestCode) (t : Byte) (x : Nat) : (d.defer n c t x).sampler = d.sampler := by
  unfold Device.defer; simp
@[simp] theorem Device.defer_engine (n : Outlet) (c : RequestCode) (t : Byte) (x : Nat) : (d.defer n c t x).engine = d.engine := by
  unfold Device.defer; simp
@[simp] theorem Device.defer_outlet (n : Outlet) (c : RequestCode) (t : Byte) (x : Nat) : (d.defer n c t x).outlet = setAt d.outlet n { d.outlet[n] with deferred := some (.request c t x), echoTag := t, echoResult := .deferred } := by
  unfold Device.defer; simp
@[simp] theorem Device.defer_applyEcho (n : Outlet) (c : RequestCode) (t : Byte) (x : Nat) : (d.defer n c t x).applyEcho = d.applyEcho := by
  unfold Device.defer; simp
@[simp] theorem Device.defer_watch (n : Outlet) (c : RequestCode) (t : Byte) (x : Nat) : (d.defer n c t x).watch = d.watch := by
  unfold Device.defer; simp
@[simp] theorem Device.defer_suspendedSince (n : Outlet) (c : RequestCode) (t : Byte) (x : Nat) : (d.defer n c t x).suspendedSince = d.suspendedSince := by
  unfold Device.defer; simp
@[simp] theorem Device.defer_admission (n : Outlet) (c : RequestCode) (t : Byte) (x : Nat) : (d.defer n c t x).admission = d.admission := by
  unfold Device.defer; simp
@[simp] theorem Device.defer_reports (n : Outlet) (c : RequestCode) (t : Byte) (x : Nat) : (d.defer n c t x).reports = d.reports := by
  unfold Device.defer; simp
@[simp] theorem Device.defer_mail (n : Outlet) (c : RequestCode) (t : Byte) (x : Nat) : (d.defer n c t x).mail = d.mail := by
  unfold Device.defer; simp
@[simp] theorem Device.defer_freeCount (n : Outlet) (c : RequestCode) (t : Byte) (x : Nat) : (d.defer n c t x).freeCount = d.freeCount := by
  unfold Device.defer; simp

/-! ### enterFault -/

@[simp] theorem Device.enterFault_pins (n : Outlet) (k : FaultKind) : (d.enterFault n k).pins = d.pins := by
  unfold Device.enterFault; simp [OutletContext.cancelReport]
@[simp] theorem Device.enterFault_ram (n : Outlet) (k : FaultKind) : (d.enterFault n k).ram = d.ram := by
  unfold Device.enterFault; simp [OutletContext.cancelReport]
@[simp] theorem Device.enterFault_now (n : Outlet) (k : FaultKind) : (d.enterFault n k).now = d.now := by
  unfold Device.enterFault; simp [OutletContext.cancelReport]
@[simp] theorem Device.enterFault_path (n : Outlet) (k : FaultKind) : (d.enterFault n k).path = d.path := by
  unfold Device.enterFault; simp [OutletContext.cancelReport]
@[simp] theorem Device.enterFault_charter (n : Outlet) (k : FaultKind) : (d.enterFault n k).charter = d.charter := by
  unfold Device.enterFault; simp [OutletContext.cancelReport]
@[simp] theorem Device.enterFault_sampler (n : Outlet) (k : FaultKind) : (d.enterFault n k).sampler = d.sampler := by
  unfold Device.enterFault; simp [OutletContext.cancelReport]
@[simp] theorem Device.enterFault_engine (n : Outlet) (k : FaultKind) : (d.enterFault n k).engine = d.engine := by
  unfold Device.enterFault; simp [OutletContext.cancelReport]
@[simp] theorem Device.enterFault_outlet (n : Outlet) (k : FaultKind) : (d.enterFault n k).outlet = setAt d.outlet n { Device.enterState d.charter.uptime .fault d.outlet[n] with fault := some k, intent := none } := by
  unfold Device.enterFault; simp [OutletContext.cancelReport]
@[simp] theorem Device.enterFault_applyEcho (n : Outlet) (k : FaultKind) : (d.enterFault n k).applyEcho = d.applyEcho := by
  unfold Device.enterFault; simp [OutletContext.cancelReport]
@[simp] theorem Device.enterFault_watch (n : Outlet) (k : FaultKind) : (d.enterFault n k).watch = d.watch := by
  unfold Device.enterFault; simp [OutletContext.cancelReport]
@[simp] theorem Device.enterFault_suspendedSince (n : Outlet) (k : FaultKind) : (d.enterFault n k).suspendedSince = d.suspendedSince := by
  unfold Device.enterFault; simp [OutletContext.cancelReport]
@[simp] theorem Device.enterFault_admission (n : Outlet) (k : FaultKind) : (d.enterFault n k).admission = d.admission := by
  unfold Device.enterFault; simp [OutletContext.cancelReport]
@[simp] theorem Device.enterFault_reports (n : Outlet) (k : FaultKind) : (d.enterFault n k).reports = d.reports := by
  unfold Device.enterFault; simp [OutletContext.cancelReport]
@[simp] theorem Device.enterFault_mail (n : Outlet) (k : FaultKind) : (d.enterFault n k).mail = { d.mail with reports := d.mail.reports ++ [⟨.relayFault, .outlet n, k.code, (d.outletState n).code⟩] ++ (d.outlet[n]).cancelReport n .fault, toAdmission := d.mail.toAdmission ++ admissionHandoffs n (d.outletState n) .fault, toWatch := d.mail.toWatch ++ watchHandoffs n (d.outletState n) .fault } := by
  unfold Device.enterFault; simp [OutletContext.cancelReport]
@[simp] theorem Device.enterFault_freeCount (n : Outlet) (k : FaultKind) : (d.enterFault n k).freeCount = d.freeCount := by
  unfold Device.enterFault; simp [OutletContext.cancelReport]

/-! ### startCycle -/

@[simp] theorem Device.startCycle_pins (n : Outlet) (c : Cause) (w : Nat) : (d.startCycle n c w).pins = d.pins := by
  unfold Device.startCycle; by_cases h : d.outletState n = .off <;> simp_all [Device.outletState_eq, Device.enterState, admissionHandoffs, watchHandoffs]
@[simp] theorem Device.startCycle_ram (n : Outlet) (c : Cause) (w : Nat) : (d.startCycle n c w).ram = d.ram := by
  unfold Device.startCycle; by_cases h : d.outletState n = .off <;> simp_all [Device.outletState_eq, Device.enterState, admissionHandoffs, watchHandoffs]
@[simp] theorem Device.startCycle_now (n : Outlet) (c : Cause) (w : Nat) : (d.startCycle n c w).now = d.now := by
  unfold Device.startCycle; by_cases h : d.outletState n = .off <;> simp_all [Device.outletState_eq, Device.enterState, admissionHandoffs, watchHandoffs]
@[simp] theorem Device.startCycle_path (n : Outlet) (c : Cause) (w : Nat) : (d.startCycle n c w).path = d.path := by
  unfold Device.startCycle; by_cases h : d.outletState n = .off <;> simp_all [Device.outletState_eq, Device.enterState, admissionHandoffs, watchHandoffs]
@[simp] theorem Device.startCycle_charter (n : Outlet) (c : Cause) (w : Nat) : (d.startCycle n c w).charter = d.charter := by
  unfold Device.startCycle; by_cases h : d.outletState n = .off <;> simp_all [Device.outletState_eq, Device.enterState, admissionHandoffs, watchHandoffs]
@[simp] theorem Device.startCycle_sampler (n : Outlet) (c : Cause) (w : Nat) : (d.startCycle n c w).sampler = d.sampler := by
  unfold Device.startCycle; by_cases h : d.outletState n = .off <;> simp_all [Device.outletState_eq, Device.enterState, admissionHandoffs, watchHandoffs]
@[simp] theorem Device.startCycle_engine (n : Outlet) (c : Cause) (w : Nat) : (d.startCycle n c w).engine = d.engine := by
  unfold Device.startCycle; by_cases h : d.outletState n = .off <;> simp_all [Device.outletState_eq, Device.enterState, admissionHandoffs, watchHandoffs]
@[simp] theorem Device.startCycle_outlet (n : Outlet) (c : Cause) (w : Nat) : (d.startCycle n c w).outlet = setAt d.outlet n (if d.outletState n = .off then { Device.enterState d.charter.uptime .dwell d.outlet[n] with lastCause := some c, intent := some ⟨c, w, some d.charter.uptime, none⟩, dwell := some (w * 1000000) } else { Device.enterState d.charter.uptime .opening d.outlet[n] with lastCause := some c, intent := some ⟨c, w, none, none⟩, operation := some (.opening, Config.operateTime) }) := by
  unfold Device.startCycle; by_cases h : d.outletState n = .off <;> simp_all [Device.outletState_eq, Device.enterState, admissionHandoffs, watchHandoffs]
@[simp] theorem Device.startCycle_applyEcho (n : Outlet) (c : Cause) (w : Nat) : (d.startCycle n c w).applyEcho = d.applyEcho := by
  unfold Device.startCycle; by_cases h : d.outletState n = .off <;> simp_all [Device.outletState_eq, Device.enterState, admissionHandoffs, watchHandoffs]
@[simp] theorem Device.startCycle_watch (n : Outlet) (c : Cause) (w : Nat) : (d.startCycle n c w).watch = d.watch := by
  unfold Device.startCycle; by_cases h : d.outletState n = .off <;> simp_all [Device.outletState_eq, Device.enterState, admissionHandoffs, watchHandoffs]
@[simp] theorem Device.startCycle_suspendedSince (n : Outlet) (c : Cause) (w : Nat) : (d.startCycle n c w).suspendedSince = d.suspendedSince := by
  unfold Device.startCycle; by_cases h : d.outletState n = .off <;> simp_all [Device.outletState_eq, Device.enterState, admissionHandoffs, watchHandoffs]
@[simp] theorem Device.startCycle_admission (n : Outlet) (c : Cause) (w : Nat) : (d.startCycle n c w).admission = d.admission := by
  unfold Device.startCycle; by_cases h : d.outletState n = .off <;> simp_all [Device.outletState_eq, Device.enterState, admissionHandoffs, watchHandoffs]
@[simp] theorem Device.startCycle_reports (n : Outlet) (c : Cause) (w : Nat) : (d.startCycle n c w).reports = d.reports := by
  unfold Device.startCycle; by_cases h : d.outletState n = .off <;> simp_all [Device.outletState_eq, Device.enterState, admissionHandoffs, watchHandoffs]
@[simp] theorem Device.startCycle_mail (n : Outlet) (c : Cause) (w : Nat) : (d.startCycle n c w).mail = { d.mail with reports := d.mail.reports ++ (d.outlet[n]).cancelReport n (if d.outletState n = .off then .dwell else .opening) ++ [⟨.cycleStart, .outlet n, c.code, BitVec.ofNat 16 w⟩], toAdmission := d.mail.toAdmission ++ (if d.outletState n = .off then [] else admissionHandoffs n (d.outletState n) .opening), toWatch := d.mail.toWatch ++ (if d.outletState n = .off then [] else watchHandoffs n (d.outletState n) .opening) } := by
  unfold Device.startCycle; by_cases h : d.outletState n = .off <;> simp_all [Device.outletState_eq, Device.enterState, admissionHandoffs, watchHandoffs]
@[simp] theorem Device.startCycle_freeCount (n : Outlet) (c : Cause) (w : Nat) : (d.startCycle n c w).freeCount = d.freeCount := by
  unfold Device.startCycle; by_cases h : d.outletState n = .off <;> simp_all [Device.outletState_eq, Device.enterState, admissionHandoffs, watchHandoffs]

end Sys2Proof.Machine
end

