-- ==== Sys2Proof/Laws/Watches.lean ====
section
/-! SUPPORT. What the Hang Watch's operations leave: one lemma for each field of each operation; and that a change of a watch
context leaves its Status group published. -/

namespace Sys2Proof.Machine
open Sys2Proof

set_option linter.unusedSimpArgs false

variable (d : Device)

/-! ### reportVerdict -/

@[simp] theorem Device.reportVerdict_pins (n : Outlet) (a : VerdictAction) : (d.reportVerdict n a).pins = d.pins := by
  unfold Device.reportVerdict; simp
@[simp] theorem Device.reportVerdict_ram (n : Outlet) (a : VerdictAction) : (d.reportVerdict n a).ram = d.ram := by
  unfold Device.reportVerdict; simp
@[simp] theorem Device.reportVerdict_now (n : Outlet) (a : VerdictAction) : (d.reportVerdict n a).now = d.now := by
  unfold Device.reportVerdict; simp
@[simp] theorem Device.reportVerdict_path (n : Outlet) (a : VerdictAction) : (d.reportVerdict n a).path = d.path := by
  unfold Device.reportVerdict; simp
@[simp] theorem Device.reportVerdict_pub (n : Outlet) (a : VerdictAction) : (d.reportVerdict n a).pub = d.pub := by
  unfold Device.reportVerdict; simp
@[simp] theorem Device.reportVerdict_charter (n : Outlet) (a : VerdictAction) : (d.reportVerdict n a).charter = d.charter := by
  unfold Device.reportVerdict; simp
@[simp] theorem Device.reportVerdict_sampler (n : Outlet) (a : VerdictAction) : (d.reportVerdict n a).sampler = d.sampler := by
  unfold Device.reportVerdict; simp
@[simp] theorem Device.reportVerdict_engine (n : Outlet) (a : VerdictAction) : (d.reportVerdict n a).engine = d.engine := by
  unfold Device.reportVerdict; simp
@[simp] theorem Device.reportVerdict_outlet (n : Outlet) (a : VerdictAction) : (d.reportVerdict n a).outlet = d.outlet := by
  unfold Device.reportVerdict; simp
@[simp] theorem Device.reportVerdict_applyEcho (n : Outlet) (a : VerdictAction) : (d.reportVerdict n a).applyEcho = d.applyEcho := by
  unfold Device.reportVerdict; simp
@[simp] theorem Device.reportVerdict_watch (n : Outlet) (a : VerdictAction) : (d.reportVerdict n a).watch = d.watch := by
  unfold Device.reportVerdict; simp
@[simp] theorem Device.reportVerdict_suspendedSince (n : Outlet) (a : VerdictAction) : (d.reportVerdict n a).suspendedSince = d.suspendedSince := by
  unfold Device.reportVerdict; simp
@[simp] theorem Device.reportVerdict_admission (n : Outlet) (a : VerdictAction) : (d.reportVerdict n a).admission = d.admission := by
  unfold Device.reportVerdict; simp
@[simp] theorem Device.reportVerdict_reports (n : Outlet) (a : VerdictAction) : (d.reportVerdict n a).reports = d.reports := by
  unfold Device.reportVerdict; simp
@[simp] theorem Device.reportVerdict_mail (n : Outlet) (a : VerdictAction) : (d.reportVerdict n a).mail = { d.mail with reports := d.mail.reports ++ [⟨.verdict, .outlet n, verdictCauseCode (d.watch[n]).cause, a.code⟩] } := by
  unfold Device.reportVerdict; simp
@[simp] theorem Device.reportVerdict_freeCount (n : Outlet) (a : VerdictAction) : (d.reportVerdict n a).freeCount = d.freeCount := by
  unfold Device.reportVerdict; simp

/-! ### automaticCycle -/

@[simp] theorem Device.automaticCycle_pins (n : Outlet) : (d.automaticCycle n).pins = d.pins := by
  unfold Device.automaticCycle; simp
@[simp] theorem Device.automaticCycle_ram (n : Outlet) : (d.automaticCycle n).ram = d.ram := by
  unfold Device.automaticCycle; simp
@[simp] theorem Device.automaticCycle_now (n : Outlet) : (d.automaticCycle n).now = d.now := by
  unfold Device.automaticCycle; simp
@[simp] theorem Device.automaticCycle_path (n : Outlet) : (d.automaticCycle n).path = d.path := by
  unfold Device.automaticCycle; simp
@[simp] theorem Device.automaticCycle_charter (n : Outlet) : (d.automaticCycle n).charter = d.charter := by
  unfold Device.automaticCycle; simp
@[simp] theorem Device.automaticCycle_sampler (n : Outlet) : (d.automaticCycle n).sampler = d.sampler := by
  unfold Device.automaticCycle; simp
@[simp] theorem Device.automaticCycle_engine (n : Outlet) : (d.automaticCycle n).engine = d.engine := by
  unfold Device.automaticCycle; simp
@[simp] theorem Device.automaticCycle_outlet (n : Outlet) : (d.automaticCycle n).outlet = d.outlet := by
  unfold Device.automaticCycle; simp
@[simp] theorem Device.automaticCycle_applyEcho (n : Outlet) : (d.automaticCycle n).applyEcho = d.applyEcho := by
  unfold Device.automaticCycle; simp
@[simp] theorem Device.automaticCycle_watch (n : Outlet) : (d.automaticCycle n).watch = setAt d.watch n { d.watch[n] with recent := (d.watch[n]).recent ++ [d.charter.uptime], state := .idle, heldHeartbeat := (d.watch[n]).heartbeat, heartbeat := none, grace := none, confirm := none, outstanding := true, offSince := false, condH := false, condS := false } := by
  unfold Device.automaticCycle; simp
@[simp] theorem Device.automaticCycle_suspendedSince (n : Outlet) : (d.automaticCycle n).suspendedSince = d.suspendedSince := by
  unfold Device.automaticCycle; simp
@[simp] theorem Device.automaticCycle_admission (n : Outlet) : (d.automaticCycle n).admission = d.admission := by
  unfold Device.automaticCycle; simp
@[simp] theorem Device.automaticCycle_reports (n : Outlet) : (d.automaticCycle n).reports = d.reports := by
  unfold Device.automaticCycle; simp
@[simp] theorem Device.automaticCycle_mail (n : Outlet) : (d.automaticCycle n).mail = { d.mail with reports := d.mail.reports ++ [⟨.verdict, .outlet n, verdictCauseCode (d.watch[n]).cause, VerdictAction.cycled.code⟩], verdictCycles := d.mail.verdictCycles ++ [⟨n, d.clampDwell (d.defaultDwell n), d.charter.uptime⟩] } := by
  unfold Device.automaticCycle; simp
@[simp] theorem Device.automaticCycle_freeCount (n : Outlet) : (d.automaticCycle n).freeCount = d.freeCount := by
  unfold Device.automaticCycle; simp

/-! ### lockOut -/

@[simp] theorem Device.lockOut_pins (n : Outlet) : (d.lockOut n).pins = d.pins := by
  unfold Device.lockOut; simp
@[simp] theorem Device.lockOut_ram (n : Outlet) : (d.lockOut n).ram = d.ram := by
  unfold Device.lockOut; simp
@[simp] theorem Device.lockOut_now (n : Outlet) : (d.lockOut n).now = d.now := by
  unfold Device.lockOut; simp
@[simp] theorem Device.lockOut_path (n : Outlet) : (d.lockOut n).path = d.path := by
  unfold Device.lockOut; simp
@[simp] theorem Device.lockOut_charter (n : Outlet) : (d.lockOut n).charter = d.charter := by
  unfold Device.lockOut; simp
@[simp] theorem Device.lockOut_sampler (n : Outlet) : (d.lockOut n).sampler = d.sampler := by
  unfold Device.lockOut; simp
@[simp] theorem Device.lockOut_engine (n : Outlet) : (d.lockOut n).engine = d.engine := by
  unfold Device.lockOut; simp
@[simp] theorem Device.lockOut_outlet (n : Outlet) : (d.lockOut n).outlet = d.outlet := by
  unfold Device.lockOut; simp
@[simp] theorem Device.lockOut_applyEcho (n : Outlet) : (d.lockOut n).applyEcho = d.applyEcho := by
  unfold Device.lockOut; simp
@[simp] theorem Device.lockOut_watch (n : Outlet) : (d.lockOut n).watch = setAt d.watch n { d.watch[n] with state := .lockedOut, grace := none, heartbeat := none, confirm := none, condH := false, condS := false } := by
  unfold Device.lockOut; simp
@[simp] theorem Device.lockOut_suspendedSince (n : Outlet) : (d.lockOut n).suspendedSince = d.suspendedSince := by
  unfold Device.lockOut; simp
@[simp] theorem Device.lockOut_admission (n : Outlet) : (d.lockOut n).admission = d.admission := by
  unfold Device.lockOut; simp
@[simp] theorem Device.lockOut_reports (n : Outlet) : (d.lockOut n).reports = d.reports := by
  unfold Device.lockOut; simp
@[simp] theorem Device.lockOut_mail (n : Outlet) : (d.lockOut n).mail = { d.mail with reports := d.mail.reports ++ [⟨.verdict, .outlet n, verdictCauseCode (d.watch[n]).cause, VerdictAction.lockedOut.code⟩] } := by
  unfold Device.lockOut; simp
@[simp] theorem Device.lockOut_freeCount (n : Outlet) : (d.lockOut n).freeCount = d.freeCount := by
  unfold Device.lockOut; simp

@[simp] theorem Device.decideVerdict_pins (n : Outlet) : (d.decideVerdict n).pins = d.pins := by
  unfold Device.decideVerdict; (repeat' split) <;> simp
@[simp] theorem Device.decideVerdict_ram (n : Outlet) : (d.decideVerdict n).ram = d.ram := by
  unfold Device.decideVerdict; (repeat' split) <;> simp
@[simp] theorem Device.decideVerdict_now (n : Outlet) : (d.decideVerdict n).now = d.now := by
  unfold Device.decideVerdict; (repeat' split) <;> simp
@[simp] theorem Device.decideVerdict_path (n : Outlet) : (d.decideVerdict n).path = d.path := by
  unfold Device.decideVerdict; (repeat' split) <;> simp
@[simp] theorem Device.decideVerdict_charter (n : Outlet) : (d.decideVerdict n).charter = d.charter := by
  unfold Device.decideVerdict; (repeat' split) <;> simp
@[simp] theorem Device.decideVerdict_sampler (n : Outlet) : (d.decideVerdict n).sampler = d.sampler := by
  unfold Device.decideVerdict; (repeat' split) <;> simp
@[simp] theorem Device.decideVerdict_engine (n : Outlet) : (d.decideVerdict n).engine = d.engine := by
  unfold Device.decideVerdict; (repeat' split) <;> simp
@[simp] theorem Device.decideVerdict_outlet (n : Outlet) : (d.decideVerdict n).outlet = d.outlet := by
  unfold Device.decideVerdict; (repeat' split) <;> simp
@[simp] theorem Device.decideVerdict_applyEcho (n : Outlet) : (d.decideVerdict n).applyEcho = d.applyEcho := by
  unfold Device.decideVerdict; (repeat' split) <;> simp
@[simp] theorem Device.decideVerdict_suspendedSince (n : Outlet) : (d.decideVerdict n).suspendedSince = d.suspendedSince := by
  unfold Device.decideVerdict; (repeat' split) <;> simp
@[simp] theorem Device.decideVerdict_admission (n : Outlet) : (d.decideVerdict n).admission = d.admission := by
  unfold Device.decideVerdict; (repeat' split) <;> simp
@[simp] theorem Device.decideVerdict_reports (n : Outlet) : (d.decideVerdict n).reports = d.reports := by
  unfold Device.decideVerdict; (repeat' split) <;> simp
@[simp] theorem Device.decideVerdict_freeCount (n : Outlet) : (d.decideVerdict n).freeCount = d.freeCount := by
  unfold Device.decideVerdict; (repeat' split) <;> simp

/-- With no event on its way the Hang Watch has nothing to take. -/
theorem Device.takeWatchMessages_none (h : d.mail.toWatch = []) : d.takeWatchMessages = d := by
  unfold Device.takeWatchMessages
  rw [h]
  show { d with mail := { d.mail with toWatch := [] } } = d
  rw [← h]

/-- A change of a watch context leaves its Status group published. -/
theorem Device.Published.modWatch {d : Device} (hs : d.inService = true) (n : Outlet) (f : WatchContext → WatchContext)
    (h : d.Published (.status n)) : (d.modWatch n f).Published (.status n) := by
  unfold Device.modWatch
  split
  · rename_i hw
    exact h.congr rfl hw
  · exact Device.published_publishStatus (d := d.setWatch n f) hs n

/-- A change of an outlet's context leaves its Status group published. -/
theorem Device.Published.modOutlet {d : Device} (hs : d.inService = true) (n : Outlet)
    (f : OutletContext → OutletContext) (h : d.Published (.status n)) : (d.modOutlet n f).Published (.status n) := by
  unfold Device.modOutlet
  split
  · rename_i hw
    exact h.congr rfl hw
  · exact Device.published_publishStatus (d := d.setOutlet n f) hs n

/-- What leaves the queue and the two contexts leaves the Status group published. -/
theorem Device.Published.status {d e : Device} {n : Outlet} (h : d.Published (.status n)) (hp : e.pub = d.pub)
    (ho : e.outlet = d.outlet) (hw : e.watch = d.watch) : e.Published (.status n) :=
  h.congr (by rw [hp]) (Device.statusWords_congr n (by rw [ho]) (by rw [hw]))

/-- A verdict decision leaves the outlet's Status group published. -/
theorem Device.Published.decideVerdict {d : Device} (hs : d.inService = true) (n : Outlet)
    (h : d.Published (.status n)) : (d.decideVerdict n).Published (.status n) := by
  have hr : ∀ a, (d.reportVerdict n a).inService = true := fun a => by
    rw [Device.inService_congr_charter (d := d) (by simp)]; exact hs
  have hq : ∀ a, (d.reportVerdict n a).Published (.status n) := fun a => h.status (by simp) (by simp) (by simp)
  unfold Device.decideVerdict
  split
  · exact hq .held
  · split
    · unfold Device.automaticCycle
      dsimp only
      exact Device.Published.status (Device.Published.modWatch (hr .cycled) n _ (hq .cycled)) rfl rfl rfl
    · unfold Device.lockOut
      exact Device.Published.modWatch (hr .lockedOut) n _ (hq .lockedOut)

end Sys2Proof.Machine
end

