-- ==== Sys2Proof/Laws/Frames.lean ====
section
/-! SUPPORT. Frames: that a block is untouched but for some parts composes, through folds and through free orders; free
orders as permutations; and the frames of head evaluation, of released verdicts and of predicate evaluation. -/

namespace Sys2Proof.Machine
open Sys2Proof

theorem Device.Untouched.refl (d : Device) (c : List Part) : d.Untouched d c := fun p _ => by cases p <;> rfl

theorem Device.Untouched.trans {d e f : Device} {c : List Part} (h : d.Untouched e c) (k : e.Untouched f c) :
    d.Untouched f c := fun p hp => by
  have h1 := h p hp
  have h2 := k p hp
  cases p <;> exact Eq.trans h2 h1

theorem Device.Untouched.mono {d e : Device} {c c' : List Part} (h : d.Untouched e c) (hc : ∀ p ∈ c, p ∈ c') :
    d.Untouched e c' := fun p hp => h p fun hx => hp (hc p hx)

/-- A fold of rounds that each stay within some parts stays within them. -/
theorem Device.Untouched.foldl {α : Type} {c : List Part} (f : Device → α → Device)
    (hf : ∀ (d : Device) a, d.Untouched (f d a) c) (xs : List α) (d : Device) : d.Untouched (xs.foldl f d) c := by
  induction xs generalizing d with
  | nil => exact .refl d c
  | cons x xs ih => exact (hf d x).trans (ih _)

/-- A free order of rounds that each stay within some parts stays within them and the free counter. -/
theorem Device.Untouched.inFreeOrder {α : Type} {c : List Part} (index : α → Nat) (work : Device → α → Device)
    (hf : ∀ (d : Device) a, d.Untouched (work d a) c) (hc : Part.freeCount ∈ c) (xs : List α) (d : Device) :
    d.Untouched (d.inFreeOrder index work xs) c := by
  unfold Device.inFreeOrder
  split
  · exact .refl d c
  · exact hf _ _
  · refine .trans ?_ (.foldl work hf _ _)
    intro p hp
    cases p <;> first | rfl | exact absurd hc hp

/-! ## Free orders -/

theorem insertByKey_perm {α : Type} (key : α → Nat) (x : α) (ys : List α) : (insertByKey key x ys).Perm (x :: ys) := by
  induction ys with
  | nil => exact .refl _
  | cons y ys ih =>
    unfold insertByKey
    split
    · exact .refl _
    · exact (ih.cons y).trans (.swap x y ys)

theorem sortByKey_perm {α : Type} (key : α → Nat) (xs : List α) : (sortByKey key xs).Perm xs := by
  induction xs with
  | nil => exact .refl _
  | cons x xs ih => exact (insertByKey_perm key x _).trans (ih.cons x)

/-- A free order is some order: the rounds run over a permutation of the list. -/
theorem Device.inFreeOrder_perm {α : Type} (index : α → Nat) (work : Device → α → Device) (xs : List α) (d : Device) :
    ∃ (ys : List α) (k : Nat), ys.Perm xs ∧ d.inFreeOrder index work xs = ys.foldl work { d with freeCount := k } := by
  unfold Device.inFreeOrder
  split
  · exact ⟨[], d.freeCount, .refl _, rfl⟩
  · rename_i x
    exact ⟨[x], d.freeCount, .refl _, rfl⟩
  · exact ⟨_, _, sortByKey_perm _ _, rfl⟩

/-! ## Head evaluation (R157, R162) -/

/-- The parts that the evaluation of one head may change. -/
def headParts : List Part := [.admission, .mail, .engine, .pub]

/-- The parts that an evaluation of heads may change. -/
def admissionParts : List Part := [.admission, .mail, .engine, .pub, .freeCount]

theorem Device.grant_frame (d : Device) (b : Branch) (e : QueueEntry) (rest : List QueueEntry) :
    d.Untouched (d.grant b e rest) headParts := by
  intro p hp
  unfold Device.grant Device.occupySlot
  cases p <;> first
    | exact absurd hp (by decide)
    | simp [Part.same, Device.changeReserved]

theorem Device.evaluateHead_frame (d : Device) (b : Branch) : d.Untouched (d.evaluateHead b) headParts := by
  unfold Device.evaluateHead
  split
  · exact .refl _ _
  · split
    · exact Device.grant_frame _ _ _ _
    · intro p hp
      cases p <;> first
        | exact absurd hp (by decide)
        | simp [Part.same]

theorem Device.evaluateHeads_frame (d : Device) : d.Untouched d.evaluateHeads admissionParts :=
  .inFreeOrder _ _ (fun d b => (Device.evaluateHead_frame d b).mono (by decide)) (by decide) _ _

/-- A publication of a branch group leaves the outlets' meters. -/
theorem Device.publishBranch_outlets (d : Device) (b : Branch) :
    (d.publishBranch b).engine.outlets = d.engine.outlets := by
  unfold Device.publishBranch
  split <;> simp

theorem Device.evaluateHead_outlets (d : Device) (b : Branch) :
    (d.evaluateHead b).engine.outlets = d.engine.outlets := by
  unfold Device.evaluateHead
  split
  · rfl
  · split
    · unfold Device.grant Device.occupySlot
      simp [Device.publishBranch_outlets, Device.changeReserved]
    · rfl

theorem Device.evaluateHeads_outlets (d : Device) : d.evaluateHeads.engine.outlets = d.engine.outlets :=
  inFreeOrder_keeps (fun e => e.engine.outlets = d.engine.outlets) _ _
    (fun e b he => (Device.evaluateHead_outlets e b).trans he) (fun _ _ he => he) _ _ rfl

theorem Device.evaluateHead_reports (d : Device) (b : Branch) : (d.evaluateHead b).mail.reports = d.mail.reports := by
  unfold Device.evaluateHead
  split
  · rfl
  · split
    · unfold Device.grant Device.occupySlot
      simp [Device.changeReserved]
    · rfl

/-- An evaluation of heads makes no report. -/
theorem Device.evaluateHeads_reports (d : Device) : d.evaluateHeads.mail.reports = d.mail.reports :=
  inFreeOrder_keeps (fun e => e.mail.reports = d.mail.reports) _ _
    (fun e b he => (Device.evaluateHead_reports e b).trans he) (fun _ _ he => he) _ _ rfl

/-! ## Verdicts (R143, R147) -/

/-- The parts that a verdict decision may change. -/
def verdictParts : List Part := [.watch, .mail, .pub, .freeCount]

theorem Device.decideVerdict_frame (d : Device) (n : Outlet) : d.Untouched (d.decideVerdict n) verdictParts := by
  intro p hp
  cases p <;> first
    | exact absurd hp (by decide)
    | simp [Part.same]

theorem Device.releaseVerdicts_frame (d : Device) : d.Untouched d.releaseVerdicts verdictParts :=
  .inFreeOrder _ _ Device.decideVerdict_frame (by decide) _ _

/-- A verdict decision adds to the reports handed over. -/
theorem Device.decideVerdict_adds_reports (d : Device) (n : Outlet) :
    ∃ more, (d.decideVerdict n).mail.reports = d.mail.reports ++ more := by
  unfold Device.decideVerdict
  split
  · exact ⟨_, by simp; rfl⟩
  · split
    · exact ⟨_, by simp; rfl⟩
    · exact ⟨_, by simp; rfl⟩

theorem Device.releaseVerdicts_adds_reports (d : Device) :
    ∃ more, d.releaseVerdicts.mail.reports = d.mail.reports ++ more := by
  refine inFreeOrder_keeps (fun e => ∃ more, e.mail.reports = d.mail.reports ++ more) _ _ ?_ (fun _ _ he => he) _ _
    ⟨[], by simp⟩
  rintro e n ⟨more, he⟩
  obtain ⟨more', he'⟩ := Device.decideVerdict_adds_reports e n
  exact ⟨more ++ more', by rw [he', he, List.append_assoc]⟩

end Sys2Proof.Machine
end

