-- ==== Sys2Proof/Laws/Settling.lean ====
section
/-! SUPPORT. What an event leaves of one context, whole: entry to GRACE and to WATCHING, the end of INRUSH, relay operations that
complete, and the checks of a close, each as the words of Safety.lean say it. -/

namespace Sys2Proof.Machine
open Sys2Proof

set_option linter.unusedSimpArgs false
set_option linter.unusedTactic false
set_option linter.unreachableTactic false

/-! ## Watches -/

/-- A change of a watch context stays within the watch contexts and the Publication Unit. -/
theorem Device.modWatch_frame (d : Device) (n : Outlet) (f : WatchContext → WatchContext) : d.Untouched (d.modWatch n f) [.watch, .pub] := by
  intro p hp; cases p <;> first | exact absurd hp (by decide) | simp [Part.same]

/-- Entry to WATCHING (R132, R150). -/
theorem WatchContext.watchingAfresh_eq (w : WatchContext) : w.watchingAfresh = w.fresh := by
  unfold WatchContext.watchingAfresh WatchContext.fresh
  cases w.policy <;> simp [WatchPolicy.usesHeartbeat]

/-- An off event (R130). -/
theorem WatchContext.idled_eq (w : WatchContext) : w.idled = { w.stopped with offSince := w.outstanding } := rfl

/-- The predicate (R137). -/
theorem WatchContext.predicate_eq (w : WatchContext) : w.predicate = w.suspicious := by
  unfold WatchContext.predicate WatchContext.suspicious WatchPolicy.predicate
  cases w.policy <;> rfl

/-- A predicate evaluated in SUSPECT or HUNG (R138, R147). -/
theorem WatchContext.lapsed_eq (w : WatchContext) : (if w.predicate then w else w.lapsed) = w.cleared := by
  unfold WatchContext.cleared WatchContext.lapsed
  rw [WatchContext.predicate_eq]
  cases w.suspicious <;> cases h : w.state <;> simp

/-- Entry to GRACE, whole (R132). -/
theorem Device.enterGrace_spec (d : Device) (n : Outlet) : d.Untouched (d.enterGrace n) [.watch, .pub] ∧ (d.enterGrace n).watch = setAt d.watch n ((d.watch[n]).graced (min 3600 (d.outletField n 7))) := by
  unfold Device.enterGrace WatchContext.graced Device.bootGrace clampNat
  simp only [Nat.zero_max]
  split
  · exact ⟨Device.modWatch_frame _ _ _, by simp [WatchContext.watchingAfresh_eq]⟩
  · exact ⟨Device.modWatch_frame _ _ _, by simp⟩

/-- One watch context replaced. -/
theorem Device.OtherWatchesStand.of_setAt {d d' : Device} {n : Outlet} {w : WatchContext} (h : d'.watch = setAt d.watch n w) : d.OtherWatchesStand d' n ∧ d'.watch[n] = w := by
  constructor
  · intro m hm
    have : n ≠ m := Ne.symm hm
    rw [h]; simp [this]
  · rw [h]; simp

/-! ## Outlets -/

/-- One outlet's context replaced. -/
theorem Device.OthersStand.of_setAt {d d' : Device} {n : Outlet} {w : OutletContext} (h : d'.outlet = setAt d.outlet n w) : d.OthersStand d' n ∧ d'.outlet[n] = w := by
  constructor
  · intro m hm
    have : n ≠ m := Ne.symm hm
    rw [h]; simp [this]
  · rw [h]; simp

/-- The end of INRUSH, whole (R93, R96). -/
theorem Device.endInrush_spec (L : Device) (n : Outlet) (o : OutletContext) (ho : L.outlet[n.val] = o) (hs : o.state = .inrush) :
    L.Untouched (L.endInrush n) [.outlet, .pub, .mail] ∧
    (L.endInrush n).outlet = setAt L.outlet n { o with state := .on, since := L.charter.uptime, inrush := none, mismatch := 0, intent := none } ∧
    (L.endInrush n).mail = { L.mail with
          reports := L.mail.reports ++
            match o.intent with
            | none => []
            | some i => [⟨.cycleDone, .outlet n, i.cause.code,
                BitVec.ofNat 16 (min (i.reclosedAt.getD 0 - i.openSince.getD 0) 65535)⟩]
          toAdmission := L.mail.toAdmission ++ [.release n]
          toWatch := L.mail.toWatch ++ [.on n] } := by
  unfold Device.endInrush
  simp only [Fin.getElem_fin, ho]
  obtain ⟨i, hi⟩ : ∃ i, o.intent = i := ⟨_, rfl⟩
  simp only [hi]
  cases i with
  | none =>
    refine ⟨?_, ?_, ?_⟩
    · intro p hp; cases p <;> first | exact absurd hp (by decide) | simp [Part.same]
    · simp [ho, Device.enterState, OutletState.expected, hs, hi]
    · simp [ho, hs, Device.outletState_eq, admissionHandoffs, watchHandoffs]
  | some i =>
    refine ⟨?_, ?_, ?_⟩
    · intro p hp; cases p <;> first | exact absurd hp (by decide) | simp [Part.same]
    · simp [ho, Device.enterState, OutletState.expected, hs, hi]
    · simp [ho, hs, Device.outletState_eq, admissionHandoffs, watchHandoffs, offTime, satWord]

/-- CLOSING completes with nothing deferred (R89). -/
theorem Device.completeClosing_spec (L : Device) (n : Outlet) (sense : Sense) (o : OutletContext) (ho : L.outlet[n.val] = o) (hs : o.state = .closing) (hd : o.deferred = none) :
    L.Untouched (L.completeClosing n sense) [.pins, .outlet, .pub, .mail] ∧
    (sense = .closed → (L.completeClosing n sense).outlet = setAt L.outlet n { o with operation := none, sensed := sense, state := .inrush, since := L.charter.uptime, mismatch := 0, inrush := some (L.charter.settings.inrushWindow * 1000), intent := o.intent.map fun i : Intent => { i with reclosedAt := some L.charter.uptime } } ∧ (L.completeClosing n sense).mail = L.mail) ∧
    (sense = .opened → (L.completeClosing n sense).outlet = setAt L.outlet n ({ o with operation := none, sensed := sense }.faulted .failedClose L.charter.uptime) ∧ (L.completeClosing n sense).mail = { L.mail with reports := L.mail.reports ++ ⟨.relayFault, .outlet n, FaultKind.failedClose.code, o.state.code⟩ :: o.cancelReport n .fault, toAdmission := L.mail.toAdmission ++ [.release n] }) := by
  unfold Device.completeClosing Device.takeDeferred
  cases sense
  · simp [ho, hd]
    refine ⟨?_, ?_, ?_⟩
    · intro p hp; cases p <;> first | exact absurd hp (by decide) | simp [Part.same]
    · simp [ho, Device.enterState, OutletState.expected, hs, OutletContext.faulted]
    · simp [ho, hs, Device.outletState_eq, admissionHandoffs, watchHandoffs, OutletContext.cancelReport]
  · simp [ho, hd]
    refine ⟨?_, ?_, ?_⟩
    · intro p hp; cases p <;> first | exact absurd hp (by decide) | simp [Part.same]
    · simp [ho, Device.enterState, OutletState.expected, hs, OutletContext.faulted]
    · simp [ho, hs, Device.outletState_eq, admissionHandoffs, watchHandoffs, OutletContext.cancelReport]

/-- OPENING completes with nothing deferred (R90, R99). -/
theorem Device.completeOpening_spec (L : Device) (n : Outlet) (sense : Sense) (o : OutletContext) (ho : L.outlet[n.val] = o) (hs : o.state = .opening) (hd : o.deferred = none) :
    L.Untouched (L.completeOpening n sense) [.pins, .outlet, .pub, .mail] ∧
    (sense = .closed → (L.completeOpening n sense).outlet = setAt L.outlet n ({ o with operation := none, sensed := sense }.faulted .welded L.charter.uptime) ∧ (L.completeOpening n sense).mail = { L.mail with reports := L.mail.reports ++ ⟨.relayFault, .outlet n, FaultKind.welded.code, o.state.code⟩ :: o.cancelReport n .fault }) ∧
    (∀ i, o.intent = some i → sense = .opened → (L.completeOpening n sense).outlet = setAt L.outlet n { o with operation := none, sensed := sense, state := .dwell, since := L.charter.uptime, mismatch := 0, leakCount := 0, leakSkip := true, intent := some { i with openSince := some L.charter.uptime }, dwell := some (i.dwell * 1000000) } ∧ (L.completeOpening n sense).mail = L.mail) ∧
    (o.intent = none → sense = .opened → (L.completeOpening n sense).outlet = setAt L.outlet n { o with operation := none, sensed := sense, state := if o.mode = .alwaysOn then .queued else .off, since := L.charter.uptime, mismatch := 0, leakCount := 0, leakSkip := true } ∧ (L.completeOpening n sense).mail = { L.mail with toAdmission := L.mail.toAdmission ++ if o.mode = .alwaysOn then [.join n] else [] })
          := by
  unfold Device.completeOpening Device.takeDeferred
  obtain ⟨it, hit⟩ : ∃ it, o.intent = it := ⟨_, rfl⟩
  cases sense
  · cases it
    · have hal : ∀ x : Device, x.outlet[n.val] = { o with operation := none, sensed := .opened } → x.alwaysOn n = decide (o.mode = .alwaysOn) := by
        intro x hx; rw [Device.alwaysOn_eq, hx]
      by_cases hmm : o.mode = .alwaysOn
      all_goals
        simp [ho, hd, hit, Device.alwaysOn_eq, hmm]
      all_goals refine ⟨?_, ?_, ?_⟩
      all_goals first
        | (intro p hp; cases p <;> first | exact absurd hp (by decide) | (simp [Part.same, ho, hd, hit, Device.alwaysOn_eq, hmm]; done))
        | (simp [ho, Device.enterState, OutletState.expected, hs, hmm, hit, Device.alwaysOn_eq]; done)
        | (simp [ho, hs, Device.outletState_eq, admissionHandoffs, watchHandoffs, hmm, hit, Device.alwaysOn_eq]; done)
        | skip
    · simp [ho, hd, hit]
      refine ⟨?_, ?_, ?_⟩
      · intro p hp; cases p <;> first | exact absurd hp (by decide) | simp [Part.same]
      · simp [ho, Device.enterState, OutletState.expected, hs, hit]
      · simp [ho, hs, Device.outletState_eq, admissionHandoffs, watchHandoffs, hit]
  · simp [ho, hd]
    refine ⟨?_, ?_, ?_⟩
    · intro p hp; cases p <;> first | exact absurd hp (by decide) | simp [Part.same]
    · simp [ho, Device.enterState, OutletState.expected, hs, OutletContext.faulted]
    · simp [ho, hs, Device.outletState_eq, admissionHandoffs, watchHandoffs, OutletContext.cancelReport]

/-- CLOSING completes with a SWITCH_OFF deferred (R91). -/
theorem Device.completeClosing_switchOff (L : Device) (n : Outlet) (o : OutletContext) (tag arg) (ho : L.outlet[n.val] = o) (hs : o.state = .closing) (hd : o.deferred = some (.request .switchOff tag arg)) (hr : L.running = true) (hh : L.pins.hold = false) (hm : o.mode ≠ .alwaysOn) :
    L.Untouched (L.completeClosing n .closed) [.pins, .outlet, .pub, .mail] ∧
    (L.completeClosing n .closed).outlet = setAt L.outlet n ({ o with operation := some (.opening, Config.operateTime), sensed := .closed, state := .opening, since := L.charter.uptime, mismatch := 0, inrush := none, intent := none, deferred := none}.echo tag .taken) ∧ (L.completeClosing n .closed).mail = { L.mail with reports := L.mail.reports ++ o.cancelReport n .opening, toAdmission := L.mail.toAdmission ++ [.release n] } := by
  have hnh : L.charter.state ≠ .halted := by rw [Device.state_of_running hr]; simp
  have hmo : ∀ x : Device, x.charter = L.charter → x.pins.hold = false → x.mayOperate = true := by
    intro x h1 h2; unfold Device.mayOperate Device.running; rw [h1, Device.state_of_running hr, h2]; rfl
  have hmo' : ∀ x : Device, x.charter = L.charter → x.pins.hold = false → x.running = true := by
    intro x h1 h2; unfold Device.running; rw [h1, Device.state_of_running hr]; rfl
  unfold Device.completeClosing Device.takeDeferred
  simp [ho, hd, hnh]
  unfold Device.handleCode Device.switchOff
  simp [ho, Device.outletState_eq, Device.alwaysOn_eq, hm, Device.mayOperate, Device.running, Device.state_of_running hr, hh]
  refine ⟨?_, ?_, ?_⟩
  · intro p hp; cases p <;> first | exact absurd hp (by decide) | simp [Part.same]
  · simp [ho, Device.enterState, OutletState.expected, hs, OutletContext.echo]
  · simp [ho, hs, Device.outletState_eq, admissionHandoffs, watchHandoffs, OutletContext.cancelReport]
    cases o.intent <;> simp

/-- The settled-sense check (R103). -/
theorem Device.settledCheck_spec (L : Device) (n : Outlet) (o : OutletContext) (ho : L.outlet[n.val] = o) :
    (L.settledCheck n).outlet = setAt L.outlet n (o.settledBy L.charter.uptime) := by
  have hself : setAt L.outlet n o = L.outlet := by rw [← ho]; simp
  unfold Device.settledCheck OutletContext.settledBy OutletState.expected
  simp only [Fin.getElem_fin, ho]
  obtain ⟨state, operation, sensed, intent, lastCause, inrush, dwell, deferred, staged, fault, since, leakCount, leakSkip,
    mismatch, echoTag, echoResult, mode⟩ := o
  cases mismatch with
  | zero => cases state <;> cases sensed <;> simp [ho, hself]
  | succ k =>
    cases state <;> cases sensed <;>
      simp [ho, hself, Device.enterState, OutletState.expected, OutletContext.faulted]

/-- Both checks of a close (R102, R103). -/
theorem Device.checks_spec (L : Device) (n : Outlet) (o : OutletContext) (item : SenseItem) (ho : L.outlet[n.val] = o) :
    ((L.leakCheck n item).settledCheck n).outlet = setAt L.outlet n (o.checked item L.charter.uptime) := by
  have hself : setAt L.outlet n o = L.outlet := by rw [← ho]; simp
  unfold Device.leakCheck OutletContext.checked
  simp only [Fin.getElem_fin, ho]
  by_cases hod : o.state = .off ∨ o.state = .dwell
  · have hnod : ¬ (o.state ≠ .off ∧ o.state ≠ .dwell) := by tauto
    rw [if_pos hod, if_neg hnod]
    by_cases hl : o.leakSkip = true
    · rw [if_pos hl, if_pos hl, Device.settledCheck_spec _ _ { o with leakSkip := false } (by simp [ho])]
      simp [ho]
    · rw [if_neg hl, if_neg hl]
      have hc : Device.leakCountAfter item o.sensed o.leakCount = (if item.scanned = false then 0
    else if item.quality.noSamples = true then o.leakCount
    else if o.sensed = .opened ∧ 250 ≤ item.current then o.leakCount + 1
    else 0) := by
        unfold Device.leakCountAfter Config.leakCurrent
        cases item.scanned <;> cases item.quality.noSamples <;> cases o.sensed <;> simp
      rw [hc]
      generalize (if item.scanned = false then 0
    else if item.quality.noSamples = true then o.leakCount
    else if o.sensed = .opened ∧ 250 ≤ item.current then o.leakCount + 1
    else 0) = k
      by_cases hk : 2 ≤ k
      · rw [if_pos hk]
        simp only [hk, if_true]
        have hos : ((L.setOutlet n fun o => { o with leakCount := k }).enterFault n .currentWhileOff).outlet[n.val] = { o with leakCount := k }.faulted .currentWhileOff L.charter.uptime := by
          rcases hod with h | h <;> simp [ho, Device.enterState, OutletState.expected, OutletContext.faulted, h]
        rw [Device.settledCheck_spec _ _ _ hos]
        have : (OutletContext.settledBy ({ o with leakCount := k }.faulted .currentWhileOff L.charter.uptime) ((L.setOutlet n fun o => { o with leakCount := k }).enterFault n .currentWhileOff).charter.uptime) = { o with leakCount := k }.faulted .currentWhileOff L.charter.uptime := by
          unfold OutletContext.settledBy OutletContext.faulted; rfl
        rw [this]
        rcases hod with h | h <;> simp [ho, Device.enterState, OutletState.expected, OutletContext.faulted, h]
      · rw [if_neg hk]
        simp only [hk, if_false]
        rw [Device.settledCheck_spec _ _ { o with leakCount := k } (by simp [ho])]
        simp [ho]
  · have hnod : (o.state ≠ .off ∧ o.state ≠ .dwell) := by tauto
    rw [if_neg hod, if_pos hnod, Device.settledCheck_spec _ _ o ho]

end Sys2Proof.Machine
end

