-- ==== Sys2Proof/Laws/Closing.lean ====
section
/-! SUPPORT. Locks, in the words of Safety.lean, and what the checks of a close leave alone. -/

namespace Sys2Proof.Machine
open Sys2Proof

/-! ## Locks (R6) -/

/-- A lock is on (R6). -/
theorem Device.lockOn_iff (d : Device) (off : Nat) : d.lockOn off = true ↔ d.LockedBy off := by
  unfold Device.lockOn Device.swept Device.LockedBy
  cases h : d.charter.sweepPosition <;> by_cases hs : d.charter.state = .sweeping <;> simp [hs]

/-! ## The checks of a close (R102, R103) -/

/-- The checks of a close change outlet contexts, publish, report and hand on; nothing else. -/
abbrev Device.OnlyChecked (d d' : Device) : Prop :=
  d' = { d with
    outlet := d'.outlet, pub := d'.pub
    mail := { d.mail with reports := d'.mail.reports, toAdmission := d'.mail.toAdmission, toWatch := d'.mail.toWatch } }

theorem Device.OnlyChecked.trans {d e f : Device} (h : d.OnlyChecked e) (k : e.OnlyChecked f) : d.OnlyChecked f := by
  unfold Device.OnlyChecked at h k ⊢
  rw [k, h]

/-- A block is its parts. -/
theorem Device.eta (d : Device) : d = ⟨d.pins, d.ram, d.now, d.path, d.pub, d.charter, d.sampler, d.engine, d.outlet, d.applyEcho,
    d.watch, d.suspendedSince, d.admission, d.reports, d.mail, d.freeCount⟩ := rfl

/-- Entry to FAULT (R104). -/
theorem Device.enterFault_onlyChecked (d : Device) (n : Outlet) (k : FaultKind) : d.OnlyChecked (d.enterFault n k) := by
  refine (Device.eta _).trans ?_
  simp
/-- The leak check. -/
theorem Device.leakCheck_onlyChecked (d : Device) (n : Outlet) (item : SenseItem) : d.OnlyChecked (d.leakCheck n item) := by
  unfold Device.leakCheck
  dsimp only
  split
  · split
    · rfl
    · split
      · exact Device.OnlyChecked.trans rfl (Device.enterFault_onlyChecked _ _ _)
      · rfl
  · rfl
/-- The settled-sense check. -/
theorem Device.settledCheck_onlyChecked (d : Device) (n : Outlet) : d.OnlyChecked (d.settledCheck n) := by
  unfold Device.settledCheck
  dsimp only
  split
  · rfl
  · rename_i s _
    generalize (if (d.outlet[n]).sensed = s then 0 else (d.outlet[n]).mismatch + 1) = count
    split
    · exact Device.OnlyChecked.trans rfl (Device.enterFault_onlyChecked _ _ _)
    · rfl
/-- One outlet's checks. -/
theorem Device.checkOutlet_onlyChecked (h : SenseHandoff) (d : Device) (n : Outlet) : d.OnlyChecked (d.checkOutlet h n) := by
  unfold Device.checkOutlet
  split
  · exact (Device.leakCheck_onlyChecked _ _ _).trans (Device.settledCheck_onlyChecked _ _)
  · rfl
/-- The checks of a close. -/
theorem Device.checkClose_onlyChecked (d : Device) (h : SenseHandoff) : d.OnlyChecked (d.checkClose h) := by
  unfold Device.checkClose
  split
  · rename_i hs
    clear hs
    generalize outlets = ns
    induction ns generalizing d with
    | nil => rfl
    | cons n ns ih => exact (Device.checkOutlet_onlyChecked h d n).trans (ih _)
  · rfl
/-- A close is taken from the front of those handed over, and its checks leave the closes that wait (R101). -/
theorem Device.takeChecks_mail (d : Device) (h : SenseHandoff) :
    (d.takeChecks h).mail.senses = d.mail.senses.tail ∧ (d.takeChecks h).mail.closes = d.mail.closes := by
  have hc := Device.checkClose_onlyChecked { d with mail := { d.mail with senses := d.mail.senses.tail } } h
  unfold Device.takeChecks
  exact ⟨by rw [hc], by rw [hc]⟩

end Sys2Proof.Machine
end

