-- ==== Sys2Proof/Laws/Heads.lean ====
section
/-! SUPPORT. What the evaluation of heads does (R156 to R162): one head blocked or granted, and every head in whatever
order. -/

namespace Sys2Proof.Machine
open Sys2Proof

/-! ## One head -/

theorem Device.evaluateHead_empty {d : Device} {b : Branch} (h : d.admission.queues[b] = []) : d.evaluateHead b = d := by
  unfold Device.evaluateHead Device.branchQueue
  rw [h]

theorem Device.evaluateHead_blocked {d : Device} {b : Branch} {e : QueueEntry} {rest : List QueueEntry} {r : BlockReason}
    (h : d.admission.queues[b] = e :: rest) (hr : d.blockReason b e.outlet = some r) :
    d.evaluateHead b = { d with admission := { d.admission with
      tenures := setAt d.admission.tenures b (d.admission.tenures[b].map fun t : Tenure => { t with reason := some r }) } } := by
  unfold Device.evaluateHead Device.branchQueue
  rw [h]
  dsimp only
  rw [hr]
  rfl

theorem Device.evaluateHead_granted {d : Device} {b : Branch} {e : QueueEntry} {rest : List QueueEntry}
    (h : d.admission.queues[b] = e :: rest) (hr : d.blockReason b e.outlet = none) :
    (d.evaluateHead b).admission = { d.admission with
        queues := setAt d.admission.queues b rest
        slots := setAt d.admission.slots b (some ⟨e.outlet, d.inrushEstimate e.outlet, false, e.rank⟩)
        reserved :=
          { branch := setAt d.admission.reserved.branch b (d.admission.reserved.branch[b] + d.inrushEstimate e.outlet)
            phase := setAt d.admission.reserved.phase b.phase
              (d.admission.reserved.phase[b.phase] + d.inrushEstimate e.outlet)
            inlet := d.admission.reserved.inlet + d.inrushEstimate e.outlet }
        tenures := setAt d.admission.tenures b (if rest.isEmpty then none else some ⟨d.charter.uptime, false, some .slot⟩) } ∧
      (d.evaluateHead b).mail = { d.mail with admissions := d.mail.admissions ++ [e.outlet] } := by
  unfold Device.evaluateHead Device.branchQueue
  rw [h]
  dsimp only
  rw [hr]
  unfold Device.grant Device.occupySlot
  constructor
  · simp [Device.changeReserved]
  · simp [Device.changeReserved]

/-! ## The checks and the estimate as Safety.lean writes them -/

theorem Device.inrushEstimate_eq (d : Device) (n : Outlet) : d.inrushEstimate n = d.headEstimate n := by
  unfold Device.inrushEstimate Device.headEstimate Device.expectedInrush clampNat
  simp

theorem Device.blockReason_eq (d : Device) (b : Branch) (n : Outlet) :
    d.blockReason b n = d.failingCheck d.admission b n := by
  unfold Device.blockReason Device.failingCheck Device.walkPasses Device.running
  rw [Device.inrushEstimate_eq]
  simp [Option.isSome_iff_ne_none]

/-! ## One head settled -/

/-- The evaluation of a head, as the Admission Unit and the admissions on their way see it. -/
theorem Device.evaluateHead_settled (d : Device) (b : Branch) :
    ((d.evaluateHead b).admission, (d.evaluateHead b).mail.admissions) =
      d.headSettled (d.admission, d.mail.admissions) b := by
  unfold Device.headSettled
  dsimp only
  obtain ⟨q, hq⟩ : ∃ q, d.admission.queues[b] = q := ⟨_, rfl⟩
  rw [hq]
  cases q with
  | nil => rw [Device.evaluateHead_empty hq]
  | cons e rest =>
    dsimp only
    rw [← Device.blockReason_eq]
    obtain ⟨o, ho⟩ : ∃ o, d.blockReason b e.outlet = o := ⟨_, rfl⟩
    rw [ho]
    cases o with
    | some r => rw [Device.evaluateHead_blocked hq ho]
    | none =>
      obtain ⟨ha, hm⟩ := Device.evaluateHead_granted hq ho
      rw [ha, hm, Device.inrushEstimate_eq]
      simp

/-- An evaluation hands on admissions alone. -/
theorem Device.evaluateHead_mail (d : Device) (b : Branch) :
    (d.evaluateHead b).mail = { d.mail with admissions := (d.evaluateHead b).mail.admissions } := by
  obtain ⟨q, hq⟩ : ∃ q, d.admission.queues[b] = q := ⟨_, rfl⟩
  cases q with
  | nil => rw [Device.evaluateHead_empty hq]
  | cons e rest =>
    obtain ⟨o, ho⟩ : ∃ o, d.blockReason b e.outlet = o := ⟨_, rfl⟩
    cases o with
    | some r => rw [Device.evaluateHead_blocked hq ho]
    | none => rw [(Device.evaluateHead_granted hq ho).2]

/-! ## Sequences of the branch groups (R173) -/

theorem Device.SequencesMove.refl (d : Device) : d.SequencesMove d fun _ => 0 :=
  ⟨rfl, fun l => by cases l <;> simp [PerLevel.get]⟩

theorem Device.SequencesMove.trans {d e f : Device} {m k t : Branch → Nat} (h : d.SequencesMove e m)
    (g : e.SequencesMove f k) (hs : e.inService = d.inService) (ht : ∀ b, t b = m b + k b) : d.SequencesMove f t where
  engine := by rw [g.engine, h.engine]
  levels l := by
    have h1 := h.levels l
    have h2 := g.levels l
    cases l with
    | branch b =>
      dsimp only at h1 h2 ⊢
      rw [h2, h1, hs, ht]
      cases d.inService <;> simp [BitVec.ofNat_add, BitVec.add_assoc]
    | phase p => exact h2.trans h1
    | inlet => exact h2.trans h1

theorem Device.SequencesMove.congr {d e e' : Device} {m : Branch → Nat} (h : d.SequencesMove e m)
    (he : e'.engine = e.engine) : d.SequencesMove e' m := ⟨by rw [he]; exact h.engine, fun l => by rw [he]; exact h.levels l⟩

theorem Device.SequencesMove.times {d e : Device} {m t : Branch → Nat} (h : d.SequencesMove e m) (ht : ∀ b, t b = m b) :
    d.SequencesMove e t := (funext ht : t = m) ▸ h

/-- A branch group published once. -/
theorem Device.publishBranch_sequences (d : Device) (b : Branch) :
    d.SequencesMove (d.publishBranch b) fun c => if c = b then 1 else 0 := by
  unfold Device.publishBranch Device.publishLevel
  split
  · rename_i hs
    refine Device.SequencesMove.congr (e := d.setLevelMeter (.branch b) fun m => { m with sequence := m.sequence + 1 })
      ⟨rfl, fun l => ?_⟩ (by simp)
    show (d.engine.levels.set (.branch b) _).get l = _
    cases l with
    | branch c =>
      by_cases hc : c = b
      · subst hc
        simp [PerLevel.get_set, hs]
      · have : ¬Level.branch b = Level.branch c := fun h => hc (by injection h with h; exact h.symm)
        simp [PerLevel.get_set, this, hc]
    | phase p => simp [PerLevel.get_set]
    | inlet => simp [PerLevel.get_set]
  · rename_i hs
    refine ⟨rfl, fun l => ?_⟩
    cases l <;> simp [hs]

/-- A head that passes found its branch's slot free (R157). -/
theorem Device.blockReason_slot {d : Device} {b : Branch} {n : Outlet} (h : d.blockReason b n = none) :
    d.admission.slots[b] = none := by
  rw [Device.blockReason_eq] at h
  unfold Device.failingCheck at h
  dsimp only at h
  by_contra hs
  simp only [hs, ne_eq, not_false_eq_true, if_true] at h
  split at h <;> [exact absurd h (by simp); (split at h <;> exact absurd h (by simp))]

/-- A head's evaluation leaves an occupied slot as it was. -/
theorem Device.evaluateHead_occupied (d : Device) (b c : Branch) (h : d.admission.slots[c] ≠ none) :
    (d.evaluateHead b).admission.slots[c] = d.admission.slots[c] := by
  obtain ⟨q, hq⟩ : ∃ q, d.admission.queues[b] = q := ⟨_, rfl⟩
  cases q with
  | nil => rw [Device.evaluateHead_empty hq]
  | cons e rest =>
    obtain ⟨o, ho⟩ : ∃ o, d.blockReason b e.outlet = o := ⟨_, rfl⟩
    cases o with
    | some r => rw [Device.evaluateHead_blocked hq ho]
    | none =>
      rw [(Device.evaluateHead_granted hq ho).1]
      have hb := Device.blockReason_slot ho
      have hne : ¬b = c := fun hbc => h (hbc ▸ hb)
      simp [hne]

/-- With the slots as they were nothing has been granted. -/
theorem Admission.granted_same {a a' : Admission} (h : a'.slots = a.slots) (b : Branch) : a.granted a' b = 0 := by
  unfold Admission.granted
  rw [h]
  simp

/-- A head's evaluation publishes the branch group once for a grant, and not otherwise. -/
theorem Device.evaluateHead_sequences (d : Device) (b : Branch) :
    d.SequencesMove (d.evaluateHead b) (d.admission.granted (d.evaluateHead b).admission) := by
  obtain ⟨q, hq⟩ : ∃ q, d.admission.queues[b] = q := ⟨_, rfl⟩
  cases q with
  | nil =>
    rw [Device.evaluateHead_empty hq]
    exact (Device.SequencesMove.refl d).times (Admission.granted_same rfl)
  | cons e rest =>
    obtain ⟨o, ho⟩ : ∃ o, d.blockReason b e.outlet = o := ⟨_, rfl⟩
    cases o with
    | some r =>
      rw [Device.evaluateHead_blocked hq ho]
      exact .congr ((Device.SequencesMove.refl d).times (Admission.granted_same rfl)) rfl
    | none =>
      have hb := Device.blockReason_slot ho
      have hg := (Device.evaluateHead_granted hq ho).1
      have ht : ∀ c, d.admission.granted (d.evaluateHead b).admission c = if c = b then 1 else 0 := fun c => by
        unfold Admission.granted
        rw [hg]
        by_cases hc : c = b
        · subst hc
          simp [show d.admission.slots[c.val] = none from hb]
        · simp [hc, Ne.symm hc]
      refine Device.SequencesMove.times ?_ ht
      unfold Device.evaluateHead Device.branchQueue
      rw [hq]
      dsimp only
      rw [ho]
      let f := ((d.setQueue b rest).occupySlot b ⟨e.outlet, d.inrushEstimate e.outlet, false, e.rank⟩).handAdmission e.outlet
      have hf : d.SequencesMove f fun _ => 0 := .congr (.refl d) rfl
      exact .congr (e := f.publishBranch b) (hf.trans (Device.publishBranch_sequences f b) rfl fun c => by simp)
        (Device.setTenure_engine ..)

/-! ## Every head -/

/-- The same Limits in two blocks with one Shadow File. -/
theorem Device.limit_congr {d e : Device} (h : e.path = d.path) (l : Level) : e.limit l = d.limit l := by
  unfold Device.limit Device.levelField Device.shadow
  rw [h]

theorem Device.headEstimate_congr {d e : Device} (h : e.path = d.path) (n : Outlet) :
    e.headEstimate n = d.headEstimate n := by
  unfold Device.headEstimate Device.outletField Device.shadow
  rw [Device.limit_congr h, h]

/-- Heads are settled alike in two blocks that show the checks the same. -/
theorem Device.headSettled_congr {d e : Device} (hp : e.path = d.path) (hc : e.charter = d.charter)
    (hi : e.pins.hold = d.pins.hold) : e.headSettled = d.headSettled := by
  funext x b
  unfold Device.headSettled Device.failingCheck
  simp only [Device.limit_congr hp, Device.headEstimate_congr hp, hc, hi]

theorem Device.foldl_evaluateHead (order : List Branch) (d : Device) :
    ((order.foldl Device.evaluateHead d).admission, (order.foldl Device.evaluateHead d).mail.admissions) =
      order.foldl d.headSettled (d.admission, d.mail.admissions) := by
  induction order generalizing d with
  | nil => rfl
  | cons b order ih =>
    have hf := Device.evaluateHead_frame d b
    rw [List.foldl_cons, List.foldl_cons, ih, ← Device.evaluateHead_settled,
      Device.headSettled_congr (hf .path (by decide)) (hf .charter (by decide)) (by rw [hf .pins (by decide)])]

/-- Nothing that the evaluation of heads looks at, or makes, differs. -/
theorem Device.HeadsEvaluated.congr {d e d' e' : Device} (h : d.HeadsEvaluated d') (hp : e.path = d.path)
    (hc : e.charter = d.charter) (hi : e.pins.hold = d.pins.hold) (ha : e.admission = d.admission)
    (hm : e.mail.admissions = d.mail.admissions) (ha' : e'.admission = d'.admission)
    (hm' : e'.mail.admissions = d'.mail.admissions) : e.HeadsEvaluated e' := by
  obtain ⟨order, ho, hx⟩ := h
  refine ⟨order, by rw [ha]; exact ho, ?_⟩
  rw [ha', hm', ha, hm, Device.headSettled_congr hp hc hi]
  exact hx

/-- Every head evaluated, in some order (R156, R158). -/
theorem Device.evaluateHeads_spec (d : Device) : d.HeadsEvaluated d.evaluateHeads := by
  obtain ⟨order, k, hp, he⟩ := Device.inFreeOrder_perm (fun b : Branch => b.val) Device.evaluateHead d.waitingBranches d
  refine ⟨order, ?_, ?_⟩
  · refine hp.trans (.of_eq ?_)
    unfold Device.waitingBranches Device.branchQueue
    refine List.filter_congr fun b _ => ?_
    cases d.admission.queues[b] <;> rfl
  · unfold Device.evaluateHeads
    rw [he, Device.foldl_evaluateHead]
    rfl

theorem Device.evaluateHeads_mail (d : Device) :
    d.evaluateHeads.mail = { d.mail with admissions := d.evaluateHeads.mail.admissions } :=
  inFreeOrder_keeps (fun e => e.mail = { d.mail with admissions := e.mail.admissions }) _ _
    (fun e b he => by rw [Device.evaluateHead_mail, he]) (fun _ _ he => he) _ _ rfl

/-- Grants add up, as long as an occupied slot stays as it is. -/
theorem Admission.granted_trans {a b c : Admission} (h : ∀ x : Branch, a.slots[x] ≠ none → b.slots[x] = a.slots[x])
    (k : ∀ x : Branch, b.slots[x] ≠ none → c.slots[x] = b.slots[x]) (x : Branch) :
    a.granted c x = a.granted b x + b.granted c x := by
  unfold Admission.granted
  have h := h x
  have k := k x
  generalize a.slots[x] = p, b.slots[x] = q, c.slots[x] = r at *
  cases p <;> cases q <;> cases r <;> simp_all

/-- Every head's evaluation publishes the branch group once for each grant (R173). -/
theorem Device.evaluateHeads_sequences (d : Device) :
    d.SequencesMove d.evaluateHeads (d.admission.granted d.evaluateHeads.admission) := by
  refine (inFreeOrder_keeps (fun e : Device => d.SequencesMove e (d.admission.granted e.admission) ∧
    e.inService = d.inService ∧ ∀ c : Branch, d.admission.slots[c] ≠ none → e.admission.slots[c] = d.admission.slots[c])
    _ _ (fun e b he => ?_) (fun e _ he => ⟨he.1.congr rfl, he.2.1, he.2.2⟩) _ _
    ⟨.times (.refl d) (Admission.granted_same rfl), rfl, fun _ _ => rfl⟩).1
  obtain ⟨h1, h2, h3⟩ := he
  have hk := Device.evaluateHead_occupied e b
  refine ⟨h1.trans (Device.evaluateHead_sequences e b) h2 (Admission.granted_trans h3 hk), ?_, fun c hc => ?_⟩
  · unfold Device.inService at h2 ⊢
    rw [show (e.evaluateHead b).charter = e.charter from Device.evaluateHead_frame e b .charter (by decide)]
    exact h2
  · rw [hk c (by rw [h3 c hc]; exact hc), h3 c hc]

theorem Device.evaluateHeads_none {d : Device} (h : ∀ b : Branch, d.admission.queues[b] = []) : d.evaluateHeads = d := by
  have : d.waitingBranches = [] := by
    unfold Device.waitingBranches
    rw [List.filter_eq_nil_iff]
    intro b _
    simp only [Device.branchQueue, h b]
    decide
  unfold Device.evaluateHeads
  rw [this]
  rfl

theorem Device.evaluateHeads_one {d : Device} {b : Branch} (hb : d.admission.queues[b] ≠ [])
    (h : ∀ c : Branch, c ≠ b → d.admission.queues[c] = []) : d.evaluateHeads = d.evaluateHead b := by
  have : d.waitingBranches = [b] := by
    unfold Device.waitingBranches
    have he : (fun c : Branch => !(d.branchQueue c).isEmpty) = fun c => decide (c = b) := by
      funext c
      by_cases hc : c = b
      · subst hc
        cases hq : d.admission.queues[c] with
        | nil => exact absurd hq hb
        | cons x xs => simp only [Device.branchQueue, hq]; simp
      · simp only [Device.branchQueue, h c hc]
        simp [hc]
    rw [he]
    have hall : ∀ b : Branch, branches.filter (fun c => decide (c = b)) = [b] := by decide
    exact hall b
  unfold Device.evaluateHeads
  rw [this]
  rfl

/-! ## A change of the Admission Unit, published and evaluated (R153, R154, R164, R165) -/

/-- A join stands after every entry of its rank or lower, before every higher one (R153). -/
theorem insertJoin_split (e : QueueEntry) (q : List QueueEntry) : ∃ before after, q = before ++ after ∧
    (∀ x ∈ before, x.rank ≤ e.rank) ∧ (∀ x ∈ after.head?, e.rank < x.rank) ∧ insertJoin e q = before ++ e :: after := by
  induction q with
  | nil => exact ⟨[], [], rfl, by simp, by simp, rfl⟩
  | cons x xs ih =>
    unfold insertJoin
    split
    · rename_i h
      obtain ⟨b, a, h1, h2, h3, h4⟩ := ih
      exact ⟨x :: b, a, by simp [h1], fun y hy => (List.mem_cons.1 hy).elim (· ▸ h) (h2 y), h3, by simp [h4]⟩
    · rename_i h
      exact ⟨[], x :: xs, rfl, by simp, by simpa using h, rfl⟩

/-- A returned outlet stands after every entry of lower rank, before every other one (R165). -/
theorem insertReturned_split (e : QueueEntry) (q : List QueueEntry) : ∃ before after, q = before ++ after ∧
    (∀ x ∈ before, x.rank < e.rank) ∧ (∀ x ∈ after.head?, e.rank ≤ x.rank) ∧
      insertReturned e q = before ++ e :: after := by
  induction q with
  | nil => exact ⟨[], [], rfl, by simp, by simp, rfl⟩
  | cons x xs ih =>
    unfold insertReturned
    split
    · rename_i h
      obtain ⟨b, a, h1, h2, h3, h4⟩ := ih
      exact ⟨x :: b, a, by simp [h1], fun y hy => (List.mem_cons.1 hy).elim (· ▸ h) (h2 y), h3, by simp [h4]⟩
    · rename_i h
      exact ⟨[], x :: xs, rfl, by simp, by simpa using h, rfl⟩

theorem Device.publishBranch_frame (d : Device) (b : Branch) : d.Untouched (d.publishBranch b) [.pub, .engine] := by
  intro p hp
  cases p <;> first | exact absurd hp (by decide) | simp [Part.same]

/-- The Admission Unit changed, its branch group published, and the branch's head evaluated. -/
theorem Device.changed_evaluateHead {d e : Device} {b : Branch} {a : Admission} (he : e = { d with admission := a }) :
    d.Untouched ((e.publishBranch b).evaluateHead b) headParts ∧
    d.SequencesMove ((e.publishBranch b).evaluateHead b)
      (fun c => (if c = b then 1 else 0) + a.granted ((e.publishBranch b).evaluateHead b).admission c) ∧
    ((e.publishBranch b).evaluateHead b).mail =
      { d.mail with admissions := ((e.publishBranch b).evaluateHead b).mail.admissions } ∧
    (((e.publishBranch b).evaluateHead b).admission, ((e.publishBranch b).evaluateHead b).mail.admissions) =
      d.headSettled (a, d.mail.admissions) b := by
  subst he
  have hf := Device.publishBranch_frame { d with admission := a } b
  have hc := Device.publishBranch_sequences { d with admission := a } b
  obtain ⟨y, hy⟩ : ∃ y, ({ d with admission := a } : Device).publishBranch b = y := ⟨_, rfl⟩
  rw [hy] at hf hc ⊢
  have hm := hf .mail (by decide)
  have ha := hf .admission (by decide)
  simp only [Part.same] at hm ha
  have hs : y.inService = d.inService := by
    unfold Device.inService
    rw [show y.charter = d.charter from hf .charter (by decide)]
  refine ⟨.trans (e := y) (fun p hp => ?_) (Device.evaluateHead_frame y b),
    .trans ⟨hc.engine, hc.levels⟩ (Device.evaluateHead_sequences y b) hs fun c => by rw [ha], ?_, ?_⟩
  · have := hf p
    cases p <;> first | exact absurd hp (by decide) | exact this (by decide)
  · rw [Device.evaluateHead_mail, hm]
  · rw [Device.evaluateHead_settled, hm, ha, Device.headSettled_congr (hf .path (by decide)) (hf .charter (by decide))
      (by rw [show y.pins = _ from hf .pins (by decide)])]
    rfl

/-- The Admission Unit changed, its branch group published, and every head evaluated. -/
theorem Device.changed_evaluateHeads {d e : Device} {b : Branch} {a : Admission} (he : e = { d with admission := a }) :
    d.Untouched (e.publishBranch b).evaluateHeads admissionParts ∧
    d.SequencesMove (e.publishBranch b).evaluateHeads
      (fun c => (if c = b then 1 else 0) + a.granted (e.publishBranch b).evaluateHeads.admission c) ∧
    (e.publishBranch b).evaluateHeads.mail =
      { d.mail with admissions := (e.publishBranch b).evaluateHeads.mail.admissions } ∧
    { d with admission := a }.HeadsEvaluated (e.publishBranch b).evaluateHeads := by
  subst he
  have hf := Device.publishBranch_frame { d with admission := a } b
  have hc := Device.publishBranch_sequences { d with admission := a } b
  obtain ⟨y, hy⟩ : ∃ y, ({ d with admission := a } : Device).publishBranch b = y := ⟨_, rfl⟩
  rw [hy] at hf hc ⊢
  have hm := hf .mail (by decide)
  have ha := hf .admission (by decide)
  simp only [Part.same] at hm ha
  have hs : y.inService = d.inService := by
    unfold Device.inService
    rw [show y.charter = d.charter from hf .charter (by decide)]
  refine ⟨.trans (e := y) (fun p hp => ?_) (Device.evaluateHeads_frame y),
    .trans ⟨hc.engine, hc.levels⟩ (Device.evaluateHeads_sequences y) hs fun c => by rw [ha], by rw [Device.evaluateHeads_mail, hm],
    (Device.evaluateHeads_spec y).congr (hf .path (by decide)).symm (hf .charter (by decide)).symm
      (by rw [show y.pins = _ from hf .pins (by decide)]) ha.symm (by rw [hm]) rfl rfl⟩
  have := hf p
  cases p <;> first | exact absurd hp (by decide) | exact this (by decide)

end Sys2Proof.Machine
end

