-- ==== Sys2Proof/Laws/HeadPublications.lean ====
section
/-! SUPPORT. What the evaluation of heads publishes (R162, R173): the branch group of each grant, and nothing else. -/

namespace Sys2Proof.Machine
open Sys2Proof

/-- What a branch group shows. -/
theorem Device.branchWords_congr {d e : Device} (c : Branch)
    (hl : e.engine.levels.get (.branch c) = d.engine.levels.get (.branch c)) (hm : e.mail.loads = d.mail.loads)
    (ho : e.admission.overLimit = d.admission.overLimit)
    (hr : e.admission.reserved.branch[c] = d.admission.reserved.branch[c])
    (hq : e.admission.queues[c] = d.admission.queues[c]) (hs : e.admission.slots[c] = d.admission.slots[c]) :
    e.groupWords (.level (.branch c)) = d.groupWords (.level (.branch c)) := by
  have hov : e.overLimit (.branch c) = d.overLimit (.branch c) := by
    unfold Device.overLimit
    rw [hm, ho]
  have hoc : e.occupantPlace c = d.occupantPlace c := by
    unfold Device.occupantPlace
    rw [hs]
  show e.levelWords _ = d.levelWords _
  unfold Device.levelWords Device.packedLevel
  dsimp only
  rw [hl, hov, hoc, hr, hq]

/-- A change of the Admission Unit and of the hand-offs alone moves no group. -/
theorem Device.Moves.not_admission {d : Device} {a : Admission} {m : Mail} (g : Group) :
    ¬d.Moves { d with admission := a, mail := m } g := by
  intro h
  cases g with
  | charter | status n => exact h.2 rfl
  | level l | meter n => exact h rfl

/-- A grant has been made or not. -/
theorem Admission.granted_cases (a a' : Admission) (b : Branch) : a.granted a' b = 0 ∨ a.granted a' b = 1 := by
  unfold Admission.granted
  split
  · exact .inr rfl
  · exact .inl rfl

theorem Admission.granted_ne_one {a a' : Admission} (h : a'.slots = a.slots) (b : Branch) : a.granted a' b ≠ 1 := by
  rw [Admission.granted_same h]
  decide

/-- The evaluation of a head publishes the branch group for a grant, and nothing else. -/
theorem Device.evaluateHead_trail (d : Device) (b : Branch) :
    d.Trail (d.evaluateHead b)
      (if d.inService = true ∧ d.admission.granted (d.evaluateHead b).admission b = 1 then [.level (.branch b)] else []) := by
  obtain ⟨q, hq⟩ : ∃ q, d.admission.queues[b] = q := ⟨_, rfl⟩
  cases q with
  | nil =>
    rw [Device.evaluateHead_empty hq, if_neg fun h => absurd h.2 (Admission.granted_ne_one rfl b)]
    exact .refl d
  | cons e rest =>
    obtain ⟨o, ho⟩ : ∃ o, d.blockReason b e.outlet = o := ⟨_, rfl⟩
    cases o with
    | some r =>
      rw [Device.evaluateHead_blocked hq ho, if_neg fun h => absurd h.2 (Admission.granted_ne_one rfl b)]
      exact .quiet rfl fun g => Device.Moves.not_admission (m := d.mail) g
    | none =>
      have hg : d.admission.granted (d.evaluateHead b).admission b = 1 := by
        unfold Admission.granted
        rw [(Device.evaluateHead_granted hq ho).1, if_pos]
        exact ⟨Device.blockReason_slot ho, by simp⟩
      have hs : (if d.inService = true ∧ d.admission.granted (d.evaluateHead b).admission b = 1 then
          [Group.level (.branch b)] else []) = if d.inService then [.level (.branch b)] else [] := by
        rw [hg]
        simp
      rw [hs]
      unfold Device.evaluateHead Device.branchQueue
      rw [hq]
      dsimp only
      rw [ho]
      let f := ((d.setQueue b rest).occupySlot b ⟨e.outlet, d.inrushEstimate e.outlet, false, e.rank⟩).handAdmission e.outlet
      have h1 : d.Trail f [] := .quiet rfl fun g => Device.Moves.not_admission (a := f.admission) (m := f.mail) g
      have h2 := h1.trans (Device.publishBranch_trail f b) (fun g h => absurd h (by simp))
        (by rw [Device.enforcing_charter (d := f) (e := f.publishBranch b) (by simp)]; exact id)
        (by rw [Device.inService_charter (d := f) (e := f.publishBranch b) (by simp)]; exact id)
      exact h2.still rfl (fun g hg => by cases g <;> first | exact hg.2 rfl | exact hg rfl)
        (fun g hg => by cases g <;> rfl) id id

/-- The evaluation of a head leaves what another branch's group shows, and its own where nothing is granted. -/
theorem Device.evaluateHead_words (d : Device) (b c : Branch)
    (h : c ≠ b ∨ d.admission.granted (d.evaluateHead b).admission b ≠ 1) :
    (d.evaluateHead b).groupWords (.level (.branch c)) = d.groupWords (.level (.branch c)) := by
  have hm : (d.evaluateHead b).mail.loads = d.mail.loads := by rw [Device.evaluateHead_mail]
  obtain ⟨q, hq⟩ : ∃ q, d.admission.queues[b] = q := ⟨_, rfl⟩
  cases q with
  | nil => rw [Device.evaluateHead_empty hq]
  | cons e rest =>
    obtain ⟨o, ho⟩ : ∃ o, d.blockReason b e.outlet = o := ⟨_, rfl⟩
    cases o with
    | some r =>
      rw [Device.evaluateHead_blocked hq ho]
      exact Device.branchWords_congr c rfl rfl rfl rfl rfl rfl
    | none =>
      have ha := (Device.evaluateHead_granted hq ho).1
      have hc : c ≠ b := h.resolve_right fun hn => hn (by
        unfold Admission.granted
        rw [ha, if_pos]
        exact ⟨Device.blockReason_slot ho, by simp⟩)
      have hl : (d.evaluateHead b).engine.levels.get (.branch c) = d.engine.levels.get (.branch c) := by
        have := (Device.evaluateHead_sequences d b).levels (.branch c)
        dsimp only at this
        rw [this]
        have hz : d.admission.granted (d.evaluateHead b).admission c = 0 := by
          unfold Admission.granted
          rw [ha]
          simp [Ne.symm hc]
        rw [hz]
        simp
      exact Device.branchWords_congr c hl hm (by rw [ha]) (by rw [ha]; simp [Ne.symm hc]) (by rw [ha]; simp [Ne.symm hc])
        (by rw [ha]; simp [Ne.symm hc])

/-- The evaluation of every head leaves what a branch group shows where nothing is granted. -/
theorem Device.evaluateHeads_words (d : Device) (c : Branch)
    (h : d.admission.granted d.evaluateHeads.admission c ≠ 1) :
    d.evaluateHeads.groupWords (.level (.branch c)) = d.groupWords (.level (.branch c)) := by
  refine (inFreeOrder_keeps (fun e : Device =>
      (∀ x : Branch, d.admission.slots[x] ≠ none → e.admission.slots[x] = d.admission.slots[x]) ∧
      (d.admission.granted e.admission c ≠ 1 → e.groupWords (.level (.branch c)) = d.groupWords (.level (.branch c))))
    _ _ (fun e b he => ?_) (fun e k he => ⟨he.1, fun hn => (he.2 hn)⟩) _ _ ⟨fun _ _ => rfl, fun _ => rfl⟩).2 h
  obtain ⟨hs, hw⟩ := he
  have hk := Device.evaluateHead_occupied e b
  have hadd := Admission.granted_trans hs hk c
  refine ⟨fun x hn => by rw [hk x (by rw [hs x hn]; exact hn), hs x hn], fun hn => ?_⟩
  have h0 : d.admission.granted (e.evaluateHead b).admission c = 0 :=
    (Admission.granted_cases _ _ c).resolve_right hn
  rw [Device.evaluateHead_words e b c ?_, hw (by omega)]
  by_cases hcb : c = b
  · subst hcb
    exact .inr (by omega)
  · exact .inl hcb

/-- The evaluation of every head publishes the branch groups of the grants, and nothing else. -/
theorem Device.evaluateHeads_trail (d : Device) :
    ∃ gs, d.Trail d.evaluateHeads gs ∧ ∀ g ∈ gs, ∃ c : Branch, g = .level (.branch c) ∧ d.inService = true ∧
      d.admission.granted d.evaluateHeads.admission c = 1 := by
  refine (inFreeOrder_keeps (fun e : Device => (e.charter = d.charter ∧
      ∀ c : Branch, d.admission.slots[c] ≠ none → e.admission.slots[c] = d.admission.slots[c]) ∧
    ∃ gs, d.Trail e gs ∧ ∀ g ∈ gs, ∃ c : Branch, g = .level (.branch c) ∧ d.inService = true ∧
      d.admission.granted e.admission c = 1)
    _ _ (fun e b he => ?_) (fun e k he => ⟨he.1, ?_⟩) _ _ ⟨⟨rfl, fun _ _ => rfl⟩, [], .refl d, by simp⟩).2
  · obtain ⟨⟨hc, hs⟩, gs, ht, hg⟩ := he
    have hk := Device.evaluateHead_occupied e b
    have hf : (e.evaluateHead b).charter = e.charter := Device.evaluateHead_frame e b .charter (by decide)
    have hadd := Admission.granted_trans hs hk
    refine ⟨⟨hf.trans hc, fun c hn => by rw [hk c (by rw [hs c hn]; exact hn), hs c hn]⟩, _,
      ht.trans (Device.evaluateHead_trail e b) ?_ (by rw [Device.enforcing_charter hf]; exact id)
        (by rw [Device.inService_charter hf]; exact id), fun g hm => ?_⟩
    · intro g h1 h2
      obtain ⟨c, rfl, hi, -⟩ := hg g h1
      refine (Device.evaluateHead_words e b c ?_).symm
      by_cases hcb : c = b
      · subst hcb
        refine .inr fun h => h2 ?_
        rw [if_pos ⟨by rw [Device.inService_charter hc]; exact hi, h⟩]
        simp
      · exact .inl hcb
    · have hle : ∀ c : Branch, d.admission.granted (e.evaluateHead b).admission c ≤ 1 := fun c => by
        rcases Admission.granted_cases d.admission (e.evaluateHead b).admission c with h | h <;> omega
      rcases List.mem_append.1 hm with hm | hm
      · obtain ⟨c, rfl, hi, h1⟩ := hg g hm
        exact ⟨c, rfl, hi, by have := hadd c; have := hle c; omega⟩
      · split at hm
        · rename_i hb
          refine ⟨b, List.mem_singleton.1 hm, by rw [← Device.inService_charter hc]; exact hb.1, ?_⟩
          have := hadd b
          have := hle b
          omega
        · exact absurd hm (by simp)
  · obtain ⟨gs, ht, hg⟩ := he.2
    exact ⟨gs, ht.still rfl (fun g hg => by cases g <;> first | exact hg.2 rfl | exact hg rfl)
      (fun g hg => by cases g <;> rfl) id id, hg⟩

/-- The groups of a trail of grants are those whose Sequence has moved. -/
theorem Device.SequencesMove.moves {d e : Device} {t : Branch → Nat} (h : d.SequencesMove e t) (hi : d.inService = true)
    {c : Branch} (hc : 0 < t c) (hl : t c < 65536) : d.Moves e (.level (.branch c)) := by
  have := h.levels (.branch c)
  dsimp only at this
  unfold Device.Moves
  dsimp only
  rw [this, if_pos hi]
  intro heq
  have h0 : BitVec.ofNat 16 (t c) = 0 := by
    have := congrArg (· - (d.engine.levels.get (.branch c)).sequence) heq
    simpa [BitVec.add_comm] using this
  have := congrArg BitVec.toNat h0
  simp only [BitVec.toNat_ofNat, Nat.reducePow] at this
  rw [Nat.mod_eq_of_lt hl] at this
  exact absurd this (by simpa using hc.ne')

/-- The evaluation of every head, as the Publication Unit sees it (R162, R173). -/
theorem Device.evaluateHeads_publishes (d : Device) : d.Publishes d.evaluateHeads [] := by
  obtain ⟨gs, ht, hg⟩ := Device.evaluateHeads_trail d
  refine ht.publishes (fun g hm => .inl ?_) (by simp)
  obtain ⟨c, rfl, hi, h1⟩ := hg g hm
  exact (Device.evaluateHeads_sequences d).moves hi (by rw [h1]; decide) (by rw [h1]; decide)

/-- A change of the Admission Unit, and the branch group published for it. -/
theorem Device.changed_publishBranch_trail {d e : Device} {a : Admission} (he : e = { d with admission := a }) (b : Branch) :
    d.Trail (e.publishBranch b) (if d.inService then [.level (.branch b)] else []) := by
  have h1 : d.Trail e [] := by
    rw [he]
    exact .quiet rfl fun g => Device.Moves.not_admission (m := d.mail) g
  have hp : (e.publishBranch b).charter = e.charter := by simp
  have hi : e.inService = d.inService := Device.inService_charter (by rw [he])
  rw [← hi]
  exact h1.trans (Device.publishBranch_trail e b) (fun g h => absurd h (by simp))
    (by rw [Device.enforcing_charter hp]; exact id) (by rw [Device.inService_charter hp]; exact id)

/-- The same, and then an evaluation of heads: the trail of both, where the branch groups of the second show in the end what
they showed when they were published. -/
theorem Device.changed_evaluated_publishes {d e f : Device} {b : Branch} {a : Admission} {gs : List Group}
    (he : e = { d with admission := a }) (hc : f.charter = d.charter) (ht : (e.publishBranch b).Trail f gs)
    (hg : ∀ g ∈ gs, ∃ c : Branch, g = .level (.branch c) ∧ (e.publishBranch b).inService = true ∧
      (e.publishBranch b).admission.granted f.admission c = 1)
    (hw : .level (.branch b) ∉ gs → d.inService = true →
      f.groupWords (.level (.branch b)) = (e.publishBranch b).groupWords (.level (.branch b)))
    (hs : d.SequencesMove f fun c => (if c = b then 1 else 0) + a.granted f.admission c) : d.Publishes f [] := by
  have hp : (e.publishBranch b).charter = d.charter := by
    have : (e.publishBranch b).charter = e.charter := by simp
    rw [this, he]
  have ha : (e.publishBranch b).admission = a := by
    have : (e.publishBranch b).admission = e.admission := by simp
    rw [this, he]
  have hle : ∀ c : Branch, a.granted f.admission c ≤ 1 := fun c => by
    rcases Admission.granted_cases a f.admission c with h | h <;> omega
  refine ((Device.changed_publishBranch_trail he b).trans ht (fun g h1 h2 => ?_)
    (by rw [Device.enforcing_charter hp, Device.enforcing_charter hc]; exact id)
    (by rw [Device.inService_charter hp, Device.inService_charter hc]; exact id)).publishes (fun g hm => .inl ?_) (by simp)
  · split at h1
    · rename_i hi
      rw [List.mem_singleton.1 h1] at h2 ⊢
      exact (hw h2 hi).symm
    · exact absurd h1 (by simp)
  · rcases List.mem_append.1 hm with hm | hm
    · split at hm
      · rename_i hi
        rw [List.mem_singleton.1 hm]
        exact hs.moves hi (by simp) (by have := hle b; simp only [if_true]; omega)
      · exact absurd hm (by simp)
    · obtain ⟨c, rfl, hi, h1⟩ := hg g hm
      rw [ha] at h1
      refine hs.moves (by rw [← Device.inService_charter hp]; exact hi) ?_ ?_
      · rw [h1]; omega
      · rw [h1]; split <;> omega

/-- A branch group published for a change of the Admission Unit, and every head evaluated (R164, R165, R173). -/
theorem Device.changed_evaluateHeads_publishes {d e : Device} {b : Branch} {a : Admission}
    (he : e = { d with admission := a }) : d.Publishes (e.publishBranch b).evaluateHeads [] := by
  obtain ⟨gs, ht, hg⟩ := Device.evaluateHeads_trail (e.publishBranch b)
  have hc := (Device.changed_evaluateHeads (b := b) he)
  refine Device.changed_evaluated_publishes he (hc.1 .charter (by decide)) ht hg (fun hn hi => ?_) hc.2.1
  refine Device.evaluateHeads_words _ b fun h1 => hn (ht.moves _ ?_)
  have hp : (e.publishBranch b).inService = d.inService := Device.inService_charter (by
    have : (e.publishBranch b).charter = e.charter := by simp
    rw [this, he])
  exact (Device.evaluateHeads_sequences _).moves (by rw [hp]; exact hi) (by rw [h1]; decide) (by rw [h1]; decide)

/-- A branch group published for a change of the Admission Unit, and the branch's head evaluated (R153, R154, R173). -/
theorem Device.changed_evaluateHead_publishes {d e : Device} {b : Branch} {a : Admission}
    (he : e = { d with admission := a }) : d.Publishes ((e.publishBranch b).evaluateHead b) [] := by
  have hc := (Device.changed_evaluateHead (b := b) he)
  have hp : (e.publishBranch b).inService = d.inService := Device.inService_charter (by
    have : (e.publishBranch b).charter = e.charter := by simp
    rw [this, he])
  refine Device.changed_evaluated_publishes he (hc.1 .charter (by decide)) (Device.evaluateHead_trail _ b)
    (fun g hm => ?_) (fun hn hi => ?_) hc.2.1
  · split at hm
    · rename_i h
      exact ⟨b, List.mem_singleton.1 hm, h⟩
    · exact absurd hm (by simp)
  · refine Device.evaluateHead_words _ b b (.inr fun h1 => hn ?_)
    rw [if_pos ⟨by rw [hp]; exact hi, h1⟩]
    simp

end Sys2Proof.Machine
end

