-- ==== Sys2Proof/Laws/Intervals.lean ====
section
/-! SUPPORT. What the Sampler's operations leave (03): a sample counted, the drift measured, and an interval closed. -/

namespace Sys2Proof.Machine
open Sys2Proof

/-- A slot has passed (R38). -/
theorem Device.passSlot_eq (d : Device) (next : Option Outlet) :
    d.passSlot next = { d.advance (d.sampler.slotEnd - d.now) with
      sampler := { d.sampler with due := next, slotStart := d.sampler.slotEnd } } := rfl

/-- The range of R48, by the range in force. -/
theorem Channel.nextRange_eq (c : Channel) : c.nextRange = c.rangeAfter := by
  unfold Channel.nextRange Channel.rangeAfter
  cases c with
  | mk range settle count sumSq sumProd peak saturated =>
    cases range <;> cases saturated <;> by_cases hc : count = 0 <;> by_cases hp : peak < 6400 <;>
      simp [hc, hp, GainRange.up, GainRange.down, Config.stepUpPeak]

/-- A sample of a current slot (R41). -/
theorem Channel.sample_eq (c : Channel) (o r v : Int) : c.sample o r v = c.counted o r v := by
  unfold Channel.sample Channel.counted
  by_cases h : c.settle = 0
  · simp [h, correct, clampInt, isSaturated, Config.saturationCode, pow_two]
    rfl
  · simp [h, Nat.pos_of_ne_zero h]

/-- The outlets of a scan set (R39). -/
theorem mem_scanSet (first last : Nat) (b : Bool) (n : Outlet) :
    n ∈ scanSet first last b ↔ presentOutlet b n = true ∧ min first last ≤ n.val + 1 ∧ n.val + 1 ≤ max first last := by
  simp [scanSet, outlets, and_assoc, and_comm]

/-- The drift measurement of a close, whole (R46, R47). -/
theorem Device.measureDrift_spec (d : Device) :
    d.measureDrift.2 = d.inDrift ∧
    d.measureDrift.1.sampler = { d.sampler with drifting := if d.inService then d.inDrift else d.sampler.drifting } ∧
    d.Untouched d.measureDrift.1 [.sampler, .mail, .pub] ∧
    (∃ more, d.measureDrift.1.mail = { d.mail with reports := d.mail.reports ++ more }) ∧
    (d.inService = true → d.inDrift ≠ d.sampler.drifting →
      ⟨if d.inDrift then .calDrift else .calRestored, .strip,
      BitVec.ofNat 16 (min 65535
        (d.sampler.spanSum.tdiv d.sampler.spanCount - d.sampler.offset - 20000).natAbs),
      BitVec.ofInt 16 d.sampler.offset⟩ ∈ d.measureDrift.1.mail.reports) := by
  unfold Device.measureDrift Device.inDrift
  by_cases hs : d.inService = true
  · simp only [hs, if_true]
    by_cases hz : d.sampler.spanCount = 0
    · simp only [Sampler.drift, if_pos hz]
      exact ⟨trivial, trivial, .refl _ _, ⟨[], by simp⟩, fun _ h => absurd rfl h⟩
    · simp only [Sampler.drift, hz, if_false]
      by_cases hd : decide (d.charter.settings.refTolerance < (d.sampler.spanSum.tdiv d.sampler.spanCount - d.sampler.offset - Config.nominalSpan).natAbs) = d.sampler.drifting
      · simp only [hd, if_true]
        have : (20000 : Int) = Config.nominalSpan := rfl
        simp only [this, hd]
        refine ⟨trivial, trivial, .refl _ _, ⟨[], by simp⟩, fun _ h => absurd rfl h⟩
      · simp only [hd, if_false]
        have : (20000 : Int) = Config.nominalSpan := rfl
        simp only [this]
        refine ⟨by simp, by simp [Device.setSampler], ?_, ⟨_, by simp [Device.setSampler, Device.report]; rfl⟩, ?_⟩
        · intro p hp; cases p <;> first | exact absurd hp (by decide) | simp [Part.same, Device.setSampler]
        · intro _ _
          simp [Device.setSampler, Device.report, satWord, Nat.min_comm]
  · simp only [hs]
    exact ⟨rfl, rfl, .refl _ _, ⟨[], by simp⟩, fun h => absurd h (by simp)⟩

/-- An interval close, whole (R44). -/
theorem Device.closeInterval_closed (d : Device) (time : Nat) (synchronised : Bool) :
    d.ClosedAt (d.closeInterval time synchronised) time synchronised := by
  obtain ⟨h2, hs, hf, ⟨more, hm⟩, hr⟩ := d.measureDrift_spec
  have hch : d.measureDrift.1.charter = d.charter := hf .charter (by decide)
  have hpin : d.measureDrift.1.pins = d.pins := hf .pins (by decide)
  unfold Device.closeInterval
  constructor
  · simp [hs, hm, h2]
  · simp [Device.Sampler.restarted, hs]
  · intro h1 h3; exact hr h1 h3
  · simp [Device.Sampler.restarted, hs, Sampler.nextOffset]
  · intro n
    simp [Device.Sampler.restarted, Device.nextScan, Device.NextScans, hch, hpin, mem_scanSet, Device.present]
  · intro n
    simp [Device.Sampler.restarted, hs, Channel.close, Channel.nextRange_eq, Channel.fresh, Config.settleSamples]
  · simp [Device.Sampler.restarted, hs]
  · simp [Device.Sampler.restarted]
  · simp [Device.Sampler.restarted, hch]
  · simp [Device.Sampler.restarted, hs]
  · simp [Device.Sampler.restarted, hs]
  · simp [Device.Sampler.restarted, hs]
  · intro p hp
    have := hf p hp
    cases p <;> first | exact absurd hp (by decide) | exact this

/-! ### The short interval of R56: what withoutSamples and withSamplesOf leave alone -/

section
variable (s held : Sampler)

@[simp] theorem Sampler.withoutSamples_scan : s.withoutSamples.scan = s.scan := by simp only [Sampler.withoutSamples]
@[simp] theorem Sampler.withoutSamples_due : s.withoutSamples.due = s.due := by simp only [Sampler.withoutSamples]
@[simp] theorem Sampler.withoutSamples_nextReference : s.withoutSamples.nextReference = s.nextReference := by simp only [Sampler.withoutSamples]
@[simp] theorem Sampler.withoutSamples_offset : s.withoutSamples.offset = s.offset := by simp only [Sampler.withoutSamples]
@[simp] theorem Sampler.withoutSamples_drifting : s.withoutSamples.drifting = s.drifting := by simp only [Sampler.withoutSamples]
@[simp] theorem Sampler.withoutSamples_cycles : s.withoutSamples.cycles = s.cycles := by simp only [Sampler.withoutSamples]
@[simp] theorem Sampler.withoutSamples_nominal60 : s.withoutSamples.nominal60 = s.nominal60 := by simp only [Sampler.withoutSamples]
@[simp] theorem Sampler.withoutSamples_locked : s.withoutSamples.locked = s.locked := by simp only [Sampler.withoutSamples]
@[simp] theorem Sampler.withoutSamples_crossings : s.withoutSamples.crossings = s.crossings := by simp only [Sampler.withoutSamples]
@[simp] theorem Sampler.withoutSamples_lastCrossing : s.withoutSamples.lastCrossing = s.lastCrossing := by simp only [Sampler.withoutSamples]
@[simp] theorem Sampler.withoutSamples_lastL1 : s.withoutSamples.lastL1 = s.lastL1 := by simp only [Sampler.withoutSamples]
@[simp] theorem Sampler.withoutSamples_timedCloses : s.withoutSamples.timedCloses = s.timedCloses := by simp only [Sampler.withoutSamples]
@[simp] theorem Sampler.withoutSamples_intervalStart : s.withoutSamples.intervalStart = s.intervalStart := by simp only [Sampler.withoutSamples]
@[simp] theorem Sampler.withoutSamples_slotStart : s.withoutSamples.slotStart = s.slotStart := by simp only [Sampler.withoutSamples]
@[simp] theorem Sampler.withSamplesOf_scan : (s.withSamplesOf held).scan = s.scan := by simp only [Sampler.withSamplesOf]
@[simp] theorem Sampler.withSamplesOf_due : (s.withSamplesOf held).due = s.due := by simp only [Sampler.withSamplesOf]
@[simp] theorem Sampler.withSamplesOf_nextReference : (s.withSamplesOf held).nextReference = s.nextReference := by simp only [Sampler.withSamplesOf]
@[simp] theorem Sampler.withSamplesOf_offset : (s.withSamplesOf held).offset = s.offset := by simp only [Sampler.withSamplesOf]
@[simp] theorem Sampler.withSamplesOf_drifting : (s.withSamplesOf held).drifting = s.drifting := by simp only [Sampler.withSamplesOf]
@[simp] theorem Sampler.withSamplesOf_cycles : (s.withSamplesOf held).cycles = s.cycles := by simp only [Sampler.withSamplesOf]
@[simp] theorem Sampler.withSamplesOf_nominal60 : (s.withSamplesOf held).nominal60 = s.nominal60 := by simp only [Sampler.withSamplesOf]
@[simp] theorem Sampler.withSamplesOf_locked : (s.withSamplesOf held).locked = s.locked := by simp only [Sampler.withSamplesOf]
@[simp] theorem Sampler.withSamplesOf_crossings : (s.withSamplesOf held).crossings = s.crossings := by simp only [Sampler.withSamplesOf]
@[simp] theorem Sampler.withSamplesOf_lastCrossing : (s.withSamplesOf held).lastCrossing = s.lastCrossing := by simp only [Sampler.withSamplesOf]
@[simp] theorem Sampler.withSamplesOf_lastL1 : (s.withSamplesOf held).lastL1 = s.lastL1 := by simp only [Sampler.withSamplesOf]
@[simp] theorem Sampler.withSamplesOf_timedCloses : (s.withSamplesOf held).timedCloses = s.timedCloses := by simp only [Sampler.withSamplesOf]
@[simp] theorem Sampler.withSamplesOf_intervalStart : (s.withSamplesOf held).intervalStart = s.intervalStart := by simp only [Sampler.withSamplesOf]
@[simp] theorem Sampler.withSamplesOf_slotStart : (s.withSamplesOf held).slotStart = s.slotStart := by simp only [Sampler.withSamplesOf]

/-- The accumulators of another Sampler are taken whatever else it holds. -/
theorem Sampler.withSamplesOf_congr {h k : Sampler} (hc : h.channels = k.channels) (hv : h.voltages = k.voltages)
    (hz : h.zeroCount = k.zeroCount ∧ h.zeroSum = k.zeroSum) (hs : h.spanCount = k.spanCount ∧ h.spanSum = k.spanSum) :
    s.withSamplesOf h = s.withSamplesOf k := by
  simp only [Sampler.withSamplesOf, hc, hv, hz, hs]

end

/-- A close leaves line synchronisation as it is (R44). -/
theorem Device.closeInterval_sync (d : Device) (time : Nat) (b : Bool) :
    (d.closeInterval time b).sampler.locked = d.sampler.locked ∧
    (d.closeInterval time b).sampler.lastCrossing = d.sampler.lastCrossing ∧
    (d.closeInterval time b).sampler.timedCloses = d.sampler.timedCloses ∧
    (d.closeInterval time b).charter = d.charter := by
  obtain ⟨-, hs, hf, -, -⟩ := d.measureDrift_spec
  refine ⟨?_, ?_, ?_, hf .charter (by decide)⟩ <;> simp [Device.closeInterval, Device.Sampler.restarted, hs]

/-- Empty accumulators, as Safety.lean says it. -/
theorem Sampler.emptied_eq (s : Sampler) : s.emptied = s.withoutSamples := rfl

/-- Carried accumulators, as Safety.lean says it. -/
theorem Sampler.carrying_eq (held s : Sampler) : Sampler.carrying held s = s.withSamplesOf held := by
  simp [Sampler.carrying, Sampler.withSamplesOf, Channel.carrying]

/-- The close of a restoring crossing, whole (R56). -/
theorem Device.restoringClose_closed (d : Device) (earlier time : Nat) :
    ∃ closed : Device,
      (¬earlier ≤ d.sampler.intervalStart → d.ClosedAt closed time false ∧ d.restoringClose earlier time = closed) ∧
      (earlier ≤ d.sampler.intervalStart →
        (d.setSampler Sampler.withoutSamples).ClosedAt closed time false ∧
        d.restoringClose earlier time = closed.setSampler fun s => s.withSamplesOf d.sampler) := by
  unfold Device.restoringClose
  by_cases h : earlier ≤ d.sampler.intervalStart
  · refine ⟨_, fun hn => absurd h hn, fun _ => ⟨closeInterval_closed _ _ _, ?_⟩⟩
    simp [h, Device.setSampler, Sampler.carrying_eq, Sampler.emptied_eq]
  · exact ⟨_, fun _ => ⟨closeInterval_closed _ _ _, by simp [h]⟩, fun hn => absurd hn h⟩
end Sys2Proof.Machine
end

