-- ==== Sys2Proof/Laws/Loose.lean ====
section
/-! SUPPORT. A `Loose` property is `Internal`: the operations of the Outlet Controller and the Admission Unit keep it with
no condition on the state they find. -/

namespace Sys2Proof.Machine
open Sys2Proof

variable {P : Device → Prop}

theorem Loose.setOutlet (h : Loose P) (d : Device) (n : Outlet) (f : OutletContext → OutletContext) (hd : P d) :
    P (d.setOutlet n f) := h.contexts _ _ hd

theorem Loose.modOutlet (h : Loose P) (d : Device) (n : Outlet) (f : OutletContext → OutletContext) (hd : P d) :
    P (d.modOutlet n f) := by
  unfold Device.modOutlet
  split
  · exact h.setOutlet _ _ _ hd
  · exact h.publishStatus _ _ (h.setOutlet _ _ _ hd)

theorem Loose.changeState (h : Loose P) (d : Device) (n : Outlet) (s : OutletState) (hd : P d) : P (d.changeState n s) := by
  rw [Device.changeState_eq]
  exact h.mail _ _ (h.modOutlet _ _ _ hd)

theorem Loose.finish (h : Loose P) (d : Device) (n : Outlet) (s : Sense) (us : Nat) (hd : P d) :
    P ((d.advance us).finish n s) := h.modOutlet _ _ _ (h.setSense _ _ _ (h.advance _ _ hd))

theorem Loose.takeAdmission (h : Loose P) (d : Device) (n : Outlet) (hd : P d) : P (d.takeAdmission n) := by
  unfold Device.takeAdmission Device.beginOperation
  split
  · exact h.setOutlet _ _ _ (h.changeState _ _ _ hd)
  · exact h.mail _ _ hd

/-- A `Loose` property is `Internal`. -/
theorem Loose.internal (h : Loose P) : Internal P where
  toNeutral := h.toNeutral
  changeState d n s _ _ hd := h.changeState d n s hd
  open_ d n _ _ hd := h.setOutlet d n _ hd
  finishClosing d n s us new _ _ hd := h.changeState _ n new (h.finish d n s us hd)
  finishOpening d n s us new _ _ hd := h.changeState _ n new (h.finish d n s us hd)
  takeAdmission d n _ _ hd := h.takeAdmission _ n (h.mail d _ hd)
  evaluateHead := h.evaluateHead
  takeJoin d n _ _ hd := h.takeJoin _ n (h.mail d _ hd)
  takeRemoval d n _ _ hd := h.takeRemoval _ n (h.mail d _ hd)
  takeRelease d n _ _ hd := h.takeRelease _ n (h.mail d _ hd)
  takeHandBack d n _ _ hd := h.takeHandBack _ n (h.mail d _ hd)
  startService d _ hd := h.startService d hd

end Sys2Proof.Machine
end

