-- ==== Sys2Proof/Laws/Standing.lean ====
section
/-! SUPPORT. What the Admission Unit holds of one outlet: how the hand-offs on their way change it, and that it goes on
agreeing with the outlet's state over every move, admission, grant and hand-off (R153 to R155, R162 to R165). -/

namespace Sys2Proof.Machine
open Sys2Proof

/-! ## One outlet's standing -/

theorem Standing.afterAll_none (ms : List AdmissionMessage) : Standing.afterAll none ms = none := by
  induction ms with
  | nil => rfl
  | cons m ms ih => exact ih

/-- Without a release or hand-back on its way a slot stays held. -/
theorem Standing.afterAll_holding (w : Bool) (ms : List AdmissionMessage) (t : Standing)
    (hg : ms.countP AdmissionMessage.givesUp = 0) (h : Standing.afterAll (some (.holding w)) ms = some t) :
    ∃ w', t = .holding w' := by
  induction ms generalizing w with
  | nil => exact ⟨w, (Option.some.inj h).symm⟩
  | cons m ms ih =>
    rw [List.countP_cons] at hg
    have hm : AdmissionMessage.givesUp m = false := by
      cases hx : AdmissionMessage.givesUp m
      · rfl
      · rw [hx] at hg; simp at hg
    have hg' : ms.countP AdmissionMessage.givesUp = 0 := by omega
    cases m <;> cases w <;> first
      | exact ih _ hg' h
      | exact absurd hm Bool.noConfusion
      | exact absurd ((Standing.afterAll_none ms).symm.trans h : (none : Option Standing) = some t) (Option.some_ne_none t).symm

/-- A slot given to an outlet that waits: what joins and removals on their way make of its standing follows. -/
theorem Standing.afterAll_granted (ms : List AdmissionMessage) (hg : ms.countP AdmissionMessage.givesUp = 0) :
    (∀ t, Standing.afterAll (some .waiting) ms = some t →
      t = .waiting ∧ Standing.afterAll (some (.holding false)) ms = some (.holding false) ∨
      t = .absent ∧ Standing.afterAll (some (.holding false)) ms = some (.holding true)) ∧
    ∀ t, Standing.afterAll (some .absent) ms = some t →
      t = .waiting ∧ Standing.afterAll (some (.holding true)) ms = some (.holding false) ∨
      t = .absent ∧ Standing.afterAll (some (.holding true)) ms = some (.holding true) := by
  induction ms with
  | nil => exact ⟨fun t h => .inl ⟨(Option.some.inj h).symm, rfl⟩, fun t h => .inr ⟨(Option.some.inj h).symm, rfl⟩⟩
  | cons m ms ih =>
    rw [List.countP_cons] at hg
    have hm : AdmissionMessage.givesUp m = false := by
      cases hx : AdmissionMessage.givesUp m
      · rfl
      · rw [hx] at hg; simp at hg
    have ih := ih (by omega)
    have hn : ∀ t, Standing.afterAll none ms = some t → False := fun t h => by
      rw [Standing.afterAll_none] at h; cases h
    cases m with
    | join n => exact ⟨fun t h => (hn t h).elim, fun t h => ih.1 t h⟩
    | removal n => exact ⟨fun t h => ih.2 t h, fun t h => (hn t h).elim⟩
    | release n => exact absurd hm (by simp [AdmissionMessage.givesUp])
    | handBack n => exact absurd hm (by simp [AdmissionMessage.givesUp])

theorem Standing.afterAll_append (s : Option Standing) (ms ms' : List AdmissionMessage) :
    Standing.afterAll s (ms ++ ms') = Standing.afterAll (Standing.afterAll s ms) ms' := List.foldl_append ..

/-- An agreement is about a standing that there is. -/
theorem AgreesWith.stands {s : OutletState} {st : Option Standing} {ms : List AdmissionMessage} {k : Nat}
    (h : AgreesWith s st ms k) : ∃ t, st = some t := by
  cases st with
  | some t => exact ⟨t, rfl⟩
  | none =>
    have ha := h.arrives
    rw [Standing.afterAll_none] at ha
    cases s <;> simp at ha

/-- A move that leaves CLOSING or INRUSH, but for the step between them, hands over the release of the slot. -/
theorem handoffs_claim (n : Outlet) {s s' : OutletState} (hm : mayMove s s' = true) :
    (if s' = .closing ∨ s' = .inrush then 1 else 0) + (admissionHandoffs n s s').countP AdmissionMessage.givesUp =
      if s = .closing ∨ s = .inrush then 1 else 0 := by
  cases s <;> cases s' <;> first
    | exact absurd hm (by decide)
    | rfl

/-- The outlet's state moves, and what the move hands over follows it. -/
theorem AgreesWith.move {s : OutletState} {st : Option Standing} {ms : List AdmissionMessage} {k : Nat}
    (h : AgreesWith s st ms k) (n : Outlet) {s' : OutletState} (hm : mayMove s s' = true) :
    AgreesWith s' st (ms ++ admissionHandoffs n s s') k := by
  obtain ⟨ha, ho⟩ := h
  constructor
  · rw [Standing.afterAll_append]
    generalize Standing.afterAll st ms = t at ha
    cases s <;> cases s' <;> first
      | exact absurd hm Bool.noConfusion
      | (rcases ha with ha | ⟨ha, hk⟩ <;> subst ha <;> first
          | exact .inl rfl
          | exact .inr ⟨rfl, hk⟩)
      | (obtain ⟨ha, hk⟩ := ha
         subst ha
         first
          | exact ⟨rfl, hk⟩
          | exact .inl rfl)
  · rw [List.countP_append]
    have := handoffs_claim n hm
    omega

theorem AgreesWith.held {s : OutletState} {st : Option Standing} {ms : List AdmissionMessage} {k : Nat}
    (h : AgreesWith s st ms (k + 1)) :
    k = 0 ∧ ¬(s = .closing ∨ s = .inrush) ∧ ms.countP AdmissionMessage.givesUp = 0 ∧ ∃ w, st = some (.holding w) := by
  have ho := h.once
  by_cases hs : s = .closing ∨ s = .inrush <;> by_cases hw : ∃ w, st = some (.holding w)
  · rw [if_pos hs, if_pos hw] at ho; omega
  · rw [if_pos hs, if_neg hw] at ho; omega
  · rw [if_neg hs, if_pos hw] at ho; exact ⟨by omega, hs, by omega, hw⟩
  · rw [if_neg hs, if_neg hw] at ho; omega

/-- An admission starts the closing of a QUEUED outlet (R87). -/
theorem AgreesWith.admitted {st : Option Standing} {ms : List AdmissionMessage} {k : Nat}
    (h : AgreesWith .queued st ms (k + 1)) : AgreesWith .closing st ms k := by
  obtain ⟨hk, -, hg, w, hw⟩ := h.held
  have ha := h.arrives
  have ho := h.once
  subst hk hw
  refine ⟨?_, by simpa using ho⟩
  rcases ha with ha | ⟨ha, -⟩
  · obtain ⟨w', hw'⟩ := Standing.afterAll_holding w ms _ hg ha
    cases hw'
  · exact ⟨ha, rfl⟩

/-- An admission that cannot start is handed back (R87, R165). -/
theorem AgreesWith.handBack {s : OutletState} {st : Option Standing} {ms : List AdmissionMessage} {k : Nat}
    (h : AgreesWith s st ms (k + 1)) (n : Outlet) : AgreesWith s st (ms ++ [.handBack n]) k := by
  obtain ⟨hk, hs, hg, w, hw⟩ := h.held
  have ha := h.arrives
  have ho := h.once
  subst hk hw
  constructor
  · rw [Standing.afterAll_append]
    cases s <;> simp at hs <;> rcases ha with ha | ⟨ha, -⟩ <;> first
      | (rw [ha]; simp [Standing.afterAll, Standing.after]; done)
      | (obtain ⟨w', hw'⟩ := Standing.afterAll_holding w ms _ hg ha; cases hw')
  · rw [List.countP_append]
    simp [AdmissionMessage.givesUp, hs, hg]

/-- A head that is granted holds its slot, and its admission is on its way (R162). -/
theorem AgreesWith.grant {s : OutletState} {ms : List AdmissionMessage} {k : Nat}
    (h : AgreesWith s (some .waiting) ms k) : AgreesWith s (some (.holding false)) ms (k + 1) := by
  have ha := h.arrives
  have ho := h.once
  have hno : ¬∃ w, some Standing.waiting = some (Standing.holding w) := by simp
  rw [if_neg hno] at ho
  have hg : ms.countP AdmissionMessage.givesUp = 0 := by omega
  have hk : k = 0 := by omega
  have hs : ¬(s = .closing ∨ s = .inrush) := fun hs => by rw [if_pos hs] at ho; omega
  have hgr := (Standing.afterAll_granted ms hg).1
  constructor
  · cases s <;> simp at hs <;> rcases ha with ha | ⟨ha, -⟩ <;> rcases hgr _ ha with ⟨h1, h2⟩ | ⟨h1, h2⟩ <;>
      simp_all
  · simp [hs, hg, hk]

/-- A hand-off that gives up a slot ends the claim on it; any other leaves the claim. -/
theorem Standing.after_claim {t t' : Standing} {m : AdmissionMessage} (h : t.after m = some t') :
    (if ∃ w, some t = some (Standing.holding w) then 1 else 0) =
      (if ∃ w, some t' = some (Standing.holding w) then 1 else 0) + (if m.givesUp = true then 1 else 0) := by
  rcases t with _ | _ | w <;> rcases m with n | n | n | n <;> try cases w
  all_goals
    simp only [Standing.after, reduceCtorEq, Option.some.injEq] at h
    try (subst h; simp [AdmissionMessage.givesUp])

/-- A hand-off arrives. -/
theorem AgreesWith.receive {s : OutletState} {st : Option Standing} {m : AdmissionMessage} {ms : List AdmissionMessage}
    {k : Nat} (h : AgreesWith s st (m :: ms) k) :
    ∃ t t', st = some t ∧ t.after m = some t' ∧ AgreesWith s (some t') ms k := by
  obtain ⟨t, rfl⟩ := h.stands
  obtain ⟨o, ho⟩ : ∃ o, t.after m = o := ⟨_, rfl⟩
  have hfold : Standing.afterAll (some t) (m :: ms) = Standing.afterAll o ms := by
    rw [← ho]; rfl
  have ha := h.arrives
  rw [hfold] at ha
  cases o with
  | none => rw [Standing.afterAll_none] at ha; cases s <;> simp at ha
  | some t' =>
    refine ⟨t, t', rfl, ho, ha, ?_⟩
    have hon := h.once
    rw [List.countP_cons, Standing.after_claim ho] at hon
    omega

/-! ## Queues and slots, read for one outlet -/

/-- How often an outlet stands in a queue. -/
abbrev places (n : Outlet) (q : List QueueEntry) : Nat := q.countP fun e => decide (e.outlet = n)

theorem places_insertJoin (n : Outlet) (e : QueueEntry) (q : List QueueEntry) :
    places n (insertJoin e q) = places n q + if e.outlet = n then 1 else 0 := by
  induction q with
  | nil => simp [insertJoin, places, List.countP_cons]
  | cons x xs ih =>
    unfold insertJoin
    split
    · simp only [places, List.countP_cons] at ih ⊢; rw [ih]; omega
    · simp only [places, List.countP_cons, decide_eq_true_eq]

theorem places_insertReturned (n : Outlet) (e : QueueEntry) (q : List QueueEntry) :
    places n (insertReturned e q) = places n q + if e.outlet = n then 1 else 0 := by
  induction q with
  | nil => simp [insertReturned, places, List.countP_cons]
  | cons x xs ih =>
    unfold insertReturned
    split
    · simp only [places, List.countP_cons] at ih ⊢; rw [ih]; omega
    · simp only [places, List.countP_cons, decide_eq_true_eq]

theorem places_filter (n m : Outlet) (q : List QueueEntry) :
    places n (q.filter fun e => decide (e.outlet ≠ m)) = if n = m then 0 else places n q := by
  rw [places, List.countP_filter]
  split
  · rename_i h
    subst h
    exact List.countP_eq_zero.2 fun e _ => by simp
  · rename_i h
    refine List.countP_congr fun e _ => ?_
    simp only [decide_not, Bool.and_eq_true, decide_eq_true_eq, Bool.not_eq_true', decide_eq_false_iff_not]
    exact ⟨fun he => he.1, fun he => ⟨he, fun hm => h (he.symm.trans hm)⟩⟩

theorem inQueue_iff (n : Outlet) (q : List QueueEntry) : inQueue n q = true ↔ 0 < places n q := by
  simp [inQueue, places, List.countP_pos_iff]

/-- Two units that hold the same of an outlet give it the same standing. -/
theorem Admission.standing_congr {a a' : Admission} {n : Outlet}
    (hq : places n a'.queues[Outlet.branch n] = places n a.queues[Outlet.branch n])
    (hs : (a'.slots[Outlet.branch n]).filter (fun s => decide (s.outlet = n)) =
      (a.slots[Outlet.branch n]).filter fun s => decide (s.outlet = n)) : a'.standing n = a.standing n := by
  simp only [places] at hq
  unfold Admission.standing
  rw [hq, hs]

theorem Admission.standing_waiting {a : Admission} {n : Outlet} (h : a.standing n = some .waiting) :
    places n a.queues[Outlet.branch n] = 1 ∧
      (a.slots[Outlet.branch n]).filter (fun s => decide (s.outlet = n)) = none := by
  unfold Admission.standing at h
  split at h <;> simp at h
  exact ⟨by assumption, by assumption⟩

theorem Admission.standing_absent {a : Admission} {n : Outlet} (h : a.standing n = some .absent) :
    places n a.queues[Outlet.branch n] = 0 ∧
      (a.slots[Outlet.branch n]).filter (fun s => decide (s.outlet = n)) = none := by
  unfold Admission.standing at h
  split at h <;> simp at h
  exact ⟨by assumption, by assumption⟩

theorem Admission.standing_holding {a : Admission} {n : Outlet} {w : Bool} (h : a.standing n = some (.holding w)) :
    places n a.queues[Outlet.branch n] = 0 ∧
      ∃ s, a.slots[Outlet.branch n] = some s ∧ s.outlet = n ∧ s.withdrawn = w := by
  unfold Admission.standing at h
  split at h <;> simp at h
  rename_i s h1 h2
  obtain ⟨hs, hn⟩ := Option.filter_eq_some_iff.1 h2
  exact ⟨h1, s, hs, by simpa using hn, h⟩

theorem Admission.standing_eq (a : Admission) (n : Outlet) (hq : places n a.queues[Outlet.branch n] = 0)
    (hs : (a.slots[Outlet.branch n]).filter (fun s => decide (s.outlet = n)) = none) : a.standing n = some .absent := by
  unfold Admission.standing
  rw [hs]
  simp only [places] at hq
  rw [hq]
  rfl

theorem Admission.standing_eq_waiting (a : Admission) (n : Outlet) (hq : places n a.queues[Outlet.branch n] = 1)
    (hs : (a.slots[Outlet.branch n]).filter (fun s => decide (s.outlet = n)) = none) :
    a.standing n = some .waiting := by
  unfold Admission.standing
  rw [hs]
  simp only [places] at hq
  rw [hq]
  rfl

theorem Admission.standing_eq_holding (a : Admission) (n : Outlet) (s : Slot)
    (hq : places n a.queues[Outlet.branch n] = 0) (hs : a.slots[Outlet.branch n] = some s) (hn : s.outlet = n) :
    a.standing n = some (.holding s.withdrawn) := by
  unfold Admission.standing
  rw [hs]
  simp only [places] at hq
  rw [hq]
  simp [Option.filter, hn]

end Sys2Proof.Machine
end

