-- ==== Sys2Proof/Laws/Linked.lean ====
section
/-! SUPPORT. The agreement between the outlets' states and the Admission Unit stands over everything the block does:
`linked_internal`. -/

namespace Sys2Proof.Machine
open Sys2Proof

/-! ## One outlet -/

theorem OutletContext.coil_none {o : OutletContext} (h : o.operation = none) : o.coil = none := by
  unfold OutletContext.coil; rw [h]; rfl

/-- Nothing that an outlet's agreement is about has changed. -/
theorem Device.LinkedAt.congr {d d' : Device} {n : Outlet} (h : d.LinkedAt n)
    (hs : (d'.outlet[n]).state = (d.outlet[n]).state)
    (hc : (d'.outlet[n]).operation = none ∨ (d'.outlet[n]).coil = (d.outlet[n]).coil)
    (hst : d'.admission.standing n = d.admission.standing n) (hh : d'.handoffs n = d.handoffs n)
    (hk : d'.mail.admissions.count n = d.mail.admissions.count n) : d'.LinkedAt n := by
  refine ⟨?_, fun m hm => ?_⟩
  · rw [hs, hst, hh, hk]; exact h.agrees
  · rcases hc with hc | hc
    · rw [OutletContext.coil_none hc] at hm; cases hm
    · rw [hs]; exact h.coil m (hc ▸ hm)

theorem Device.Linked.congr {d d' : Device} (h : d.Linked) (ho : KeepsCourses d.outlet d'.outlet)
    (hq : d'.admission.queues = d.admission.queues) (hs : d'.admission.slots = d.admission.slots)
    (hm : d'.mail.toAdmission = d.mail.toAdmission) (ha : d'.mail.admissions = d.mail.admissions)
    (hi : d.inService → d'.inService) : d'.Linked where
  outlets n := (h.outlets n).congr (ho n).1 (ho n).2 (Admission.standing_congr (by rw [hq]) (by rw [hs]))
    (by unfold Device.handoffs; rw [hm]) (by rw [ha])
  start hn := by
    have hu := h.start (by cases hd : d.inService; · rfl
                           · rw [hi hd] at hn; cases hn)
    exact ⟨fun n => (ho n).1.trans (hu.states n), fun b => by rw [hq, hs]; exact hu.admission b,
      by rw [hm, ha]; exact hu.handed⟩

theorem KeepsCourses.refl (v : Vector OutletContext 48) : KeepsCourses v v := fun _ => ⟨rfl, .inr rfl⟩

/-- The Admission Unit's own invariant, with the agreement between it and the outlets. -/
def Device.AdmissionLinked (d : Device) : Prop := d.admission.Ok ∧ d.Linked

theorem linked_neutral : Neutral Device.AdmissionLinked where
  lines _ _ h := ⟨h.1, h.2.congr (.refl _) rfl rfl rfl rfl id⟩
  now _ _ h := ⟨h.1, h.2.congr (.refl _) rfl rfl rfl rfl id⟩
  outlet _ _ hv h := ⟨h.1, h.2.congr hv rfl rfl rfl rfl id⟩
  applyEcho _ _ h := ⟨h.1, h.2.congr (.refl _) rfl rfl rfl rfl id⟩
  suspended _ _ h := ⟨h.1, h.2.congr (.refl _) rfl rfl rfl rfl id⟩
  sampler _ _ h := ⟨h.1, h.2.congr (.refl _) rfl rfl rfl rfl id⟩
  handed _ _ hm ha h := ⟨h.1, h.2.congr (.refl _) rfl rfl hm ha id⟩
  free _ _ h := ⟨h.1, h.2.congr (.refl _) rfl rfl rfl rfl id⟩
  watch _ _ _ h := ⟨h.1, h.2.congr (.refl _) rfl rfl rfl rfl id⟩
  charter _ _ _ _ hi h := ⟨h.1, h.2.congr (.refl _) rfl rfl rfl rfl hi⟩
  pub _ _ _ h := ⟨h.1, h.2.congr (.refl _) rfl rfl rfl rfl id⟩
  engine _ _ _ h := ⟨h.1, h.2.congr (.refl _) rfl rfl rfl rfl id⟩
  kept _ _ ha hq hs h := ⟨ha h.1, h.2.congr (.refl _) hq hs rfl rfl id⟩
  reports _ _ _ h := ⟨h.1, h.2.congr (.refl _) rfl rfl rfl rfl id⟩

/-- The Admission Unit's own invariant stands whatever the part does. -/
theorem admissionOk_loose : Loose (fun d => d.admission.Ok) where
  lines _ _ h := h
  now _ _ h := h
  outlet _ _ _ h := h
  applyEcho _ _ h := h
  suspended _ _ h := h
  sampler _ _ h := h
  handed _ _ _ _ h := h
  free _ _ h := h
  watch _ _ _ h := h
  charter _ _ _ _ _ h := h
  pub _ _ _ h := h
  engine _ _ _ h := h
  kept _ _ ha _ _ h := ha h
  reports _ _ _ h := h
  contexts _ _ h := h
  mail _ _ h := h
  admission _ _ ha h := ha h

/-- Something has started, so the charter is in service. -/
theorem Device.Linked.inService {d : Device} (h : d.Linked) (hu : d.Unstarted → False) : d.inService = true := by
  cases hs : d.inService
  · exact (hu (h.start hs)).elim
  · rfl

/-- Hand-offs about one outlet are none of another's. -/
theorem admissionHandoffs_outlet (n : Outlet) (s s' : OutletState) : ∀ m ∈ admissionHandoffs n s s', m.outlet = n := by
  intro m hm
  cases s <;> cases s' <;> simp [admissionHandoffs] at hm <;>
    first
      | (rcases hm with hm | hm <;> subst hm <;> rfl)
      | (subst hm; rfl)

theorem Device.Linked.changeState {d : Device} (h : d.Linked) (n : Outlet) (new : OutletState)
    (hm : mayMove (d.outletState n) new = true) (hc : d.CoilFree n) : (d.changeState n new).Linked := by
  have hin : d.inService = true := h.inService fun hu => by
    have := hu.states n
    unfold Device.outletState at hm
    rw [this] at hm
    exact absurd hm (by cases new <;> decide)
  have hmail := Device.changeState_mail (d := d) n new
  have hout := Device.changeState_outlet (d := d) n new
  refine ⟨fun m => ?_, fun hn => absurd hn ?_⟩
  · by_cases hmn : n = m
    · subst hmn
      have hst : ((d.changeState n new).outlet[n]).state = new := by
        rw [hout, getElem_setAt, if_pos rfl]; rfl
      have hh : (d.changeState n new).handoffs n = d.handoffs n ++ admissionHandoffs n (d.outletState n) new := by
        unfold Device.handoffs
        rw [hmail, List.filter_append]
        congr 1
        exact List.filter_eq_self.2 fun x hx => decide_eq_true (admissionHandoffs_outlet _ _ _ x hx)
      refine ⟨?_, fun k hk => ?_⟩
      · rw [hst, hh, Device.changeState_admission, hmail]
        exact (h.outlets n).agrees.move n hm
      · have hk' : (d.outlet[n]).coil = some k := by
          rw [hout, getElem_setAt, if_pos rfl] at hk; exact hk
        rcases hc with hc | hc
        · rw [OutletContext.coil_none hc] at hk'; cases hk'
        · have := (h.outlets n).coil k hk'
          cases k
          · exact absurd this hc.1
          · exact absurd this hc.2
    · have hcx : (d.changeState n new).outlet[m] = d.outlet[m] := by
        rw [hout, getElem_setAt, if_neg hmn]
      refine (h.outlets m).congr (by rw [hcx]) (.inr (by rw [hcx])) (by rw [Device.changeState_admission]) ?_ (by rw [hmail])
      unfold Device.handoffs
      have hnil : (admissionHandoffs n (d.outletState n) new).filter (fun x => decide (x.outlet = m)) = [] :=
        List.filter_eq_nil_iff.2 fun x hx => by
          rw [admissionHandoffs_outlet _ _ _ x hx]; simpa using hmn
      rw [hmail, List.filter_append, hnil, List.append_nil]
  · have : (d.changeState n new).inService = d.inService := by unfold Device.inService; simp
    rw [this, hin]; simp


/-- What an opening outlet's coil is set to follows its state. -/
theorem Device.Linked.setOperation {d : Device} (h : d.Linked) (n : Outlet) (m : RelayMove) (us : Nat)
    (hs : d.outletState n = m.during) : (d.setOutlet n fun o => { o with operation := some (m, us) }).Linked := by
  refine ⟨fun k => ?_, fun hn => ?_⟩
  · by_cases hk : n = k
    · subst hk
      have hx : (d.setOutlet n fun o => { o with operation := some (m, us) }).outlet[n] =
          { d.outlet[n] with operation := some (m, us) } := by
        rw [Device.setOutlet_outlet, getElem_setAt, if_pos rfl]
      refine ⟨?_, fun k hk => ?_⟩
      · rw [hx]; exact (h.outlets n).agrees
      · rw [hx] at hk ⊢
        have : m = k := by simpa [OutletContext.coil] using hk
        subst this
        exact hs
    · have hx : (d.setOutlet n fun o => { o with operation := some (m, us) }).outlet[k] = d.outlet[k] := by
        rw [Device.setOutlet_outlet, getElem_setAt, if_neg hk]
      exact (h.outlets k).congr (by rw [hx]) (.inr (by rw [hx])) rfl rfl rfl
  · have hu := h.start hn
    refine absurd (hu.states n) ?_
    unfold Device.outletState at hs
    rw [hs]
    cases m <;> decide

theorem admissionLinked_changeState (d : Device) (n : Outlet) (new : OutletState)
    (hm : mayMove (d.outletState n) new = true) (hc : d.CoilFree n) (h : d.AdmissionLinked) :
    (d.changeState n new).AdmissionLinked :=
  ⟨admissionOk_loose.changeState d n new h.1, h.2.changeState n new hm hc⟩

/-- A relay operation that ends leaves the outlet's state, with no coil driven. -/
theorem admissionLinked_finish (d : Device) (n : Outlet) (sense : Sense) (left : Nat) (h : d.AdmissionLinked) :
    ((d.advance left).finish n sense).AdmissionLinked :=
  linked_neutral.modOutlet _ _ _ (linked_neutral.setSense _ _ _ (linked_neutral.advance _ _ h)) fun _ => ⟨rfl, .inl rfl⟩

theorem Device.finish_outlet (d : Device) (n : Outlet) (sense : Sense) (left : Nat) :
    ((d.advance left).finish n sense).outletState n = d.outletState n ∧ ((d.advance left).finish n sense).CoilFree n := by
  unfold Device.finish Device.outletState Device.CoilFree
  constructor
  · simp [OutletContext.tick]
  · left; simp

theorem admissionLinked_finishing (d : Device) (n : Outlet) (sense : Sense) (left : Nat) (m : RelayMove)
    (new : OutletState) (ho : (d.outlet[n]).operation = some (m, left))
    (hm : mayMove m.during new = true) (h : d.AdmissionLinked) :
    (((d.advance left).finish n sense).changeState n new).AdmissionLinked := by
  have hf := Device.finish_outlet d n sense left
  have hs := (h.2.outlets n).coil m (by unfold OutletContext.coil; rw [ho]; rfl)
  refine admissionLinked_changeState _ _ _ ?_ hf.2 (admissionLinked_finish d n sense left h)
  rw [hf.1]
  unfold Device.outletState
  rw [hs]
  exact hm

/-- The message at the front of the hand-offs, taken. -/
theorem Device.handoffs_cons {d : Device} {m : AdmissionMessage} {later : List AdmissionMessage}
    (hq : d.mail.toAdmission = m :: later) (k : Outlet) :
    d.handoffs k = if m.outlet = k then m :: d.dropAdmissionMessage.handoffs k else d.dropAdmissionMessage.handoffs k := by
  unfold Device.handoffs Device.dropAdmissionMessage
  rw [hq, List.filter_cons]
  simp only [decide_eq_true_eq, List.tail_cons]

theorem admissionLinked_takeAdmission (d : Device) (n : Outlet) (later : List Outlet)
    (hq : d.mail.admissions = n :: later) (h : d.AdmissionLinked) :
    (({ d with mail := { d.mail with admissions := later } }).takeAdmission n).AdmissionLinked := by
  have hin : d.inService = true := h.2.inService fun hu => by rw [hu.handed.2] at hq; cases hq
  have hcount : d.mail.admissions.count n = later.count n + 1 := by rw [hq]; simp
  have hother : ∀ k, n ≠ k → d.mail.admissions.count k = later.count k := fun k hk => by
    rw [hq, List.count_cons_of_ne hk]
  unfold Device.takeAdmission
  split
  · rename_i hs
    refine ⟨admissionOk_loose.setOutlet _ _ _ (admissionOk_loose.changeState _ _ _ h.1), ?_⟩
    unfold Device.beginOperation
    refine Device.Linked.setOperation ?_ n .closing _ ?_
    · have hmail := Device.changeState_mail (d := { d with mail := { d.mail with admissions := later } }) n .closing
      have hout := Device.changeState_outlet (d := { d with mail := { d.mail with admissions := later } }) n .closing
      have hstate : (d.outlet[n]).state = .queued := hs.1
      have hstate' : ({ d with mail := { d.mail with admissions := later } } : Device).outletState n = .queued := hs.1
      rw [hstate'] at hmail
      refine ⟨fun k => ?_, fun hn => ?_⟩
      · by_cases hk : n = k
        · subst hk
          refine ⟨?_, fun m hm => ?_⟩
          · have ha := (h.2.outlets n).agrees
            rw [hcount, hstate] at ha
            have := ha.admitted
            unfold Device.handoffs
            rw [hmail, hout, getElem_setAt, if_pos rfl, Device.changeState_admission]
            simpa [admissionHandoffs, Device.enterState, Device.handoffs] using this
          · rw [hout, getElem_setAt, if_pos rfl] at hm
            have := (h.2.outlets n).coil m hm
            rw [hstate] at this
            cases m <;> cases this
        · have hx : ((({ d with mail := { d.mail with admissions := later } } : Device).changeState n .closing).outlet[k]) =
              d.outlet[k] := by rw [hout, getElem_setAt, if_neg hk]
          refine (h.2.outlets k).congr (by rw [hx]) (.inr (by rw [hx])) (by rw [Device.changeState_admission]) ?_ ?_
          · unfold Device.handoffs
            rw [hmail]
            simp [admissionHandoffs]
          · rw [hmail]; exact (hother k hk).symm
      · have he : (({ d with mail := { d.mail with admissions := later } } : Device).changeState n .closing).inService =
            d.inService := by unfold Device.inService; simp
        rw [he, hin] at hn; cases hn
    · unfold Device.outletState
      rw [Device.changeState_outlet, getElem_setAt, if_pos rfl]
      rfl
  · refine ⟨h.1, ⟨fun k => ?_, fun hn => ?_⟩⟩
    · by_cases hk : n = k
      · subst hk
        refine ⟨?_, (h.2.outlets n).coil⟩
        have ha := (h.2.outlets n).agrees
        rw [hcount] at ha
        have := ha.handBack n
        show AgreesWith (d.outlet[n]).state (d.admission.standing n) (Device.handoffs _ n) (later.count n)
        unfold Device.handoffs Device.toAdmission
        simpa [AdmissionMessage.outlet, Device.handoffs] using this
      · refine (h.2.outlets k).congr rfl (.inr rfl) rfl ?_ (hother k hk).symm
        unfold Device.handoffs Device.toAdmission
        simp [AdmissionMessage.outlet, hk]
    · have he : d.inService = false := hn
      rw [he] at hin; cases hin


/-! ## The Admission Unit -/

/-- A change that leaves the outlets and what is on its way, and every standing but one outlet's. -/
theorem Device.Linked.restand {d d' : Device} (h : d.Linked) (n : Outlet) (ho : d'.outlet = d.outlet)
    (hin : d'.inService = true) (hat : AgreesWith (d'.outlet[n]).state (d'.admission.standing n) (d'.handoffs n)
      (d'.mail.admissions.count n))
    (hst : ∀ k, n ≠ k → d'.admission.standing k = d.admission.standing k)
    (hh : ∀ k, n ≠ k → d'.handoffs k = d.handoffs k)
    (hk : ∀ k, n ≠ k → d'.mail.admissions.count k = d.mail.admissions.count k) : d'.Linked := by
  refine ⟨fun k => ?_, fun hn => by rw [hin] at hn; cases hn⟩
  by_cases hnk : n = k
  · subst hnk
    exact ⟨hat, by rw [ho]; exact (h.outlets n).coil⟩
  · exact (h.outlets k).congr (by rw [ho]) (.inr (by rw [ho])) (hst k hnk) (hh k hnk) (hk k hnk)

/-- A grant's queue, slot and admission: the rest of it is publication and tenure. -/
theorem Device.grant_linkage (d : Device) (b : Branch) (e : QueueEntry) (rest : List QueueEntry) :
    (d.grant b e rest).outlet = d.outlet ∧ (d.grant b e rest).charter = d.charter ∧
    (d.grant b e rest).admission.queues = setAt d.admission.queues b rest ∧
    (d.grant b e rest).admission.slots =
      setAt d.admission.slots b (some ⟨e.outlet, (d.setQueue b rest).inrushEstimate e.outlet, false, e.rank⟩) ∧
    (d.grant b e rest).mail = { d.mail with admissions := d.mail.admissions ++ [e.outlet] } := by
  unfold Device.grant Device.occupySlot Device.handAdmission
  simp [Device.changeReserved, Device.setSlot, Device.setQueue]
  rfl

theorem vector_get_congr {α : Type} {k : Nat} (v : Vector α k) {i j : Fin k} (h : i = j) : v[i] = v[j] := by subst h; rfl

theorem admissionLinked_evaluateHead (d : Device) (b : Branch) (h : d.AdmissionLinked) :
    (d.evaluateHead b).AdmissionLinked := by
  refine ⟨admissionOk_loose.evaluateHead d b h.1, ?_⟩
  unfold Device.evaluateHead
  split
  · exact h.2
  · rename_i e rest hq
    split
    · rename_i hb
      have hfree := (blockReason_none d b e.outlet hb).2.2
      have hq' : d.admission.queues[b] = e :: rest := hq
      have hbr : Outlet.branch e.outlet = b := (h.1.queues b).branch e (by rw [hq']; exact List.mem_cons_self ..)
      have hin : d.inService = true := h.2.inService fun hu => by
        have := (hu.admission b).1; rw [hq'] at this; cases this
      subst hbr
      obtain ⟨ho, hc, hqs, hsl, hm⟩ := Device.grant_linkage d (Outlet.branch e.outlet) e rest
      have hw : d.admission.standing e.outlet = some .waiting := by
        obtain ⟨t, ht⟩ := (h.2.outlets e.outlet).agrees.stands
        rw [ht]
        have hp : 0 < places e.outlet d.admission.queues[Outlet.branch e.outlet] := by
          rw [hq']; simp [places]
        cases t with
        | absent => have := (Admission.standing_absent ht).1; omega
        | holding w => have := (Admission.standing_holding ht).1; omega
        | waiting => rfl
      have hstand : (d.grant (Outlet.branch e.outlet) e rest).admission.standing e.outlet = some (.holding false) := by
        refine (Admission.standing_eq_holding _ e.outlet _ ?_ (by rw [hsl, getElem_setAt, if_pos rfl]) rfl).trans rfl
        have := (Admission.standing_waiting hw).1
        rw [hq'] at this
        rw [hqs, getElem_setAt, if_pos rfl]
        simp only [places, List.countP_cons, decide_true, if_true] at this ⊢
        omega
      refine h.2.restand e.outlet ho (by unfold Device.inService at hin ⊢; rw [hc]; exact hin) ?_ (fun k hk => ?_) (fun k hk => ?_) (fun k hk => ?_)
      · rw [hstand, ho, hm]
        unfold Device.handoffs
        rw [hm]
        have ha := (h.2.outlets e.outlet).agrees
        rw [hw] at ha
        have := ha.grant
        simpa [Device.handoffs] using this
      · refine Admission.standing_congr ?_ ?_
        · rw [hqs, getElem_setAt]
          split
          · rename_i hkb
            rw [← vector_get_congr d.admission.queues hkb, hq']
            simp [places, hk]
          · rfl
        · rw [hsl, getElem_setAt]
          split
          · rename_i hkb
            rw [← vector_get_congr d.admission.slots hkb, hfree]
            simp [Option.filter, hk]
          · rfl
      · unfold Device.handoffs; rw [hm]
      · rw [hm]; simp [List.count_append, hk]
    · exact h.2.congr (.refl _) rfl rfl rfl rfl id


/-! ## Hand-offs that arrive -/

/-- The hand-off at the front is one that could come. -/
theorem Device.Linked.arriving {d : Device} {m : AdmissionMessage} {later : List AdmissionMessage} (h : d.Linked)
    (hq : d.mail.toAdmission = m :: later) (n : Outlet) (hn : m.outlet = n) :
    ∃ t t', d.admission.standing n = some t ∧ t.after m = some t' ∧
      AgreesWith (d.outlet[n]).state (some t') (d.dropAdmissionMessage.handoffs n) (d.mail.admissions.count n) := by
  have hagree := (h.outlets n).agrees
  rw [Device.handoffs_cons hq, if_pos hn] at hagree
  exact hagree.receive

/-- The hand-off at the front arrives: its outlet's standing follows it, and no other changes. -/
theorem Device.Linked.arrive {d d' : Device} {m : AdmissionMessage} {later : List AdmissionMessage} (h : d.Linked)
    (hq : d.mail.toAdmission = m :: later) (n : Outlet) (hn : m.outlet = n)
    (ho : d'.outlet = d.outlet) (hc : d'.charter = d.charter) (hm : d'.mail = d.dropAdmissionMessage.mail)
    (hat : ∀ t t', d.admission.standing n = some t → t.after m = some t' → d'.admission.standing n = some t')
    (hst : ∀ k, n ≠ k → d'.admission.standing k = d.admission.standing k) : d'.Linked := by
  have hin : d.inService = true := h.inService fun hu => by rw [hu.handed.1] at hq; cases hq
  have hh : ∀ k, d'.handoffs k = d.dropAdmissionMessage.handoffs k := fun k => by unfold Device.handoffs; rw [hm]
  have ha : d'.mail.admissions = d.mail.admissions := by rw [hm]; rfl
  refine h.restand n ho (by unfold Device.inService at hin ⊢; rw [hc]; exact hin) ?_ hst (fun k hk => ?_)
    (fun k _ => by rw [ha])
  · obtain ⟨t, t', ht, hta, hr⟩ := h.arriving hq n hn
    rw [hat t t' ht hta, ho, hh, ha]
    exact hr
  · rw [hh, Device.handoffs_cons hq, if_neg (by rw [hn]; exact hk)]

/-- An outlet that stands in its queue waits. -/
theorem Admission.standing_of_places {a : Admission} {n : Outlet} {t : Standing} (h : a.standing n = some t)
    (hp : 0 < places n a.queues[Outlet.branch n]) : t = .waiting := by
  cases t with
  | absent => have := (Admission.standing_absent h).1; omega
  | holding w => have := (Admission.standing_holding h).1; omega
  | waiting => rfl

/-- An outlet in its branch's slot holds it. -/
theorem Admission.standing_of_slot {a : Admission} {n : Outlet} {t : Standing} {s : Slot} (h : a.standing n = some t)
    (hs : a.slots[Outlet.branch n] = some s) (hn : s.outlet = n) : t = .holding s.withdrawn := by
  cases t with
  | absent => have := (Admission.standing_absent h).2; rw [hs] at this; simp [Option.filter, hn] at this
  | waiting => have := (Admission.standing_waiting h).2; rw [hs] at this; simp [Option.filter, hn] at this
  | holding w =>
    obtain ⟨-, s', hs', -, hw⟩ := Admission.standing_holding h
    rw [hs] at hs'
    cases hs'
    rw [hw]

theorem setAt_self {α : Type} {k : Nat} (v : Vector α k) (i : Fin k) : setAt v i v[i] = v := by
  unfold setAt
  ext j hj
  simp only [Fin.getElem_fin, Vector.getElem_set]
  split
  · rename_i h; simp only [h]
  · rfl

/-- Every standing but one outlet's is as it was when one branch's queue and slot change for that outlet alone. -/
theorem Admission.standing_others {a a' : Admission} {n : Outlet} (q : List QueueEntry) (s : Option Slot)
    (hq : a'.queues = setAt a.queues (Outlet.branch n) q) (hs : a'.slots = setAt a.slots (Outlet.branch n) s)
    (hqk : ∀ k, n ≠ k → places k q = places k a.queues[Outlet.branch n])
    (hsk : ∀ k, n ≠ k → s.filter (fun s => decide (s.outlet = k)) =
      (a.slots[Outlet.branch n]).filter fun s => decide (s.outlet = k)) (k : Outlet) (hk : n ≠ k) :
    a'.standing k = a.standing k := by
  refine Admission.standing_congr ?_ ?_
  · rw [hq, getElem_setAt]
    split
    · rename_i hb; rw [hqk k hk, vector_get_congr a.queues hb]
    · rfl
  · rw [hs, getElem_setAt]
    split
    · rename_i hb; rw [hsk k hk, vector_get_congr a.slots hb]
    · rfl

/-- Only the outlet itself sees its slot. -/
theorem slot_filter_ne {s : Slot} {n k : Outlet} (hs : s.outlet = n) (hk : n ≠ k) :
    (some s).filter (fun s => decide (s.outlet = k)) = none := by
  simp [Option.filter, hs, hk]

theorem Device.placeEntry_linkage (d : Device) (b : Branch) (q : List QueueEntry) (n : Outlet) :
    (d.placeEntry b q n).outlet = d.outlet ∧ (d.placeEntry b q n).charter = d.charter ∧
    (d.placeEntry b q n).mail = d.mail ∧ (d.placeEntry b q n).admission.slots = d.admission.slots ∧
    (d.placeEntry b q n).admission.queues = setAt d.admission.queues b q := by
  unfold Device.placeEntry
  dsimp only
  split <;> simp [Device.beginTenure, Device.setTenure, Device.setQueue]

theorem admissionLinked_placeJoin (d : Device) (n : Outlet) (later : List AdmissionMessage)
    (hq : d.mail.toAdmission = .join n :: later) (h : d.AdmissionLinked)
    (hs : d.admission.standing n = some .absent) : (d.dropAdmissionMessage.placeJoin n).AdmissionLinked := by
  obtain ⟨ho, hc, hm, hsl, hqs⟩ := Device.placeEntry_linkage d.dropAdmissionMessage (Outlet.branch n)
    (insertJoin ⟨n, d.dropAdmissionMessage.restartRank n⟩ (d.dropAdmissionMessage.branchQueue (Outlet.branch n))) n
  have ha := Admission.standing_absent hs
  have hsl : (d.dropAdmissionMessage.placeJoin n).admission.slots = d.admission.slots := hsl
  have hqs : (d.dropAdmissionMessage.placeJoin n).admission.queues = _ := hqs
  refine ⟨admissionOk_loose.placeJoin d.dropAdmissionMessage n h.1,
    h.2.arrive hq n rfl ho hc hm (fun t t' ht hta => ?_)
      (Admission.standing_others _ d.admission.slots[Outlet.branch n] hqs (hsl.trans (setAt_self _ _).symm)
        (fun k hk => ?_) (fun _ _ => rfl))⟩
  · rw [hs] at ht
    cases ht
    cases hta
    refine Admission.standing_eq_waiting _ n ?_ (Eq.trans (by rw [hsl]) ha.2)
    rw [hqs, getElem_setAt, if_pos rfl, places_insertJoin, if_pos rfl]
    exact congrArg (· + 1) ha.1
  · rw [places_insertJoin, if_neg hk]
    rfl

theorem admissionLinked_markWithdrawn (d : Device) (n : Outlet) (v : Bool) (m : AdmissionMessage)
    (later : List AdmissionMessage) (hq : d.mail.toAdmission = m :: later) (hn : m.outlet = n) (h : d.AdmissionLinked)
    (w : Bool) (hs : d.admission.standing n = some (.holding w))
    (ha : Standing.after (.holding w) m = some (.holding v)) :
    (d.dropAdmissionMessage.markWithdrawn (Outlet.branch n) v).AdmissionLinked := by
  obtain ⟨hp, s, hslot, hso, hsw⟩ := Admission.standing_holding hs
  refine ⟨admissionOk_loose.markWithdrawn d.dropAdmissionMessage _ v h.1,
    h.2.arrive hq n hn rfl rfl rfl (fun t t' ht hta => ?_)
      (Admission.standing_others d.admission.queues[Outlet.branch n]
        ((d.admission.slots[Outlet.branch n]).map fun s => { s with withdrawn := v }) (setAt_self _ _).symm rfl
        (fun _ _ => rfl) (fun k hk => ?_))⟩
  · rw [hs] at ht
    cases ht
    rw [ha] at hta
    cases hta
    refine Admission.standing_eq_holding _ _ { s with withdrawn := v } hp ?_ hso
    refine (getElem_setAt d.admission.slots (Outlet.branch n) (Outlet.branch n)
      ((d.admission.slots[Outlet.branch n]).map fun s => { s with withdrawn := v })).trans ?_
    rw [if_pos rfl, hslot]
    rfl
  · rw [hslot, slot_filter_ne hso hk]
    exact slot_filter_ne (s := { s with withdrawn := v }) hso hk

theorem admissionLinked_takeJoin (d : Device) (n : Outlet) (later : List AdmissionMessage)
    (hq : d.mail.toAdmission = .join n :: later) (h : d.AdmissionLinked) :
    (d.dropAdmissionMessage.takeJoin n).AdmissionLinked := by
  obtain ⟨t, t', ht, hta, -⟩ := h.2.arriving hq n rfl
  unfold Device.takeJoin
  dsimp only
  split
  · rename_i hi
    have := Admission.standing_of_places ht ((inQueue_iff _ _).1 hi)
    subst this
    exact nomatch hta
  · split
    · rename_i hi hw
      have hh : d.admission.standing n = some (.holding true) := by
        change (d.admission.slots[Outlet.branch n]).any _ = true at hw
        cases hs : d.admission.slots[Outlet.branch n] with
        | none => rw [hs] at hw; exact nomatch hw
        | some s =>
          rw [hs] at hw
          simp only [Option.any_some, Bool.and_eq_true, decide_eq_true_eq] at hw
          rw [ht, Admission.standing_of_slot ht hs hw.1, hw.2]
      exact admissionLinked_markWithdrawn d n false _ later hq rfl h true hh rfl
    · rename_i hi hw
      refine admissionLinked_evaluateHead _ _ (linked_neutral.publishBranch _ _
        (admissionLinked_placeJoin d n later hq h (ht.trans ?_)))
      rcases t with _ | _ | w
      · rfl
      · exact nomatch hta
      · cases w
        · exact nomatch hta
        · obtain ⟨-, s, hs, hso, hsw⟩ := Admission.standing_holding ht
          refine absurd ?_ hw
          change (d.admission.slots[Outlet.branch n]).any _ = true
          rw [hs]
          simp [hso, hsw]

theorem admissionLinked_takeRemoval (d : Device) (n : Outlet) (later : List AdmissionMessage)
    (hq : d.mail.toAdmission = .removal n :: later) (h : d.AdmissionLinked) :
    (d.dropAdmissionMessage.takeRemoval n).AdmissionLinked := by
  obtain ⟨t, t', ht, hta, -⟩ := h.2.arriving hq n rfl
  unfold Device.takeRemoval
  dsimp only
  split
  · rename_i hi
    have := Admission.standing_of_places ht ((inQueue_iff _ _).1 hi)
    subst this
    have hw := Admission.standing_waiting ht
    have hset : (d.dropAdmissionMessage.setQueue (Outlet.branch n) ((d.dropAdmissionMessage.branchQueue
        (Outlet.branch n)).filter fun e => decide (e.outlet ≠ n))).AdmissionLinked := by
      refine ⟨admissionOk_loose.setQueue d.dropAdmissionMessage _ _ (fun hq => hq.filter _) h.1,
        h.2.arrive hq n rfl rfl rfl rfl (fun t t' ht' hta => ?_)
          (Admission.standing_others _ d.admission.slots[Outlet.branch n] rfl (setAt_self _ _).symm
            (fun k hk => ?_) (fun _ _ => rfl))⟩
      · rw [ht] at ht'
        cases ht'
        cases hta
        refine Admission.standing_eq _ n ?_ hw.2
        refine (congrArg (places n) (getElem_setAt d.admission.queues (Outlet.branch n) (Outlet.branch n) _)).trans ?_
        rw [if_pos rfl, places_filter, if_pos rfl]
      · rw [places_filter, if_neg (Ne.symm hk)]
        rfl
    split
    · exact admissionLinked_evaluateHead _ _ (linked_neutral.publishBranch _ _ (linked_neutral.beginTenure _ _ hset))
    · exact linked_neutral.publishBranch _ _ hset
  · rename_i hi
    rcases t with _ | _ | w
    · exact nomatch hta
    · refine absurd ((inQueue_iff _ _).2 ?_) hi
      have := (Admission.standing_waiting ht).1
      change 0 < places n d.admission.queues[Outlet.branch n]
      omega
    · cases w
      · obtain ⟨-, s, hs, hso, hsw⟩ := Admission.standing_holding ht
        have hocc : d.dropAdmissionMessage.occupies n = true := by
          unfold Device.occupies
          change (d.admission.slots[Outlet.branch n]).any _ = true
          rw [hs]
          simp [hso]
        rw [if_pos hocc]
        exact admissionLinked_markWithdrawn d n true _ later hq rfl h false ht rfl
      · exact nomatch hta

/-- The slot freed by the release or hand-back at the front. -/
theorem admissionLinked_freeSlot (d : Device) (n : Outlet) (m : AdmissionMessage) (later : List AdmissionMessage)
    (hq : d.mail.toAdmission = m :: later) (hn : m.outlet = n) (h : d.AdmissionLinked) (s : Slot)
    (hs : d.admission.slots[Outlet.branch n] = some s) (hso : s.outlet = n)
    (ha : Standing.after (.holding s.withdrawn) m = some .absent) :
    (d.dropAdmissionMessage.freeSlot (Outlet.branch n) s).AdmissionLinked := by
  refine ⟨admissionOk_loose.freeSlot d.dropAdmissionMessage _ s hs h.1,
    h.2.arrive hq n hn rfl rfl rfl (fun t t' ht hta => ?_)
      (Admission.standing_others d.admission.queues[Outlet.branch n] none (setAt_self _ _).symm rfl
        (fun _ _ => rfl) (fun k hk => ?_))⟩
  · have := Admission.standing_of_slot ht hs hso
    subst this
    rw [ha] at hta
    cases hta
    refine Admission.standing_eq _ n (Admission.standing_holding ht).1 ?_
    refine (congrArg (Option.filter _) (getElem_setAt d.admission.slots (Outlet.branch n) (Outlet.branch n) none)).trans ?_
    rw [if_pos rfl]
    rfl
  · rw [hs, slot_filter_ne hso hk]
    rfl

theorem admissionLinked_evaluateHeads (d : Device) (h : d.AdmissionLinked) : d.evaluateHeads.AdmissionLinked :=
  linked_neutral.inFreeOrder _ _ admissionLinked_evaluateHead _ _ h

theorem admissionLinked_takeRelease (d : Device) (n : Outlet) (later : List AdmissionMessage)
    (hq : d.mail.toAdmission = .release n :: later) (h : d.AdmissionLinked) :
    (d.dropAdmissionMessage.takeRelease n).AdmissionLinked := by
  obtain ⟨t, t', ht, hta, -⟩ := h.2.arriving hq n rfl
  rcases t with _ | _ | w
  · exact nomatch hta
  · exact nomatch hta
  · cases w
    · obtain ⟨-, s, hs, hso, hsw⟩ := Admission.standing_holding ht
      unfold Device.takeRelease
      have hs' : d.dropAdmissionMessage.admission.slots[Outlet.branch n] = some s := hs
      dsimp only
      rw [hs']
      dsimp only
      rw [if_pos hso]
      refine admissionLinked_evaluateHeads _ (linked_neutral.publishBranch _ _ ?_)
      exact admissionLinked_freeSlot d n _ later hq rfl h s hs hso (by rw [hsw]; rfl)
    · exact nomatch hta

/-- A hand-back that is not withdrawn goes back into the queue. -/
theorem admissionLinked_return (d : Device) (n : Outlet) (later : List AdmissionMessage)
    (hq : d.mail.toAdmission = .handBack n :: later) (h : d.AdmissionLinked) (s : Slot)
    (hs : d.admission.slots[Outlet.branch n] = some s) (hso : s.outlet = n) (hw : s.withdrawn = false)
    (r : Nat) (hr : r ≤ 3) :
    ((d.dropAdmissionMessage.freeSlot (Outlet.branch n) s).placeEntry (Outlet.branch n)
      (insertReturned ⟨n, r⟩ ((d.dropAdmissionMessage.freeSlot (Outlet.branch n) s).branchQueue
        (Outlet.branch n))) n).AdmissionLinked := by
  obtain ⟨ho, hc, hm, hsl, hqs⟩ := Device.placeEntry_linkage (d.dropAdmissionMessage.freeSlot (Outlet.branch n) s)
    (Outlet.branch n) (insertReturned ⟨n, r⟩ (d.branchQueue (Outlet.branch n))) n
  refine ⟨admissionOk_loose.placeEntry _ _ _ _ (fun hq => hq.returned _ hr rfl)
      (admissionOk_loose.freeSlot d.dropAdmissionMessage _ s hs h.1),
    h.2.arrive hq n rfl ho hc hm (fun t t' ht hta => ?_)
      (Admission.standing_others _ none hqs hsl (fun k hk => ?_) (fun k hk => ?_))⟩
  · have := Admission.standing_of_slot ht hs hso
    subst this
    rw [hw] at hta ht
    cases hta
    refine Admission.standing_eq_waiting _ n ?_ ?_
    · refine (congrArg (fun q => places n q[Outlet.branch n]) hqs).trans ?_
      rw [getElem_setAt, if_pos rfl, places_insertReturned, if_pos rfl]
      exact congrArg (· + 1) (Admission.standing_holding ht).1
    · refine (congrArg (fun q => Option.filter (fun s => decide (s.outlet = n)) q[Outlet.branch n]) hsl).trans ?_
      refine (congrArg (Option.filter _) (getElem_setAt d.admission.slots (Outlet.branch n) (Outlet.branch n) none)).trans ?_
      rw [if_pos rfl]
      rfl
  · rw [places_insertReturned, if_neg hk]
    rfl
  · rw [hs, slot_filter_ne hso hk]
    rfl

theorem admissionLinked_takeHandBack (d : Device) (n : Outlet) (later : List AdmissionMessage)
    (hq : d.mail.toAdmission = .handBack n :: later) (h : d.AdmissionLinked) :
    (d.dropAdmissionMessage.takeHandBack n).AdmissionLinked := by
  obtain ⟨t, t', ht, hta, -⟩ := h.2.arriving hq n rfl
  rcases t with _ | _ | w
  · exact nomatch hta
  · exact nomatch hta
  · obtain ⟨-, s, hs, hso, hsw⟩ := Admission.standing_holding ht
    unfold Device.takeHandBack
    have hs' : d.dropAdmissionMessage.admission.slots[Outlet.branch n] = some s := hs
    dsimp only
    rw [hs']
    dsimp only
    rw [if_pos hso]
    refine admissionLinked_evaluateHeads _ (linked_neutral.publishBranch _ _ ?_)
    split
    · rename_i hw
      exact admissionLinked_freeSlot d n _ later hq rfl h s hs hso (by rw [hw]; rfl)
    · rename_i hw
      exact admissionLinked_return d n later hq h s hs hso (by simpa using hw) s.rank (h.1.slots _ s hs).rank

/-! ## Sweep end, reset -/

theorem placeJoins (xs : List Outlet) (d : Device) :
    (xs.foldl Device.placeJoin d).outlet = d.outlet ∧ (xs.foldl Device.placeJoin d).mail = d.mail ∧
    (xs.foldl Device.placeJoin d).admission.slots = d.admission.slots ∧
    ∀ n, places n (xs.foldl Device.placeJoin d).admission.queues[Outlet.branch n] =
      places n d.admission.queues[Outlet.branch n] + xs.count n := by
  induction xs generalizing d with
  | nil => exact ⟨rfl, rfl, rfl, fun n => by simp⟩
  | cons x xs ih =>
    obtain ⟨ho, -, hm, hs, hq⟩ := Device.placeEntry_linkage d (Outlet.branch x)
      (insertJoin ⟨x, d.restartRank x⟩ (d.branchQueue (Outlet.branch x))) x
    obtain ⟨io, im, is, iq⟩ := ih (d.placeJoin x)
    refine ⟨io.trans ho, im.trans hm, is.trans hs, fun n => (iq n).trans ?_⟩
    have hq : (d.placeJoin x).admission.queues = _ := hq
    rw [hq, getElem_setAt, List.count_cons]
    split
    · rename_i hb
      rw [places_insertJoin, vector_get_congr d.admission.queues hb.symm]
      show places n (d.branchQueue (Outlet.branch x)) + _ + _ = places n (d.branchQueue (Outlet.branch x)) + _
      simp only [beq_iff_eq]
      omega
    · rename_i hb
      have : ¬x = n := fun hx => hb (by rw [hx])
      simp [this]

theorem admissionLinked_startService (d : Device) (hs : d.charter.state = .sweeping) (h : d.AdmissionLinked) :
    (d.setOutlets.setCharter fun c => { c with state := .running, sweepPosition := none }).AdmissionLinked := by
  refine ⟨admissionOk_loose.startService d h.1, ?_⟩
  have hu := h.2.start (by unfold Device.inService; rw [hs])
  unfold Device.setOutlets
  dsimp only
  generalize he : ({ d with
      outlet := Vector.ofFn d.startingOutlet
      watch := Vector.ofFn d.startingWatch
      suspendedSince := none
      admission := { Admission.afterReset with loads := d.levelLoads } } : Device) = e
  have heo : e.outlet = Vector.ofFn d.startingOutlet := by rw [← he]
  have hem : e.mail = d.mail := by rw [← he]
  have hes : ∀ b : Branch, e.admission.slots[b] = none := fun b => by rw [← he]; simp [Admission.afterReset]
  have heq : ∀ b : Branch, e.admission.queues[b] = [] := fun b => by rw [← he]; simp [Admission.afterReset]
  obtain ⟨po, pm, ps, pq⟩ := placeJoins (outlets.filter fun n => decide (e.outletState n = .queued)) e
  have hcount : ∀ n, (outlets.filter fun n => decide (e.outletState n = .queued)).count n =
      if (e.outlet[n]).state = .queued then 1 else 0 := fun n => by
    split
    · rename_i hn
      exact List.count_eq_one_of_mem ((List.nodup_finRange 48).filter _)
        (List.mem_filter.2 ⟨List.mem_finRange n, decide_eq_true hn⟩)
    · rename_i hn
      refine List.count_eq_zero_of_not_mem fun hm => hn ?_
      exact of_decide_eq_true (List.mem_filter.1 hm).2
  generalize List.foldl Device.placeJoin e _ = f at *
  have hso : ∀ n : Outlet, (f.outlet[n]).operation = none ∧ (f.outlet[n]).state ≠ .closing ∧
      (f.outlet[n]).state ≠ .inrush := fun n => by
    rw [po, heo]
    simp only [Fin.getElem_fin, Vector.getElem_ofFn, Fin.eta]
    unfold Device.startingOutlet
    refine ⟨rfl, ?_, ?_⟩ <;> dsimp only <;> split <;> (try split) <;> (try split) <;> decide
  have hslot : ∀ n : Outlet, (f.admission.slots[Outlet.branch n]).filter (fun s => decide (s.outlet = n)) = none :=
    fun n => by rw [ps, hes]; rfl
  have hp : ∀ n : Outlet, places n f.admission.queues[Outlet.branch n] =
      if (f.outlet[n]).state = .queued then 1 else 0 := fun n => by
    rw [pq, hcount, heq, po]; simp [places]
  have hh : f.mail.toAdmission = [] ∧ f.mail.admissions = [] := by rw [pm, hem]; exact hu.handed
  refine ⟨fun n => ⟨?_, fun m hm => ?_⟩, fun hn => nomatch hn⟩
  · have hat : AgreesWith (f.outlet[n]).state (f.admission.standing n) [] 0 := by
      have hp := hp n
      obtain ⟨-, hc, hi⟩ := hso n
      generalize (f.outlet[n]).state = st at *
      by_cases hq : st = .queued
      · subst hq
        rw [Admission.standing_eq_waiting _ n hp (hslot n)]
        exact ⟨.inl rfl, by simp⟩
      · rw [if_neg hq] at hp
        rw [Admission.standing_eq _ n hp (hslot n)]
        refine ⟨?_, by simp [hc, hi]⟩
        cases st <;> first
          | exact absurd rfl hq
          | exact absurd rfl hc
          | exact absurd rfl hi
          | exact .inl rfl
    have h1 : Device.handoffs (f.setCharter fun c => { c with state := .running, sweepPosition := none }) n = [] := by
      unfold Device.handoffs
      show List.filter _ f.mail.toAdmission = []
      rw [hh.1]; rfl
    have h2 : List.count n f.mail.admissions = 0 := by rw [hh.2]; rfl
    rw [h1]
    show AgreesWith (f.outlet[n]).state (f.admission.standing n) [] (List.count n f.mail.admissions)
    rw [h2]
    exact hat
  · have := OutletContext.coil_none (hso n).1
    change (f.outlet[n]).coil = some m at hm
    rw [this] at hm
    cases hm

/-- The agreement stands over everything the block does. -/
theorem linked_internal : Internal Device.AdmissionLinked where
  toNeutral := linked_neutral
  changeState := admissionLinked_changeState
  open_ d n us hs h := ⟨h.1, h.2.setOperation n .opening us hs⟩
  finishClosing d n sense left new ho hn h := admissionLinked_finishing d n sense left .closing new ho
    (by rcases hn with rfl | rfl <;> rfl) h
  finishOpening d n sense left new ho hn h := admissionLinked_finishing d n sense left .opening new ho
    (by rcases hn with rfl | rfl | rfl <;> rfl) h
  takeAdmission := admissionLinked_takeAdmission
  evaluateHead := admissionLinked_evaluateHead
  takeJoin := admissionLinked_takeJoin
  takeRemoval := admissionLinked_takeRemoval
  takeRelease := admissionLinked_takeRelease
  takeHandBack := admissionLinked_takeHandBack
  startService := admissionLinked_startService

theorem admissionLinked_stable : Stable Device.AdmissionLinked where
  toInternal := linked_internal
  ram _ _ _ h := ⟨h.1, h.2.congr (.refl _) rfl rfl rfl rfl id⟩
  shadow _ _ _ h := ⟨h.1, h.2.congr (.refl _) rfl rfl rfl rfl id⟩
  path _ _ _ h := ⟨h.1, h.2.congr (.refl _) rfl rfl rfl rfl id⟩
  hold _ _ h := ⟨h.1, h.2.congr (.refl _) rfl rfl rfl rfl id⟩

/-- After reset nothing has started. -/
theorem linked_afterReset (pins : Pins) (ram : Memory) (k : Nat) : (Device.afterReset pins ram k).Linked := by
  have hst : ∀ n : Outlet, (Device.afterReset pins ram k).outlet[n] = OutletContext.afterReset := fun n => by
    simp [Device.afterReset]
  have hadm : ∀ b : Branch, (Device.afterReset pins ram k).admission.queues[b] = [] ∧
      (Device.afterReset pins ram k).admission.slots[b] = none := fun b => by
    simp [Device.afterReset, Admission.afterReset]
  refine ⟨fun n => ⟨?_, fun m hm => ?_⟩, fun _ => ⟨fun n => by rw [hst]; rfl, hadm, rfl, rfl⟩⟩
  · have hs : (Device.afterReset pins ram k).admission.standing n = some .absent :=
      Admission.standing_eq _ n (by rw [(hadm _).1]; rfl) (by rw [(hadm _).2]; rfl)
    rw [hst, hs]
    exact ⟨.inl rfl, by rfl⟩
  · rw [hst] at hm; cases hm

end Sys2Proof.Machine
end

