-- ==== Sys2Proof/Laws/Verdicts.lean ====
section
/-! SUPPORT. What a release of held verdicts does to every watch (R143, R147). -/

namespace Sys2Proof.Machine
open Sys2Proof

/-! ## Verdicts -/

/-- The decision on a watch, and its report. -/
theorem Device.decideVerdict_watch (d : Device) (n : Outlet) :
    (d.decideVerdict n).watch = setAt d.watch n (d.verdictOn n d.watch[n]).1 ∧
      (d.decideVerdict n).mail.reports = d.mail.reports ++
        [⟨.verdict, .outlet n, verdictCauseCode (d.watch[n]).cause, (d.verdictOn n d.watch[n]).2.code⟩] := by
  unfold Device.decideVerdict Device.verdictHeld Device.verdictOn
  simp only [Fin.getElem_fin]
  by_cases h1 : (d.watch[n.val]).held = true
  · simp [h1]
  by_cases h2 : d.pins.hold = true
  · simp [h2]
  by_cases h3 : d.charter.state = .halted
  · simp [h3]
  by_cases h4 : (d.watch[n.val]).recent.length < d.cycleLimit n
  · simp [h1, h2, h3, h4]
  · simp [h1, h2, h3, h4]

theorem Device.cycleLimit_congr {d e : Device} (h : e.path = d.path) (n : Outlet) : e.cycleLimit n = d.cycleLimit n := by
  unfold Device.cycleLimit Device.outletField Device.shadow
  rw [h]

theorem Device.verdictOn_congr {d e : Device} (hp : e.pins = d.pins) (hc : e.charter = d.charter) (hs : e.path = d.path)
    (n : Outlet) (w : WatchContext) : e.verdictOn n w = d.verdictOn n w := by
  unfold Device.verdictOn
  rw [hp, hc, Device.cycleLimit_congr hs]

theorem Device.foldl_decideVerdict_watch (ys : List Outlet) (hy : ys.Nodup) (d : Device) (n : Outlet) :
    (ys.foldl Device.decideVerdict d).watch[n] =
      if n ∈ ys then (d.verdictOn n d.watch[n]).1 else d.watch[n] := by
  induction ys generalizing d with
  | nil => simp
  | cons y ys ih =>
    rw [List.nodup_cons] at hy
    rw [List.foldl_cons, ih hy.2]
    have hfr := Device.decideVerdict_frame d y
    rw [Device.verdictOn_congr (hfr .pins (by decide)) (hfr .charter (by decide)) (hfr .path (by decide)),
      (Device.decideVerdict_watch d y).1]
    by_cases hn : n = y
    · subst hn
      simp [hy.1]
    · have : y ≠ n := Ne.symm hn
      simp [hn, this]

/-- A release decides the verdict of every HUNG watch that is not held, and leaves every other watch. -/
theorem Device.releaseVerdicts_watch (d : Device) (n : Outlet) :
    d.releaseVerdicts.watch[n] =
      if d.mayOperate = true ∧ (d.watch[n]).state = .hung ∧ (d.watch[n]).held = false then
        (d.verdictOn n d.watch[n]).1
      else d.watch[n] := by
  obtain ⟨ys, k, hp, he⟩ := Device.inFreeOrder_perm (fun n : Outlet => n.val) Device.decideVerdict d.releasable d
  unfold Device.releaseVerdicts
  rw [he, Device.foldl_decideVerdict_watch ys (hp.nodup_iff.2 (List.Nodup.filter _ (List.nodup_finRange 48)))]
  have hm : n ∈ ys ↔ d.mayOperate = true ∧ (d.watch[n]).state = .hung ∧ (d.watch[n]).held = false := by
    rw [hp.mem_iff]
    unfold Device.releasable
    simp [outlets, and_assoc]
  by_cases h : n ∈ ys
  · rw [if_pos h, if_pos (hm.1 h)]; rfl
  · rw [if_neg h, if_neg (fun hx => h (hm.2 hx))]

theorem Device.verdictDwell_eq (d : Device) (n : Outlet) : d.clampDwell (d.defaultDwell n) = d.verdictDwell n := by
  unfold Device.clampDwell Device.verdictDwell Device.defaultDwell clampNat
  simp

/-- What a verdict decision hands on: its report, and its cycle if it is one. -/
theorem Device.decideVerdict_mail (d : Device) (n : Outlet) :
    (d.decideVerdict n).mail = { d.mail with
      reports := d.mail.reports ++
        [⟨.verdict, .outlet n, verdictCauseCode (d.watch[n]).cause, (d.verdictOn n d.watch[n]).2.code⟩]
      verdictCycles := d.mail.verdictCycles ++
        if (d.verdictOn n d.watch[n]).2 = .cycled then [⟨n, d.verdictDwell n, d.charter.uptime⟩] else [] } := by
  unfold Device.decideVerdict Device.verdictHeld Device.verdictOn
  rw [← Device.verdictDwell_eq]
  simp only [Fin.getElem_fin]
  by_cases h1 : (d.watch[n.val]).held = true
  · simp [h1]
  by_cases h2 : d.pins.hold = true
  · simp [h2]
  by_cases h3 : d.charter.state = .halted
  · simp [h3]
  by_cases h4 : (d.watch[n.val]).recent.length < d.cycleLimit n
  · simp [h1, h2, h3, h4]
  · simp [h1, h2, h3, h4]

theorem Device.verdictDwell_congr {d e : Device} (hc : e.charter = d.charter) (hs : e.path = d.path) (n : Outlet) :
    e.verdictDwell n = d.verdictDwell n := by
  unfold Device.verdictDwell Device.outletField Device.shadow
  rw [hc, hs]

theorem Device.foldl_decideVerdict_mail (ys : List Outlet) (hy : ys.Nodup) (d : Device) :
    (ys.foldl Device.decideVerdict d).mail = { d.mail with
      reports := d.mail.reports ++ ys.map fun n =>
        ⟨.verdict, .outlet n, verdictCauseCode (d.watch[n]).cause, (d.verdictOn n d.watch[n]).2.code⟩
      verdictCycles := d.mail.verdictCycles ++
        (ys.filter fun n => decide ((d.verdictOn n d.watch[n]).2 = .cycled)).map fun n =>
          ⟨n, d.verdictDwell n, d.charter.uptime⟩ } := by
  induction ys generalizing d with
  | nil => simp
  | cons y ys ih =>
    rw [List.nodup_cons] at hy
    have hfr := Device.decideVerdict_frame d y
    have hch := hfr .charter (by decide)
    have hv : ∀ n w, (d.decideVerdict y).verdictOn n w = d.verdictOn n w := fun n w =>
      Device.verdictOn_congr (hfr .pins (by decide)) hch (hfr .path (by decide)) n w
    have hw : ∀ n ∈ ys, (d.decideVerdict y).watch[n] = d.watch[n] := fun n hn => by
      have hne : y ≠ n := fun h => hy.1 (h ▸ hn)
      rw [(Device.decideVerdict_watch d y).1, getElem_setAt, if_neg hne]
    have hdw : ∀ n, (d.decideVerdict y).verdictDwell n = d.verdictDwell n :=
      Device.verdictDwell_congr hch (hfr .path (by decide))
    have hup : (d.decideVerdict y).charter.uptime = d.charter.uptime := by rw [hch]
    have hr : (ys.map fun n => (⟨.verdict, .outlet n, verdictCauseCode ((d.decideVerdict y).watch[n]).cause,
        ((d.decideVerdict y).verdictOn n (d.decideVerdict y).watch[n]).2.code⟩ : Report)) = ys.map fun n =>
        ⟨.verdict, .outlet n, verdictCauseCode (d.watch[n]).cause, (d.verdictOn n d.watch[n]).2.code⟩ :=
      List.map_congr_left fun n hn => by rw [hv, hw n hn]
    have hc : (ys.filter fun n => decide (((d.decideVerdict y).verdictOn n (d.decideVerdict y).watch[n]).2 = .cycled)) =
        ys.filter fun n => decide ((d.verdictOn n d.watch[n]).2 = .cycled) :=
      List.filter_congr fun n hn => by rw [hv, hw n hn]
    rw [List.foldl_cons, ih hy.2, hr, hc, Device.decideVerdict_mail]
    simp only [hdw, hup, List.map_cons, List.filter_cons]
    by_cases hcy : (d.verdictOn y d.watch[y.val]).2 = .cycled
    · simp [hcy]
    · simp [hcy]

/-- The held verdicts that nothing holds any more. -/
theorem Device.releasable_eq (d : Device) : d.releasable = outlets.filter d.verdictFreed := by
  unfold Device.releasable Device.mayOperate Device.running
  refine List.filter_congr fun n _ => ?_
  unfold Device.verdictFreed
  cases d.pins.hold <;> cases (d.watch[n]).held <;> by_cases h1 : d.charter.state = .running <;>
    simp [h1]

/-- A release of held verdicts, whole. -/
theorem Device.releaseVerdicts_spec (d : Device) : d.VerdictsReleased d.releaseVerdicts := by
  obtain ⟨ys, k, hp, he⟩ := Device.inFreeOrder_perm (fun n : Outlet => n.val) Device.decideVerdict d.releasable d
  have hn : ys.Nodup := hp.nodup_iff.2 (List.Nodup.filter _ (List.nodup_finRange 48))
  rw [Device.releasable_eq] at hp
  refine ⟨fun n => ?_, ys, hp, ?_⟩
  · rw [Device.releaseVerdicts_watch]
    have : (d.verdictFreed n = true) ↔ (d.mayOperate = true ∧ (d.watch[n]).state = .hung ∧ (d.watch[n]).held = false) := by
      unfold Device.verdictFreed Device.mayOperate Device.running
      simp only [decide_eq_true_eq, Bool.and_eq_true, Bool.not_eq_true']
      tauto
    simp only [this]
  · unfold Device.releaseVerdicts
    rw [he, Device.foldl_decideVerdict_mail ys hn]
    exact ⟨rfl, rfl⟩

theorem Device.releaseVerdicts_mail (d : Device) :
    d.releaseVerdicts.mail = { d.mail with
      reports := d.releaseVerdicts.mail.reports, verdictCycles := d.releaseVerdicts.mail.verdictCycles } :=
  inFreeOrder_keeps (fun e => e.mail = { d.mail with reports := e.mail.reports, verdictCycles := e.mail.verdictCycles })
    _ _ (fun e n he => by rw [Device.decideVerdict_mail, he]) (fun _ _ he => he) _ _ rfl

/-- The evaluation of every head, and then the release of held verdicts, as at a release of HOLD and a RUN (R35, R106). -/
theorem Device.headsThenVerdicts_spec (d : Device) :
    d.Untouched d.evaluateHeads.releaseVerdicts [.pub, .engine, .admission, .watch, .mail, .freeCount] ∧
    d.HeadsEvaluated d.evaluateHeads.releaseVerdicts ∧ d.VerdictsReleased d.evaluateHeads.releaseVerdicts ∧
    d.SequencesMove d.evaluateHeads.releaseVerdicts (d.admission.granted d.evaluateHeads.releaseVerdicts.admission) ∧
    d.evaluateHeads.releaseVerdicts.mail = { d.mail with
      reports := d.evaluateHeads.releaseVerdicts.mail.reports
      verdictCycles := d.evaluateHeads.releaseVerdicts.mail.verdictCycles
      admissions := d.evaluateHeads.releaseVerdicts.mail.admissions } := by
  have hh := Device.evaluateHeads_spec d
  have hf := Device.evaluateHeads_frame d
  have hm := Device.evaluateHeads_mail d
  have hc := Device.evaluateHeads_sequences d
  obtain ⟨e, he⟩ : ∃ e, d.evaluateHeads = e := ⟨_, rfl⟩
  rw [he] at hh hf hm hc ⊢
  have hv := Device.releaseVerdicts_frame e
  have hvm := Device.releaseVerdicts_mail e
  refine ⟨.trans (hf.mono (by decide)) (hv.mono (by decide)),
    hh.congr rfl rfl rfl rfl rfl (hv .admission (by decide)) (by rw [hvm]), ?_,
    (hc.congr (hv .engine (by decide))).times fun b => by rw [show e.releaseVerdicts.admission = e.admission from hv .admission (by decide)], ?_⟩
  · obtain ⟨h1, order, ho, h2, h3⟩ := Device.releaseVerdicts_spec e
    have hw : e.watch = d.watch := hf .watch (by decide)
    have hch : e.charter = d.charter := hf .charter (by decide)
    have hpi : e.pins = d.pins := hf .pins (by decide)
    have hpa : e.path = d.path := hf .path (by decide)
    have hvo : ∀ n w, e.verdictOn n w = d.verdictOn n w := Device.verdictOn_congr hpi hch hpa
    have hfr : e.verdictFreed = d.verdictFreed := by funext n; unfold Device.verdictFreed; rw [hw, hch, hpi]
    have hdw : ∀ n, e.verdictDwell n = d.verdictDwell n := Device.verdictDwell_congr hch hpa
    refine ⟨fun n => ?_, order, hfr ▸ ho, ?_, ?_⟩
    · rw [h1 n, hfr]
      dsimp only
      rw [hvo, hw]
    · rw [h2, hm]
      simp only [hvo, hw]
    · rw [h3, hm]
      simp only [hvo, hw, hdw, hch]
  · rw [hvm, hm]

end Sys2Proof.Machine
end

