-- ==== Sys2Proof/Laws/Quorum.lean ====
section
/-! SUPPORT. Quorum, suspension and the predicate (R137 to R141): what each leaves of every watch, whole. -/

namespace Sys2Proof.Machine
open Sys2Proof

/-- The quorum count (R140). -/
theorem Device.quorumCount_eq (d : Device) : d.quorumCount = d.suspects := rfl

/-- Suspension of one watch (R140). -/
theorem WatchContext.suspended_eq (w : WatchContext) : w.suspended = { w with condH := false }.cleared := lapsed_eq _

/-- A change of each watch in a list without repeats. -/
theorem foldl_modWatch (f : WatchContext → WatchContext) (xs : List Outlet) (hx : xs.Nodup) (d : Device) :
    d.Untouched (xs.foldl (fun d n => d.modWatch n f) d) [.watch, .pub] ∧
    ∀ m : Outlet, (xs.foldl (fun d n => d.modWatch n f) d).watch[m] = if m ∈ xs then f d.watch[m] else d.watch[m] := by
  induction xs generalizing d with
  | nil => exact ⟨.refl _ _, fun m => by simp⟩
  | cons x xs ih =>
    obtain ⟨hn, hx⟩ := List.nodup_cons.1 hx
    obtain ⟨h1, h2⟩ := ih hx (d.modWatch x f)
    refine ⟨(Device.modWatch_frame d x f).trans h1, fun m => ?_⟩
    rw [List.foldl_cons, h2 m]
    have hw : (d.modWatch x f).watch[m] = if m = x then f d.watch[m] else d.watch[m] := by
      by_cases hm : m = x
      · subst hm; simp
      · have : x ≠ m := Ne.symm hm
        simp [hm, this]
    rw [hw]
    by_cases hm : m = x
    · subst hm; simp [hn]
    · simp [hm]

/-- The beginning of suspension, whole (R140, R141). -/
theorem Device.beginSuspension_spec (d : Device) :
    d.Untouched d.beginSuspension [.watch, .pub, .suspendedSince, .mail] ∧
    d.beginSuspension.suspendedSince = some d.charter.uptime ∧
    d.beginSuspension.mail = { d.mail with reports := d.mail.reports ++
      [⟨.hbSuspend, .strip, BitVec.ofNat 16 d.suspects, BitVec.ofNat 16 d.charter.settings.quorum⟩] } ∧
    ∀ m : Outlet, d.beginSuspension.watch[m] = { d.watch[m] with condH := false }.cleared := by
  obtain ⟨h1, h2⟩ := foldl_modWatch WatchContext.suspended outlets (List.nodup_finRange 48) d
  unfold Device.beginSuspension
  obtain ⟨e, he⟩ : ∃ e, e = outlets.foldl (fun d n => d.modWatch n WatchContext.suspended) d := ⟨_, rfl⟩
  simp only [← he] at h1 h2 ⊢
  have hc : e.charter = d.charter := h1 .charter (by decide)
  have hm : e.mail = d.mail := h1 .mail (by decide)
  refine ⟨?_, ?_, ?_, fun m => ?_⟩
  · intro p hp
    have := h1 p (fun h => hp (by revert h; cases p <;> decide))
    cases p <;> first | exact absurd hp (by decide) | (simp [Part.same]; exact this)
  · simp [hc]
  · simp [hc, hm, Device.quorumCount_eq]
  · have := h2 m
    simp only [outlets, List.mem_finRange, if_true] at this
    simpa [WatchContext.suspended_eq] using this

/-- One watch replaced raises the quorum count by one at most. -/
theorem suspects_setAt (d : Device) (n : Outlet) (w : WatchContext) :
    ({ d with watch := setAt d.watch n w } : Device).suspects ≤ d.suspects + 1 := by
  unfold Device.suspects outlets
  have : ∀ xs : List Outlet, xs.Nodup → xs.countP (fun m => decide ((setAt d.watch n w)[m].state = .suspect) && (setAt d.watch n w)[m].condH) ≤ xs.countP (fun m => decide ((d.watch[m]).state = .suspect) && (d.watch[m]).condH) + (if n ∈ xs then 1 else 0) := by
    intro xs
    induction xs with
    | nil => intro _; simp
    | cons x xs ih =>
      intro hx
      obtain ⟨hn, hx⟩ := List.nodup_cons.1 hx
      have := ih hx
      rw [List.countP_cons, List.countP_cons]
      by_cases hm : n = x
      · subst hm
        simp only [hn, if_false] at this
        simp only [List.mem_cons, true_or, if_true]
        split <;> split <;> omega
      · have e : (setAt d.watch n w)[x] = d.watch[x] := by simp [hm]
        rw [e]
        have : (n ∈ x :: xs) = (n ∈ xs) := by simp [hm]
        simp only [this]
        omega
  have := this (List.finRange 48) (List.nodup_finRange 48)
  simpa using this

/-- A quorum that a greater count does not reach. -/
theorem QuorumAt_mono {d : Device} {j k : Nat} (h : j ≤ k) (hq : ¬d.QuorumAt k) : ¬d.QuorumAt j :=
  fun q => hq ⟨q.1, q.2.1, q.2.2.trans h⟩

/-- A count below the quorum. -/
theorem Device.compareQuorum_none (d : Device) (h : ¬d.QuorumAt d.suspects) : d.compareQuorum = d := by
  unfold Device.compareQuorum
  rw [if_neg]
  rintro ⟨a, b, c⟩
  exact h ⟨a, by simpa [Device.suspendedNow] using b, c⟩

/-- A count that reaches the quorum. -/
theorem Device.compareQuorum_begins (d : Device) (h : d.QuorumAt d.suspects) : d.compareQuorum = d.beginSuspension := by
  unfold Device.compareQuorum
  rw [if_pos ⟨h.1, by simp [Device.suspendedNow, h.2.1], h.2.2⟩]

/-- The predicate evaluated where no suspension begins and the Confirm Time is not 0. -/
theorem Device.evaluatePredicate_spec (d : Device) (n : Outlet) (w : WatchContext) (hw : d.watch[n] = w) (ht : d.charter.settings.confirmTime ≠ 0)
    (hq : ¬d.QuorumAt ({ d with watch := setAt d.watch n { w with state := .suspect } } : Device).suspects) :
    d.Untouched (d.evaluatePredicate n) [.watch, .pub] ∧
    (d.evaluatePredicate n).watch = setAt d.watch n (w.settled d.charter.settings.confirmTime) := by
  have hw' : d.watch[n.val] = w := hw
  have hself : setAt d.watch n w = d.watch := by rw [← hw]; simp
  unfold Device.evaluatePredicate WatchContext.settled
  simp only [Fin.getElem_fin, hw', WatchContext.predicate_eq]
  cases hs : w.state with
  | watching =>
    by_cases hp : w.suspicious = true
    · simp only [hp, if_true, and_self]
      unfold Device.enterSuspect
      have hsame : ∀ e, e = (d.modWatch n fun w => { w with state := .suspect }) →
         (if (e.watch[n]).condH then e.compareQuorum else e) = e := by
        intro e he
        split
        · apply Device.compareQuorum_none
          have h1 : e.suspects = ({ d with watch := setAt d.watch n { w with state := .suspect } } : Device).suspects := by
            unfold Device.suspects; rw [he]; simp [hw']
          have h2 : e.QuorumAt = d.QuorumAt := by
            funext k; unfold Device.QuorumAt; rw [he]; simp
          rw [h1, h2]; exact hq
        · rfl
      obtain ⟨e, he⟩ : ∃ e, e = (d.modWatch n fun w => { w with state := .suspect }) := ⟨_, rfl⟩
      simp only [← he, hsame e he]
      have hst : e.watch[n].state = .suspect := by rw [he]; simp
      have hch : e.charter = d.charter := by rw [he]; simp
      have hfr : d.Untouched e [.watch, .pub] := by rw [he]; exact Device.modWatch_frame _ _ _
      have hwe : e.watch = setAt d.watch n { w with state := .suspect } := by rw [he]; simp [hw']
      rw [if_pos hst, hch, if_neg ht]
      exact ⟨hfr.trans (Device.modWatch_frame _ _ _), by simp [hwe]⟩
    · simp only [hp]
      simp [WatchContext.cleared, hp, hs, hself]
      exact .refl _ _
  | suspect =>
    by_cases hp : w.suspicious = true
    · simp [hp, WatchContext.cleared, hself]; exact .refl _ _
    · simp [hp, WatchContext.cleared, hs, WatchContext.lapsed]
      refine ⟨Device.modWatch_frame _ _ _, ?_⟩
      simp [hw', hs]
  | hung =>
    by_cases hp : w.suspicious = true
    · simp [hp, WatchContext.cleared, hself]; exact .refl _ _
    · simp [hp, WatchContext.cleared, hs, WatchContext.lapsed]
      refine ⟨Device.modWatch_frame _ _ _, ?_⟩
      simp [hw', hs]
  | idle => by_cases hp : w.suspicious = true <;> simp [hp, WatchContext.cleared, hs, hself] <;> exact .refl _ _
  | grace => by_cases hp : w.suspicious = true <;> simp [hp, WatchContext.cleared, hs, hself] <;> exact .refl _ _
  | lockedOut => by_cases hp : w.suspicious = true <;> simp [hp, WatchContext.cleared, hs, hself] <;> exact .refl _ _
/-- The count of one watch fewer or more does not begin suspension. -/
theorem not_quorumAt_setAt {d : Device} (hq : ¬d.QuorumAt (d.suspects + 1)) (n : Outlet) (w : WatchContext) :
    ¬d.QuorumAt ({ d with watch := setAt d.watch n w } : Device).suspects := QuorumAt_mono (suspects_setAt d n w) hq

/-- H takes a value where no suspension begins and the Confirm Time is not 0 (R134). -/
theorem Device.setH_spec (d : Device) (n : Outlet) (h : Bool) (ht : d.charter.settings.confirmTime ≠ 0)
    (hq : ¬d.QuorumAt (d.suspects + 1)) :
    d.Untouched (d.setH n h) [.watch, .pub] ∧
    (d.setH n h).watch = setAt d.watch n (if (d.watch[n]).condH = h then d.watch[n]
      else { d.watch[n] with condH := h }.settled d.charter.settings.confirmTime) := by
  unfold Device.setH
  by_cases hh : (d.watch[n]).condH = h
  · rw [if_pos hh, if_pos hh]
    exact ⟨.refl _ _, by simp⟩
  · rw [if_neg hh, if_neg hh]
    obtain ⟨e, he⟩ : ∃ e, e = d.modWatch n fun w => { w with condH := h } := ⟨_, rfl⟩
    have hfr : d.Untouched e [.watch, .pub] := by rw [he]; exact Device.modWatch_frame _ _ _
    have hwe : e.watch = setAt d.watch n { d.watch[n] with condH := h } := by rw [he]; simp
    have hch : e.charter = d.charter := hfr .charter (by decide)
    have hsus : e.suspendedSince = d.suspendedSince := hfr .suspendedSince (by decide)
    have hqe : e.QuorumAt = d.QuorumAt := by funext k; unfold Device.QuorumAt; rw [hch, hsus]
    have hc : (if h ∧ (e.watch[n]).state = .suspect then e.compareQuorum else e) = e := by
      split
      · apply Device.compareQuorum_none
        have h1 : e.suspects = ({ d with watch := setAt d.watch n { d.watch[n] with condH := h } } : Device).suspects := by
          unfold Device.suspects; rw [hwe]
        rw [hqe, h1]
        exact not_quorumAt_setAt hq n _
      · rfl
    simp only [← he, hc]
    have hwn : e.watch[n] = { d.watch[n] with condH := h } := by rw [hwe]; simp
    obtain ⟨h1, h2⟩ := Device.evaluatePredicate_spec e n _ hwn (by rw [hch]; exact ht) (by
      rw [hqe]
      have : ({ e with watch := setAt e.watch n { { d.watch[n] with condH := h } with state := .suspect } } : Device).suspects
          = ({ d with watch := setAt d.watch n { { d.watch[n] with condH := h } with state := .suspect } } : Device).suspects := by
        unfold Device.suspects; rw [hwe]; simp
      rw [this]
      exact not_quorumAt_setAt hq n _)
    exact ⟨hfr.trans h1, by rw [h2, hwe, hch]; simp⟩

/-- S takes a value where no suspension begins and the Confirm Time is not 0 (R136). -/
theorem Device.setS_spec (d : Device) (n : Outlet) (s : Bool) (ht : d.charter.settings.confirmTime ≠ 0)
    (hq : ¬d.QuorumAt (d.suspects + 1)) :
    d.Untouched (d.setS n s) [.watch, .pub] ∧
    (d.setS n s).watch = setAt d.watch n (if (d.watch[n]).condS = s then d.watch[n]
      else { d.watch[n] with condS := s }.settled d.charter.settings.confirmTime) := by
  unfold Device.setS
  by_cases hh : (d.watch[n]).condS = s
  · rw [if_pos hh, if_pos hh]
    exact ⟨.refl _ _, by simp⟩
  · rw [if_neg hh, if_neg hh]
    obtain ⟨e, he⟩ : ∃ e, e = d.modWatch n fun w => { w with condS := s } := ⟨_, rfl⟩
    have hfr : d.Untouched e [.watch, .pub] := by rw [he]; exact Device.modWatch_frame _ _ _
    have hwe : e.watch = setAt d.watch n { d.watch[n] with condS := s } := by rw [he]; simp
    have hch : e.charter = d.charter := hfr .charter (by decide)
    have hsus : e.suspendedSince = d.suspendedSince := hfr .suspendedSince (by decide)
    have hqe : e.QuorumAt = d.QuorumAt := by funext k; unfold Device.QuorumAt; rw [hch, hsus]
    simp only [← he]
    have hwn : e.watch[n] = { d.watch[n] with condS := s } := by rw [hwe]; simp
    obtain ⟨h1, h2⟩ := Device.evaluatePredicate_spec e n _ hwn (by rw [hch]; exact ht) (by
      rw [hqe]
      have : ({ e with watch := setAt e.watch n { { d.watch[n] with condS := s } with state := .suspect } } : Device).suspects
          = ({ d with watch := setAt d.watch n { { d.watch[n] with condS := s } with state := .suspect } } : Device).suspects := by
        unfold Device.suspects; rw [hwe]; simp
      rw [this]
      exact not_quorumAt_setAt hq n _)
    exact ⟨hfr.trans h1, by rw [h2, hwe, hch]; simp⟩
/-! ## Judgements, whatever the Confirm Time -/

/-- The confirm timer of a watch runs out (R138, R139, R143): the verdict on it, HUNG with its cause, is decided. The block
`e` is `d` with that watch replaced. -/
theorem Device.confirmed_decided {d e : Device} {n : Outlet} {w : WatchContext} (he : d.Untouched e [.watch, .pub])
    (hw : e.watch = setAt d.watch n w) : d.Decided (e.confirmed n) n w.hung := by
  unfold Device.confirmed
  obtain ⟨f, hf⟩ : ∃ f, (e.modWatch n fun w =>
    { w with state := .hung, confirm := none, cause := verdictCauseOf w.condH w.condS }) = f := ⟨_, rfl⟩
  have hef : d.Untouched f [.watch, .pub] := by rw [← hf]; exact he.trans (Device.modWatch_frame _ _ _)
  have hung : f.watch = setAt d.watch n w.hung := by
    rw [← hf]
    simp only [Device.modWatch_watch, hw]
    unfold WatchContext.hung verdictCauseOf
    cases hH : w.condH <;> cases hS : w.condS <;> simp [hH, hS]
  rw [hf]
  have hpin := hef .pins (by decide)
  have hch := hef .charter (by decide)
  have hpa := hef .path (by decide)
  have hml := hef .mail (by decide)
  have hwn : f.watch[n] = w.hung := by rw [hung]; simp
  have hv : f.verdictOn n w.hung = d.verdictOn n w.hung := Device.verdictOn_congr hpin hch hpa n _
  obtain ⟨h1, _⟩ := Device.decideVerdict_watch f n
  rw [hwn, hv, hung] at h1
  refine ⟨by rw [h1]; simp, fun m hne => ?_, ?_, ?_⟩
  · have : n ≠ m := Ne.symm hne
    rw [h1]; simp [this]
  · rw [Device.decideVerdict_mail, hwn, hv, Device.verdictDwell_congr hch hpa, show f.charter = d.charter from hch,
      show f.mail = d.mail from hml]
  · refine .trans (e := f) (hef.mono (by decide)) fun p hp => ?_
    have := Device.decideVerdict_frame f n p
    cases p <;> first | exact absurd hp (by decide) | exact this (by decide) | simp [Part.same]

/-- The predicate of a watch evaluated, whole (R137, R138, R147), where the count stays below the quorum. The block `e` is
`d` with that watch replaced. -/
theorem Device.evaluatePredicate_judged {d e : Device} {n : Outlet} {w : WatchContext} (he : d.Untouched e [.watch, .pub])
    (hw : e.watch = setAt d.watch n w) (hq : ¬d.QuorumAt (d.suspects + 1)) : d.Judged (e.evaluatePredicate n) n w := by
  have hwn : e.watch[n] = w := by rw [hw]; simp
  have hch : e.charter = d.charter := he .charter (by decide)
  have hsu : e.suspendedSince = d.suspendedSince := he .suspendedSince (by decide)
  have hnq : ¬e.QuorumAt ({ e with watch := setAt e.watch n { w with state := .suspect } } : Device).suspects := by
    have hc : ({ e with watch := setAt e.watch n { w with state := .suspect } } : Device).suspects =
        ({ d with watch := setAt d.watch n { w with state := .suspect } } : Device).suspects := by
      unfold Device.suspects; rw [hw]; simp
    rw [hc]
    exact fun hx => not_quorumAt_setAt hq n { w with state := .suspect }
      ⟨by rw [← hch]; exact hx.1, by rw [← hsu]; exact hx.2.1, by rw [← hch]; exact hx.2.2⟩
  constructor
  · intro hn
    by_cases ht : d.charter.settings.confirmTime = 0
    · have hn' : ¬(w.state = .watching ∧ w.suspicious = true) := fun h => hn ⟨h.1, h.2, ht⟩
      have hset : w.settled d.charter.settings.confirmTime = w.cleared := by unfold WatchContext.settled; rw [if_neg hn']
      have hone : w = w.cleared ∧ e.evaluatePredicate n = e ∨
          w.lapsed = w.cleared ∧ e.evaluatePredicate n = e.modWatch n WatchContext.lapsed := by
        have hcl := WatchContext.lapsed_eq w
        rw [WatchContext.predicate_eq] at hcl
        unfold Device.evaluatePredicate
        simp only [hwn, WatchContext.predicate_eq]
        have hlw : w.state ≠ .suspect → w.state ≠ .hung → w.lapsed = w := by
          intro h1 h2
          unfold WatchContext.lapsed
          cases hs : w.state <;> first | rfl | exact absurd hs h1 | exact absurd hs h2
        cases hp : w.suspicious
        · rw [hp, if_neg (by simp)] at hcl
          cases hs : w.state
          case suspect => exact .inr ⟨hcl, by simp⟩
          case hung => exact .inr ⟨hcl, by simp⟩
          all_goals exact .inl ⟨by rw [← hcl, hlw (by simp [hs]) (by simp [hs])], by simp⟩
        · rw [hp, if_pos rfl] at hcl
          cases hs : w.state
          case watching => exact absurd ⟨hs, hp⟩ hn'
          all_goals exact .inl ⟨hcl, by simp⟩
      rw [hset]
      rcases hone with ⟨h1, h2⟩ | ⟨h1, h2⟩
      · rw [h2]
        exact ⟨hwn.trans h1, (Device.OtherWatchesStand.of_setAt hw).1, he⟩
      · have hl : (e.modWatch n WatchContext.lapsed).watch = setAt d.watch n w.cleared := by simp [hw, h1]
        rw [h2]
        exact ⟨(Device.OtherWatchesStand.of_setAt hl).2, (Device.OtherWatchesStand.of_setAt hl).1,
          he.trans (Device.modWatch_frame _ _ _)⟩
    · obtain ⟨h1, h2⟩ := Device.evaluatePredicate_spec e n w hwn (by rw [hch]; exact ht) hnq
      have h3 : (e.evaluatePredicate n).watch = setAt d.watch n (w.settled d.charter.settings.confirmTime) := by
        rw [h2, hw, hch]; simp
      exact ⟨(Device.OtherWatchesStand.of_setAt h3).2, (Device.OtherWatchesStand.of_setAt h3).1, he.trans h1⟩
  · intro hs hp ht
    unfold Device.evaluatePredicate
    simp only [hwn, hs, WatchContext.predicate_eq, hp, if_true]
    unfold Device.enterSuspect
    dsimp only
    obtain ⟨f, hf⟩ : ∃ f, (e.modWatch n fun w => { w with state := .suspect }) = f := ⟨_, rfl⟩
    rw [hf]
    have hfw : f.watch = setAt d.watch n { w with state := .suspect } := by rw [← hf]; simp [hw]
    have hff : d.Untouched f [.watch, .pub] := by rw [← hf]; exact he.trans (Device.modWatch_frame _ _ _)
    have hfc : f.charter = d.charter := hff .charter (by decide)
    have hcmp : f.compareQuorum = f := by
      apply Device.compareQuorum_none
      have hc : f.suspects = ({ e with watch := setAt e.watch n { w with state := .suspect } } : Device).suspects := by
        unfold Device.suspects; rw [hfw, hw]; simp
      have hfs : f.suspendedSince = e.suspendedSince := (hff .suspendedSince (by decide)).trans hsu.symm
      have hfe : f.charter = e.charter := hfc.trans hch.symm
      rw [hc]
      exact fun hx => hnq ⟨by rw [← hfe]; exact hx.1, by rw [← hfs]; exact hx.2.1, by rw [← hfe]; exact hx.2.2⟩
    rw [hcmp, ite_self, if_pos (by rw [hfw]; simp), if_pos (by rw [hfc]; exact ht)]
    have hd := Device.confirmed_decided hff hfw
    exact hd

/-- H takes another value where the count stays below the quorum (R134). -/
theorem Device.setH_judged {d : Device} {n : Outlet} {h : Bool} (hne : (d.watch[n]).condH ≠ h)
    (hq : ¬d.QuorumAt (d.suspects + 1)) : d.Judged (d.setH n h) n { d.watch[n] with condH := h } := by
  unfold Device.setH
  rw [if_neg hne]
  dsimp only
  obtain ⟨e, he⟩ : ∃ e, (d.modWatch n fun w => { w with condH := h }) = e := ⟨_, rfl⟩
  have hew : e.watch = setAt d.watch n { d.watch[n] with condH := h } := by rw [← he]; simp
  have hef : d.Untouched e [.watch, .pub] := by rw [← he]; exact Device.modWatch_frame _ _ _
  have hch : e.charter = d.charter := hef .charter (by decide)
  have hsu : e.suspendedSince = d.suspendedSince := hef .suspendedSince (by decide)
  have hcmp : e.compareQuorum = e := by
    apply Device.compareQuorum_none
    have hc : e.suspects = ({ d with watch := setAt d.watch n { d.watch[n] with condH := h } } : Device).suspects := by
      unfold Device.suspects; rw [hew]
    rw [hc]
    exact fun hx => not_quorumAt_setAt hq n { d.watch[n] with condH := h }
      ⟨by rw [← hch]; exact hx.1, by rw [← hsu]; exact hx.2.1, by rw [← hch]; exact hx.2.2⟩
  rw [he, hcmp, ite_self]
  exact Device.evaluatePredicate_judged hef hew hq

/-- S takes another value where the count stays below the quorum (R136). -/
theorem Device.setS_judged {d : Device} {n : Outlet} {x : Bool} (hne : (d.watch[n]).condS ≠ x)
    (hq : ¬d.QuorumAt (d.suspects + 1)) : d.Judged (d.setS n x) n { d.watch[n] with condS := x } := by
  unfold Device.setS
  rw [if_neg hne]
  exact Device.evaluatePredicate_judged (Device.modWatch_frame _ _ _) (by simp) hq

end Sys2Proof.Machine
end

