-- ==== Sys2Proof/Tests/Slice0.lean ====
section
/-! SUPPORT. Tests: ill-formed commands, the worked examples of the manual, small steps of single commands, and states that
meet the hypotheses of each statement. -/

namespace Sys2Proof.Tests
open Sys2Proof Sys2Proof.Machine

set_option Elab.async false

/-! ## Small states -/

/-- The block after reset with something changed, and no command waiting. -/
def stateOf (f : Device → Device) : State := ⟨f State.reset.dev, []⟩

/-- The block after reset in a charter state. -/
def inCharter (c : CharterState) (d : Device) : Device := { d with charter := { d.charter with state := c } }

/-- The block in RUNNING with something changed. -/
def runningWith (f : Device → Device) : State := stateOf fun d => f (inCharter .running d)

/-- Outlet 3 in a state, with something more. -/
def outletIn (st : OutletState) (f : OutletContext → OutletContext) : Device → Device :=
  fun d => d.setOutlet 2 fun o => f { o with state := st }

/-- Outlet 3's watch in a state, with something more. -/
def watchIn (st : WatchState) (f : WatchContext → WatchContext) : Device → Device :=
  fun d => d.setWatch 2 fun w => f { w with state := st }

/-- The hand-offs on their way replaced. -/
def mailing (f : Mail → Mail) : Device → Device := fun d => { d with mail := f d.mail }

/-- A word of the Shadow File set. -/
def shadowing (off v : Nat) : Device → Device := fun d => d.writeShadow off (BitVec.ofNat 16 v)

/-- A privileged whole-word write, and an ordinary one. -/
def wr (off v : Nat) : WriteAccess := ⟨BitVec.ofNat 16 off, ⟨true, true⟩, BitVec.ofNat 16 v, true⟩
def ordinary (off v : Nat) : WriteAccess := { wr off v with privileged := false }

/-- A request to outlet 3 with tag 1. -/
def request (code : Nat) : WriteAccess := wr (outletWord 2 16) (256 + code)

/-- The block after a command; unchanged where the command does not answer a next state. -/
def after (i : Instr) (s : State) : Device :=
  match exec i s with
  | .next t => t.dev
  | .fault _ => s.dev
  | .refused _ => s.dev

/-- HOLD asserted. -/
def held (d : Device) : Device := { d with pins := { d.pins with hold := true } }

/-- Every contact-sense line at one level. -/
def lines (x : Sense) : SenseLines := Vector.replicate 48 x

/-! ## Ill-formed commands -/

theorem test_refuses_write_without_bytes :
    Instr.wellFormed (.processorWrite { wr 0 0 with enables := ⟨false, false⟩ }) = false := by decide +kernel
theorem test_accepts_byte_write :
    Instr.wellFormed (.processorWrite { wr 0 0 with enables := ⟨false, true⟩ }) = true := by decide +kernel
theorem test_refuses_protected_heartbeat :
    Instr.wellFormed (.protectedWriteDropped (ordinary (outletWord 2 14) 1)) = false := by decide +kernel
theorem test_refuses_privileged_protected_write :
    Instr.wellFormed (.protectedWriteDropped (wr 2 1)) = false := by decide +kernel
theorem test_refuses_owned_write_to_processor_word :
    Instr.wellFormed (.ownedWriteDropped (wr 0 1)) = false := by decide +kernel
theorem test_refuses_sequence_read_of_status_word :
    Instr.wellFormed (.sequenceRead ⟨BitVec.ofNat 16 (outletWord 2 32), false⟩) = false := by decide +kernel
theorem test_refuses_last_word_read_of_sequence :
    Instr.wellFormed (.lastWordRead ⟨BitVec.ofNat 16 (outletWord 2 50), false⟩) = false := by decide +kernel
theorem test_refuses_run_with_other_command :
    Instr.wellFormed (.run (wr 1 3)) = false ∧ Instr.wellFormed (.halt (wr 1 1)) = false := by decide +kernel
theorem test_refuses_heartbeat_elsewhere : Instr.wellFormed (.heartbeat (request 1)) = false := by decide +kernel
theorem test_refuses_request_with_other_code :
    [Instr.switchOn (request 2), .switchOff (request 1), .cycle (request 1), .stageOn (request 1), .stageOff (request 1),
      .unstage (request 1), .holdWatch (request 1), .freeWatch (request 1), .resume (request 1),
      .clearFault (request 1) .opened, .periodClear (request 1), .requestUnknown (request 11)].all
      (fun i => !i.wellFormed) = true := by decide +kernel
theorem test_accepts_requests :
    [Instr.switchOn (request 1), .switchOff (request 2), .cycle (request 3), .stageOn (request 4), .stageOff (request 5),
      .unstage (request 6), .holdWatch (request 7), .freeWatch (request 8), .resume (request 9),
      .clearFault (request 10) .opened, .periodClear (request 11), .requestUnknown (request 12)].all
      Instr.wellFormed = true := by decide +kernel
theorem test_refuses_apply_elsewhere : Instr.wellFormed (.apply (wr 0x11 1)) = false := by decide +kernel
theorem test_refuses_tail_elsewhere : Instr.wellFormed (.tailWrite (wr 0xD00 1)) = false := by decide +kernel
theorem test_refuses_limit_elsewhere : Instr.wellFormed (.limitWrite (wr 0x41 1)) = false := by decide +kernel
theorem test_refuses_outlet_settings_elsewhere :
    [Instr.modeWrite (request 1), .watchPolicyWrite (request 1), .heartbeatTimeoutWrite (request 1),
      .signatureTimeWrite (request 1), .signatureFloorWrite (request 1)].all (fun i => !i.wellFormed) = true := by
  decide +kernel
theorem test_refuses_charter_settings_elsewhere :
    [Instr.cycleWindowWrite (wr 9 1), .heartbeatQuorumWrite (wr 9 1), .admissionWaitLimitWrite (wr 9 1)].all
      (fun i => !i.wellFormed) = true := by decide +kernel

/-! ## Worked examples of the manual -/

/-- R45. -/
theorem test_offset_rounding :
    ((2553, 3) :: (-1277, -2) :: (-1276, -1) :: ([] : List (Int × Int))).all (fun p =>
      decide (Sampler.nextOffset { State.reset.dev.sampler with zeroCount := 851, zeroSum := p.1 } = p.2)) = true := by
  decide +kernel
/-- R61. -/
theorem test_rms_voltage : rmsVoltage ⟨1, 11500 * 11500⟩ 32768 = 2300 := by decide +kernel
/-- R63: truncation toward zero. -/
theorem test_mean_product : (7 : Int).tdiv 2 = 3 ∧ (-7 : Int).tdiv 2 = -3 := by decide
/-- R64. -/
theorem test_outlet_current : outletCurrent ⟨.x4, 0, 1, 4000 * 4000, 0, 0, false⟩ 32768 = 2000 := by decide +kernel
/-- R65. -/
theorem test_outlet_power : outletPower ⟨.x4, 0, 1, 0, 41400000, 0, false⟩ 32768 32768 = 4140 := by decide +kernel
/-- R65: halves away from zero. -/
theorem test_power_halves : roundDiv 5 10 = 1 ∧ roundDiv (-5) 10 = -1 ∧ roundDiv (-4) 10 = 0 := by decide +kernel
/-- R66. -/
theorem test_apparent_power : apparentPower 2000 2300 = 4600 ∧ apparentPower 65535 9830 = 644209 := by decide +kernel
/-- R76. -/
theorem test_line_frequency : lineFrequencyOf 10 166667 = 6000 ∧ lineFrequencyOf 10 166666 = 6000 := by decide +kernel
/-- R69, R71: the example, a wrap, and saturation. -/
theorem test_string_addition :
    (Digits.add [9, 9, 3, 1, 4, 0, 0, 0, 0, 0] 1) = [0, 0, 4, 1, 4, 0, 0, 0, 0, 0] ∧
    Digits.wraps [9, 9] 1 = true ∧ Digits.add [9, 9] 1 = [0, 0] ∧ Digits.addSaturating [8, 9] 5 = [9, 9] := by
  decide +kernel
/-- R81. -/
theorem test_string_subtraction :
    Digits.subFloor [8, 3, 1, 0, 0, 0] [7, 3, 1, 0, 0, 0] = [1, 0, 0, 0, 0, 0] ∧
    Digits.subFloor (zeros 6) [7, 3, 1, 0, 0, 0] = zeros 6 := by decide +kernel
/-- R30: a seed with a digit above 9 is invalid. -/
theorem test_seed_digits : seedDigits 2 0x41 = some [1, 4] ∧ seedDigits 2 0x4A = none := by decide +kernel
/-- R61: the root at its ends. -/
theorem test_floor_root :
    floorSqrt 0 = 0 ∧ floorSqrt 3 = 1 ∧ floorSqrt 4 = 2 ∧ floorSqrt 1073741824 = 32768 := by decide +kernel
/-- R52: a crossing lies where the line between the samples meets zero. -/
theorem test_crossing_time : Device.crossingTime 100 (-30) 102 30 = 101 ∧ Device.crossingTime 100 (-1) 102 0 = 102 := by
  decide +kernel
/-- R117: argument, Default Dwell, dwell, with the bounds at 10 and 600 s. -/
theorem test_cycle_dwell :
    [(15, 7, 15, EchoResult.taken), (900, 7, 600, .clamped), (3, 7, 10, .clamped), (0, 45, 45, .taken),
      (0, 0, 10, .clamped), (0, 5000, 600, .clamped)].all (fun x =>
      let s := runningWith fun d => outletIn .off id (shadowing (outletWord 2 15) x.1 (shadowing (outletWord 2 5) x.2.1
        { d with charter := { d.charter with
            settings := { d.charter.settings with dwellMin := 10, dwellMax := 600 } } }))
      let o := (after (.cycle (request 3)) s).outlet[2]
      decide (o.dwell = some (x.2.2.1 * 1000000) ∧ o.echoResult = x.2.2.2 ∧ o.state = .dwell)) = true := by decide +kernel
/-- R153: joins of outlets 11, 14 and 10 on a queue of 12, 9 and 15. -/
theorem test_queue_order :
    let start := runningWith fun d => { d with admission := { d.admission with
      queues := setAt d.admission.queues 1 [⟨11, 1⟩, ⟨8, 1⟩, ⟨14, 2⟩], slots := setAt d.admission.slots 1 (some ⟨13, 0, false, 1⟩) } }
    let joins (n : Outlet) (rank : Nat) (d : Device) : Device :=
      after .join ⟨mailing (fun m => { m with toAdmission := [.join n] }) (shadowing (outletWord n 3) rank d), []⟩
    let order (d : Device) : List Nat := d.admission.queues[1].map fun e => e.outlet.val + 1
    let d₁ := joins 10 1 start.dev
    let d₂ := joins 13 0 { d₁ with admission := { d₁.admission with slots := setAt d₁.admission.slots 1 none }, pins := { d₁.pins with hold := true } }
    let d₃ := joins 9 3 d₂
    order d₁ = [12, 9, 11, 15] ∧ order d₂ = [14, 12, 9, 11, 15] ∧ order d₃ = [14, 12, 9, 11, 15, 10] := by decide +kernel
/-- R171, R172: a Limit of 160 through five closes. -/
theorem test_over_limit :
    (decideOver 15900 160 false, decideOver 16050 160 false, decideOver 15500 160 true, decideOver 15200 160 true,
      decideOver 15600 160 false, decideOver 1 0 true) = (false, true, true, false, false, false) := by decide +kernel
/-- R102: the leak check of outlet 7's table. -/
theorem test_leak_check :
    let o : OutletContext := { OutletContext.afterReset with state := .off, leakSkip := true }
    let c₁ := o.checked ⟨true, .clear, 1640⟩ 5
    let c₂ := c₁.checked ⟨true, .clear, 310⟩ 6
    let c₃ := c₂.checked ⟨true, { Quality.clear with noSamples := true }, 0⟩ 7
    let c₄ := c₃.checked ⟨true, .clear, 305⟩ 8
    c₁.leakCount = 0 ∧ c₂.leakCount = 1 ∧ c₃.leakCount = 1 ∧ c₄.state = .fault ∧ c₄.fault = some .currentWhileOff := by
  decide +kernel
/-- 10, "Window map": records, ring and the last unclassified word. -/
theorem test_places :
    place 0x3F = .charter 63 ∧ place 0x40 = .level (.phase 0) 0 ∧ place 0x70 = .level (.branch 0) 0 ∧
    place 0xD0 = .level .inlet 0 ∧ place 0xE0 = .unclassified ∧ place 0x100 = .outlet 0 0 ∧ place 0xCFF = .outlet 47 63 ∧
    place 0xD01 = .tail ∧ place 0xD08 = .slot 0 0 ∧ place 0xF07 = .slot 63 7 ∧ place 0xF08 = .unclassified := by
  decide +kernel
/-- No row of the table gives bits, so no word spells a command. -/
theorem test_no_word_spells_a_command : decodeTableWord 16 0 = none := by decide

/-! ## Checking hypotheses

Each hypothesis of a statement as a Bool, so that a state that meets it is found by evaluation. -/

def busFreeB (d : Device) : Bool := decide (d.path.held = none) && decide (d.pub.queue.length < Config.queueThreshold)

theorem busFree_iff (d : Device) : busFreeB d = true ↔ d.BusFree := by
  simp only [busFreeB, Bool.and_eq_true, decide_eq_true_eq]
  exact ⟨fun h => ⟨h.1, h.2⟩, fun h => ⟨h.1, h.2⟩⟩

def acceptsB (d : Device) (a : WriteAccess) (off : Nat) : Bool :=
  busFreeB d && decide (windowOffset d.pins.windowBase a.addr = some off) && d.inService &&
    decide ((place off).kind = .processorOwned) && (!d.protectedAt (place off) || a.privileged)

theorem accepts_iff (d : Device) (a : WriteAccess) (off : Nat) : acceptsB d a off = true ↔ d.Accepts a off := by
  simp only [acceptsB, Bool.and_eq_true, decide_eq_true_eq, busFree_iff, Bool.or_eq_true, Bool.not_eq_true']
  exact ⟨fun h => ⟨h.1.1.1.1, h.1.1.1.2, h.1.1.2, h.1.2, h.2⟩,
    fun h => ⟨⟨⟨⟨h.toBusFree, h.offset⟩, h.service⟩, h.owned⟩, h.allowed⟩⟩

def requestsB (d : Device) (a : WriteAccess) (n : Outlet) (tag code : Byte) : Bool :=
  acceptsB d a (outletWord n requestWord) &&
    decide (requestTag (d.merged (outletWord n requestWord) a) = tag) &&
    decide (requestCodeByte (d.merged (outletWord n requestWord) a) = code) && decide (tag ≠ 0) &&
    decide (tag ≠ d.path.lastTag[n])

theorem requests_iff (d : Device) (a : WriteAccess) (n : Outlet) (tag code : Byte) :
    requestsB d a n tag code = true ↔ d.Requests a n tag code := by
  simp only [requestsB, Bool.and_eq_true, decide_eq_true_eq, accepts_iff]
  exact ⟨fun h => ⟨h.1.1.1.1, h.1.1.1.2, h.1.1.2, h.1.2, h.2⟩,
    fun h => ⟨⟨⟨⟨h.toAccepts, h.tagIs⟩, h.codeIs⟩, h.notZero⟩, h.notLast⟩⟩

def storesB (d : Device) : Bool := decide (Memory.wf d.ram) && decide (Store.wf d.path.shadow)

theorem stores_iff (d : Device) : storesB d = true ↔ d.StoresOk := by
  simp only [storesB, Bool.and_eq_true, decide_eq_true_eq]
  exact ⟨fun h => ⟨h.1, h.2⟩, fun h => ⟨h.1, h.2⟩⟩

/-! ## States that meet the hypotheses: block, RESET, pass-through path -/

/-- A queue of this many waiting entries. -/
def queued (k : Nat) (d : Device) : Device := { d with pub := { d.pub with queue := List.replicate k (.group .charter []) } }

/-- WAIT holds an access. -/
def holding (acc : Access) (d : Device) : Device := { d with path := { d.path with held := some acc } }

/-- A bracket is open. -/
def bracketed (b : Bracket) (d : Device) : Device := { d with pub := { d.pub with bracket := some b } }

/-- The sweep stands before an offset. -/
def sweeping (off : Nat) (d : Device) : Device :=
  inCharter .sweeping { d with charter := { d.charter with sweepPosition := some off } }

theorem test_meets_StepRunsFrontCommand : State.reset.pending = [] := rfl
theorem test_meets_Reset :
    State.reset.dev.path.held = none ∧ (stateOf (holding (.write (wr 0 1)))).dev.path.held ≠ none := by decide +kernel
theorem test_meets_OnlyResetUndoes :
    (∀ wb b, Instr.holdAssert ≠ .reset wb b) ∧ (∃ t, exec .holdAssert (runningWith id) = .next t) ∧
    (runningWith id).dev.enforcing = true := ⟨fun _ _ => by simp, ⟨_, rfl⟩, rfl⟩
theorem test_meets_WordStoreChangesTwoBytes : Memory.wf [] ∧ Memory.wf [(3, 1), (4, 2)] := by decide +kernel
theorem test_meets_OwnershipMap : (0 : Nat) < 0x1000 ∧ 0xFFF < 0x1000 := by decide
theorem test_meets_PlainWritePasses :
    State.reset.dev.BusFree ∧ windowOffset 0 (wr 0x1000 0).addr = none ∧
    windowOffset 0 (wr 0xE0 0).addr = some 0xE0 ∧ (place 0xE0).kind = .unclassified ∧
    State.reset.dev.enforcing = false ∧ windowOffset 0 (wr 0xFFF 0).addr = some 0xFFF := by
  simp only [← busFree_iff]; decide +kernel
theorem test_meets_PlainWritePasses_command_word :
    State.reset.dev.BusFree ∧ State.reset.dev.enforcing = false ∧ windowOffset 0 (wr 1 3).addr = some 1 ∧
    (let v := mergeWord (State.reset.dev.ram.readWord (wr 1 3).addr.toNat) (wr 1 3).enables (wr 1 3).data; v ≠ 1 ∧ v ≠ 2) := by
  simp only [← busFree_iff]; decide +kernel
theorem test_meets_AcceptedWriteStores :
    ∀ off ∈ [0, 0x11, 0x1F, 0x41, 0xD7, outletWord 0 2, outletWord 47 31],
      (runningWith id).dev.Accepts (wr off 5) off := by simp only [← accepts_iff]; decide +kernel
theorem test_meets_AcceptedWriteStores_command_word :
    ∀ v ∈ [0, 3], (runningWith id).dev.Accepts (wr 1 v) 1 ∧ (runningWith id).dev.merged 1 (wr 1 v) ≠ 1 ∧
      (runningWith id).dev.merged 1 (wr 1 v) ≠ 2 := by simp only [← accepts_iff]; decide +kernel
/-- A Request word whose tag is 0, or the last one taken. -/
theorem test_meets_AcceptedWriteStores_request_word :
    ∀ n ∈ [0, 47], ∀ tag ∈ [0, 7],
      let d := (runningWith fun d => d.setLastTag n 7).dev
      let a := wr (outletWord n 16) (256 * tag + 5)
      d.Accepts a (outletWord n 16) ∧ (requestTag (d.merged (outletWord n 16) a) = 0 ↔ tag = 0) ∧
      (requestTag (d.merged (outletWord n 16) a) = d.path.lastTag[n] ↔ tag = 7) := by
  simp only [← accepts_iff]; decide +kernel
/-- Words before and after the sweep's position, lock words and others, and a Request word with tag 0. -/
theorem test_meets_AcceptedWriteStores_sweeping :
    let d := (stateOf (sweeping 0x80)).dev
    d.BusFree ∧ d.charter.state = .sweeping ∧ d.swept 0x7F = true ∧ d.swept 0x80 = false ∧
    (∀ off ∈ [0, 1, 0x0E, 0x0F, 0x11, 0x1F, 0x70, 0x71, 0x80, 0x81, 0xD7, outletWord 0 2, outletWord 0 16, outletWord 47 31],
      windowOffset d.pins.windowBase (wr off 5).addr = some off ∧ (place off).kind = .processorOwned ∧
      d.protectedAt (place off) = false) ∧
    requestTag (mergeWord (d.ram.readWord (wr (outletWord 0 16) 5).addr.toNat) (wr (outletWord 0 16) 5).enables 5) = 0 := by
  simp only [← busFree_iff]; decide +kernel
theorem test_meets_SettingTakenAtOnce :
    (runningWith id).dev.StoresOk ∧ ∀ w ∈ [2, 9, 11, 14, 15], (runningWith id).dev.Accepts (wr w 65535) w := by
  simp only [← stores_iff, ← accepts_iff]; decide +kernel
theorem test_meets_ProtectedWriteDropped :
    let d := (runningWith (shadowing 0x0F 1)).dev
    (d.BusFree ∧ d.enforcing = true ∧ ∀ a ∈ [ordinary 2 7, ordinary (outletWord 2 16) 257],
      windowOffset d.pins.windowBase a.addr = some (offsetOf a.addr) ∧ d.protectedAt a.place = true ∧
      a.place.kind = .processorOwned ∧ a.privileged = false) ∧
    d.inService = true ∧ requestTag (d.merged (outletWord 2 16) (ordinary (outletWord 2 16) 257)) ≠ 0 ∧
    requestTag (d.merged (outletWord 2 16) (ordinary (outletWord 2 16) 257)) ≠ d.path.lastTag[2] := by
  simp only [← busFree_iff]; decide +kernel
theorem test_meets_ProtectedWriteDropped_lock_words :
    let d := (stateOf (sweeping 0x71)).dev
    d.BusFree ∧ d.StoresOk ∧ d.charter.state = .sweeping ∧
    (∀ off ∈ [0x0F, 0x71, 0xC1, outletWord 0 2, outletWord 47 2], windowOffset d.pins.windowBase (wr off 1).addr = some off ∧
      d.protectedAt (place off) = false) ∧ d.swept 0x0F = true ∧ d.swept 0x71 = false := by
  simp only [← busFree_iff, ← stores_iff]; decide +kernel
/-- Each lock alone protects its own words, and no Heartbeat word and not the Tail; off in SWEEPING till its word is swept
or written; and nothing is protected while enforcement is off. -/
theorem test_lock_map :
    let protects (f : Device → Device) (off : Nat) := (runningWith f).dev.protectedAt (place off)
    (∀ off ∈ [0, 0x1F, 0x47, 0xC7, 0xD7, outletWord 0 0, outletWord 47 31], protects (shadowing 0x0F 1) off = true) ∧
    (∀ off ∈ [outletWord 0 14, tailOffset], protects (shadowing 0x0F 1) off = false) ∧
    (∀ off ∈ [0x80, 0x87, outletWord 8 0, outletWord 15 31], protects (shadowing 0x81 1) off = true) ∧
    (∀ off ∈ [0x1F, 0x47, 0x77, 0x90, 0xD7, outletWord 7 31, outletWord 8 14, outletWord 16 0],
      protects (shadowing 0x81 1) off = false) ∧
    (∀ off ∈ [outletWord 2 0, outletWord 2 31], protects (shadowing (outletWord 2 2) 1) off = true) ∧
    (∀ off ∈ [0x70, outletWord 1 31, outletWord 2 14, outletWord 3 0], protects (shadowing (outletWord 2 2) 1) off = false) ∧
    (stateOf (shadowing 0x0F 1)).dev.protectedAt (place 0) = false := by decide +kernel
theorem test_lock_in_sweeping :
    let s (pos : Nat) := stateOf fun d => shadowing 0x0F 1 (sweeping pos d)
    (s 0x0F).dev.protectedAt (place 2) = false ∧ (s 0x10).dev.protectedAt (place 2) = true ∧
    (after (.processorWrite (wr 0x0F 1)) (s 0x0F)).protectedAt (place 2) = true ∧
    (after (.processorWrite (wr 0x0F 0)) (s 0x10)).protectedAt (place 2) = false := by decide +kernel
theorem test_meets_OwnedWriteDropped :
    (runningWith id).dev.BusFree ∧ (runningWith id).dev.enforcing = true ∧
    ∀ off ∈ [0x20, 0x48, outletWord 0 32, 0xD00, 0xF07],
      windowOffset 0 (wr off 0).addr = some off ∧ (place off).kind = .partOwned := by
  simp only [← busFree_iff]; decide +kernel
theorem test_meets_AccessWaitsAtThreshold :
    let held := (runningWith fun d => queued 127 (holding (.write (wr 0x1000 5)) d)).dev
    (Config.queueThreshold ≤ (runningWith (queued 128)).dev.pub.queue.length ∧
      (runningWith (queued 128)).dev.path.held = none) ∧
    held.path.held = some (.write (wr 0x1000 5)) ∧ held.pub.queue.length < Config.queueThreshold ∧
    windowOffset held.pins.windowBase (wr 0x1000 5).addr = none := by decide +kernel
/-- A read of outlet 3's Current, whose Meter group is held back for a collect-clear, or is not. -/
theorem test_meets_AccessWaitsAtThreshold_reads :
    let r : ReadAccess := ⟨BitVec.ofNat 16 (outletWord 2 51), false⟩
    let back (d : Device) : Device := { d with pub := { d.pub with heldBack := setAt d.pub.heldBack 2 (some [1]) } }
    windowOffset 0 r.addr = some (outletWord 2 51) ∧ (runningWith back).dev.pub.heldBack[2] ≠ none ∧
    (runningWith back).dev.path.held = none ∧
    (∀ s ∈ [runningWith (holding (.read r)), runningWith fun d => back (holding (.read r) d)],
      s.dev.path.held = some (.read r) ∧ s.dev.pub.queue.length < 128) ∧
    (runningWith (holding (.read r))).dev.pub.heldBack[2] = none := by decide +kernel
/-- A read held for a collect-clear waits on while the queue stands at the threshold. -/
theorem test_held_read_waits_for_threshold :
    let s (k : Nat) := runningWith fun d => queued k (holding (.read ⟨BitVec.ofNat 16 (outletWord 2 51), false⟩) d)
    (after (.accessResume (lines .opened)) (s 128)).wait = true ∧
    (after (.accessResume (lines .opened)) (s 127)).wait = false := by decide +kernel
theorem test_held_read_resumes :
    let r : ReadAccess := ⟨0x1000, false⟩
    let s := runningWith fun d => holding (.read r) { d with ram := d.ram.writeWord 0x1000 5 }
    let d := after (.accessResume (lines .closed)) s
    d.path.held = none ∧ d.path.readData = 5 ∧ d.pins.senseLines = lines .closed := by decide +kernel
theorem test_meets_ReadAnswersNewestValue :
    let d := (runningWith fun d => { d with pub := { d.pub with queue := [.group (.level .inlet) [7, 8]] } }).dev
    windowOffset d.pins.windowBase 0x1000 = none ∧ windowOffset d.pins.windowBase 0xD9 = some 0xD9 ∧
    ((Entry.group (.level .inlet) [7, 8]).writes d.reports.lost d.pub.drained).lookup 0xD9 = some 8 ∧
    (∀ x ∈ d.pub.queue, (x.writes d.reports.lost 0).lookup 0xD7 = none) := by decide +kernel
/-- One word of the head entry has drained: it is answered from RAM, the word behind it from the entry. -/
theorem test_meets_ReadAnswersNewestValue_drained :
    let d := (runningWith fun d => { d with
      pub := { d.pub with queue := [.group (.level .inlet) [7, 8]], drained := 1 }, ram := d.ram.writeWord 0xD8 9 }).dev
    let e := Entry.group (.level .inlet) [7, 8]
    (e.writes d.reports.lost d.pub.drained).lookup 0xD8 = none ∧ d.readValue 0xD8 = 9 ∧
    (e.writes d.reports.lost d.pub.drained).lookup 0xD9 = some 8 ∧ d.readValue 0xD9 = 8 := by decide +kernel
theorem test_meets_SequenceReadOpensBracket :
    ∀ s ∈ [runningWith id, runningWith (bracketed ⟨.level .inlet, some [1], 1⟩),
        runningWith (bracketed ⟨.meter 2, some [1], 1⟩)],
      let a : ReadAccess := ⟨BitVec.ofNat 16 (outletWord 2 50), false⟩
      s.dev.BusFree ∧ s.dev.heldForCollect a = false ∧ s.dev.enforcing = true ∧
      windowOffset s.dev.pins.windowBase a.addr = some (outletWord 2 50) ∧
      sequenceGroup (place (outletWord 2 50)) = some (.meter 2) := by
  simp only [← busFree_iff]; decide +kernel
theorem test_meets_LastWordReadClosesBracket :
    ∀ s ∈ [runningWith (bracketed ⟨.meter 2, some [1], 0⟩),
        runningWith fun d => bracketed ⟨.meter 2, none, 0⟩
          { d with charter := { d.charter with settings := { d.charter.settings with collectClear := true } } }],
      let a : ReadAccess := ⟨BitVec.ofNat 16 (outletWord 2 63), false⟩
      s.dev.BusFree ∧ s.dev.heldForCollect a = false ∧ s.dev.enforcing = true ∧
      windowOffset s.dev.pins.windowBase a.addr = some (outletWord 2 63) ∧
      lastWordGroup (place (outletWord 2 63)) = some (.meter 2) ∧ s.dev.pub.bracket.isSome = true := by
  simp only [← busFree_iff]; decide +kernel
theorem test_meets_DrainWritesOldestEntry :
    let d := (runningWith fun d => { d with pub := { d.pub with queue := [.group (.level .inlet) [7, 8]] } }).dev
    d.heldCanStart = false ∧
    (Entry.group (.level .inlet) [7, 8]).writes d.reports.lost 0 = (0xD8, 7) :: [(0xD9, 8)] ∧
    (Entry.group (.level .inlet) [7, 8]).writes d.reports.lost 1 = (0xD9, 8) :: [] := by decide +kernel

/-! ## Charter and start-up -/

theorem test_meets_RunChecksLayout :
    ∀ s ∈ [State.reset, stateOf (shadowing 0 3), stateOf (inCharter .rejected)],
      s.dev.BusFree ∧ s.dev.enforcing = false ∧ s.dev.StoresOk ∧
      windowOffset s.dev.pins.windowBase (wr 1 1).addr = some 1 ∧
      mergeWord (s.dev.ram.readWord (wr 1 1).addr.toNat) (wr 1 1).enables (wr 1 1).data = 1 := by
  simp only [← busFree_iff, ← stores_iff]; decide +kernel
theorem test_meets_CommandWithoutEffect :
    (State.reset.dev.BusFree ∧ State.reset.dev.enforcing = false ∧
      windowOffset State.reset.dev.pins.windowBase (wr 1 2).addr = some 1 ∧
      mergeWord (State.reset.dev.ram.readWord (wr 1 2).addr.toNat) (wr 1 2).enables (wr 1 2).data = 2) ∧
    ((runningWith id).dev.Accepts (wr 1 1) 1 ∧ (runningWith id).dev.running = true ∧
      (runningWith id).dev.merged 1 (wr 1 1) = 1) ∧
    (stateOf (inCharter .halted)).dev.Accepts (wr 1 2) 1 ∧ (stateOf (inCharter .halted)).dev.merged 1 (wr 1 2) = 2 := by
  simp only [← busFree_iff, ← accepts_iff]; decide +kernel
theorem test_meets_HaltAndRun :
    ((runningWith id).dev.Accepts (wr 1 2) 1 ∧ (runningWith id).dev.running = true ∧
      (runningWith id).dev.merged 1 (wr 1 2) = 2) ∧
    (stateOf (inCharter .halted)).dev.Accepts (wr 1 1) 1 ∧
    (stateOf (inCharter .halted)).dev.charter.state = .halted ∧
    (stateOf (inCharter .halted)).dev.merged 1 (wr 1 1) = 1 := by
  simp only [← accepts_iff]; decide +kernel
/-- HALTED with a head waiting and a verdict held: RUN grants the head and decides the verdict. -/
theorem test_run_leaves_halt :
    let s := stateOf fun d => inCharter .halted (watchIn .hung (fun w => { w with policy := .heartbeat, condH := true })
      { d with admission := { d.admission with
          queues := setAt d.admission.queues 1 [⟨8, 0⟩], tenures := setAt d.admission.tenures 1 (some ⟨0, false, some .halted⟩) } })
    let d := after (.run (wr 1 1)) s
    d.charter.state = .running ∧ d.mail.admissions = [8] ∧ (d.watch[2]).state = .lockedOut ∧
    d.mail.reports.map (·.kind) = [.charterState, .verdict] := by decide +kernel

theorem test_meets_CommandWithoutEffect_sweeping :
    ∀ off ∈ [0, 1, 2, 0xD01], ∀ v ∈ [1, 2],
      let d := (stateOf (sweeping off)).dev
      d.BusFree ∧ d.charter.state = .sweeping ∧ windowOffset d.pins.windowBase (wr 1 v).addr = some 1 ∧
      d.protectedAt (place 1) = false ∧
      mergeWord (if d.swept 1 then d.shadow 1 else d.ram.readWord (wr 1 v).addr.toNat) (wr 1 v).enables (wr 1 v).data =
        BitVec.ofNat 16 v := by simp only [← busFree_iff]; decide +kernel
theorem test_command_while_sweeping :
    (after (.halt (wr 1 2)) (stateOf (sweeping 5))).charter = (stateOf (sweeping 5)).dev.charter ∧
    (after (.halt (wr 1 2)) (stateOf (sweeping 5))).shadow 1 = 2 := by decide +kernel
theorem test_meets_SweepReadsInOrder :
    ∀ p ∈ [(0, 1), (0x1F, 0x40), (0xCDF, 0xD01)],
      let d := (stateOf (sweeping p.1)).dev
      d.charter.state = .sweeping ∧ d.charter.sweepPosition = some p.1 ∧ d.pub.queue = [] ∧ d.heldCanStart = false ∧
      nextSwept p.1 = some p.2 := by decide +kernel
theorem test_meets_SweepEndEntersService :
    let d := (stateOf (sweeping tailOffset)).dev
    d.charter.state = .sweeping ∧ d.charter.sweepPosition = some tailOffset ∧ d.pub.queue = [] ∧
    d.heldCanStart = false ∧ d.charter.afterSweep = .empty ∧ d.StoresOk := by
  simp only [← stores_iff]; decide +kernel
/-- Outlets 1 and 2 are ALWAYS_ON and open, with ranks 2 and 1: outlet 2 heads branch 1. -/
theorem test_sweep_end_queues :
    let s := stateOf fun d => held (sweeping tailOffset (shadowing (outletWord 0 0) 2 (shadowing (outletWord 0 3) 2
      (shadowing (outletWord 1 0) 2 (shadowing (outletWord 1 3) 1 d)))))
    let d := after (.sweepRead (lines .opened)) s
    d.admission.queues[0] = [⟨1, 1⟩, ⟨0, 2⟩] ∧
    d.admission.tenures[0] = some ⟨0, false, some .hold⟩ ∧ d.pub.queue.length = 107 ∧
    d.charter.settings.intervalCycles = 4 ∧ d.mail.reports = [⟨.charterState, .strip, 2, 0⟩] := by decide +kernel
theorem test_sweep_end_reports_seeds :
    (after (.sweepRead (lines .opened)) (stateOf fun d =>
      sweeping tailOffset (shadowing (outletWord 2 17) 0xA0 d))).mail.reports =
      [⟨.seedInvalid, .outlet 2, BitVec.ofNat 16 (outletWord 2 17), 0⟩, ⟨.charterState, .strip, 2, 0⟩] := by decide +kernel

/-- Outlet 3's heartbeat and SWITCH_ON, a Tail value and an Apply wait for the sweep's end. -/
def awaiting (d : Device) : Device :=
  { d with charter := { d.charter with afterSweep :=
      { heartbeats := setAt d.charter.afterSweep.heartbeats 2 true
        requests := setAt d.charter.afterSweep.requests 2 (some (7, 1)), tail := some 70, apply := some 5 } } }

theorem test_meets_SweepKeepsPending_release :
    let d := (stateOf fun d => awaiting (sweeping tailOffset d)).dev
    d.charter.state = .sweeping ∧ d.charter.sweepPosition = some tailOffset ∧ d.pub.queue = [] ∧ d.heldCanStart = false ∧
    d.charter.afterSweep.requests[2] = some (7, 1) ∧ d.charter.afterSweep.tail = some 70 ∧
    d.charter.afterSweep.apply = some 5 ∧ d.charter.afterSweep.heartbeats[2] = true := by decide +kernel
theorem test_pending_released :
    let d := after (.sweepRead (lines .opened)) (stateOf fun d => awaiting (sweeping tailOffset d))
    (d.outlet[2]).state = .queued ∧ (d.outlet[2]).echoTag = 7 ∧ d.path.lastTag[2] = 7 ∧ d.mail.toAdmission = [.join 2] ∧
    d.reports.tail = 6 ∧ d.applyEcho = (5, 0) ∧ d.charter.afterSweep = .empty := by decide +kernel
/-- The write forms of the same four, in RUNNING. -/
theorem test_meets_SweepKeepsPending_in_service :
    (runningWith id).dev.Accepts (wr (outletWord 2 14) 1) (outletWord 2 14) ∧
    (runningWith id).dev.merged (outletWord 2 14) (wr (outletWord 2 14) 1) ≠ (runningWith id).dev.shadow (outletWord 2 14) ∧
    (runningWith id).dev.Requests (request 1) 2 1 1 ∧ (runningWith id).dev.Accepts (wr 0x10 5) 0x10 ∧
    (runningWith id).dev.merged 0x10 (wr 0x10 5) ≠ (runningWith id).dev.charter.applyBaseline := by
  simp only [← accepts_iff, ← requests_iff]; decide +kernel
theorem test_meets_SweepKeepsPending :
    ∀ off ∈ [outletWord 2 14, outletWord 2 16, 0x10, tailOffset],
      let d := (stateOf (sweeping 0x80)).dev
      d.BusFree ∧ d.charter.state = .sweeping ∧ windowOffset d.pins.windowBase (wr off 257).addr = some off ∧
      d.protectedAt (place off) = false ∧
      requestTag (mergeWord (if d.swept off then d.shadow off else d.ram.readWord (wr off 257).addr.toNat)
        (wr off 257).enables (wr off 257).data) ≠ 0 := by
  simp only [← busFree_iff]; decide +kernel
theorem test_meets_UptimeCountsSeconds :
    (stateOf id).dev.enforcing = false ∧ (stateOf id).dev.charter.uptime ≤ 4294967295 ∧
    ∀ up ∈ [0, 4294967294, 4294967295],
      let d := (runningWith fun d => { d with charter := { d.charter with uptime := up } }).dev
      d.enforcing = true ∧ d.charter.uptime ≤ 4294967295 ∧
      (d.charter.uptime < 4294967295 ↔ up ≠ 4294967295) := by decide +kernel

/-! ## Sampling and meter arithmetic -/

/-- The Sampler with something changed. -/
def sampling (f : Sampler → Sampler) (d : Device) : Device := { d with sampler := f d.sampler }

theorem test_meets_SlotsAccumulate :
    State.reset.dev.sampler.due = some 0 ∧ Outlet.phase 0 = 0 ∧ Outlet.phase 8 ≠ 0 ∧
    State.reset.dev.sampler.lastL1 = none ∧ (stateOf (sampling fun s => { s with due := none })).dev.sampler.due = none := by
  decide +kernel
theorem test_meets_CrossingsCloseIntervals :
    ∀ last ∈ [none, some 0, some 5000], ∀ locked ∈ [true, false], ∀ crossings ∈ [8, 9],
      let d := (stateOf (sampling fun s =>
        { s with
          lastL1 := some (5000, -1), lastCrossing := last, locked := locked, crossings := crossings
          slotStart := 5000 })).dev
      d.sampler.due = some 0 ∧ Outlet.phase 0 = 0 ∧ d.sampler.lastL1 = some (5000, -1) ∧ (-1 : Int) < 0 ∧
      0 ≤ (0 : Word).toInt ∧ (crossings + 1 < d.sampler.cycles ↔ crossings = 8) := by decide +kernel
theorem test_crossing_accepted_at_quarter_period :
    let d := (stateOf (sampling fun s => { s with lastL1 := some (5000, -1), lastCrossing := some 0 })).dev
    Device.Sampler.accepts d.sampler 5000 = true ∧ Device.Sampler.accepts d.sampler 4999 = false := by decide +kernel
theorem test_meets_LineLossAndTimedClose :
    let s (start : Nat) := stateOf (sampling fun s =>
      { s with locked := true, lastCrossing := some 200000, intervalStart := start })
    State.reset.dev.sampler.locked = false ∧ (s 0).dev.sampler.locked = true ∧
    (s 0).dev.sampler.cycles * 20000 ≤ 200000 + 2 * 20000 - (s 40000).dev.sampler.intervalStart ∧
    200000 + 2 * 20000 - (s 40001).dev.sampler.intervalStart < (s 0).dev.sampler.cycles * 20000 := by decide +kernel

/-- The Sampler before a slot that closes the interval, with Scan First written since the last close. -/
def rescanning (first : Nat) : State :=
  stateOf fun d => sampling (fun s => { s with lastL1 := some (5000, -1), slotStart := 5000, locked := true, crossings := 9 })
    { d with charter := { d.charter with settings := { d.charter.settings with scanFirst := first } } }

theorem test_meets_CrossingsCloseIntervals_scan_set :
    (rescanning 1).dev.NextScans 0 ∧ ¬(rescanning 2).dev.NextScans 0 ∧ (rescanning 2).dev.sampler.due = some 0 := by
  simp only [Device.NextScans]; decide +kernel
/-- The slot that makes the closing crossing counts in the next interval; where the new scan set leaves its outlet out, in the
interval that ends. -/
theorem test_closing_slot_counts_once :
    let d (first : Nat) := after (.currentSlot 7 0) (rescanning first)
    let counts (first : Nat) := ((d first).mail.closes.map fun r => ((r.channels[0]).count, (r.voltages[0]).count),
      ((d first).sampler.channels[0]).count, ((d first).sampler.voltages[0]).count)
    counts 1 = ([(0, 0)], 1, 1) ∧ counts 2 = ([(1, 1)], 0, 0) := by decide +kernel
/-- The part after a timed close at 5000 µs, in RUNNING and LOST, with a slot of outlet 9 since; the reference slot is due. -/
def afterTimedClose (earlier : Nat) : State :=
  runningWith fun d => { sampling (fun s =>
    { s with
      due := none, lastL1 := some (earlier, -1), intervalStart := 5000, slotStart := 5006
      channels := setAt s.channels 8 ⟨.x4, 0, 1, 9, 6, 3, false⟩, voltages := setAt s.voltages 1 ⟨1, 4⟩ }) d with now := 5006 }

theorem test_meets_CrossingsCloseIntervals_short_interval :
    ∀ earlier ∈ [4999, 5000, 5001],
      let d := (afterTimedClose earlier).dev
      d.sampler.locked = false ∧ d.sampler.due = none ∧ d.sampler.lastL1 = some (earlier, -1) ∧
      (earlier ≤ d.sampler.intervalStart ↔ earlier ≠ 5001) := by decide +kernel
/-- R56, "Timed close first": the restoring crossing's interval has n = 0 for every outlet, and the slot since the timed close
counts in the next; where an L1 sample lies between the two, the interval has its own samples. -/
theorem test_short_interval_has_no_samples :
    let d (earlier : Nat) := after (.referenceSlot 0 1) (afterTimedClose earlier)
    let counts (earlier : Nat) := ((d earlier).mail.closes.map fun r => ((r.channels[8]).count, (r.voltages[1]).count),
      ((d earlier).sampler.channels[8]).count, ((d earlier).sampler.voltages[1]).count)
    (d 5000).sampler.locked = true ∧ counts 5000 = ([(0, 0)], 1, 1) ∧ counts 5001 = ([(1, 1)], 0, 0) := by decide +kernel
/-- A restoring crossing before the end of a timed close ends an interval of length 0, and the next length runs from it. -/
theorem test_interval_runs_from_crossing :
    let d := after (.referenceSlot 0 1) (stateOf fun d => { sampling (fun s =>
      { s with due := none, lastL1 := some (4990, -1), intervalStart := 5000, slotStart := 5000 }) d with now := 5000 })
    d.mail.closes.map CloseRecord.length = [0] ∧ d.sampler.lastCrossing = some 4996 ∧ d.sampler.intervalStart = 4996 := by
  decide +kernel

/-- Slots keep their 2 µs, whatever else moves the clock: a loss at 40,001 µs falls into the slot from 40,000 to 40,002 (R38). -/
theorem test_slots_keep_their_grid :
    let d := after .lineLoss (stateOf fun d => { sampling (fun s =>
      { s with locked := true, lastCrossing := some 1, slotStart := 40000 }) d with now := 40000 })
    let t := after (.currentSlot 0 5) ⟨d, []⟩
    d.now = 40001 ∧ d.sampler.locked = false ∧ t.now = 40002 ∧ t.sampler.lastL1 = some (40002, 5) ∧
    t.sampler.slotStart = 40002 := by decide +kernel
/-- A timed close at 200,001 µs leaves the slot under way, and a changed scan set begins a new pass there (R40). -/
theorem test_slot_under_way_at_a_timed_close :
    let d (first : Nat) := after .timedClose (stateOf fun d => { sampling (fun s =>
      { s with intervalStart := 1, slotStart := 200000, due := some 7 }) d with
        charter := { d.charter with settings := { d.charter.settings with scanFirst := first } } })
    ((d 1).now = 200001 ∧ (d 1).sampler.slotStart = 200000 ∧ (d 1).sampler.due = some 7) ∧
    (d 2).sampler.slotStart = 200001 ∧ (d 2).sampler.due = some 1 := by decide +kernel

/-- An interval in which outlets 1 and 3 were scanned, outlet 1 with a sample, outlet 3 with none. -/
def interval : CloseRecord where
  scan := [0, 2]
  channels := setAt (Vector.replicate 48 (.fresh .x4 0)) 0 ⟨.x4, 0, 1, 16000000, 41400000, 4000, false⟩
  voltages := Vector.ofFn fun p => if p = 0 then ⟨1, 11500 * 11500⟩ else ⟨0, 0⟩
  length := 200000
  synchronised := true
  inDrift := false
  cycles := 10

/-- A close waits for the Close Engine, every calibration at unity. -/
def closing (d : Device) : Device :=
  mailing (fun m => { m with closes := [interval] }) (shadowing 0x41 32768 (shadowing (outletWord 0 13) 32768 d))

theorem test_meets_CloseComputesValues :
    (runningWith closing).dev.mail.closes = interval :: [] ∧ (runningWith closing).dev.mail.senses = [] ∧
    interval.scan.Nodup ∧
    (∀ p : Phase, (interval.voltages[p]).sumSq / (interval.voltages[p]).count < 2 ^ 34) ∧
    (∀ n : Outlet, (interval.channels[n]).sumSq / (interval.channels[n]).count < 2 ^ 34) ∧
    (runningWith closing).dev.inService = true ∧ (stateOf closing).dev.inService = false := by decide +kernel
theorem test_close_values :
    let e := (after (.closeComputation (lines .opened)) (runningWith closing)).engine
    (e.voltages[0] = 2300 ∧ (e.outlets[0]).current = 2000 ∧ (e.outlets[0]).power = 4140 ∧
      (e.outlets[0]).apparent = 4600) ∧
    (e.outlets[0]).residual = 828000000 ∧ (e.outlets[0]).sequence = 1 ∧ (e.outlets[2]).quality.noSamples = true ∧
    (e.levels.get (.branch 0)).load = 2000 ∧ (e.levels.get .inlet).power = 4140 ∧ e.lineFrequency = 5000 := by
  decide +kernel
theorem test_close_reads_contact_sense :
    let d := after (.closeComputation (lines .closed)) (runningWith closing)
    (d.outlet[2]).sensed = .closed ∧ (d.outlet[24]).sensed = .opened ∧ d.pins.senseLines = lines .closed ∧
    d.mail.senses.length = 1 ∧ (d.pub.queue.take 2).map Entry.group? = [some (.status 0), some (.status 1)] ∧
    ((after (.closeComputation (lines .closed)) (stateOf closing)).outlet[2]).sensed = .closed ∧
    (after (.closeComputation (lines .closed)) (stateOf closing)).mail.senses = [] := by decide +kernel
/-- A close that counts the second for a bracket ends it: the held update enters where the close does not publish the group. -/
theorem test_close_ends_bracket :
    let d (g : Group) (closes : Nat) := after (.closeComputation (lines .opened))
      (runningWith fun d => bracketed ⟨g, some [9], closes⟩ (closing d))
    (d (.meter 5) 0).pub.bracket = some ⟨.meter 5, some [9], 1⟩ ∧ (d (.meter 5) 1).pub.bracket = none ∧
    (d (.meter 5) 1).pub.queue.head? = some (.group (.meter 5) [9]) ∧
    (d (.meter 2) 1).pub.bracket = none ∧ Entry.group (.meter 2) [9] ∉ (d (.meter 2) 1).pub.queue ∧
    Entry.group (.meter 2) ((d (.meter 2) 1).meterWords 2) ∈ (d (.meter 2) 1).pub.queue ∧
    (d (.meter 2) 0).pub.bracket = some ⟨.meter 2, some ((d (.meter 2) 0).meterWords 2), 1⟩ := by decide +kernel
theorem test_meets_CloseAddsEnergy : (runningWith closing).dev.engine.EnergyOk := by
  have h : ∀ n : Outlet, ((runningWith closing).dev.engine.outlets[n]).residual < Config.wattHour ∧
      ((runningWith closing).dev.engine.outlets[n]).lifetime.length = 10 ∧
      ((runningWith closing).dev.engine.outlets[n]).period.length = 6 ∧
      ((runningWith closing).dev.engine.outlets[n]).rollover ≤ 255 := by decide +kernel
  have hl : (∀ p : Phase, ((runningWith closing).dev.engine.levels.get (.phase p)).lifetime.length = 12 ∧
      ((runningWith closing).dev.engine.levels.get (.phase p)).rollover ≤ 255) ∧
      (∀ b : Branch, ((runningWith closing).dev.engine.levels.get (.branch b)).lifetime.length = 12 ∧
      ((runningWith closing).dev.engine.levels.get (.branch b)).rollover ≤ 255) ∧
      ((runningWith closing).dev.engine.levels.get .inlet).lifetime.length = 12 ∧
      ((runningWith closing).dev.engine.levels.get .inlet).rollover ≤ 255 := by decide +kernel
  refine ⟨fun n => ⟨(h n).1, (h n).2.1, (h n).2.2.1, (h n).2.2.2⟩, fun l => ?_⟩
  cases l with
  | phase p => exact ⟨(hl.1 p).1, (hl.1 p).2⟩
  | branch b => exact ⟨(hl.2.1 b).1, (hl.2.1 b).2⟩
  | inlet => exact ⟨hl.2.2.1, hl.2.2.2⟩

/-- Outlet 3 has shown 137 Wh and counted 138. -/
def metered (d : Device) : Device := d.setMeter 2 fun m => { m with period := [8, 3, 1, 0, 0, 0] }

theorem test_meets_PeriodEnergyReduced :
    let d := (runningWith fun d => mailing (fun m => { m with
      periodClears := [2], collectClears := [⟨2, [7, 3, 1, 0, 0, 0], true⟩], collectReturns := [⟨2, true⟩] })
      ({ metered d with pub := { d.pub with heldBack := setAt d.pub.heldBack 2 (some (List.replicate 14 0)) } })).dev
    (d.mail.periodClears = 2 :: [] ∧ d.mail.collectClears = ⟨2, [7, 3, 1, 0, 0, 0], true⟩ :: [] ∧
      d.mail.collectReturns = ⟨2, true⟩ :: []) ∧
    (d.engine.outlets[2]).period.length = 6 ∧ d.pub.heldBack[2] = some (List.replicate 14 0) ∧
    (runningWith metered).dev.pub.heldBack[2] = none ∧ (runningWith metered).dev.pub.bracket = none := by decide +kernel
theorem test_collect_clear :
    let d := after .collectClear (runningWith fun d =>
      mailing (fun m => { m with collectClears := [⟨2, [7, 3, 1, 0, 0, 0], false⟩] }) (metered d))
    (d.engine.outlets[2]).period = [1, 0, 0, 0, 0, 0] ∧ d.mail.collectReturns = [⟨2, false⟩] := by decide +kernel
theorem test_period_clear_event :
    let d := after .periodClearEvent (runningWith fun d => mailing (fun m => { m with periodClears := [2] }) (metered d))
    (d.engine.outlets[2]).period = zeros 6 ∧ (d.engine.outlets[2]).sequence = 1 ∧ d.pub.queue.length = 1 := by decide +kernel
/-- A new publication replaces a waiting entry in place, its drain from the start; joins the back; is held in a bracket on
its group; or replaces an update held back. -/
theorem test_publication_takes :
    let p (f : Publication → Publication) := after .periodClearEvent (runningWith fun d =>
      mailing (fun m => { m with periodClears := [2] }) { metered d with pub := f d.pub })
    let words := (p id).meterWords 2
    let waiting : List Entry := [.group (.meter 2) [1], .group .charter [5]]
    (p fun p => { p with queue := waiting, drained := 1 }).pub.queue = [.group (.meter 2) words, .group .charter [5]] ∧
    (p fun p => { p with queue := waiting, drained := 1 }).pub.drained = 0 ∧
    (p fun p => { p with queue := waiting.tail, drained := 1 }).pub.queue = [.group .charter [5], .group (.meter 2) words] ∧
    (p fun p => { p with queue := waiting.tail, drained := 1 }).pub.drained = 1 ∧
    (p fun p => { p with bracket := some ⟨.meter 2, none, 0⟩ }).pub.bracket = some ⟨.meter 2, some words, 0⟩ ∧
    (p fun p => { p with bracket := some ⟨.meter 3, none, 0⟩ }).pub.queue = [.group (.meter 2) words] ∧
    (p fun p => { p with heldBack := setAt p.heldBack 2 (some [1]) }).pub.heldBack[2] = some words := by decide +kernel
theorem test_meets_DecimalArithmetic :
    (99 : Nat) < 10 ^ ([9, 9] : Digits).length ∧ ([1, 2] : Digits).length = ([9, 9] : Digits).length ∧
    17179869183 < 2 ^ 34 := by decide +kernel

/-! ## The outlet state machine -/

theorem test_meets_HoldLine : (runningWith held).dev.pins.hold = true ∧ (runningWith id).dev.pins.hold = false := ⟨rfl, rfl⟩

/-- Outlet 3 with an operation in flight. -/
def operating (move : RelayMove) (deferred : Option Deferred) (intent : Option Intent) : Device → Device :=
  outletIn (match move with | .closing => .closing | .opening => .opening) fun o =>
    { o with operation := some (move, 30000), deferred := deferred, intent := intent }

theorem test_meets_OperationsComplete :
    (∀ deferred ∈ [none, some (Deferred.request .switchOff 5 0)],
      let o := (runningWith (operating .closing deferred none)).dev.outlet[2]
      o.operation = some (.closing, 30000) ∧ o.state = .closing ∧ o.deferred = deferred ∧ o.mode ≠ .alwaysOn) ∧
    (∀ intent ∈ [none, some ⟨.request, 10, none, none⟩],
      let o := (runningWith (operating .opening none intent)).dev.outlet[2]
      o.operation = some (.opening, 30000) ∧ o.state = .opening ∧ o.deferred = none ∧ o.intent = intent) ∧
    (runningWith id).dev.pins.hold = false ∧ (runningWith id).dev.running = true ∧
    (stateOf (inCharter .halted)).dev.charter.state = .halted := by decide +kernel
theorem test_closing_completes :
    ((after (.closingComplete 2 .closed) (runningWith (operating .closing none none))).outlet[2]).state = .inrush ∧
    ((after (.closingComplete 2 .opened) (runningWith (operating .closing none none))).outlet[2]).fault =
      some .failedClose ∧
    ((after (.closingComplete 2 .closed)
      (runningWith (operating .closing (some (.request .switchOff 5 0)) none))).outlet[2]).state = .opening := by
  decide +kernel
theorem test_opening_completes :
    ((after (.openingComplete 2 .closed) (runningWith (operating .opening none none))).outlet[2]).fault = some .welded ∧
    ((after (.openingComplete 2 .opened) (runningWith (operating .opening none none))).outlet[2]).state = .off ∧
    ((after (.openingComplete 2 .opened)
      (runningWith (operating .opening none (some ⟨.request, 10, none, none⟩)))).outlet[2]).dwell = some 10000000 := by
  decide +kernel
/-- What stands in the deferred slot of an operation while the charter is RUNNING or HALTED. -/
theorem test_meets_OperationsComplete_deferred :
    ∀ content ∈ [Deferred.request .switchOn 5 0, .request .switchOff 5 0, .request .cycle 5 9, .target .on, .target .off],
      ∀ c ∈ [CharterState.running, .halted],
        let d := (stateOf fun d => operating .opening (some content) none (inCharter c d)).dev
        d.inService = true ∧ (d.outlet[2]).deferred = some content ∧ (d.outlet[2]).operation = some (.opening, 30000) ∧
        (d.outlet[2]).state = .opening ∧ (d.outlet[2]).coil = some .opening := by decide +kernel
theorem test_deferred_taken_on_completion :
    let opened (content : Deferred) := after (.openingComplete 2 .opened) (runningWith (operating .opening (some content) none))
    let closed (content : Deferred) := after (.closingComplete 2 .closed) (runningWith (operating .closing (some content) none))
    (((opened (.request .switchOn 5 0)).outlet[2]).state = .queued ∧
      (opened (.request .switchOn 5 0)).mail.toAdmission = [.join 2]) ∧
    ((opened (.request .cycle 5 9)).outlet[2]).state = .dwell ∧ ((opened (.target .on)).outlet[2]).state = .queued ∧
    ((closed (.request .cycle 5 9)).outlet[2]).state = .opening ∧
    ((closed (.target .off)).outlet[2]).coil = some .opening ∧ ((closed (.target .on)).outlet[2]).staged = none := by
  decide +kernel
theorem test_deferred_target_returns :
    ((after (.openingComplete 2 .opened)
      (runningWith fun d => held (operating .opening (some (.target .on)) none d))).outlet[2]).staged = some .on := by
  decide +kernel
theorem test_deferred_target_taken_beside_newer_one :
    let d := after (.openingComplete 2 .opened) (runningWith fun d =>
      (operating .opening (some (.target .on)) none d).setOutlet 2 fun o => { o with staged := some .off })
    (d.outlet[2]).state = .queued ∧ (d.outlet[2]).staged = some .off := by decide +kernel
theorem test_meets_TimersAndCauses :
    ((runningWith (outletIn .inrush fun o => { o with inrush := some 7 })).dev.outlet[2]).inrush = some 7 ∧
    ((runningWith (outletIn .dwell fun o => { o with dwell := some 7 })).dev.outlet[2]).dwell = some 7 ∧
    (let d := (runningWith fun d => mailing (fun m =>
        { m with admissions := [2], verdictCycles := [⟨2, 10, 0⟩] }) (outletIn .queued id d)).dev;
      d.mail.admissions = 2 :: [] ∧ d.mail.verdictCycles = ⟨2, 10, 0⟩ :: [] ∧ (d.outlet[2]).state = .queued ∧
      d.charter.state = .running ∧ d.pins.hold = false) ∧
    ((runningWith (outletIn .on id)).dev.outlet[2]).state = .on := by decide +kernel
theorem test_admission :
    ((after .admission (runningWith fun d =>
      mailing (fun m => { m with admissions := [2] }) (outletIn .queued id d))).outlet[2]).state = .closing ∧
    (after .admission (runningWith fun d => held (mailing (fun m => { m with admissions := [2] })
      (outletIn .queued id d)))).mail.toAdmission = [.handBack 2] := by decide +kernel

/-- A close on its way to the Outlet Controller: outlet 3 scanned, at this current, with this reading made in its present
state. -/
def sensing (sense : Sense) (current : Nat) (d : Device) : Device :=
  mailing (fun m => { m with senses :=
    [⟨lines sense, mapAll OutletContext.state d.outlet,
      setAt (Vector.replicate 48 ⟨false, .clear, 0⟩) 2 ⟨true, .clear, current⟩⟩] })
    (d.setOutlet 2 fun o => { o with sensed := sense })

theorem test_meets_ContactSenseAtClose :
    (let d := (runningWith fun d => sensing .opened 250 (outletIn .off id d)).dev;
      d.mail.senses ≠ [] ∧ d.present 2 = true ∧ d.present 24 = false ∧ d.inService = true) ∧
    State.reset.dev.mail.senses = [] := by decide +kernel
theorem test_meets_CloseComputesValues_checks_wait :
    let d := (runningWith fun d => closing (sensing .opened 250 (outletIn .off id d))).dev
    d.mail.closes ≠ [] ∧ d.mail.senses ≠ [] := by decide +kernel
theorem test_leak_faults_at_250 :
    let check (current : Nat) := (after (.contactSenseRead (lines .opened))
      (runningWith fun d => sensing .opened current (outletIn .off (fun o => { o with leakCount := 1 }) d))).outlet[2]
    (check 250).fault = some .currentWhileOff ∧ (check 249).state = .off ∧ (check 249).leakCount = 0 := by decide +kernel
/-- A close's checks are made with its own reading: not of an outlet that has changed its state, or been read anew, since. -/
theorem test_no_check_after_newer_event :
    let check (f : OutletContext → OutletContext) := (after (.contactSenseRead (lines .opened)) (runningWith fun d =>
      (sensing .opened 250 (outletIn .off (fun o => { o with leakCount := 1 }) d)).setOutlet 2 f)).outlet[2]
    (check id).state = .fault ∧ (check fun o => { o with state := .queued }).state = .queued ∧
    (check fun o => { o with sensed := .closed }).state = .off ∧
    (check fun o => { o with sensed := .closed }).sensed = .closed := by decide +kernel
/-- The Outlet Controller is handed every condition of a scanned outlet, and none of another one (R58, R79). -/
theorem test_conditions_handed_over :
    let d := after (.closeComputation (lines .opened)) (runningWith fun d => closing d)
    d.mail.senses.map (fun h => [(h.items[0]).quality, (h.items[2]).quality, (h.items[3]).quality]) =
      [[⟨false, true, false, false, false⟩, ⟨true, false, false, false, false⟩, .clear]] ∧
    (d.engine.outlets[0]).quality = ⟨false, true, false, false, false⟩ := by decide +kernel
/-- A close that waits behind these checks is computed after them. -/
theorem test_checks_come_before_next_close :
    let d := after (.closeComputation (lines .closed)) (runningWith fun d =>
      closing (sensing .opened 250 (outletIn .off (fun o => { o with leakCount := 1 }) d)))
    (d.outlet[2]).fault = some .currentWhileOff ∧ (d.outlet[2]).sensed = .closed ∧ d.mail.senses.length = 1 := by
  decide +kernel
/-- RELAY_FAULT is followed by CYCLE_CANCELLED, the dwell is stopped, and outlets fault in ascending number. -/
theorem test_faults_of_one_close :
    let d := after (.contactSenseRead (lines .opened)) (runningWith fun d => sensing .closed 0
      (outletIn .dwell (fun o => { o with mismatch := 1, dwell := some 7, intent := some ⟨.request, 10, none, none⟩ })
        (d.setOutlet 1 fun o => { o with state := .off, mismatch := 1, sensed := .closed })))
    d.mail.reports.map (fun r => (r.kind, r.subject)) =
      [(.relayFault, .outlet 1), (.relayFault, .outlet 2), (.cycleCancelled, .outlet 2)] ∧
    (d.outlet[2]).dwell = none ∧ d.pub.queue.map Entry.group? = [some (.status 1), some (.status 2)] := by decide +kernel
theorem test_second_mismatch_faults_queued_outlet :
    let d := after (.contactSenseRead (lines .opened))
      (runningWith fun d => sensing .closed 0 (outletIn .queued (fun o => { o with mismatch := 1 }) d))
    (d.outlet[2]).fault = some .contactMoved ∧ (d.outlet[2]).sensed = .closed ∧ d.mail.toAdmission = [.removal 2] := by
  decide +kernel

/-! ## Outlet requests -/

theorem test_meets_RequestChecks :
    (runningWith (outletIn .off id)).dev.Requests (request 12) 2 1 12 ∧ requestCode 12 = none ∧
    (runningWith (outletIn .absent id)).dev.Requests (request 1) 2 1 1 ∧ requestCode 1 ≠ none ∧
    (stateOf fun d => outletIn .off id (inCharter .halted d)).dev.Requests (request 11) 2 1 11 := by
  simp only [← requests_iff]; decide +kernel
theorem test_meets_RequestChecks_clearFault :
    (runningWith (outletIn .absent id)).dev.Requests (request 10) 2 1 10 ∧ requestCode 10 ≠ none ∧
    (stateOf fun d => outletIn .fault id (inCharter .halted d)).dev.Requests (request 10) 2 1 10 := by
  simp only [← requests_iff]; decide +kernel
theorem test_clear_fault_refused_while_halted :
    let d := after (.clearFault (request 10) .closed) (stateOf fun d => outletIn .fault id (inCharter .halted d))
    (d.outlet[2]).echoResult = .refusedHalted ∧ (d.outlet[2]).state = .fault ∧ d.pins.senseLines[2] = .closed := by
  decide +kernel
/-- Hypotheses of SWITCH_ON, SWITCH_OFF and CYCLE by state. -/
theorem test_meets_switching_requests :
    ∀ code ∈ [1, 2, 3], ∀ st ∈ [OutletState.off, .queued, .closing, .inrush, .on, .opening, .dwell, .fault],
      ∀ mode ∈ [Mode.manual, .alwaysOn],
        let s := runningWith (outletIn st fun o => { o with mode := mode })
        s.dev.Requests (request code) 2 1 (BitVec.ofNat 8 code) ∧ s.dev.running = true ∧ s.dev.StoresOk ∧
        (s.dev.outlet[2]).state = st ∧ st ≠ .unmanaged ∧ st ≠ .absent ∧ (s.dev.outlet[2]).mode = mode ∧
        s.dev.pins.hold = false := by
  simp only [← requests_iff, ← stores_iff]; decide +kernel
theorem test_meets_switching_requests_under_hold :
    ∀ code ∈ [2, 3], ∀ st ∈ [OutletState.inrush, .on],
      let s := runningWith fun d => held (outletIn st id d)
      s.dev.Requests (request code) 2 1 (BitVec.ofNat 8 code) ∧ s.dev.running = true ∧ s.dev.StoresOk ∧
      s.dev.pins.hold = true ∧ (s.dev.outlet[2]).mode ≠ .alwaysOn := by
  simp only [← requests_iff, ← stores_iff]; decide +kernel
theorem test_switch_off_by_state :
    let result (st : OutletState) :=
      (after (.switchOff (request 2)) (runningWith (outletIn st id))).outlet[2]
    (result .on).state = .opening ∧ (result .off).echoResult = .noChange ∧ (result .fault).echoResult = .refusedState ∧
    (result .closing).echoResult = .deferred ∧ (result .dwell).state = .off := by decide +kernel
theorem test_meets_StagingSetsTarget :
    ∀ code ∈ [4, 5, 6], ∀ st ∈ [OutletState.off, .closing, .fault],
      (runningWith (outletIn st id)).dev.Requests (request code) 2 1 (BitVec.ofNat 8 code) ∧ st ≠ .absent := by
  simp only [← requests_iff]; decide +kernel
theorem test_staging :
    let staged (i : Instr) (o : OutletContext → OutletContext) := (after i (runningWith (outletIn .fault o))).outlet[2]
    (staged (.stageOn (request 4)) id).staged = some .on ∧
    (staged (.stageOff (request 5)) fun o => { o with mode := .alwaysOn }).echoResult = .refusedMode ∧
    (staged (.unstage (request 6)) fun o => { o with staged := some .on }).echoResult = .taken ∧
    (staged (.unstage (request 6)) id).echoResult = .noChange := by decide +kernel
/-- Hypotheses of HOLD_WATCH and FREE_WATCH, of RESUME, CLEAR_FAULT and PERIOD_CLEAR. -/
theorem test_meets_watch_requests :
    ∀ code ∈ [7, 8, 9, 10, 11],
      let s := runningWith fun d => watchIn .hung (fun w => { w with held := true, recent := [1, 2] }) (outletIn .fault id d)
      s.dev.Requests (request code) 2 1 (BitVec.ofNat 8 code) ∧ s.dev.running = true ∧ s.dev.mail.toWatch = [] ∧
      s.dev.StoresOk ∧ (s.dev.outlet[2]).state = .fault ∧ (s.dev.watch[2]).state = .hung ∧ (s.dev.watch[2]).held = true ∧
      s.dev.pins.hold = false ∧ s.dev.cycleLimit 2 ≤ (s.dev.watch[2]).recent.length ∧
      (runningWith (shadowing (outletWord 2 12) 3)).dev.cycleLimit 2 = 3 := by
  simp only [← requests_iff, ← stores_iff]; decide +kernel
theorem test_free_watch_decides_again :
    let freed (limit : Nat) := after (.freeWatch (request 8)) (runningWith fun d =>
      shadowing (outletWord 2 12) limit (watchIn .hung (fun w => { w with held := true, recent := [0, 0] }) (outletIn .on id d)))
    ((freed 3).watch[2]).state = .idle ∧ (freed 3).mail.verdictCycles.length = 1 ∧
    ((freed 2).watch[2]).state = .lockedOut := by decide +kernel
/-- FREE_WATCH of a watch that is not held: NO_CHANGE, and the verdict is decided all the same. -/
theorem test_free_watch_without_change_decides :
    let d := after (.freeWatch (request 8)) (runningWith fun d => watchIn .hung id (outletIn .on id d))
    (d.outlet[2]).echoResult = .noChange ∧ (d.watch[2]).state = .lockedOut ∧ d.mail.reports.length = 1 := by decide +kernel
theorem test_resume :
    ((after (.resume (request 9)) (runningWith (watchIn .lockedOut fun w => { w with policy := .heartbeat }))).watch[2]).heartbeat
      = some 0 := by decide +kernel
theorem test_clear_fault :
    let cleared (x : Sense) := (after (.clearFault (request 10) x) (runningWith (outletIn .fault id))).outlet[2]
    (cleared .closed).state = .on ∧ (cleared .opened).state = .off := by decide +kernel
theorem test_period_clear :
    (after (.periodClear (request 11)) (runningWith (outletIn .off id))).mail.periodClears = [2] := by decide +kernel
theorem test_meets_Apply :
    (∀ f ∈ [id, held], (runningWith f).dev.Accepts (wr applyTagOffset 5) applyTagOffset ∧
      (runningWith f).dev.merged applyTagOffset (wr applyTagOffset 5) ≠ (runningWith f).dev.charter.applyBaseline) ∧
    (runningWith id).dev.merged applyTagOffset (wr applyTagOffset 0) = (runningWith id).dev.charter.applyBaseline ∧
    (runningWith id).dev.running = true ∧ (runningWith held).dev.pins.hold = true := by
  simp only [← accepts_iff]; decide +kernel
theorem test_apply :
    let d := after (.apply (wr applyTagOffset 5)) (runningWith (outletIn .on fun o => { o with staged := some .off }))
    d.applyEcho = (5, 1) ∧ (d.outlet[2]).state = .opening ∧ (d.outlet[2]).staged = none := by decide +kernel
theorem test_apply_hands_off_in_order :
    let d := after (.apply (wr applyTagOffset 5)) (runningWith fun d =>
      outletIn .inrush (fun o => { o with staged := some .off, intent := some ⟨.request, 10, none, none⟩ })
        ((d.setOutlet 1 fun o => { o with state := .off, staged := some .on }).setOutlet 5 fun o =>
          { o with state := .on, staged := some .off }))
    d.mail.toAdmission = [.join 1, .release 2] ∧ d.mail.toWatch = [.off 5] ∧
    d.mail.reports.map (fun r => (r.kind, r.subject)) = [(.cycleCancelled, .outlet 2)] ∧
    d.applyEcho = (5, 3) := by decide +kernel

/-! ## The Hang Watch -/

theorem test_meets_HeartbeatByWatchState :
    (∀ st ∈ [WatchState.idle, .grace, .watching, .suspect, .hung, .lockedOut],
      (runningWith (watchIn st id)).dev.Accepts (wr (outletWord 2 14) 1) (outletWord 2 14) ∧
      (runningWith (watchIn st id)).dev.merged (outletWord 2 14) (wr (outletWord 2 14) 1) ≠
        (runningWith (watchIn st id)).dev.shadow (outletWord 2 14)) ∧
    (runningWith id).dev.merged (outletWord 2 14) (wr (outletWord 2 14) 0) = (runningWith id).dev.shadow (outletWord 2 14) ∧
    WatchContext.suspicious WatchContext.afterReset = false := by
  simp only [← accepts_iff]; decide +kernel
theorem test_heartbeat_resumes :
    let d := after (.heartbeat (wr (outletWord 2 14) 1)) (runningWith fun d =>
      { watchIn .watching (fun w => { w with policy := .heartbeat, heartbeat := some 9 }) d with suspendedSince := some 0 })
    d.suspendedSince = none ∧ (d.watch[2]).heartbeat = some 0 ∧ d.mail.reports.length = 1 := by decide +kernel
theorem test_meets_ModeAndPolicyWrites :
    (runningWith (outletIn .off id)).dev.StoresOk ∧
    ∀ w ∈ [0, 1], (runningWith (outletIn .off id)).dev.Accepts (wr (outletWord 2 w) 2) (outletWord 2 w) := by
  simp only [← stores_iff, ← accepts_iff]; decide +kernel
theorem test_mode_write_queues :
    let d := after (.modeWrite (wr (outletWord 2 0) 2)) (runningWith (outletIn .off id))
    (d.outlet[2]).state = .queued ∧ (d.outlet[2]).mode = .alwaysOn ∧ d.mail.toAdmission = [.join 2] := by decide +kernel
theorem test_policy_write_restarts :
    ((after (.watchPolicyWrite (wr (outletWord 2 1) 1))
      (runningWith (outletIn .on fun o => { o with mode := .managed }))).watch[2]).state = .watching := by decide +kernel

/-- A Confirm Time, and a watch. -/
def confirming (seconds : Nat) (st : WatchState) (f : WatchContext → WatchContext) (d : Device) : Device :=
  watchIn st f { d with charter := { d.charter with settings := { d.charter.settings with confirmTime := seconds } } }

/-- A quorum of two, with one other outlet SUSPECT in H. -/
def nearQuorum (d : Device) : Device :=
  { d with charter := { d.charter with settings := { d.charter.settings with quorum := 2 } } }.setWatch 5 fun w =>
    { w with state := .suspect, policy := .heartbeat, condH := true }

theorem no_quorum (d : Device) (k : Nat) (h : d.charter.settings.quorum = 0) : ¬d.QuorumAt k := fun q => q.1 h

/-- Hypotheses of the settings writes and of the tracker. -/
theorem test_meets_WatchSettingWrites :
    let s := runningWith (confirming 10 .watching fun w =>
      { w with policy := .either, heartbeat := some 5000000, flat := 30000000, latest := some 0 })
    s.dev.StoresOk ∧ s.dev.charter.settings.confirmTime ≠ 0 ∧ ¬s.dev.QuorumAt (s.dev.suspects + 1) ∧
    ∀ w ∈ [6, 9, 10, 11], s.dev.Accepts (wr (outletWord 2 w) 0) (outletWord 2 w) := by
  refine ⟨(stores_iff _).1 (by decide +kernel), by decide +kernel, no_quorum _ _ (by decide +kernel), ?_⟩
  simp only [← accepts_iff]; decide +kernel
theorem test_timeout_write_suspects :
    let s := runningWith (confirming 10 .watching fun w => { w with policy := .heartbeat, heartbeat := some 5000000 })
    ((after (.heartbeatTimeoutWrite (wr (outletWord 2 6) 0)) s).watch[2]).state = .suspect ∧
    ((after (.heartbeatTimeoutWrite (wr (outletWord 2 6) 6)) s).watch[2]).state = .watching := by decide +kernel
theorem test_confirm_time_of_zero_decides_at_once :
    let w (d : Device) : Device := confirming 0 .watching (fun w => { w with policy := .either, heartbeat := some 5000000 }) d
    (runningWith w).dev.charter.settings.confirmTime = 0 ∧
    (let d := after (.heartbeatTimeoutWrite (wr (outletWord 2 6) 0)) (runningWith w);
      (d.watch[2]).state = .lockedOut ∧ (d.watch[2]).cause = some .heartbeat ∧ d.mail.reports.length = 1) ∧
    ((after (.heartbeatTimeoutWrite (wr (outletWord 2 6) 0)) (runningWith fun d => held (w d))).watch[2]).state = .hung := by
  decide +kernel
theorem test_signature_writes_suspect :
    let s := runningWith (confirming 10 .watching fun w =>
      { w with policy := .signature, flat := 30000000, latest := some 0 })
    ((after (.signatureTimeWrite (wr (outletWord 2 9) 30)) s).watch[2]).state = .suspect ∧
    ((after (.signatureFloorWrite (wr (outletWord 2 11) 1)) s).watch[2]).state = .watching := by decide +kernel

/-- A close on its way to outlet 3's tracker. -/
def tracking (p : Int) : Device → Device :=
  mailing fun m => { m with trackers := [⟨2, true, .clear, p, 30000000⟩] }

theorem test_meets_TrackerFollowsClose :
    let s := runningWith fun d => tracking 5 (confirming 10 .watching id d)
    s.dev.mail.trackers.find? (fun x => decide (x.outlet = 2)) = some ⟨2, true, .clear, 5, 30000000⟩ ∧
    s.dev.charter.settings.confirmTime ≠ 0 ∧ ¬s.dev.QuorumAt (s.dev.suspects + 1) :=
  ⟨by decide +kernel, by decide +kernel, no_quorum _ _ (by decide +kernel)⟩
theorem test_tracker :
    let s (p : Int) := runningWith fun d => tracking p (confirming 10 .watching
      (fun w => { w with policy := .signature, reference := some 5 }) d)
    ((after (.signatureTrackerUpdate 2) (s 5)).watch[2]).state = .suspect ∧
    ((after (.signatureTrackerUpdate 2) (s 6)).watch[2]).reference = some 6 := by decide +kernel
theorem test_meets_WatchEvents :
    (∀ m ∈ [WatchMessage.on 2, .off 2, .answer 2 true 0, .answer 2 false 0],
      (runningWith (mailing fun x => { x with toWatch := [m] })).dev.mail.toWatch = m :: []) ∧
    ((runningWith (watchIn .grace fun w => { w with grace := some 7 })).dev.watch[2]).grace = some 7 ∧
    (let w := (runningWith (watchIn .idle fun w =>
      { w with outstanding := true, policy := .heartbeat, heldHeartbeat := some 5000000 })).dev.watch[2];
      w.outstanding = true ∧ w.state = .idle ∧ w.offSince = false) ∧
    WatchContext.suspicious { WatchContext.afterReset with policy := .heartbeat, condH := true } = true := by decide +kernel
theorem test_on_and_off_events :
    let s (m : WatchMessage) (st : WatchState) := runningWith fun d => mailing (fun x => { x with toWatch := [m] })
      (watchIn st (fun w => { w with policy := .heartbeat }) (outletIn .on (fun o => { o with mode := .managed }) d))
    ((after .onEvent (s (.on 2) .idle)).watch[2]).state = .watching ∧
    ((after .offEvent (s (.off 2) .suspect)).watch[2]).state = .idle := by decide +kernel
theorem test_returned_cycle_is_hung_again :
    let d := after .verdictCycleAnswer (runningWith fun d => mailing (fun x => { x with toWatch := [.answer 2 false 0] })
      (watchIn .idle (fun w => { w with
        outstanding := true, policy := .heartbeat, heldHeartbeat := some 5000000, recent := [0] }) d))
    (d.watch[2]).state = .hung ∧ (d.watch[2]).recent = [] ∧ d.mail.reports.length = 1 := by decide +kernel
theorem test_grace_expiry :
    ((after (.graceExpiry 2) (runningWith (watchIn .grace fun w => { w with grace := some 7 }))).watch[2]).state = .watching := by
  decide +kernel
theorem test_meets_HeartbeatTimerRunsOut :
    let s := runningWith fun d => nearQuorum (confirming 10 .watching
      (fun w => { w with policy := .heartbeat, heartbeat := some 9 }) d)
    ((s.dev.watch[2]).heartbeat = some 9 ∧ (s.dev.watch[2]).state = .watching ∧ (s.dev.watch[2]).condH = false ∧
      s.dev.suspendedSince = none) ∧
    s.dev.QuorumAt (s.dev.suspects + 1) ∧ (s.dev.watch[2]).suspicious = false ∧ s.dev.charter.settings.confirmTime ≠ 0 ∧
    (∀ policy ∈ [WatchPolicy.heartbeat, .both],
      WatchContext.suspicious { WatchContext.afterReset with policy := policy, condH := true } = decide (policy = .heartbeat)) ∧
    ¬(runningWith id).dev.QuorumAt 1 := by
  refine ⟨by decide +kernel, ⟨by decide +kernel, by decide +kernel, by decide +kernel⟩, by decide +kernel, by decide +kernel,
    by decide +kernel, no_quorum _ _ (by decide +kernel)⟩
theorem test_heartbeat_timeout :
    let s (f : Device → Device) := runningWith fun d => f (confirming 10 .watching
      (fun w => { w with policy := .heartbeat, heartbeat := some 9 }) d)
    ((after (.heartbeatTimeout 2) (s id)).watch[2]).state = .suspect ∧
    (after (.heartbeatTimeout 2) (s id)).now = 4999991 ∧
    (after (.heartbeatTimeout 2) (s nearQuorum)).suspendedSince = some 0 := by decide +kernel
/-- A watch in SUSPECT or HUNG by its signature whose heartbeat timer runs out, below the quorum and at it; and WATCHING at
a Confirm Time of 0. -/
theorem test_meets_HeartbeatTimerRunsOut_suspect_and_hung :
    ∀ st ∈ [WatchState.suspect, .hung, .watching],
      let w (d : Device) : Device := confirming 0 st (fun w =>
        { w with policy := .either, condS := decide (st ≠ .watching), heartbeat := some 9, confirm := some 4 }) d
      let s := runningWith w
      (s.dev.watch[2]).heartbeat = some 9 ∧ (s.dev.watch[2]).condH = false ∧ s.dev.suspendedSince = none ∧
      (s.dev.watch[2]).state = st ∧ s.dev.charter.settings.quorum = 0 ∧ s.dev.charter.settings.confirmTime = 0 ∧
      (let q := runningWith fun d => nearQuorum (w d);
        q.dev.charter.settings.quorum = 2 ∧ q.dev.suspects = 1 ∧ (q.dev.watch[2]).state = st) := by decide +kernel
theorem test_heartbeat_timeout_in_suspect_and_hung :
    let s (st : WatchState) (f : Device → Device) := runningWith fun d => f (confirming 10 st
      (fun w => { w with policy := .either, condS := true, heartbeat := some 9, confirm := some 8000000 }) d)
    let d := after (.heartbeatTimeout 2)
    ((d (s .suspect id)).watch[2]).state = .suspect ∧ ((d (s .suspect id)).watch[2]).condH = true ∧
    (d (s .suspect nearQuorum)).suspendedSince = some 0 ∧
    (d (s .suspect nearQuorum)).mail.reports = [⟨.hbSuspend, .strip, 2, 2⟩] ∧
    ((d (s .suspect nearQuorum)).watch[2]).state = .suspect ∧ ((d (s .suspect nearQuorum)).watch[5]).state = .watching ∧
    ((d (s .hung nearQuorum)).watch[2]).state = .hung ∧ (d (s .hung nearQuorum)).suspendedSince = none := by decide +kernel
theorem test_meets_ConfirmTimerRunsOut :
    let w := (runningWith (watchIn .suspect fun w => { w with confirm := some 7 })).dev.watch[2]
    w.confirm = some 7 ∧ w.state = .suspect := by decide +kernel
theorem test_confirm_expiry :
    let s (f : Device → Device) := runningWith fun d => f (watchIn .suspect (fun w =>
      { w with confirm := some 7, policy := .heartbeat, condH := true }) d)
    ((after (.confirmExpiry 2) (s held)).watch[2]).state = .hung ∧
    ((after (.confirmExpiry 2) (s id)).watch[2]).state = .lockedOut ∧
    (after (.confirmExpiry 2) (s (shadowing (outletWord 2 12) 1))).mail.verdictCycles = [⟨2, 1, 0⟩] := by decide +kernel
theorem test_verdict_cycle :
    let s (st : OutletState) := runningWith fun d => mailing (fun m => { m with verdictCycles := [⟨2, 10, 0⟩] }) (outletIn st id d)
    ((after .verdictCycle (s .on)).outlet[2]).state = .opening ∧
    (after .verdictCycle (s .off)).mail.toWatch = [.answer 2 false 0] := by decide +kernel

/-- Branch 1's head, outlet 3, has waited. -/
def waiting (uptime : Nat) (d : Device) : Device :=
  { d with
    charter := { d.charter with uptime := uptime }
    admission := { d.admission with
      queues := setAt d.admission.queues 0 [⟨2, 1⟩]
      tenures := setAt d.admission.tenures 0 (some ⟨0, false, some .slot⟩) } }

theorem test_meets_CharterTimingWrites :
    let s := runningWith fun d => waiting 11 (nearQuorum d)
    (s.dev.StoresOk ∧ ∀ w ∈ [10, 12, 13], s.dev.Accepts (wr w 1) w) ∧
    (s.dev.admission.queues[0] ≠ [] ∧ s.dev.admission.tenures[0] = some ⟨0, false, some .slot⟩ ∧ 10 < s.dev.charter.uptime) ∧
    s.dev.QuorumAt 2 ∧ ¬(runningWith id).dev.QuorumAt 2 := by
  refine ⟨⟨(stores_iff _).1 (by decide +kernel), by simp only [← accepts_iff]; decide +kernel⟩, by decide +kernel,
    ⟨by decide +kernel, by decide +kernel, by decide +kernel⟩, no_quorum _ _ (by decide +kernel)⟩
theorem test_admission_wait :
    (after (.admissionWait 0) (runningWith (waiting 11))).mail.reports =
      [⟨.admissionWait, .outlet 2, 3, 11⟩] ∧
    (after (.admissionWait 0) (runningWith (waiting 10))).mail.reports = [] := by decide +kernel
theorem test_cycle_window_write :
    ((after (.cycleWindowWrite (wr 10 1)) (runningWith fun d => waiting 100
      (watchIn .watching (fun w => { w with recent := [40, 41] }) d))).watch[2]).recent = [41] := by decide +kernel
theorem test_quorum_write :
    let s := runningWith fun d => watchIn .suspect (fun w => { w with policy := .heartbeat, condH := true }) (nearQuorum d)
    (after (.heartbeatQuorumWrite (wr 12 1)) s).suspendedSince = some 0 ∧
    (after (.heartbeatQuorumWrite (wr 12 3)) s).suspendedSince = none := by decide +kernel
theorem test_wait_limit_write :
    (after (.admissionWaitLimitWrite (wr 13 20)) (runningWith (waiting 20))).mail.reports = [] ∧
    (after (.admissionWaitLimitWrite (wr 13 20)) (runningWith (waiting 21))).mail.reports.length = 1 := by decide +kernel
theorem test_ageing :
    ((after (.recentCycleAgeing 2) (runningWith fun d => waiting 60
      (watchIn .watching (fun w => { w with recent := [0, 1] }) d))).watch[2]).recent = [1] := by decide +kernel

/-! ## Restart admission -/

/-- Branch 1 with outlet 3 at its head, Expected Inrush 10 A, and these hand-offs on their way. -/
def queueing (ms : List AdmissionMessage) (d : Device) : Device :=
  mailing (fun m => { m with toAdmission := ms }) (shadowing (outletWord 2 4) 100 (waiting 11 d))

/-- Branch 1's slot taken by outlet 5, with 5 A reserved. -/
def occupied (withdrawn : Bool) (d : Device) : Device :=
  { d with admission := { d.admission with
      slots := setAt d.admission.slots 0 (some ⟨4, 5000, withdrawn, 1⟩)
      reserved := ⟨setAt d.admission.reserved.phase 0 5000, setAt d.admission.reserved.branch 0 5000, 5000⟩ } }

theorem test_meets_LimitWriteEvaluatesHeads :
    (∀ s ∈ [runningWith id, runningWith (queueing []), runningWith fun d => occupied false (queueing [] d)],
      s.dev.Accepts (wr (levelBase (.branch 0)) 100) (levelBase (.branch 0))) ∧
    (∀ b : Branch, (runningWith id).dev.admission.queues[b] = []) ∧
    (runningWith (queueing [])).dev.admission.queues[0] = ⟨2, 1⟩ :: [] ∧
    (∀ b : Branch, b ≠ 0 → (runningWith (queueing [])).dev.admission.queues[b] = []) := by
  simp only [← accepts_iff]; decide +kernel
theorem test_limit_write_grants_at_the_limit :
    let a (limit : Nat) := after (.limitWrite (wr (levelBase (.branch 0)) limit))
      (runningWith fun d => shadowing (levelBase .inlet) 99 (queueing [] d))
    let b := after (.limitWrite (wr (levelBase .inlet) 100)) (runningWith (queueing []))
    ((a 100).admission.tenures[0].bind (·.reason) = some .inlet ∧ (a 100).mail.admissions = []) ∧
    b.mail.admissions = [2] ∧ b.admission.slots[0] = some ⟨2, 10000, false, 1⟩ ∧ b.admission.reserved.inlet = 10000 := by
  decide +kernel
theorem test_meets_JoinsAndRemovals :
    (∀ m ∈ [AdmissionMessage.join 2, .join 3, .join 4, .removal 2, .removal 4, .removal 3],
      ∀ withdrawn ∈ [true, false],
        let d := (runningWith fun d => occupied withdrawn (queueing [m] d)).dev
        d.mail.toAdmission = m :: [] ∧ d.admission.slots[0] = some ⟨4, 5000, withdrawn, 1⟩ ∧
        d.admission.queues[0] = [⟨2, 1⟩] ∧ Outlet.branch 3 = 0) := by decide +kernel
theorem test_join_and_removal_at_the_slot :
    let mark (w : Bool) (i : Instr) (m : AdmissionMessage) :=
      ((after i (runningWith fun d => occupied w (queueing [m] d))).admission.slots[0]).map (·.withdrawn)
    mark true .join (.join 4) = some false ∧ mark false .removal (.removal 4) = some true ∧
    mark true .removal (.removal 3) = some true := by decide +kernel
theorem test_removal_of_the_head :
    let d := after .removal (runningWith fun d => occupied false (queueing [.removal 2] d))
    d.admission.queues[0] = [] ∧ d.admission.tenures[0] = none := by decide +kernel
/-- A join ahead of the head, and the removal of a head with another behind it: a new tenure, blocked at the slot. -/
theorem test_new_heads_start_tenures :
    let d := after .join (runningWith fun d => occupied false (queueing [.join 3] d))
    let e := after .removal (runningWith fun d => occupied false (queueing [.removal 2] d))
    let f := after .removal ⟨mailing (fun m => { m with toAdmission := [.removal 3] }) d, []⟩
    d.admission.queues[0] = [⟨3, 0⟩, ⟨2, 1⟩] ∧ d.admission.tenures[0] = some ⟨11, false, some .slot⟩ ∧
    e.admission.tenures[0] = none ∧ f.admission.queues[0] = [⟨2, 1⟩] ∧
    f.admission.tenures[0] = some ⟨11, false, some .slot⟩ := by decide +kernel
/-- The branch group at a join that waits, at one that is granted at once, at a removal, at a release that admits the head, and
at a release under HOLD: one publication for each change, its Sequence one higher each time (R173; log 14). -/
theorem test_branch_group_published :
    let d (i : Instr) (f : Device → Device) (m : AdmissionMessage) := after i (runningWith fun d => f (queueing [m] d))
    let shown (d : Device) := ((d.engine.levels.get (.branch 0)).sequence,
      decide (d.pub.queue.map Entry.group? = [some (.level (.branch 0))]))
    shown (d .join (occupied false) (.join 3)) = (1, true) ∧ shown (d .join id (.join 3)) = (2, true) ∧
    shown (after .join (runningWith fun d => mailing (fun m => { m with toAdmission := [.join 3] }) d)) = (2, true) ∧
    shown (d .removal (occupied false) (.removal 2)) = (1, true) ∧
    shown (d .release (occupied false) (.release 4)) = (2, true) ∧
    shown (d .release (fun d => held (occupied false d)) (.release 4)) = (1, true) ∧
    shown (d .join id (.join 2)) = (0, false) := by decide +kernel
/-- A publication leaves the report entries and the other groups' entries in their places (R16). -/
theorem test_publication_frame :
    let others : List Entry := [.report 1 [] 2, .group (.status 7) []]
    let d := after .join (runningWith fun d => { occupied false (queueing [.join 3] d) with
      pub := { d.pub with queue := others, drained := 1 } })
    d.pub.queue = others ++ [.group (.level (.branch 0)) (d.groupWords (.level (.branch 0)))] ∧ d.pub.drained = 1 ∧
    d.pub.bracket = none := by decide +kernel
/-- A branch group in an open bracket is held (R20). -/
theorem test_branch_group_in_bracket :
    let d := after .join (runningWith fun d =>
      bracketed ⟨.level (.branch 0), none, 0⟩ (occupied false (queueing [.join 3] d)))
    d.pub.queue = [] ∧ d.pub.bracket = some ⟨.level (.branch 0), some (d.groupWords (.level (.branch 0))), 0⟩ := by
  decide +kernel
theorem test_meets_SlotFreed :
    ∀ m ∈ [AdmissionMessage.release 4, .handBack 4, .release 3, .handBack 3], ∀ withdrawn ∈ [true, false],
      let d := (runningWith fun d => occupied withdrawn (queueing [m] d)).dev
      d.mail.toAdmission = m :: [] ∧ d.admission.slots[0] = some ⟨4, 5000, withdrawn, 1⟩ := by decide +kernel
theorem test_release_and_hand_back :
    let d (i : Instr) (w : Bool) (m : AdmissionMessage) := after i (runningWith fun d => held (occupied w (queueing [m] d)))
    ((d .release false (.release 4)).admission.slots[0] = none ∧ (d .release false (.release 4)).admission.reserved.inlet = 0) ∧
    (d .handBack false (.handBack 4)).admission.queues[0] = [⟨4, 1⟩, ⟨2, 1⟩] ∧
    (d .handBack true (.handBack 4)).admission.queues[0] = [⟨2, 1⟩] := by decide +kernel
/-- With HOLD released: a release admits the head; a returned outlet heads its queue with a new tenure, and is admitted. -/
theorem test_freed_slot_evaluates_heads :
    let d (i : Instr) (f : Device → Device) (m : AdmissionMessage) := after i (runningWith fun d => f (occupied false (queueing [m] d)))
    (d .release id (.release 4)).mail.admissions = [2] ∧ (d .handBack id (.handBack 4)).mail.admissions = [4] ∧
    (d .handBack held (.handBack 4)).admission.tenures[0] = some ⟨11, false, some .hold⟩ ∧
    (d .release held (.release 4)).admission.tenures[0] = some ⟨0, false, some .hold⟩ := by decide +kernel

/-- A close's loads on their way to the Admission Unit, for branch 1 with a Limit of 160. -/
def loading (load limit : Nat) (was : Bool) (d : Device) : Device :=
  let d := mailing (fun m => { m with loads :=
    [⟨PerLevel.ofFn fun l => if l = .branch 0 then load else 0, PerLevel.ofFn fun l => if l = .branch 0 then limit else 0⟩] }) d
  { d with admission := { d.admission with overLimit := d.admission.overLimit.set (.branch 0) was } }

theorem test_meets_LevelLoadsDecideOverLimit :
    (runningWith (loading 16001 160 false)).dev.mail.loads.length = 1 ∧
    (16001 > 160 * 100 ∧ ¬16000 > 160 * 100) ∧ (15200 * 20 ≤ 160 * 100 * 19 ∧ ¬15201 * 20 ≤ 160 * 100 * 19) := by
  decide +kernel
theorem test_level_loads :
    let d (load limit : Nat) (was : Bool) := after .levelLoadsHandoff (runningWith (loading load limit was))
    ((d 16001 160 false).admission.overLimit.get (.branch 0) = true ∧
      (d 16001 160 false).mail.reports = [⟨.limitOver, .level (.branch 0), 160, 160⟩]) ∧
    (d 16000 160 false).mail.reports = [] ∧ (d 15201 160 true).mail.reports = [] ∧
    (d 15200 160 true).mail.reports = [⟨.limitClear, .level (.branch 0), 152, 160⟩] ∧
    (d 500 0 true).admission.overLimit.get (.branch 0) = false := by decide +kernel
theorem test_level_loads_evaluate_heads :
    (after .levelLoadsHandoff (runningWith fun d => loading 0 0 false (waiting 5 d))).mail.admissions = [2] ∧
    (after .levelLoadsHandoff (runningWith fun d => loading 0 0 false (held (waiting 5 d)))).admission.tenures[0] =
      some ⟨0, false, some .hold⟩ := by decide +kernel

/-! ## Reports and the whole -/

/-- The Report Writer with a report handed to it. -/
def reporting (head tail : BitVec 6) (lost : Nat) (d : Device) : Device :=
  mailing (fun m => { m with reports := [⟨.hbSuspend, .strip, 2, 2⟩] }) { d with reports := ⟨head, tail, lost⟩ }

theorem test_meets_RingTakesReportsAndTail :
    (runningWith (reporting 5 6 0)).dev.mail.reports = ⟨.hbSuspend, .strip, 2, 2⟩ :: [] ∧
    (5 : BitVec 6) + 1 = 6 ∧ (63 : BitVec 6) + 1 = 0 ∧ (5 : BitVec 6) + 1 ≠ 5 ∧
    (runningWith id).dev.Accepts (wr tailOffset 70) tailOffset := by
  refine ⟨by decide +kernel, by decide, by decide, by decide, (accepts_iff _ _ _).1 (by decide +kernel)⟩
theorem test_report_write :
    let d (head tail : BitVec 6) (lost : Nat) := after .reportWrite (runningWith (reporting head tail lost))
    ((d 63 5 0).reports = ⟨0, 5, 0⟩ ∧ (d 63 5 0).pub.queue.length = 1 ∧ (d 63 5 0).attn = true) ∧
    (d 5 6 65534).reports = ⟨5, 6, 65535⟩ ∧ (d 5 6 65535).reports = ⟨5, 6, 65535⟩ := by decide +kernel
/-- R178: a Tail of 70 reads back as 70 and is taken as 6. -/
theorem test_tail_write :
    let d := after (.tailWrite (wr tailOffset 70)) (runningWith id)
    d.reports.tail = 6 ∧ d.readValue (BitVec.ofNat 16 tailOffset) = 70 ∧ d.shadow tailOffset = 70 := by decide +kernel
theorem test_attention_line :
    (runningWith (reporting 5 5 0)).dev.attn = false ∧ (after .reportWrite (runningWith (reporting 5 5 0))).attn = true ∧
    (after (.tailWrite (wr tailOffset 69)) (runningWith (reporting 5 4 0))).attn = false ∧
    (after (.tailWrite (wr tailOffset 70)) (runningWith (reporting 5 5 0))).attn = true := by decide +kernel
theorem test_meets_StepKeepsInvariant :
    ∃ s t : State, s.dev.Inv ∧ s.pending = [.holdAssert] ∧ step s = .next t := by
  refine ⟨⟨(runningWith closing).dev, [.holdAssert]⟩, _, ⟨(stores_iff _).1 (by decide +kernel), ⟨List.nodup_nil, by decide +kernel⟩,
    test_meets_CloseAddsEnergy, Admission.ok_afterReset _, ⟨by decide +kernel, ?_⟩, by decide +kernel, by decide +kernel,
    (linked_afterReset ⟨0, false, false, lines .opened⟩ [] 0).congr (fun _ => ⟨rfl, .inr rfl⟩) rfl rfl rfl rfl
      (fun _ => rfl)⟩, rfl, rfl⟩
  constructor <;> decide +kernel

/-- `AgreesWith` as a Bool. -/
def agreesB (state : OutletState) (standing : Option Standing) (ms : List AdmissionMessage) (admitted : Nat) : Bool :=
  let arrived := Standing.afterAll standing ms
  let claims := admitted + (if state = .closing ∨ state = .inrush then 1 else 0) + ms.countP AdmissionMessage.givesUp
  (match state with
    | .queued => decide (arrived = some .waiting ∨ arrived = some (.holding false) ∧ 0 < admitted)
    | .closing | .inrush => decide (arrived = some (.holding false) ∧ admitted = 0)
    | .unmanaged | .absent | .off | .on | .opening | .dwell | .fault =>
      decide (arrived = some .absent ∨ arrived = some (.holding true) ∧ 0 < admitted)) &&
  match standing with
  | some (.holding _) => decide (claims = 1)
  | some .absent | some .waiting | none => decide (claims = 0)

theorem agrees_of {state : OutletState} {standing : Option Standing} {ms : List AdmissionMessage} {admitted : Nat}
    (h : agreesB state standing ms admitted = true) : AgreesWith state standing ms admitted := by
  unfold agreesB at h
  rw [Bool.and_eq_true] at h
  refine ⟨?_, ?_⟩
  · cases state <;> simpa using h.1
  · have h2 := h.2
    rcases standing with _ | _ | _ | w <;> simpa using h2

/-- Outlet 3 in CLOSING holds branch 1's slot, and outlet 5 stands in the queue behind it. -/
def granted (d : Device) : Device :=
  let d := (operating .closing none none d).setOutlet 4 fun o => { o with state := .queued }
  { d with admission := { d.admission with
      queues := setAt d.admission.queues 0 [⟨4, 1⟩], slots := setAt d.admission.slots 0 (some ⟨2, 500, false, 1⟩)
      reserved := ⟨setAt d.admission.reserved.phase 0 500, setAt d.admission.reserved.branch 0 500, 500⟩
      tenures := setAt d.admission.tenures 0 (some ⟨0, false, some .slot⟩) } }

theorem test_meets_StepKeepsInvariant_consequences :
    let d := (runningWith granted).dev
    d.Inv ∧ d.closes 2 ∧ (d.outlet[2]).coil ≠ none ∧ d.handoffs 4 = [] ∧ 4 ∉ d.mail.admissions ∧
    (d.outlet[4]).state = .queued := by
  refine ⟨⟨(stores_iff _).1 (by decide +kernel), ⟨List.nodup_nil, by decide +kernel⟩, test_meets_CloseAddsEnergy, ?_,
    ⟨by decide +kernel, ?_⟩, by decide +kernel, by decide +kernel, ?_, ?_⟩, .inl (by decide +kernel), by decide +kernel,
    by decide +kernel, by decide +kernel, by decide +kernel⟩
  · have hq : ∀ b : Branch, ((runningWith granted).dev.admission.queues[b]).length ≤ 1 ∧
        (∀ e ∈ (runningWith granted).dev.admission.queues[b], e.rank ≤ 3 ∧ Outlet.branch e.outlet = b) := by decide +kernel
    have hs : ∀ b : Branch, ∀ s ∈ (runningWith granted).dev.admission.slots[b],
        Outlet.branch s.outlet = b ∧ 100 ∣ s.amount ∧ s.amount ≤ 32000 ∧ s.rank ≤ 3 := by decide +kernel
    refine ⟨fun b => ⟨?_, fun e he => ((hq b).2 e he).1, fun e he => ((hq b).2 e he).2⟩,
      fun b s h => ⟨(hs b s h).1, (hs b s h).2.1, (hs b s h).2.2.1, (hs b s h).2.2.2⟩,
      by decide +kernel, by decide +kernel, by decide +kernel⟩
    have := (hq b).1
    cases hb : (runningWith granted).dev.admission.queues[b] with
    | nil => exact .nil
    | cons e es =>
      rw [hb] at this
      cases es with
      | nil => exact List.pairwise_singleton _ _
      | cons _ _ => simp at this
  · constructor <;> decide +kernel
  · have ha : ∀ n : Outlet, agreesB ((runningWith granted).dev.outlet[n]).state
        ((runningWith granted).dev.admission.standing n) ((runningWith granted).dev.handoffs n)
        ((runningWith granted).dev.mail.admissions.count n) = true := by decide +kernel
    have hc : ∀ n : Outlet, ∀ m ∈ ((runningWith granted).dev.outlet[n]).coil,
        ((runningWith granted).dev.outlet[n]).state = m.during := by decide +kernel
    exact fun n => ⟨agrees_of (ha n), hc n⟩
  · exact fun h => absurd h (by decide +kernel)

/-! ## Steps of the remaining commands -/

theorem test_step_takes_the_front :
    step ⟨State.reset.dev, [.holdAssert, .holdRelease]⟩ =
      .next ⟨{ State.reset.dev with pins := { State.reset.dev.pins with hold := true } }, [.holdRelease]⟩ := by rfl
theorem test_reset_samples_straps :
    let d := after (.reset 3 true) (runningWith held)
    d.pins.windowBase = 3 ∧ d.pins.hold = true ∧ d.charter.state = .unchartered ∧ d.sampler.scan.length = 48 := by
  decide +kernel
theorem test_byte_write_merges :
    let d := after (.processorWrite { wr 0x11 0x12FF with enables := ⟨true, false⟩ }) (runningWith (shadowing 0x11 0x0034))
    d.shadow 0x11 = 0x1234 ∧ d.readValue 0x11 = 0x1234 := by decide +kernel
theorem test_setting_taken :
    (after (.processorWrite (wr 2 65535)) (runningWith id)).charter.settings.intervalCycles = 60 := by decide +kernel
theorem test_protected_write_dropped :
    let d := after (.protectedWriteDropped (ordinary 2 7)) (runningWith (shadowing 0x0F 1))
    d.mail.reports = [⟨.protect, .strip, 2, 1⟩] ∧ d.ram = [] := by decide +kernel
theorem test_owned_write_dropped :
    (after (.ownedWriteDropped (wr 0xD00 7)) (runningWith id)).mail.reports = [⟨.protect, .window, 0xD00, 2⟩] := by
  decide +kernel
theorem test_access_waits_and_resumes :
    let s := runningWith (queued 128)
    (after (.processorWrite (wr 0x1000 5)) s).wait = true ∧
    (let d := after (.accessResume (lines .opened)) (runningWith fun d => queued 127 (holding (.write (wr 0x1000 5)) d));
      d.wait = false ∧ d.ram.readWord 0x1000 = 5) := by decide +kernel
theorem test_bracket_opens_and_closes :
    let read (w : Nat) : ReadAccess := ⟨BitVec.ofNat 16 (outletWord 2 w), false⟩
    let opened := after (.sequenceRead (read 50)) (runningWith id)
    opened.pub.bracket = some ⟨.meter 2, none, 0⟩ ∧
    (after (.lastWordRead (read 63)) ⟨opened, []⟩).pub.bracket = none := by decide +kernel
theorem test_drain_write :
    let d := after .drainWrite (runningWith fun d => { d with pub := { d.pub with queue := [.group (.level .inlet) [7, 8]] } })
    d.ram.readWord 0xD8 = 7 ∧ d.pub.drained = 1 := by decide +kernel
theorem test_run_checks_layout :
    (after (.run (wr 1 1)) (stateOf (shadowing 0 3))).charter.state = .sweeping ∧
    (after (.run (wr 1 1)) State.reset).charter.reject = .layout := by decide +kernel
theorem test_sweep_reads :
    ((after (.sweepRead (lines .opened)) (stateOf (sweeping 0x1F))).charter.sweepPosition = some 0x40) ∧
    (let d := after (.sweepRead (lines .closed)) (stateOf (sweeping tailOffset));
      d.charter.state = .running ∧ (d.outlet[2]).state = .on ∧ (d.outlet[47]).state = .absent) := by decide +kernel
theorem test_slots_take_turns :
    let d := after (.currentSlot 100 200) State.reset
    ((d.sampler.channels[0]).sumProd = 20000 ∧ d.sampler.due = some 1 ∧ d.now = 2) ∧
    (after (.referenceSlot 3 0) (stateOf (sampling fun s => { s with due := none }))).sampler.zeroSum = 3 := by
  decide +kernel
theorem test_line_loss_and_timed_close :
    let d := after .lineLoss (runningWith (sampling fun s => { s with locked := true, lastCrossing := some 200000 }))
    d.sampler.locked = false ∧ d.mail.closes.length = 1 ∧ d.mail.reports.length = 1 ∧
    (after .timedClose State.reset).sampler.intervalStart = 200000 := by decide +kernel
theorem test_uptime :
    (after .uptimeIncrease (runningWith (waiting 4294967294))).charter.uptime = 4294967295 ∧
    (after .uptimeIncrease (runningWith (waiting 4294967295))).charter.uptime = 4294967295 := by decide +kernel
theorem test_inrush_and_dwell_expiry :
    (let d := after (.inrushExpiry 2) (runningWith (outletIn .inrush fun o => { o with inrush := some 7 }));
      (d.outlet[2]).state = .on ∧ d.mail.toAdmission = [.release 2] ∧ d.now = 7) ∧
    ((after (.dwellExpiry 2) (runningWith (outletIn .dwell fun o => { o with dwell := some 7 }))).outlet[2]).state =
      .queued := by decide +kernel

end Sys2Proof.Tests
end

