-- ==== Sys2Proof/Proofs/Invariant.lean ====
section
/-! PROOFS. Every step keeps the invariant, and what the invariant gives (StepKeepsInvariant, InvariantAtReset). -/

namespace Sys2Proof.Machine
open Sys2Proof

/-! ## The invariant as properties that every operation keeps (R15, R23, R68, R144, R166, R177) -/

/-- The part of the invariant that speaks of no outlet context and of no hand-off. -/
structure Device.Tidy (d : Device) : Prop where
  ram : d.ram.wf
  shadow : d.path.shadow.wf
  queue : d.pub.Bounded
  energy : d.engine.EnergyOk
  admission : d.admission.Ok
  charter : d.charter.Ok
  recent : ∀ n : Outlet, (d.watch[n]).recent.length ≤ 7
  lost : d.reports.lost ≤ 65535

theorem Device.inv_iff {d : Device} : d.Inv ↔ d.Tidy ∧ d.AdmissionLinked :=
  ⟨fun h => ⟨⟨h.stores.ram, h.stores.shadow, h.queue, h.energy, h.admission, h.charter, h.recent, h.lost⟩, h.admission, h.linked⟩,
    fun ⟨t, l⟩ => ⟨⟨t.ram, t.shadow⟩, t.queue, t.energy, t.admission, t.charter, t.recent, t.lost, l.2⟩⟩

/-- Every change of one unit that keeps the unit's own clause keeps the others as they are. -/
theorem tidy_loose : Loose Device.Tidy where
  lines _ _ h := { h with }
  now _ _ h := { h with }
  outlet _ _ _ h := { h with }
  applyEcho _ _ h := { h with }
  suspended _ _ h := { h with }
  sampler _ _ h := { h with }
  handed _ _ _ _ h := { h with }
  free _ _ h := { h with }
  watch _ _ hw h := { h with recent := hw h.recent }
  charter _ _ hc _ _ h := { h with charter := hc h.charter }
  pub _ _ hp h := { h with queue := hp h.queue }
  engine _ _ he h := { h with energy := he h.energy }
  kept _ _ ha _ _ h := { h with admission := ha h.admission }
  reports _ _ hr h := { h with lost := hr h.lost }
  contexts _ _ h := { h with }
  mail _ _ h := { h with }
  admission _ _ ha h := { h with admission := ha h.admission }

theorem tidy_stable : Stable Device.Tidy where
  toInternal := tidy_loose.internal
  ram d a v h := { h with ram := Memory.wf_writeWord d.ram a v h.ram }
  shadow d off v h := { h with shadow := Store.wf_write d.path.shadow off v h.shadow }
  path _ _ hs h := { h with shadow := hs ▸ h.shadow }
  hold _ _ h := { h with }

/-! ## RESET -/

theorem CloseEngine.energyOk_afterReset : CloseEngine.afterReset.EnergyOk where
  outlets n := by
    simp only [CloseEngine.afterReset, Fin.getElem_fin, Vector.getElem_replicate]
    exact ⟨by decide, length_zeros 10, length_zeros 6, Nat.zero_le _⟩
  levels l := by
    cases l <;> simp only [CloseEngine.afterReset, PerLevel.get, Fin.getElem_fin, Vector.getElem_replicate] <;>
      exact ⟨length_zeros 12, Nat.zero_le _⟩

theorem Charter.ok_afterReset : Charter.afterReset.Ok where
  uptime := Nat.zero_le _
  settings := by constructor <;> decide

/-- The block after RESET meets the invariant, whatever straps it samples and whatever canonical RAM it finds. -/
theorem inv_afterReset (pins : Pins) (ram : Memory) (k : Nat) (hr : ram.wf) : (Device.afterReset pins ram k).Inv where
  stores := ⟨hr, List.Pairwise.nil, by simp [Device.afterReset, ThroughPath.afterReset]⟩
  queue := ⟨List.nodup_nil, Nat.zero_le _⟩
  energy := CloseEngine.energyOk_afterReset
  admission := Admission.ok_afterReset Admission.afterReset.loads
  charter := Charter.ok_afterReset
  recent n := by simp [Device.afterReset, WatchContext.afterReset]
  lost := Nat.zero_le _
  linked := linked_afterReset pins ram k

/-- A write that RESET ends leaves RAM canonical, landed or not (R185). -/
theorem Device.Tidy.ramAfterReset_wf {d : Device} (h : d.Tidy) : d.ramAfterReset.wf := by
  unfold Device.ramAfterReset
  split
  · split
    · exact (tidy_stable.performWrite d _ h).ram
    · exact h.ram
  all_goals exact h.ram

/-! ## Every command -/

theorem Device.Inv.command {d : Device} (h : d.Inv) (i : Instr) : (afterCommand i d).Inv := by
  by_cases hi : ∀ wb b, i ≠ .reset wb b
  · obtain ⟨htidy, hlinked⟩ := Device.inv_iff.1 h
    exact Device.inv_iff.2 ⟨tidy_stable.command i hi d htidy, admissionLinked_stable.command i hi d hlinked⟩
  · push Not at hi
    obtain ⟨wb, b, rfl⟩ := hi
    exact inv_afterReset _ _ _ (Device.inv_iff.1 h).1.ramAfterReset_wf

theorem step_keeps_inv {s t : State} (h : s.dev.Inv) (ht : step s = .next t) : t.dev.Inv := by
  unfold step at ht
  split at ht
  · cases ht
    exact h
  · rw [exec_eq] at ht
    cases ht
    exact h.command _

/-! ## What the invariant gives (R88, R153, R155, R163) -/

/-- An outlet in CLOSING or INRUSH has its branch's slot. -/
theorem Device.LinkedAt.slot_of_closes {d : Device} {n : Outlet} (h : d.LinkedAt n) (hc : d.closes n) :
    ∃ x, d.admission.slots[n.branch] = some x ∧ x.outlet = n := by
  have honce := h.agrees.once
  rw [if_pos (c := _ ∨ _) hc] at honce
  split at honce
  · rename_i hw
    obtain ⟨w, hw⟩ := hw
    obtain ⟨-, x, hx, hxn, -⟩ := Admission.standing_holding hw
    exact ⟨x, hx, hxn⟩
  · omega

theorem Device.Linked.closes_unique {d : Device} (h : d.Linked) {n m : Outlet} (hb : n.branch = m.branch)
    (hn : d.closes n) (hm : d.closes m) : n = m := by
  obtain ⟨x, hx, hxn⟩ := (h.outlets n).slot_of_closes hn
  obtain ⟨y, hy, hym⟩ := (h.outlets m).slot_of_closes hm
  rw [vector_get_congr _ hb, hy, Option.some.injEq] at hx
  rw [← hxn, ← hym, hx]

/-- No outlet stands twice in its queue. -/
theorem Device.LinkedAt.places_le_one {d : Device} {n : Outlet} (h : d.LinkedAt n) :
    places n d.admission.queues[n.branch] ≤ 1 := by
  obtain ⟨t, ht⟩ := h.agrees.stands
  cases t with
  | absent => exact (Admission.standing_absent ht).1.le.trans (Nat.zero_le _)
  | waiting => exact (Admission.standing_waiting ht).1.le
  | holding w => exact (Admission.standing_holding ht).1.le.trans (Nat.zero_le _)

theorem count_map_outlet (n : Outlet) (q : List QueueEntry) : (q.map (·.outlet)).count n = places n q := by
  rw [List.count, List.countP_map]
  rfl

theorem Device.Inv.queue_nodup {d : Device} (h : d.Inv) (b : Branch) :
    ((d.admission.queues[b]).map (·.outlet)).Nodup := by
  refine List.nodup_iff_count_le_one.2 fun n => ?_
  by_cases hb : n.branch = b
  · subst hb
    exact (count_map_outlet n _).le.trans (h.linked.outlets n).places_le_one
  · refine (List.count_eq_zero.2 fun hn => ?_).le.trans (Nat.zero_le _)
    obtain ⟨e, he, rfl⟩ := List.mem_map.1 hn
    exact hb ((h.admission.queues b).branch e he)

/-- A branch carries eight outlets. -/
theorem length_branch_outlets (b : Branch) : (outlets.filter fun n => decide (n.branch = b)).length = 8 := by
  revert b
  decide

theorem Device.Inv.queue_length {d : Device} (h : d.Inv) (b : Branch) : (d.admission.queues[b]).length ≤ 8 := by
  have hsub : (d.admission.queues[b]).map (·.outlet) ⊆ outlets.filter fun n => decide (n.branch = b) := by
    intro n hn
    obtain ⟨e, he, rfl⟩ := List.mem_map.1 hn
    exact List.mem_filter.2 ⟨List.mem_finRange _, decide_eq_true ((h.admission.queues b).branch e he)⟩
  calc (d.admission.queues[b]).length = ((d.admission.queues[b]).map (·.outlet)).length := (List.length_map _).symm
    _ ≤ _ := ((h.queue_nodup b).subperm hsub).length_le
    _ = 8 := length_branch_outlets b

/-- What the Admission Unit holds of an outlet in each state, once nothing about the outlet is on its way (R155). -/
def OutletState.settledStanding : OutletState → Standing
  | .queued => .waiting
  | .closing | .inrush => .holding false
  | .unmanaged | .absent | .off | .on | .opening | .dwell | .fault => .absent

theorem OutletState.settledStanding_waiting (s : OutletState) : s.settledStanding = .waiting ↔ s = .queued := by
  cases s <;> simp [settledStanding]

theorem OutletState.settledStanding_holding (s : OutletState) :
    (∃ w, s.settledStanding = .holding w) ↔ s = .closing ∨ s = .inrush := by
  cases s <;> simp [settledStanding]

theorem Device.LinkedAt.standing_of_quiet {d : Device} {n : Outlet} (h : d.LinkedAt n) (hh : d.handoffs n = [])
    (ha : n ∉ d.mail.admissions) : d.admission.standing n = some (d.outlet[n]).state.settledStanding := by
  have harr := h.agrees.arrives
  rw [hh, List.count_eq_zero.2 ha] at harr
  generalize (d.outlet[n]).state = s at harr ⊢
  cases s <;> simpa [Standing.afterAll, OutletState.settledStanding] using harr

theorem Admission.mem_queue_iff (a : Admission) (n : Outlet) :
    (∃ e ∈ a.queues[n.branch], e.outlet = n) ↔ 0 < places n a.queues[n.branch] := by
  simp [places, List.countP_pos_iff]

/-- What a standing says of queue and slot. -/
theorem Admission.standing_places {a : Admission} {n : Outlet} {t : Standing} (h : a.standing n = some t) :
    (t = .waiting ↔ ∃ e ∈ a.queues[n.branch], e.outlet = n) ∧
    ((∃ w, t = .holding w) ↔ ∃ x, a.slots[n.branch] = some x ∧ x.outlet = n) := by
  have hslot : (a.slots[n.branch]).filter (fun s => decide (s.outlet = n)) = none →
      ¬∃ x, a.slots[n.branch] = some x ∧ x.outlet = n := by
    rintro hf ⟨x, hx, hxn⟩
    rw [hx] at hf
    simp [hxn] at hf
  rw [a.mem_queue_iff n]
  cases t with
  | absent =>
    obtain ⟨hq, hs⟩ := Admission.standing_absent h
    rw [hq, iff_false_right (hslot hs)]
    simp
  | waiting =>
    obtain ⟨hq, hs⟩ := Admission.standing_waiting h
    rw [hq, iff_false_right (hslot hs)]
    simp
  | holding w =>
    obtain ⟨hq, x, hx, hxn, -⟩ := Admission.standing_holding h
    rw [hq]
    exact ⟨by simp, fun _ => ⟨x, hx, hxn⟩, fun _ => ⟨w, rfl⟩⟩

theorem Device.LinkedAt.places_of_quiet {d : Device} {n : Outlet} (h : d.LinkedAt n) (hh : d.handoffs n = [])
    (ha : n ∉ d.mail.admissions) :
    ((d.outlet[n]).state = .queued ↔ ∃ e ∈ d.admission.queues[n.branch], e.outlet = n) ∧
    (d.closes n ↔ ∃ x, d.admission.slots[n.branch] = some x ∧ x.outlet = n) := by
  obtain ⟨hqueue, hslot⟩ := Admission.standing_places (h.standing_of_quiet hh ha)
  exact ⟨(OutletState.settledStanding_waiting _).symm.trans hqueue,
    (OutletState.settledStanding_holding _).symm.trans hslot⟩

/-- A driven coil is driven in CLOSING or OPENING (R88). -/
theorem Device.LinkedAt.coil_state {d : Device} {n : Outlet} (h : d.LinkedAt n) (hc : (d.outlet[n]).coil ≠ none) :
    (d.outlet[n]).state = .closing ∨ (d.outlet[n]).state = .opening := by
  obtain ⟨m, hm⟩ := Option.ne_none_iff_exists'.1 hc
  have hs := h.coil m hm
  cases m with
  | closing => exact .inl hs
  | opening => exact .inr hs

/-- Settles O60: the clauses that speak of one unit each are `Stable`, the agreement of Outlet Controller and Admission
Unit is (`admissionLinked_stable`), and RESET starts both afresh. -/
theorem stepKeepsInvariant : Obligations.StepKeepsInvariant :=
  ⟨fun _ _ h ht => step_keeps_inv h ht, fun _ h =>
    ⟨fun _ _ hb hn hm => h.linked.closes_unique hb hn hm,
      fun b => ⟨h.queue_length b, h.queue_nodup b, (h.admission.queues b).branch⟩,
      fun n hh ha => (h.linked.outlets n).places_of_quiet hh ha,
      fun n hc => (h.linked.outlets n).coil_state hc⟩⟩

/-- Settles O59. -/
theorem invariantAtReset : Obligations.InvariantAtReset :=
  inv_afterReset _ [] 0 ⟨List.Pairwise.nil, by simp⟩

end Sys2Proof.Machine
end

