-- ==== Sys2Proof/Proofs/Writes.lean ====
section
/-! PROOFS. Stores, the window map, and the writes that the part passes, stores or drops (R1 to R13). -/

namespace Sys2Proof.Machine
open Sys2Proof

/-! ## Stores (R4, log 6) -/

/-- A stored word leaves every byte outside it. -/
theorem Memory.readByte_writeWord_other (m : Memory) (a byte : Nat) (v : Word) (hm : m.wf) (hlow : byte ≠ 2 * a)
    (hhigh : byte ≠ 2 * a + 1) : (m.writeWord a v).readByte byte = m.readByte byte :=
  (Store.read_write_other (w := 8) _ _ _ _ hhigh.symm (Store.wf_write (w := 8) m _ _ hm)).trans
    (Store.read_write_other (w := 8) _ _ _ _ hlow.symm hm)

/-- Settles O6. -/
theorem wordStoreChangesTwoBytes : Obligations.WordStoreChangesTwoBytes := fun m a v hm =>
  ⟨Memory.readWord_writeWord_same m a v hm, fun byte => Memory.readByte_writeWord_other m a byte v hm,
    Memory.wf_writeWord m a v hm⟩

/-! ## The window map (R1) -/

/-- The place of an offset that no field of the layout holds. -/
theorem place_gap (off : Nat) (h : 0xE0 ≤ off ∧ off < 0x100 ∨ 0xD03 ≤ off ∧ off < 0xD08 ∨ 0xF08 ≤ off) :
    place off = .unclassified := by
  unfold place
  rw [if_neg (show ¬off < 0x40 by omega), if_neg (show ¬off < 0x70 by omega), if_neg (show ¬off < 0xD0 by omega),
    if_neg (show ¬off < 0xE0 by omega)]
  by_cases h1 : off < 0x100
  · rw [if_pos h1]
  · rw [if_neg h1, if_neg (show ¬off < 0xD00 by omega), if_neg (show off ≠ 0xD00 by omega),
      if_neg (show off ≠ 0xD01 by omega), if_neg (show off ≠ 0xD02 by omega)]
    by_cases h2 : off < 0xD08
    · rw [if_pos h2]
    · rw [if_neg h2, if_neg (show ¬off < 0xF08 by omega)]

/-- The place of word w of a slot of the ring. -/
theorem place_slot (s : BitVec 6) (w : Nat) (hw : w < 8) : place (slotBase s + w) = .slot s w := by
  have hs := s.isLt
  obtain ⟨x, hx⟩ : ∃ x, x = slotBase s + w := ⟨_, rfl⟩
  rw [← hx]
  unfold slotBase at hx
  unfold place
  rw [if_neg (show ¬x < 0x40 by omega), if_neg (show ¬x < 0x70 by omega), if_neg (show ¬x < 0xD0 by omega),
    if_neg (show ¬x < 0xE0 by omega), if_neg (show ¬x < 0x100 by omega), if_neg (show ¬x < 0xD00 by omega),
    if_neg (show x ≠ 0xD00 by omega), if_neg (show x ≠ 0xD01 by omega), if_neg (show x ≠ 0xD02 by omega),
    if_neg (show ¬x < 0xD08 by omega), if_pos (show x < 0xF08 by omega)]
  have hslot : BitVec.ofNat 6 ((x - 0xD08) / 8) = s := by
    apply BitVec.eq_of_toNat_eq
    rw [BitVec.toNat_ofNat]
    omega
  rw [hslot, show (x - 0xD08) % 8 = w by omega]

/-- Where an offset can lie, and the offset of each place (10, "Window map"). -/
theorem place_cases (off : Nat) :
    (off < 0x40 ∧ place off = .charter off) ∨
    (∃ l w, w < 16 ∧ off = levelBase l + w ∧ place off = .level l w) ∨
    (∃ n w, w < 64 ∧ off = outletWord n w ∧ place off = .outlet n w) ∨
    (off = 0xD00 ∧ place off = .head) ∨ (off = 0xD01 ∧ place off = .tail) ∨ (off = 0xD02 ∧ place off = .lostCount) ∨
    (∃ s w, w < 8 ∧ off = slotBase s + w ∧ place off = .slot s w) ∨
    ((0xE0 ≤ off ∧ off < 0x100 ∨ 0xD03 ≤ off ∧ off < 0xD08 ∨ 0xF08 ≤ off) ∧ place off = .unclassified) := by
  have level (l : Level) (w : Nat) (hw : w < 16) (ho : off = levelBase l + w) :
      ∃ l w, w < 16 ∧ off = levelBase l + w ∧ place off = .level l w := ⟨l, w, hw, ho, ho ▸ place_level l w hw⟩
  by_cases hcharter : off < 0x40
  · exact .inl ⟨hcharter, place_charter off hcharter⟩
  by_cases hphase : off < 0x70
  · exact .inr (.inl (level (.phase ⟨(off - 0x40) / 16, by omega⟩) (off % 16) (by omega)
      (by simp only [levelBase]; omega)))
  by_cases hbranch : off < 0xD0
  · exact .inr (.inl (level (.branch ⟨(off - 0x70) / 16, by omega⟩) (off % 16) (by omega)
      (by simp only [levelBase]; omega)))
  by_cases hinlet : off < 0xE0
  · exact .inr (.inl (level .inlet (off % 16) (by omega) (by simp only [levelBase]; omega)))
  by_cases houtlet : 0x100 ≤ off ∧ off < 0xD00
  · have ho : off = outletWord ⟨(off - 0x100) / 64, by omega⟩ (off % 64) := by simp only [outletWord]; omega
    exact .inr (.inr (.inl ⟨⟨(off - 0x100) / 64, by omega⟩, off % 64, by omega, ho,
      (congrArg place ho).trans (place_outletWord _ _ (by omega))⟩))
  by_cases hhead : off = 0xD00
  · exact .inr (.inr (.inr (.inl ⟨hhead, hhead ▸ rfl⟩)))
  by_cases htail : off = 0xD01
  · exact .inr (.inr (.inr (.inr (.inl ⟨htail, htail ▸ rfl⟩))))
  by_cases hlost : off = 0xD02
  · exact .inr (.inr (.inr (.inr (.inr (.inl ⟨hlost, hlost ▸ rfl⟩)))))
  by_cases hslot : 0xD08 ≤ off ∧ off < 0xF08
  · have ho : off = slotBase (BitVec.ofNat 6 ((off - 0xD08) / 8)) + (off - 0xD08) % 8 := by
      simp only [slotBase, BitVec.toNat_ofNat]
      omega
    exact .inr (.inr (.inr (.inr (.inr (.inr (.inl ⟨_, _, by omega, ho,
      (congrArg place ho).trans (place_slot _ _ (by omega))⟩))))))
  have hgap : 0xE0 ≤ off ∧ off < 0x100 ∨ 0xD03 ≤ off ∧ off < 0xD08 ∨ 0xF08 ≤ off := by omega
  exact .inr (.inr (.inr (.inr (.inr (.inr (.inr ⟨hgap, place_gap off hgap⟩))))))

/-- Only the word of that number lies at a word of the charter's record. -/
theorem place_eq_charter {off w : Nat} (h : place off = .charter w) : off = w := by
  obtain ⟨-, hp⟩ | ⟨_, _, _, _, hp⟩ | ⟨_, _, _, _, hp⟩ | ⟨_, hp⟩ | ⟨_, hp⟩ | ⟨_, hp⟩ | ⟨_, _, _, _, hp⟩ | ⟨_, hp⟩ :=
    place_cases off
  all_goals
    rw [hp] at h
    cases h
  rfl

/-- Only that offset lies at a word of a level's record. -/
theorem place_eq_level {off w : Nat} {l : Level} (h : place off = .level l w) : off = levelBase l + w := by
  obtain ⟨_, hp⟩ | ⟨_, _, _, ho, hp⟩ | ⟨_, _, _, _, hp⟩ | ⟨_, hp⟩ | ⟨_, hp⟩ | ⟨_, hp⟩ | ⟨_, _, _, _, hp⟩ | ⟨_, hp⟩ :=
    place_cases off
  all_goals
    rw [hp] at h
    cases h
  exact ho

/-- Only that offset lies at a word of an outlet's record. -/
theorem place_eq_outlet {off w : Nat} {n : Outlet} (h : place off = .outlet n w) : off = outletWord n w ∧ w < 64 := by
  obtain ⟨_, hp⟩ | ⟨_, _, _, _, hp⟩ | ⟨_, _, hw, ho, hp⟩ | ⟨_, hp⟩ | ⟨_, hp⟩ | ⟨_, hp⟩ | ⟨_, _, _, _, hp⟩ | ⟨_, hp⟩ :=
    place_cases off
  all_goals
    rw [hp] at h
    cases h
  exact ⟨ho, hw⟩

/-- A level's record lies in its part of the window, on a boundary of 16 words. -/
theorem levelBase_range (l : Level) : 0x40 ≤ levelBase l ∧ levelBase l < 0xE0 ∧ levelBase l % 16 = 0 := by
  cases l with
  | phase p => have := p.isLt; simp only [levelBase]; omega
  | branch b => have := b.isLt; simp only [levelBase]; omega
  | inlet => decide

/-- Settles O7, place by place. -/
theorem ownershipMap : Obligations.OwnershipMap := by
  intro off _
  obtain ⟨ho, hp⟩ | ⟨l, w, hw, ho, hp⟩ | ⟨n, w, hw, ho, hp⟩ | ⟨ho, hp⟩ | ⟨ho, hp⟩ | ⟨ho, hp⟩ | ⟨s, w, hw, ho, hp⟩ |
    ⟨ho, hp⟩ := place_cases off
  · by_cases h : off < 32 <;> simp [hp, Place.kind, h] <;> omega
  · have := levelBase_range l
    by_cases h : w < 8 <;> simp [hp, Place.kind, h] <;> omega
  · unfold outletWord at ho
    by_cases h : w < 32 <;> simp [hp, Place.kind, h] <;> omega
  · rw [hp]
    simp [Place.kind, ho]
  · rw [hp]
    simp [Place.kind, ho]
  · rw [hp]
    simp [Place.kind, ho]
  · have := s.isLt
    unfold slotBase at ho
    simp [hp, Place.kind]
    omega
  · simp [hp, Place.kind]
    omega

/-- The words that hold locks (R6). -/
theorem isLockWord_place (off : Nat) : Device.isLockWord (place off) = true ↔
    off = 0x0F ∨ (∃ b : Branch, off = 0x71 + 16 * b.val) ∨ ∃ n : Outlet, off = outletWord n 2 := by
  constructor
  · intro h
    cases hp : place off with
    | charter w =>
      rw [hp] at h
      exact .inl ((place_eq_charter hp).trans (of_decide_eq_true h))
    | level l w =>
      rw [hp] at h
      cases l with
      | branch b =>
        refine .inr (.inl ⟨b, (place_eq_level hp).trans ?_⟩)
        rw [of_decide_eq_true h]
        simp only [levelBase]
        omega
      | _ => cases h
    | outlet n w =>
      rw [hp] at h
      exact .inr (.inr ⟨n, of_decide_eq_true h ▸ (place_eq_outlet hp).1⟩)
    | _ => rw [hp] at h; cases h
  · rintro (rfl | ⟨b, rfl⟩ | ⟨n, rfl⟩)
    · rfl
    · rw [show 0x71 + 16 * b.val = levelBase (.branch b) + 1 by simp only [levelBase]; omega,
        place_level _ 1 (by decide)]
      rfl
    · rw [place_outletWord n 2 (by decide)]
      rfl

/-! ## Writes that pass (R2, R3, R13) -/

theorem Device.BusFree.exec_write {s : State} (h : s.dev.BusFree) (a : WriteAccess) :
    exec (.processorWrite a) s = .next { s with dev := s.dev.performWrite a } := by
  rw [← h.start_write]
  rfl

theorem Device.takeCommand_other (d : Device) {v : Word} (hrun : v ≠ 1) (hhalt : v ≠ 2) : d.takeCommand v = d := by
  unfold Device.takeCommand
  rw [if_neg hrun, if_neg hhalt]

/-- With enforcement off the part recognises RUN and HALT alone (R13). -/
theorem Device.recognise_unenforced {d : Device} (he : d.enforcing = false) (p : Place) (old v : Word)
    (hv : p = .charter 1 → v ≠ 1 ∧ v ≠ 2) : d.recognise p old v = d := by
  have hcommand : (if p = .charter 1 then d.takeCommand v else d) = d := by
    split
    · rename_i hp
      exact d.takeCommand_other (hv hp).1 (hv hp).2
    · rfl
  unfold Device.enforcing at he
  unfold Device.recognise
  cases hs : d.charter.state <;> rw [hs] at he <;> first | exact hcommand | cases he

theorem Device.performWrite_plain (d : Device) (a : WriteAccess)
    (h : windowOffset d.pins.windowBase a.addr = none ∨
      ∃ off, windowOffset d.pins.windowBase a.addr = some off ∧ (place off).kind = .unclassified) :
    d.performWrite a = d.plainWrite a := by
  unfold Device.performWrite
  rcases h with hout | ⟨off, hoff, hk⟩
  · rw [hout]
  · rw [hoff]
    simp only [Device.enforcedWrite, Device.unenforcedWrite, hk]
    split <;> rfl

theorem Device.performWrite_unenforced (d : Device) (a : WriteAccess) (off : Nat) (he : d.enforcing = false)
    (hoff : windowOffset d.pins.windowBase a.addr = some off) (hv : off = 1 → d.ramMerged a ≠ 1 ∧ d.ramMerged a ≠ 2) :
    d.performWrite a =
      if (place off).kind = .processorOwned then (d.plainWrite a).writeShadow off (d.ramMerged a) else d.plainWrite a := by
  have hsame : ((d.plainWrite a).writeShadow off (d.ramMerged a)).enforcing = false := he
  unfold Device.performWrite
  rw [hoff]
  simp only [he, Bool.false_eq_true, if_false, Device.unenforcedWrite]
  rw [Device.recognise_unenforced hsame _ _ _ fun hp => hv (place_eq_charter hp)]

/-- Settles O8. -/
theorem plainWritePasses : Obligations.PlainWritePasses := by
  intro s a hfree
  refine ⟨fun hplain => ?_, fun off he hoff hv => ?_⟩
  · rw [hfree.exec_write, Device.performWrite_plain _ _ hplain]
    rfl
  · rw [hfree.exec_write, Device.performWrite_unenforced _ _ _ he hoff hv]
    split <;> rfl

/-! ## Accepted writes that no block acts on (R4, R11, R24) -/

/-- A charter word that carries no setting changes none. -/
theorem Device.takeSettingWord_other (d : Device) (w : Nat) (hw : w = 0 ∨ 17 ≤ w) : d.takeSettingWord w = d := by
  have hs : d.takeSetting w d.charter.settings = d.charter.settings := by
    unfold Device.takeSetting
    dsimp only
    split <;> first | rfl | omega
  unfold Device.takeSettingWord
  rw [hs]

theorem Device.takeCharterWord_other (d : Device) (w : Nat) (v : Word) (hw : w = 0 ∨ 17 ≤ w ∨ w = 1 ∧ v ≠ 1 ∧ v ≠ 2) :
    d.takeCharterWord w v = d := by
  unfold Device.takeCharterWord
  by_cases h1 : w = 1 ∧ v ≠ 1 ∧ v ≠ 2
  · obtain ⟨rfl, hrun, hhalt⟩ := h1
    rw [if_pos rfl, d.takeCommand_other hrun hhalt]
  · have hw' : w = 0 ∨ 17 ≤ w := by tauto
    rw [if_neg (show w ≠ 1 by omega), if_neg (show w ≠ applyTagOffset by unfold applyTagOffset; omega), d.takeSettingWord_other w hw']
    simp only [if_neg (show w ≠ 10 by omega), if_neg (show w ≠ 12 by omega), if_neg (show w ≠ 13 by omega)]

theorem Device.recogniseRequest_old (d : Device) (n : Outlet) (v : Word)
    (h : requestTag v = 0 ∨ requestTag v = d.path.lastTag[n]) : d.recogniseRequest n v = d := by
  unfold Device.recogniseRequest
  rw [if_neg]
  rcases h with h | h <;> simp [Device.newTag, h]

theorem Device.takeOutletWord_other (d : Device) (n : Outlet) (w : Nat) (old v : Word)
    (hw : w ∉ [0, 1, 6, 9, 10, 11, 14, 16] ∨ w = 16 ∧ (requestTag v = 0 ∨ requestTag v = d.path.lastTag[n])) :
    d.takeOutletWord n w old v = d := by
  unfold Device.takeOutletWord
  rcases hw with hw | ⟨rfl, ht⟩
  · simp only [List.mem_cons, List.not_mem_nil, or_false, not_or] at hw
    obtain ⟨h0, h1, h6, h9, h10, h11, h14, h16⟩ := hw
    simp only [h0, h1, h6, h9, h10, h11, heartbeatWord, requestWord, h14, h16, or_self, if_false]
  · exact d.recogniseRequest_old n v ht

/-- During SWEEPING the part keeps a Heartbeat, a Request with a tag, the Apply Tag and the Tail; nothing else that is
accepted acts (R9, R28). -/
theorem Device.recogniseSweeping_other {d : Device} (hs : d.charter.state = .sweeping) (p : Place) (v : Word)
    (hp : match p with
      | .charter w => w ≠ 0x10
      | .level _ _ => True
      | .outlet _ w => w ≠ 14 ∧ (w = 16 → requestTag v = 0)
      | .head | .tail | .lostCount | .slot _ _ | .unclassified => False) : d.recogniseSweeping p v = d := by
  have hcommand : d.takeCommand v = d := by
    unfold Device.takeCommand Device.takeRun Device.takeHalt
    rw [hs]
    simp only [ite_self]
  cases p with
  | charter w =>
    have hw : w ≠ applyTagOffset := hp
    simp only [Device.recogniseSweeping, hw, hcommand, if_false, ite_self]
  | level l w => rfl
  | outlet n w =>
    obtain ⟨hheart, htag⟩ := hp
    have hrequest : ¬(w = requestWord ∧ requestTag v ≠ 0) := fun ⟨hw, ht⟩ => ht (htag hw)
    simp only [Device.recogniseSweeping, heartbeatWord, if_neg hheart, if_neg hrequest]
  | _ => cases hp

theorem Device.storeOwned_charter (d : Device) (p : Place) (off : Nat) (a : WriteAccess) (v : Word) :
    (d.storeOwned p off a v).charter = d.charter := by
  unfold Device.storeOwned Device.noteLock
  split <;> rfl

/-- An accepted write during SWEEPING (R4, R9). -/
theorem Device.performWrite_sweeping {d : Device} {a : WriteAccess} {off : Nat} (hs : d.charter.state = .sweeping)
    (hoff : windowOffset d.pins.windowBase a.addr = some off) (hk : (place off).kind = .processorOwned)
    (ha : d.protectedAt (place off) = false ∨ a.privileged = true) :
    d.performWrite a = (d.storeOwned (place off) off a (d.ownedMerged off a)).recogniseSweeping (place off)
      (d.ownedMerged off a) := by
  unfold Device.performWrite
  rw [hoff]
  simp only [enforcing_of_state (.inl hs), if_true, Device.enforcedWrite, hk]
  rw [if_neg (by rcases ha with ha | ha <;> simp [ha])]
  unfold Device.acceptWrite Device.recognise
  rw [Device.storeOwned_charter, hs]

/-- Settles O9: the block stores the word, and none of its readers acts on it. -/
theorem acceptedWriteStores : Obligations.AcceptedWriteStores := by
  constructor
  · intro s a off hacc v hp
    have hnone : (s.dev.stored off a).recogniseInService (place off) (s.dev.shadow off) v = s.dev.stored off a := by
      unfold Device.recogniseInService
      generalize place off = p at hp
      cases p with
      | charter w => exact Device.takeCharterWord_other _ w v hp
      | level l w => exact if_neg hp
      | outlet n w => exact Device.takeOutletWord_other _ n w _ v hp
      | _ => cases hp
    rw [hacc.toBusFree.exec_write, ← hacc.toBusFree.start_write, hacc.present, hnone]
  · intro s a off hfree hs hoff hk ha v lock stores hp
    have hdone : exec (.processorWrite a) s = .next { s with dev := s.dev.storeOwned (place off) off a v } := by
      have hv : s.dev.ownedMerged off a = v := by
        simp only [v, Device.ownedMerged, Device.ramMerged]
        split <;> rfl
      rw [hfree.exec_write, Device.performWrite_sweeping hs hoff hk ha, hv,
        Device.recogniseSweeping_other ((Device.storeOwned_charter ..).symm ▸ hs) (place off) _ hp]
    have hlock : lock ↔ Device.isLockWord (place off) = true := (isLockWord_place off).symm
    rw [hdone]
    unfold Device.storeOwned Device.noteLock
    refine ⟨fun hl => ?_, fun hl => ?_⟩
    · rw [if_neg fun h => hl (hlock.2 h.2)]
      rfl
    · rw [if_pos ⟨hs, hlock.1 hl⟩]
      rfl

end Sys2Proof.Machine
end

