-- ==== Sys2Proof/Proofs/DroppedWrites.lean ====
section
/-! PROOFS. Writes that locks and ownership drop (R6 to R8), and accesses at the arbiter (R18, R21, R186). -/

namespace Sys2Proof.Machine
open Sys2Proof

/-! ## Locks (R6) -/

theorem Device.protectedAt_unenforced {d : Device} (he : d.enforcing = false) (p : Place) : d.protectedAt p = false := by
  simp [Device.protectedAt, he]

theorem Device.protectedAt_enforcing {d : Device} (he : d.enforcing = true) (p : Place) :
    d.protectedAt p = d.covered p := by simp [Device.protectedAt, he]

theorem Device.stripLock_iff (d : Device) : d.stripLock = true ↔ d.LockedBy 0x0F := d.lockOn_iff 0x0F

theorem Device.branchLock_iff (d : Device) (b : Branch) : d.branchLock b = true ↔ d.LockedBy (0x71 + 16 * b.val) := by
  rw [show 0x71 + 16 * b.val = levelBase (.branch b) + 1 by simp only [levelBase]; omega]
  exact d.lockOn_iff _

theorem Device.outletLock_iff (d : Device) (n : Outlet) : d.outletLock n = true ↔ d.LockedBy (outletWord n 2) :=
  d.lockOn_iff _

/-- The words each lock covers (R6). -/
theorem Device.protected_words {d : Device} (he : d.enforcing = true) :
    (∀ w < 0x20, d.protectedAt (place w) = true ↔ d.LockedBy 0x0F) ∧
    (∀ p : Phase, ∀ w < 8, d.protectedAt (place (0x40 + 16 * p.val + w)) = true ↔ d.LockedBy 0x0F) ∧
    (∀ b : Branch, ∀ w < 8, d.protectedAt (place (0x70 + 16 * b.val + w)) = true ↔
      d.LockedBy 0x0F ∨ d.LockedBy (0x71 + 16 * b.val)) ∧
    (∀ w < 8, d.protectedAt (place (0xD0 + w)) = true ↔ d.LockedBy 0x0F) ∧
    (∀ n : Outlet, ∀ w < 32, d.protectedAt (place (outletWord n w)) = true ↔
      w ≠ 14 ∧ (d.LockedBy 0x0F ∨ d.LockedBy (0x71 + 16 * n.branch.val) ∨ d.LockedBy (outletWord n 2))) ∧
    d.protectedAt (place 0xD01) = false := by
  simp only [Device.protectedAt_enforcing he]
  refine ⟨fun w hw => ?_, fun p w hw => ?_, fun b w hw => ?_, fun w hw => ?_, fun n w hw => ?_, rfl⟩
  · rw [place_charter w (by omega)]
    exact d.stripLock_iff
  · rw [show 0x40 + 16 * p.val + w = levelBase (.phase p) + w from rfl, place_level _ w (by omega)]
    exact d.stripLock_iff
  · rw [show 0x70 + 16 * b.val + w = levelBase (.branch b) + w from rfl, place_level _ w (by omega)]
    simp only [Device.covered, Bool.or_eq_true, d.stripLock_iff, d.branchLock_iff]
  · rw [show 0xD0 + w = levelBase .inlet + w from rfl, place_level _ w (by omega)]
    exact d.stripLock_iff
  · rw [place_outletWord n w (by omega)]
    by_cases hheart : w = 14
    · simp [Device.covered, hheart]
    · have hcovered : d.covered (.outlet n w) = (d.stripLock || d.branchLock n.branch || d.outletLock n) := if_neg hheart
      rw [hcovered]
      simp only [Bool.or_eq_true, d.stripLock_iff, d.branchLock_iff, d.outletLock_iff, or_assoc, ne_eq, hheart,
        not_false_eq_true, true_and]

/-! ## Writes that are dropped (R7, R8) -/

theorem Device.performWrite_protected {d : Device} {a : WriteAccess} {off : Nat} (he : d.enforcing = true)
    (hoff : windowOffset d.pins.windowBase a.addr = some off) (hk : (place off).kind = .processorOwned)
    (hp : d.protectedAt (place off) = true) (ha : a.privileged = false) :
    d.performWrite a = d.dropLocked (place off) off a := by
  unfold Device.performWrite
  rw [hoff]
  simp only [he, if_true, Device.enforcedWrite, hk, hp, ha, and_self]

theorem Device.performWrite_partOwned {d : Device} {a : WriteAccess} {off : Nat} (he : d.enforcing = true)
    (hoff : windowOffset d.pins.windowBase a.addr = some off) (hk : (place off).kind = .partOwned) :
    d.performWrite a = d.reportProtect (place off) off .owned := by
  unfold Device.performWrite
  rw [hoff]
  simp only [he, if_true, Device.enforcedWrite, hk]

/-- In RUNNING and HALTED the Shadow File holds every word. -/
theorem Device.ownedMerged_inService {d : Device} (hs : d.inService = true) (off : Nat) (a : WriteAccess) :
    d.ownedMerged off a = d.merged off a := if_pos (d.swept_of_inService hs off)

theorem Device.newTag_iff (d : Device) (n : Outlet) (tag : Byte) :
    d.newTag n tag = true ↔ tag ≠ 0 ∧ tag ≠ d.path.lastTag[n] := by simp [Device.newTag]

/-- What a dropped Request write is answered (R7, R111). -/
theorem Device.dropLocked_request (d : Device) (n : Outlet) (off : Nat) (a : WriteAccess) :
    d.dropLocked (.outlet n requestWord) off a =
      if d.inService = true ∧ d.newTag n (requestTag (d.ownedMerged off a)) = true then
        ((d.reportProtect (.outlet n requestWord) off .locked).setLastTag n
          (requestTag (d.ownedMerged off a))).answer n (requestTag (d.ownedMerged off a)) .refusedLocked
      else d.reportProtect (.outlet n requestWord) off .locked := by
  unfold Device.dropLocked Device.refuseLocked
  simp only [true_and]
  rfl

theorem Device.dropLocked_other (d : Device) (p : Place) (off : Nat) (a : WriteAccess)
    (hp : ∀ n, p ≠ .outlet n requestWord) : d.dropLocked p off a = d.reportProtect p off .locked := by
  unfold Device.dropLocked Device.refuseLocked
  cases p with
  | outlet n w => exact if_neg fun h => hp n (by rw [h.1])
  | _ => rfl

/-- A Status group published in RUNNING or HALTED. -/
theorem Device.publishStatus_eq {d : Device} (hs : d.inService = true) (n : Outlet) :
    d.publishStatus n = { d with pub := d.pub.takes (.status n) (d.groupWords (.status n)) } := by
  unfold Device.publishStatus
  rw [if_pos hs, Device.publish_eq]
  rfl

/-- An answer in RUNNING or HALTED publishes the Status group with its words as they then are (R110). -/
theorem Device.answer_pub {d : Device} (hs : d.inService = true) (n : Outlet) (tag : Byte) (r : EchoResult) :
    (d.answer n tag r).pub = d.pub.takes (.status n) ((d.answer n tag r).groupWords (.status n)) := by
  have heq := Device.publishStatus_eq (d := d.setOutlet n fun o => { o with echoTag := tag, echoResult := r }) hs n
  refine (congrArg Device.pub heq).trans ?_
  rw [(Device.answer_onlyPub d n tag r).groupWords]
  rfl

/-- Settles O12. -/
theorem ownedWriteDropped : Obligations.OwnedWriteDropped := by
  intro s a off hfree he hoff hk subject
  have hsubject : subject = (place off).subject := by
    simp only [subject]
    cases place off <;> rfl
  show exec (.processorWrite a) s = _
  rw [hfree.exec_write, Device.performWrite_partOwned he hoff hk, hsubject]
  rfl

/-- A lock word written during SWEEPING counts from then on (R6). -/
theorem lockedBy_written (s : State) (a : WriteAccess) (off : Nat) (hfree : s.dev.BusFree)
    (hs : s.dev.charter.state = .sweeping) (hoff : windowOffset s.dev.pins.windowBase a.addr = some off)
    (hlock : off = 0x0F ∨ (∃ b : Branch, off = 0x71 + 16 * b.val) ∨ ∃ n : Outlet, off = outletWord n 2)
    (ha : s.dev.protectedAt (place off) = false ∨ a.privileged = true) (hst : s.dev.StoresOk) :
    CompletesWith (.processorWrite a) s fun d' =>
      d'.LockedBy off ↔ mergeWord (if s.dev.swept off then s.dev.shadow off else s.dev.ram.readWord a.addr.toNat)
        a.enables a.data ≠ 0 := by
  have hplace := (isLockWord_place off).2 hlock
  have hk : (place off).kind = .processorOwned := by
    unfold Device.isLockWord at hplace
    split at hplace <;> simp_all [Place.kind]
  have hexec := (acceptedWriteStores.2 s a off hfree hs hoff hk ha (by
    unfold Device.isLockWord at hplace
    split at hplace <;> simp_all)).2 hlock
  refine ⟨_, hexec, rfl, ?_⟩
  simp only [Device.LockedBy, Device.shadow, Store.read_write_same _ _ _ hst.shadow, List.mem_cons, true_or, or_true,
    implies_true, and_true]

/-- Settles O11. -/
theorem protectedWriteDropped : Obligations.ProtectedWriteDropped := by
  refine ⟨fun d => ⟨fun he _ => Device.protectedAt_unenforced he _, fun he => Device.protected_words he⟩,
    lockedBy_written, ?_⟩
  intro s a off hfree hoff he hk hp ha reported tag
  have hexec : exec (.protectedWriteDropped a) s = .next { s with dev := s.dev.dropLocked (place off) off a } := by
    rw [← Device.performWrite_protected he hoff hk hp ha]
    exact hfree.exec_write a
  have hrequest (n : Outlet) : off = outletWord n 16 ↔ place off = .outlet n requestWord :=
    ⟨fun h => h ▸ place_outletWord n 16 (by decide), fun h => (place_eq_outlet h).1⟩
  refine ⟨fun hold => ?_, fun n ho hs hzero hlast => ?_⟩
  · rw [hexec]
    by_cases hn : ∃ n, place off = .outlet n requestWord
    · obtain ⟨n, hn⟩ := hn
      have hnone : ¬(s.dev.inService = true ∧ s.dev.newTag n (requestTag (s.dev.ownedMerged off a)) = true) := by
        rintro ⟨hs, hnew⟩
        rw [Device.ownedMerged_inService hs, Device.newTag_iff] at hnew
        exact (hold n ((hrequest n).2 hn) hs).elim hnew.1 hnew.2
      simp only [hn, Device.dropLocked_request, if_neg hnone]
      simp only [reported, hn]
      rfl
    · rw [Device.dropLocked_other _ _ _ _ fun n hp => hn ⟨n, hp⟩]
      rfl
  · have hplace := (hrequest n).1 ho
    have hnew : s.dev.inService = true ∧ s.dev.newTag n (requestTag (s.dev.ownedMerged off a)) = true := by
      rw [Device.ownedMerged_inService hs, Device.newTag_iff]
      exact ⟨hs, hzero, hlast⟩
    have hdrop : s.dev.dropLocked (place off) off a =
        ((s.dev.reportProtect (.outlet n requestWord) off .locked).setLastTag n tag).answer n tag .refusedLocked := by
      rw [hplace, Device.dropLocked_request, if_pos hnew, Device.ownedMerged_inService hs]
    refine ⟨_, hexec, rfl, ?_⟩
    have heq := Device.answer_onlyPub ((s.dev.reportProtect (.outlet n requestWord) off .locked).setLastTag n tag) n tag
      .refusedLocked
    have hpub := Device.answer_pub
      (d := (s.dev.reportProtect (.outlet n requestWord) off .locked).setLastTag n tag) hs n tag .refusedLocked
    unfold Device.OnlyPub at heq
    rw [hdrop]
    generalize Device.answer _ n tag .refusedLocked = e at heq hpub
    have hothers := Device.OthersStand.of_setAt (d := s.dev) (d' := e) (by rw [heq]; rfl)
    refine ⟨fun p hp => ?_, hothers.1, ?_, by rw [heq]; rfl, hothers.2, hpub⟩
    · rw [heq]
      cases p <;> first | rfl | simp at hp
    · rw [heq]
      simp only [reported, hplace]
      rfl

end Sys2Proof.Machine
end

