-- ==== Sys2Proof/Proofs/Reads.lean ====
section
/-! PROOFS. Accesses that WAIT holds (R18, R186), reads and the Snapshot Bracket (R14, R19 to R21), drain writes (R17). -/

namespace Sys2Proof.Machine
open Sys2Proof

/-! ## The arbiter (R18, R186) -/

theorem place_eq_outlet_iff {off w : Nat} {n : Outlet} : place off = .outlet n w ↔ off = outletWord n w ∧ w < 64 :=
  ⟨place_eq_outlet, fun ⟨ho, hw⟩ => ho ▸ place_outletWord n w hw⟩

theorem meterOutlet_eq_some {p : Place} {n : Outlet} : meterOutlet p = some n ↔ ∃ w, p = .outlet n w ∧ 50 ≤ w := by
  cases p with
  | outlet m w =>
    by_cases hw : 50 ≤ w
    · simp [meterOutlet, hw]
    · simp only [meterOutlet, if_neg hw, reduceCtorEq, false_iff, not_exists, not_and]
      intro u hu
      cases hu
      exact hw
  | _ => simp [meterOutlet]

/-- A read meets a Meter group whose update is held back (R21, R186). -/
theorem Device.heldForCollect_iff (d : Device) (r : ReadAccess) : d.heldForCollect r = true ↔
    ∃ n w, windowOffset d.pins.windowBase r.addr = some (outletWord n w) ∧ 50 ≤ w ∧ w < 64 ∧
      d.pub.heldBack[n] ≠ none := by
  unfold Device.heldForCollect
  cases hoff : windowOffset d.pins.windowBase r.addr with
  | none => simp
  | some off =>
    dsimp only
    cases hm : meterOutlet (place off) with
    | none =>
      refine ⟨fun h => (Bool.false_ne_true h).elim, fun ⟨n, w, ho, hlow, hhigh, _⟩ => ?_⟩
      cases ho
      rw [meterOutlet_eq_some.2 ⟨w, place_outletWord n w hhigh, hlow⟩] at hm
      cases hm
    | some n =>
      obtain ⟨w, hp, hlow⟩ := meterOutlet_eq_some.1 hm
      obtain ⟨rfl, hhigh⟩ := place_eq_outlet hp
      refine ⟨fun h => ⟨n, w, rfl, hlow, hhigh, Option.isSome_iff_ne_none.1 h⟩, fun ⟨m, u, ho, _, hu, hb⟩ => ?_⟩
      rw [Option.some.injEq] at ho
      rw [ho, place_outletWord m u hu] at hp
      cases hp
      exact Option.isSome_iff_ne_none.2 hb

theorem Device.canStart_write (d : Device) (a : WriteAccess) :
    d.canStart (.write a) = true ↔ ¬128 ≤ d.pub.queue.length := by
  rw [Device.canStart, Bool.and_true, decide_eq_true_iff, Nat.not_le]
  rfl

theorem Device.canStart_read (d : Device) (r : ReadAccess) :
    d.canStart (.read r) = true ↔ ¬128 ≤ d.pub.queue.length ∧ d.heldForCollect r = false := by
  rw [Device.canStart, Bool.and_eq_true, decide_eq_true_iff, Nat.not_le, Bool.not_eq_true']
  rfl

theorem Device.presentAccess_held {d : Device} {acc : Access} (h : d.path.held ≠ none) : d.presentAccess acc = d :=
  if_pos (Option.isSome_iff_ne_none.2 h)

theorem Device.presentAccess_free {d : Device} {acc : Access} (h : d.path.held = none) :
    d.presentAccess acc = if d.canStart acc then d.performAccess acc else d.setHeld (some acc) := by
  unfold Device.presentAccess
  rw [h]
  rfl

theorem Device.resumeAccess_free {d : Device} {lines : SenseLines} (h : d.path.held = none) :
    d.resumeAccess lines = d.setLines lines := by
  unfold Device.resumeAccess
  simp only [Device.setLines_path, h]

/-- Where an access is held, a resumption starts it as if it were presented then, or WAIT holds on (R18, R186). -/
theorem Device.resumeAccess_held {d : Device} {lines : SenseLines} {acc : Access} (h : d.path.held = some acc) :
    d.resumeAccess lines =
      if d.canStart acc then ((d.setLines lines).setHeld none).presentAccess acc else d.setLines lines := by
  have hsame : (d.setLines lines).canStart acc = d.canStart acc := by cases acc <;> rfl
  have hfree : ((d.setLines lines).setHeld none).canStart acc = d.canStart acc := by cases acc <;> rfl
  unfold Device.resumeAccess
  simp only [Device.setLines_path, h, hsame]
  split
  · rename_i hs
    rw [Device.presentAccess_free rfl, hfree, if_pos hs]
  · rfl

theorem Device.performRead_outside {d : Device} {r : ReadAccess} (h : windowOffset d.pins.windowBase r.addr = none) :
    d.performRead r = { d with path := { d.path with readData := d.ram.readWord r.addr.toNat } } := by
  unfold Device.performRead Device.readValue
  simp only [h]

/-- Settles O13. -/
theorem accessWaitsAtThreshold : Obligations.AccessWaitsAtThreshold := by
  intro s a r lines full heldBack waits pins begun
  have hback : s.dev.heldForCollect r = true ↔ heldBack := s.dev.heldForCollect_iff r
  have hread : s.dev.canStart (.read r) = true ↔ ¬full ∧ ¬heldBack := by
    rw [Device.canStart_read, ← hback, Bool.not_eq_true]
  refine ⟨Option.isSome_iff_ne_none, fun hfree hfull => ?_, fun hfree hwait => ?_, fun hheld => ?_, fun hfree => ?_,
    fun hheld => ⟨fun hfull => ?_, fun hroom => ?_⟩, fun hheld => ⟨fun hwait => ?_, fun hroom hnone => ?_⟩⟩
  · show Host.Outcome.next { s with dev := s.dev.presentAccess (.write a) } = _
    rw [Device.presentAccess_free hfree, if_neg fun h => (s.dev.canStart_write a).1 h hfull]
    rfl
  · have hw : s.dev.presentAccess (.read r) = waits (.read r) := by
      rw [Device.presentAccess_free hfree, if_neg fun h => hwait.elim (hread.1 h).1 (hread.1 h).2]
      rfl
    rw [← hw]
    exact ⟨rfl, rfl⟩
  · have hw : s.dev.presentAccess (.write a) = s.dev := Device.presentAccess_held hheld
    have hr : s.dev.presentAccess (.read r) = s.dev := Device.presentAccess_held hheld
    show Host.Outcome.next { s with dev := s.dev.presentAccess (.write a) } = _ ∧
      Host.Outcome.next { s with dev := s.dev.presentAccess (.read r) } = _
    rw [hw, hr]
    exact ⟨rfl, rfl⟩
  · show Host.Outcome.next { s with dev := s.dev.resumeAccess lines } = _
    rw [Device.resumeAccess_free hfree]
    rfl
  · show Host.Outcome.next { s with dev := s.dev.resumeAccess lines } = _
    rw [Device.resumeAccess_held hheld, if_neg fun h => (s.dev.canStart_write a).1 h hfull]
    rfl
  · have hexec : exec (.accessResume lines) s = exec (.processorWrite a) { s with dev := begun } := by
      show Host.Outcome.next { s with dev := s.dev.resumeAccess lines } = _
      rw [Device.resumeAccess_held hheld, if_pos ((s.dev.canStart_write a).2 hroom)]
      rfl
    refine ⟨hexec, fun hout => ?_⟩
    have hfree : begun.BusFree := ⟨rfl, Nat.lt_of_not_le hroom⟩
    rw [hexec, hfree.exec_write (s := { s with dev := begun }), Device.performWrite_plain begun a (.inl hout)]
    rfl
  · show Host.Outcome.next { s with dev := s.dev.resumeAccess lines } = _
    rw [Device.resumeAccess_held hheld, if_neg fun h => hwait.elim (hread.1 h).1 (hread.1 h).2]
    rfl
  · have hexec : exec (.accessResume lines) s = .next { s with dev := begun.presentAccess (.read r) } := by
      show Host.Outcome.next { s with dev := s.dev.resumeAccess lines } = _
      rw [Device.resumeAccess_held hheld, if_pos (hread.2 ⟨hroom, hnone⟩)]
      rfl
    refine ⟨hexec, hexec, fun hout => ?_⟩
    have hstart : begun.canStart (.read r) = true := hread.2 ⟨hroom, hnone⟩
    rw [hexec, Device.presentAccess_free rfl, if_pos hstart]
    show Host.Outcome.next { s with dev := begun.performRead r } = _
    rw [Device.performRead_outside (d := begun) hout]

/-! ## Forwarded reads (R14) -/

/-- A search from the newest entry finds the last one that has something. -/
theorem findSome?_reverse_newest {α β : Type} (f : α → Option β) (older newer : List α) (e : α) (v : β)
    (he : f e = some v) (hn : ∀ x ∈ newer, f x = none) : (older ++ e :: newer).reverse.findSome? f = some v := by
  have hnone : newer.reverse.findSome? f = none := List.findSome?_eq_none_iff.2 fun x hx => hn x (List.mem_reverse.1 hx)
  simp [List.findSome?_append, hnone, he]

/-- Settles O14. -/
theorem readAnswersNewestValue : Obligations.ReadAnswersNewestValue := by
  intro d a waiting
  refine ⟨fun hout => ?_, fun off hoff => ?_⟩
  · unfold Device.readValue
    rw [hout]
  have hvalue : d.readValue a = (d.waitingValue off).getD (d.ram.readWord a.toNat) := by
    unfold Device.readValue
    rw [hoff]
  rw [hvalue]
  unfold Device.waitingValue
  refine ⟨fun older e newer v hq hv hnewer => ?_, fun hnone => ?_⟩
  · cases older with
    | nil =>
      have hrest : newer.reverse.findSome? (fun x => (x.writes d.reports.lost 0).lookup off) = none :=
        List.findSome?_eq_none_iff.2 fun x hx => hnewer x (List.mem_reverse.1 hx)
      have hfront : (e.writes d.reports.lost d.pub.drained).lookup off = some v := hv
      simp only [hq, List.nil_append, hrest, hfront, Option.getD_some]
    | cons x older =>
      have hrest := findSome?_reverse_newest (fun x : Entry => (x.writes d.reports.lost 0).lookup off) older newer e v hv
        hnewer
      simp only [hq, List.cons_append, hrest, Option.getD_some]
  · cases hq : d.pub.queue with
    | nil => rfl
    | cons e es =>
      have hrest : es.reverse.findSome? (fun x => (x.writes d.reports.lost 0).lookup off) = none := by
        refine List.findSome?_eq_none_iff.2 fun x hx => ?_
        obtain ⟨l, r, rfl⟩ := List.append_of_mem (List.mem_reverse.1 hx)
        exact hnone (e :: l) x r hq
      have hfront : (e.writes d.reports.lost d.pub.drained).lookup off = none := hnone [] e es hq
      simp only [hrest, hfront, Option.getD_none]

/-! ## The Snapshot Bracket (R19 to R21) -/

/-- A read that starts, of a window word under enforcement. -/
theorem Device.presentAccess_read {d : Device} {r : ReadAccess} {off : Nat} (hfree : d.BusFree)
    (hcollect : d.heldForCollect r = false) (he : d.enforcing = true)
    (hoff : windowOffset d.pins.windowBase r.addr = some off) :
    d.presentAccess (.read r) =
      ({ d with path := { d.path with readData := d.readValue r.addr } } : Device).bracketRead (place off) := by
  have hstart : d.canStart (.read r) = true := (d.canStart_read r).2 ⟨Nat.not_le.2 hfree.room, hcollect⟩
  rw [Device.presentAccess_free hfree.free, if_pos hstart]
  show d.performRead r = _
  unfold Device.performRead
  simp only [hoff]
  exact if_pos he

/-- A bracket without a held update closes (R20). -/
theorem Device.closeBracket_empty {d : Device} {b : Bracket} (hb : d.pub.bracket = some b) (hheld : b.held = none) :
    d.closeBracket = { d with pub := { d.pub with bracket := none } } := by
  unfold Device.closeBracket
  simp only [hb, hheld]
  rfl

/-- A bracket closes, and its held update enters the queue (R20). -/
theorem Device.closeBracket_held {d : Device} {b : Bracket} {words : List Word} (hb : d.pub.bracket = some b)
    (hheld : b.held = some words) :
    d.closeBracket = { d with pub := { d.pub.entered b.group words with bracket := none } } := by
  unfold Device.closeBracket
  simp only [hb, hheld, Device.enqueueGroup_eq]
  rfl

theorem Device.openBracket_free {d : Device} (g : Group) (hb : d.pub.bracket = none) :
    d.openBracket g = d.setBracket (some ⟨g, none, 0⟩) := by
  unfold Device.openBracket
  simp only [hb]

theorem Device.openBracket_same {d : Device} {b : Bracket} (hb : d.pub.bracket = some b) :
    d.openBracket b.group = d.setBracket (some ⟨b.group, b.held, 0⟩) := by
  unfold Device.openBracket
  simp only [hb, if_true]

theorem Device.openBracket_other {d : Device} {g : Group} {b : Bracket} (hb : d.pub.bracket = some b)
    (hne : b.group ≠ g) : d.openBracket g = d.closeBracket.setBracket (some ⟨g, none, 0⟩) := by
  unfold Device.openBracket
  simp only [hb, if_neg hne]

/-- A command's answer, named by the block it leaves. -/
theorem CompletesWith.of_exec {i : Instr} {s : State} {post : Device → Prop} {e : Device}
    (h : exec i s = .next { s with dev := e }) (hp : post e) : CompletesWith i s post := ⟨_, h, rfl, hp⟩

/-- Settles O15. -/
theorem sequenceReadOpensBracket : Obligations.SequenceReadOpensBracket := by
  intro s a off g hfree hcollect he hoff hg
  obtain ⟨d, hd⟩ : ∃ d : Device, d = { s.dev with path := { s.dev.path with readData := s.dev.readValue a.addr } } :=
    ⟨_, rfl⟩
  have hpub : d.pub = s.dev.pub := by rw [hd]
  have hafter : s.dev.presentAccess (.read a) = d.openBracket g := by
    rw [Device.presentAccess_read hfree hcollect he hoff, ← hd]
    unfold Device.bracketRead
    rw [hg]
  refine .of_exec (e := d.openBracket g) (hafter ▸ rfl) ?_
  have honly := Device.openBracket_onlyPub d g
  refine ⟨fun p hp => ?_, by rw [honly.path, hd], fun hb => ?_, fun b hb hsame => ?_, fun b hb hne hheld => ?_,
    fun b words hb hne hheld => ?_⟩
  · rw [honly, hd]
    cases p <;> first | rfl | simp at hp
  · rw [Device.openBracket_free g (hpub ▸ hb), ← hpub]
    rfl
  · subst hsame
    rw [Device.openBracket_same (hpub ▸ hb), ← hpub]
    rfl
  · rw [Device.openBracket_other (hpub ▸ hb) hne, Device.closeBracket_empty (hpub ▸ hb) hheld, ← hpub]
    rfl
  · rw [Device.openBracket_other (hpub ▸ hb) hne, Device.closeBracket_held (hpub ▸ hb) hheld, ← hpub]
    rfl

theorem sequenceGroup_of_lastWord {p : Place} {g : Group} (h : lastWordGroup p = some g) : sequenceGroup p = none := by
  unfold lastWordGroup at h
  split at h <;> first | rfl | cases h

/-- Settles O16. -/
theorem lastWordReadClosesBracket : Obligations.LastWordReadClosesBracket := by
  intro s a off b hfree hcollect he hoff hg hb collects
  obtain ⟨d, hd⟩ : ∃ d : Device, d = { s.dev with path := { s.dev.path with readData := s.dev.readValue a.addr } } :=
    ⟨_, rfl⟩
  have hbd : d.pub.bracket = some b := by rw [hd]; exact hb
  have hafter : s.dev.presentAccess (.read a) = d.readLastWord b.group := by
    rw [Device.presentAccess_read hfree hcollect he hoff, ← hd]
    unfold Device.bracketRead
    rw [sequenceGroup_of_lastWord hg, hg]
  have hcollected (n : Outlet) (hn : collects n) : d.readLastWord b.group = d.handCollectClear n b.held := by
    obtain ⟨hgn, hs, hc⟩ := hn
    have hcond : d.inService = true ∧ d.charter.settings.collectClear = true := by rw [hd]; exact ⟨hs, hc⟩
    unfold Device.readLastWord
    simp only [hbd, hgn, if_true, if_pos hcond]
  have hclosed (hn : ∀ n, ¬collects n) : d.readLastWord b.group = d.closeBracket := by
    unfold Device.readLastWord
    simp only [hbd, if_true]
    split
    · rename_i n hgn
      exact if_neg fun h => hn n ⟨hgn, by rw [hd] at h; exact h⟩
    all_goals rfl
  refine .of_exec (e := d.readLastWord b.group) (hafter ▸ rfl) ?_
  by_cases hn : ∃ n, collects n
  · obtain ⟨n, hn⟩ := hn
    rw [hcollected n hn]
    refine ⟨fun p hp => ?_, by rw [hd]; rfl, fun hnone => absurd hn (hnone n), fun m hm => ?_⟩
    · rw [hd]
      cases p <;> first | rfl | simp at hp
    · obtain rfl : n = m := Group.meter.inj (hn.1.symm.trans hm.1)
      rw [hd]
      exact ⟨rfl, rfl⟩
  · rw [hclosed fun n h => hn ⟨n, h⟩]
    have honly := Device.closeBracket_onlyPub d
    refine ⟨fun p hp => ?_, by rw [honly.path, hd], fun _ => ⟨by rw [honly.mail, hd], fun words hw => ?_, fun hw => ?_⟩,
      fun n h => absurd ⟨n, h⟩ hn⟩
    · rw [honly, hd]
      cases p <;> first | rfl | simp at hp
    · rw [Device.closeBracket_held hbd hw, hd]
    · rw [Device.closeBracket_empty hbd hw, hd]

/-! ## Drain writes (R17) -/

/-- Settles O17. -/
theorem drainWritesOldestEntry : Obligations.DrainWritesOldestEntry := by
  intro s e rest off v left hq hheld hw
  show Host.Outcome.next { s with dev := s.dev.drainWrite } = _
  unfold Device.drainWrite Device.drain
  rw [if_neg (by simp [hheld])]
  simp only [hq, hw]
  cases left <;> rfl

end Sys2Proof.Machine
end

