-- ==== Sys2Proof/Proofs/AdmissionUnit.lean ====
section
/-! PROOFS. The Admission Unit: Limit writes (R156), joins and removals (R153, R154), slots freed (R164, R165), and the loads
of a close (R171). -/

namespace Sys2Proof.Machine
open Sys2Proof

/-! ## Limit writes (R156) -/

/-- Publications of a block that shows what this one shows are publications of this one. -/
theorem Device.Publishes.from {d e f : Device} {anyhow : List Group} (h : e.Publishes f anyhow) (hp : e.pub = d.pub)
    (hw : ∀ g, e.groupWords g = d.groupWords g) (he : e.engine = d.engine) : d.Publishes f anyhow := by
  obtain ⟨gs, hg, hpub⟩ := h
  refine ⟨gs, fun g => (hg g).trans (or_congr_left ?_), by rw [hpub, hp]⟩
  have hl : ∀ l : Level, (e.engine.levels.get l).sequence = (d.engine.levels.get l).sequence := fun l => by rw [he]
  have hm : ∀ n : Outlet, (e.engine.outlets[n]).sequence = (d.engine.outlets[n]).sequence := fun n => by rw [he]
  exact ⟨fun h => h.of_same (hw g).symm (fun l => (hl l).symm) fun n => (hm n).symm,
    fun h => h.of_same (hw g) hl hm⟩

theorem Device.Accepts.exec_limitWrite {s : State} {a : WriteAccess} {l : Level} (h : s.dev.Accepts a (levelBase l)) :
    exec (.limitWrite a) s = .next { s with dev := (s.dev.stored (levelBase l) a).evaluateHeads } := by
  show Host.Outcome.next { s with dev := s.dev.presentAccess (.write a) } = _
  have hp : place (levelBase l) = .level l 0 := place_level l 0 (by decide)
  rw [h.present, hp]
  rfl

/-- A grant publishes its branch group in service. -/
theorem Device.evaluateHead_granted_pub {d : Device} {b : Branch} {e : QueueEntry} {rest : List QueueEntry}
    (hs : d.inService = true) (hq : d.admission.queues[b] = e :: rest) (hr : d.blockReason b e.outlet = none) :
    (d.evaluateHead b).pub =
      d.pub.takes (.level (.branch b)) ((d.evaluateHead b).groupWords (.level (.branch b))) := by
  have hgranted : d.admission.granted (d.evaluateHead b).admission b = 1 := by
    rw [(Device.evaluateHead_granted hq hr).1]
    exact if_pos ⟨Device.blockReason_slot hr, by simp⟩
  have htrail := (Device.evaluateHead_trail d b).pub
  rw [if_pos ⟨hs, hgranted⟩] at htrail
  exact htrail

/-- Settles O54. -/
theorem limitWriteEvaluatesHeads : Obligations.LimitWriteEvaluatesHeads := by
  intro s a l hacc stored adm
  have hexec := hacc.exec_limitWrite
  refine ⟨fun hempty => ?_, .of_exec hexec ⟨(Device.evaluateHeads_frame stored).mono (by decide), Device.evaluateHeads_spec stored,
    Device.evaluateHeads_sequences stored, ?_, Device.evaluateHeads_mail stored⟩, ?_⟩
  · rw [hexec, Device.evaluateHeads_none (d := stored) hempty]
  · exact (Device.evaluateHeads_publishes stored).from rfl (fun g => by cases g <;> rfl) rfl
  · intro b e rest hq hothers lim expected own estimate fits fails
    have hq : stored.admission.queues[b] = e :: rest := hq
    have hone : stored.evaluateHeads = stored.evaluateHead b :=
      Device.evaluateHeads_one (hq ▸ List.cons_ne_nil _ _) hothers
    have hfails : stored.blockReason b e.outlet = fails := by
      rw [Device.blockReason_eq]
      unfold Device.failingCheck
      simp only [decide_eq_false_iff_not]
      rfl
    refine ⟨fun r hr => ?_, fun hnone => .of_exec hexec ?_⟩
    · have hblocked := hone.trans (Device.evaluateHead_blocked hq (hfails.trans hr))
      exact hexec.trans (congrArg (fun d' => Host.Outcome.next { s with dev := d' }) hblocked)
    · have hgranted := Device.evaluateHead_granted hq (hfails.trans hnone)
      rw [Device.inrushEstimate_eq] at hgranted
      rw [hone]
      refine ⟨Device.evaluateHead_granted_pub hacc.service hq (hfails.trans hnone), hgranted.2, hgranted.1.trans ?_⟩
      simp only [List.isEmpty_iff]
      rfl

/-! ## Joins and removals (R153, R154) -/

theorem inQueue_iff_exists (n : Outlet) (q : List QueueEntry) : inQueue n q = true ↔ ∃ e ∈ q, e.outlet = n := by
  simp [inQueue]

/-- A queue set, and a tenure begun for its front. -/
theorem Device.beginTenure_setQueue (d : Device) (b : Branch) (q : List QueueEntry) :
    (d.setQueue b q).beginTenure b = { d with admission := { d.admission with
      queues := setAt d.admission.queues b q
      tenures := setAt d.admission.tenures b (if q = [] then none else some ⟨d.charter.uptime, false, none⟩) } } := by
  have hqueue : (d.setQueue b q).branchQueue b = q := by simp [Device.setQueue, Device.branchQueue]
  unfold Device.beginTenure
  rw [hqueue]
  cases q <;> rfl

/-- An entry placed in a queue; it begins a tenure where it stands at the front. -/
theorem Device.placeEntry_eq (d : Device) (b : Branch) (q : List QueueEntry) (n : Outlet) :
    d.placeEntry b q n = { d with admission := { d.admission with
      queues := setAt d.admission.queues b q
      tenures :=
        if q.head?.map (·.outlet) = some n then setAt d.admission.tenures b (some ⟨d.charter.uptime, false, none⟩)
        else d.admission.tenures } } := by
  unfold Device.placeEntry
  dsimp only
  by_cases hfront : q.head?.map (·.outlet) = some n
  · have hne : q ≠ [] := by
      rintro rfl
      cases hfront
    rw [if_pos hfront, if_pos hfront, Device.beginTenure_setQueue, if_neg hne]
  · rw [if_neg hfront, if_neg hfront]
    rfl

/-- A join of an outlet that stands in neither place (R153). -/
theorem Device.takeJoin_placed {d : Device} {n : Outlet} (hq : ¬inQueue n (d.branchQueue n.branch) = true)
    (hslot : ∀ x, d.admission.slots[n.branch] = some x → x.outlet = n → x.withdrawn = false) :
    d.takeJoin n = ((d.placeJoin n).publishBranch n.branch).evaluateHead n.branch := by
  unfold Device.takeJoin
  dsimp only
  rw [if_neg hq, if_neg]
  cases hx : d.admission.slots[n.branch] with
  | none => simp
  | some x => simpa using hslot x hx

/-- A removal of a queue's front (R154). -/
theorem Device.takeRemoval_front {d : Device} {n : Outlet} (hq : inQueue n (d.branchQueue n.branch) = true)
    (hfront : (d.branchQueue n.branch).head?.map (·.outlet) = some n) :
    d.takeRemoval n =
      (((d.setQueue n.branch ((d.branchQueue n.branch).filter fun e => decide (e.outlet ≠ n))).beginTenure
        n.branch).publishBranch n.branch).evaluateHead n.branch := by
  unfold Device.takeRemoval
  dsimp only
  rw [if_pos hq, if_pos hfront]

/-- A removal from behind a queue's front (R154). -/
theorem Device.takeRemoval_behind {d : Device} {n : Outlet} (hq : inQueue n (d.branchQueue n.branch) = true)
    (hfront : (d.branchQueue n.branch).head?.map (·.outlet) ≠ some n) :
    d.takeRemoval n =
      (d.setQueue n.branch ((d.branchQueue n.branch).filter fun e => decide (e.outlet ≠ n))).publishBranch
        n.branch := by
  unfold Device.takeRemoval
  dsimp only
  rw [if_pos hq, if_neg hfront]

theorem Device.nextJoin_eq {d : Device} {n : Outlet} {later : List AdmissionMessage}
    (h : d.mail.toAdmission = .join n :: later) :
    d.nextJoin = ({ d with mail := { d.mail with toAdmission := later } } : Device).takeJoin n := by
  simp only [Device.nextJoin, Device.dropAdmissionMessage, h, List.tail_cons]

theorem Device.nextRemoval_eq {d : Device} {n : Outlet} {later : List AdmissionMessage}
    (h : d.mail.toAdmission = .removal n :: later) :
    d.nextRemoval = ({ d with mail := { d.mail with toAdmission := later } } : Device).takeRemoval n := by
  simp only [Device.nextRemoval, Device.dropAdmissionMessage, h, List.tail_cons]

/-- A change of the Admission Unit that publishes its branch group alone. -/
theorem Device.changed_publishBranch {d e : Device} {b : Branch} {a : Admission} (he : e = { d with admission := a }) :
    d.Untouched (e.publishBranch b) [.pub, .engine, .admission] ∧ (e.publishBranch b).admission = a ∧
    d.SequencesMove (e.publishBranch b) (fun c => if c = b then 1 else 0) ∧ d.Publishes (e.publishBranch b) [] := by
  have hframe := Device.publishBranch_frame e b
  have hseq : d.SequencesMove (e.publishBranch b) fun c => if c = b then 1 else 0 := by
    have h := Device.publishBranch_sequences e b
    subst he
    exact ⟨h.engine, h.levels⟩
  refine ⟨fun p hp => ?_, ?_, hseq, (Device.changed_publishBranch_trail he b).publishes (fun g hg => .inl ?_) (by simp)⟩
  · have h := hframe p (fun hm => hp (by revert hm; cases p <;> decide))
    subst he
    cases p <;> first | exact h | exact absurd hp (by decide)
  · have h : (e.publishBranch b).admission = e.admission := hframe .admission (by decide)
    rw [h, he]
  · split at hg
    · rw [List.mem_singleton.1 hg]
      exact hseq.moves ‹_› (by simp) (by simp)
    · cases hg

/-- Settles O55. -/
theorem joinsAndRemovals : Obligations.JoinsAndRemovals := by
  intro s n later b adm q d waits queued headed marked once evaluated
  have hwaits : inQueue n (d.branchQueue n.branch) = true ↔ waits := inQueue_iff_exists n q
  have hevaluated {a' : Admission} {e : Device} (he : e = { d with admission := a' }) :
      evaluated a' ((e.publishBranch b).evaluateHead b) := by
    obtain ⟨hframe, hseq, hmail, hsettled⟩ := Device.changed_evaluateHead (b := b) he
    exact ⟨hframe.mono (by decide), hseq, Device.changed_evaluateHead_publishes he, hmail, hsettled⟩
  refine ⟨fun hmsg => ?_, fun hmsg => ?_⟩
  · have hexec : exec .join s = .next { s with dev := d.takeJoin n } := by rw [← Device.nextJoin_eq hmsg]; rfl
    refine ⟨fun hw => ?_, fun hw x hx hn hwd => ?_, fun hw hslot => ?_⟩
    · rw [hexec, Device.takeJoin, if_pos (hwaits.2 hw)]
    · have hx : d.admission.slots[n.branch] = some x := hx
      rw [hexec, Device.takeJoin, if_neg (mt hwaits.1 hw), if_pos (by simp [hx, hn, hwd])]
      unfold Device.markWithdrawn
      rw [hx]
      rfl
    · rw [Device.takeJoin_placed (mt hwaits.1 hw) hslot] at hexec
      refine .of_exec hexec ?_
      obtain ⟨before, after, hq, hbefore, hafter, hins⟩ := insertJoin_split ⟨n, min 3 (s.dev.outletField n 3)⟩ q
      refine ⟨before, after, hq, hbefore, hafter, hevaluated ?_⟩
      have hrank : d.restartRank n = min 3 (s.dev.outletField n 3) := Nat.zero_max _
      unfold Device.placeJoin
      rw [Device.placeEntry_eq, hrank, show insertJoin _ (d.branchQueue b) = _ from hins]
      cases before with
      | nil =>
        have hfront : ((([] : List QueueEntry) ++ ⟨n, min 3 (s.dev.outletField n 3)⟩ :: after).head?.map fun y : QueueEntry => y.outlet) =
          some n := rfl
        rw [if_pos hfront, if_pos rfl]
        rfl
      | cons x xs =>
        have hx : x.outlet ≠ n := fun hx => hw ⟨x, hq ▸ List.mem_cons_self, hx⟩
        have hbehind : ((x :: xs ++ ⟨n, min 3 (s.dev.outletField n 3)⟩ :: after).head?.map fun y : QueueEntry => y.outlet) ≠
          some n := mt Option.some.inj hx
        rw [if_neg (List.cons_ne_nil _ _), if_neg hbehind]
  · intro q'
    have hexec : exec .removal s = .next { s with dev := d.takeRemoval n } := by rw [← Device.nextRemoval_eq hmsg]; rfl
    refine ⟨fun hw hhead => ?_, fun hw hhead => ?_, fun hw x hx hn => ?_, fun hw hslot => ?_⟩
    · rw [Device.takeRemoval_front (hwaits.2 hw) hhead] at hexec
      exact .of_exec hexec (hevaluated (Device.beginTenure_setQueue d b q'))
    · rw [Device.takeRemoval_behind (hwaits.2 hw) hhead] at hexec
      obtain ⟨hframe, hadm, hseq, hpub⟩ := Device.changed_publishBranch (d := d) (b := b) (a := queued q') rfl
      exact .of_exec hexec ⟨hframe, hadm, hseq, hpub⟩
    · have hx : d.admission.slots[n.branch] = some x := hx
      rw [hexec, Device.takeRemoval, if_neg (mt hwaits.1 hw), if_pos (by simp [Device.occupies, hx, hn])]
      unfold Device.markWithdrawn
      rw [hx]
      rfl
    · have hno : ¬d.occupies n = true := by
        unfold Device.occupies
        cases hx : d.admission.slots[n.branch] with
        | none => simp
        | some x => simpa using hslot x hx
      rw [hexec, Device.takeRemoval, if_neg (mt hwaits.1 hw), if_neg hno]

/-! ## Slots freed (R164, R165) -/

theorem Device.nextRelease_eq {d : Device} {n : Outlet} {later : List AdmissionMessage}
    (h : d.mail.toAdmission = .release n :: later) :
    d.nextRelease = ({ d with mail := { d.mail with toAdmission := later } } : Device).takeRelease n := by
  simp only [Device.nextRelease, Device.dropAdmissionMessage, h, List.tail_cons]

theorem Device.nextHandBack_eq {d : Device} {n : Outlet} {later : List AdmissionMessage}
    (h : d.mail.toAdmission = .handBack n :: later) :
    d.nextHandBack = ({ d with mail := { d.mail with toAdmission := later } } : Device).takeHandBack n := by
  simp only [Device.nextHandBack, Device.dropAdmissionMessage, h, List.tail_cons]

theorem Device.takeRelease_occupant {d : Device} {n : Outlet} {x : Slot} (hx : d.admission.slots[n.branch] = some x)
    (hn : x.outlet = n) : d.takeRelease n = ((d.freeSlot n.branch x).publishBranch n.branch).evaluateHeads := by
  simp only [Device.takeRelease, hx, if_pos hn]

theorem Device.takeRelease_other {d : Device} {n : Outlet}
    (h : ∀ x, d.admission.slots[n.branch] = some x → x.outlet ≠ n) : d.takeRelease n = d := by
  unfold Device.takeRelease
  cases hx : d.admission.slots[n.branch] with
  | none => simp [hx]
  | some x => simp [hx, h x hx]

theorem Device.takeHandBack_occupant {d : Device} {n : Outlet} {x : Slot} (hx : d.admission.slots[n.branch] = some x)
    (hn : x.outlet = n) : d.takeHandBack n =
      ((if x.withdrawn = true then d.freeSlot n.branch x
        else (d.freeSlot n.branch x).placeEntry n.branch (insertReturned ⟨n, x.rank⟩ (d.branchQueue n.branch)) n).publishBranch
          n.branch).evaluateHeads := by
  simp only [Device.takeHandBack, hx, if_pos hn]
  rfl

theorem Device.takeHandBack_other {d : Device} {n : Outlet}
    (h : ∀ x, d.admission.slots[n.branch] = some x → x.outlet ≠ n) : d.takeHandBack n = d := by
  unfold Device.takeHandBack
  cases hx : d.admission.slots[n.branch] with
  | none => simp [hx]
  | some x => simp [hx, h x hx]

/-- Settles O56. -/
theorem slotFreed : Obligations.SlotFreed := by
  intro s n later b adm q d freed once evaluated
  have hevaluated {a' : Admission} {e : Device} (he : e = { d with admission := a' }) :
      evaluated a' (e.publishBranch b).evaluateHeads := by
    obtain ⟨hframe, hseq, hmail, hheads⟩ := Device.changed_evaluateHeads (b := b) he
    exact ⟨hframe.mono (by decide), hseq, Device.changed_evaluateHeads_publishes he, hmail, hheads⟩
  have hrelease (hmsg : s.dev.mail.toAdmission = .release n :: later) :
      exec .release s = .next { s with dev := d.takeRelease n } := by
    rw [← Device.nextRelease_eq hmsg]
    rfl
  have hback (hmsg : s.dev.mail.toAdmission = .handBack n :: later) :
      exec .handBack s = .next { s with dev := d.takeHandBack n } := by
    rw [← Device.nextHandBack_eq hmsg]
    rfl
  refine ⟨fun x hx hn => ⟨fun hmsg => ?_, fun hmsg => ?_⟩, fun hother => ⟨fun hmsg => ?_, fun hmsg => ?_⟩⟩
  · rw [Device.takeRelease_occupant (d := d) hx hn] at hrelease
    exact .of_exec (hrelease hmsg) (hevaluated rfl)
  · rw [Device.takeHandBack_occupant (d := d) hx hn] at hback
    refine ⟨fun hwd => ?_, fun hwd => ?_⟩
    · rw [if_pos hwd] at hback
      exact .of_exec (hback hmsg) (hevaluated rfl)
    · rw [if_neg (by simp [hwd])] at hback
      refine .of_exec (hback hmsg) ?_
      obtain ⟨before, after, hq, hbefore, hafter, hins⟩ := insertReturned_split ⟨n, x.rank⟩ q
      refine ⟨before, after, hq, hbefore, hafter, hevaluated ?_⟩
      rw [show insertReturned _ (d.branchQueue n.branch) = _ from hins, Device.placeEntry_eq]
      rfl
  · rw [hrelease hmsg, Device.takeRelease_other (d := d) hother]
  · rw [hback hmsg, Device.takeHandBack_other (d := d) hother]

end Sys2Proof.Machine
end

