-- ==== Sys2Proof/Proofs/CloseLoads.lean ====
section
/-! PROOFS. The loads of a close and the Over-Limits they decide (R171, R172). -/

namespace Sys2Proof.Machine
open Sys2Proof

/-- The report of a level whose Over-Limit a close changes, from what the flag was (R172). -/
def LoadsHandoff.overReport (h : LoadsHandoff) (was : PerLevel Bool) (l : Level) : Report :=
  ⟨if was.get l then .limitClear else .limitOver, .level l, BitVec.ofNat 16 (min (h.loads.get l / 100) 65535),
    BitVec.ofNat 16 (h.limits.get l)⟩

/-- A close changes a level's Over-Limit (R171). -/
def LoadsHandoff.Changes (h : LoadsHandoff) (was : PerLevel Bool) (l : Level) : Prop :=
  decideOver (h.loads.get l) (h.limits.get l) (was.get l) ≠ was.get l

theorem mem_levels (l : Level) : l ∈ levels := by
  cases l <;> simp [levels, phases, branches]

theorem levels_nodup : levels.Nodup := by decide

theorem Device.mem_changedLevels (d : Device) (h : LoadsHandoff) (l : Level) :
    l ∈ d.changedLevels h ↔ h.Changes d.admission.overLimit l := by
  simp [Device.changedLevels, mem_levels, LoadsHandoff.Changes]

/-- A changed flag is turned, with its report. -/
theorem Device.decideLevel_changed {d : Device} {h : LoadsHandoff} {l : Level} (hc : h.Changes d.admission.overLimit l) :
    Device.decideLevel h d l = { d with
      admission := { d.admission with overLimit := d.admission.overLimit.set l (!d.admission.overLimit.get l) }
      mail := { d.mail with reports := d.mail.reports ++ [h.overReport d.admission.overLimit l] } } := by
  unfold Device.decideLevel LoadsHandoff.overReport
  unfold LoadsHandoff.Changes at hc
  dsimp only
  rw [if_neg hc, Bool.eq_not.2 hc]
  cases d.admission.overLimit.get l <;> rfl

/-- The changed levels decided one after another. -/
theorem Device.foldl_decideLevel (h : LoadsHandoff) (ls : List Level) (d : Device) (hnodup : ls.Nodup)
    (hc : ∀ l ∈ ls, h.Changes d.admission.overLimit l) :
    ∃ flags : PerLevel Bool, (∀ k, flags.get k = if k ∈ ls then !d.admission.overLimit.get k else d.admission.overLimit.get k) ∧
      ls.foldl (Device.decideLevel h) d = { d with
        admission := { d.admission with overLimit := flags }
        mail := { d.mail with reports := d.mail.reports ++ ls.map (h.overReport d.admission.overLimit) } } := by
  induction ls generalizing d with
  | nil => exact ⟨_, fun _ => rfl, by simp⟩
  | cons l ls ih =>
    obtain ⟨hl, hnodup⟩ := List.nodup_cons.1 hnodup
    have hstep := Device.decideLevel_changed (hc l List.mem_cons_self)
    obtain ⟨e, he⟩ : ∃ e, Device.decideLevel h d l = e := ⟨_, rfl⟩
    have hstands (k : Level) (hk : k ∈ ls) : e.admission.overLimit.get k = d.admission.overLimit.get k := by
      have hne : ¬l = k := fun hlk => hl (hlk ▸ hk)
      simp [← he, hstep, PerLevel.get_set, hne]
    obtain ⟨flags, hover, hfold⟩ := ih e hnodup fun k hk => by
      unfold LoadsHandoff.Changes
      rw [hstands k hk]
      exact hc k (List.mem_cons_of_mem _ hk)
    have hmap : ls.map (h.overReport e.admission.overLimit) = ls.map (h.overReport d.admission.overLimit) :=
      List.map_congr_left fun k hk => by rw [LoadsHandoff.overReport, hstands k hk]; rfl
    refine ⟨flags, fun k => ?_, ?_⟩
    · rw [hover k]
      by_cases hk : k ∈ ls
      · rw [if_pos hk, if_pos (List.mem_cons_of_mem _ hk), hstands k hk]
      · by_cases hkl : l = k
        · subst hkl
          simp [hl, ← he, hstep, PerLevel.get_set]
        · simp [hk, Ne.symm hkl, ← he, hstep, PerLevel.get_set, hkl]
    · rw [List.foldl_cons, he, hfold, hmap, ← he, hstep]
      simp

/-- A close's Over-Limits, decided in whatever order: every flag as it is decided, and a report for each change. -/
theorem Device.overLimits_decided (d : Device) (h : LoadsHandoff) :
    ∃ (flags : PerLevel Bool) (ls : List Level) (k : Nat),
      (∀ l, flags.get l = decideOver (h.loads.get l) (h.limits.get l) (d.admission.overLimit.get l)) ∧
      (∀ l, l ∈ ls ↔ h.Changes d.admission.overLimit l) ∧
      d.inFreeOrder levelIndex (Device.decideLevel h) (d.changedLevels h) = { d with
        admission := { d.admission with overLimit := flags }
        mail := { d.mail with reports := d.mail.reports ++ ls.map (h.overReport d.admission.overLimit) }
        freeCount := k } := by
  obtain ⟨ls, k, hperm, hfree⟩ := Device.inFreeOrder_perm levelIndex (Device.decideLevel h) (d.changedLevels h) d
  have hmem (l : Level) : l ∈ ls ↔ h.Changes d.admission.overLimit l := hperm.mem_iff.trans (d.mem_changedLevels h l)
  obtain ⟨flags, hover, hfold⟩ := Device.foldl_decideLevel h ls { d with freeCount := k }
    (hperm.nodup_iff.2 (levels_nodup.filter _)) fun l hl => (hmem l).1 hl
  refine ⟨flags, ls, k, fun l => ?_, hmem, hfree.trans hfold⟩
  rw [hover l]
  by_cases hl : l ∈ ls
  · rw [if_pos hl]
    exact (Bool.eq_not.2 ((hmem l).1 hl)).symm
  · rw [if_neg hl]
    exact (not_not.1 (mt (hmem l).2 hl)).symm

theorem Device.evaluateHead_overLimit (d : Device) (b : Branch) :
    (d.evaluateHead b).admission.overLimit = d.admission.overLimit := by
  cases hq : d.admission.queues[b] with
  | nil => rw [Device.evaluateHead_empty hq]
  | cons e rest =>
    cases hr : d.blockReason b e.outlet with
    | some r => rw [Device.evaluateHead_blocked hq hr]
    | none => rw [(Device.evaluateHead_granted hq hr).1]

theorem Device.evaluateHeads_overLimit (d : Device) : d.evaluateHeads.admission.overLimit = d.admission.overLimit :=
  inFreeOrder_keeps (fun e => e.admission.overLimit = d.admission.overLimit) _ _
    (fun e b he => (Device.evaluateHead_overLimit e b).trans he) (fun _ _ he => he) _ _ rfl

/-- Settles O57. -/
theorem levelLoadsDecideOverLimit : Obligations.LevelLoadsDecideOverLimit := by
  intro s h later hloads
  obtain ⟨flags, ls, k, hover, hls, hdecided⟩ :=
    Device.overLimits_decided { s.dev with mail := { s.dev.mail with loads := later } } h
  obtain ⟨d, hd⟩ : ∃ d : Device, d = { s.dev with
      admission := { s.dev.admission with overLimit := flags, loads := h.loads }
      mail := { s.dev.mail with
        loads := later, reports := s.dev.mail.reports ++ ls.map (h.overReport s.dev.admission.overLimit) }
      freeCount := k } := ⟨_, rfl⟩
  have hexec : exec .levelLoadsHandoff s = .next { s with dev := d.evaluateHeads } := by
    show Host.Outcome.next { s with dev := s.dev.nextLoads } = _
    unfold Device.nextLoads
    rw [hloads]
    unfold Device.takeLoads
    dsimp only
    rw [hdecided, hd]
  refine .of_exec hexec ?_
  intro adm rises clears told
  have hrises (l : Level) : rises l ↔ h.Changes adm.overLimit l ∧ adm.overLimit.get l = false := by
    unfold LoadsHandoff.Changes decideOver
    cases hl : adm.overLimit.get l <;> simp [rises, hl]
  have hclears (l : Level) : clears l ↔ h.Changes adm.overLimit l ∧ adm.overLimit.get l = true := by
    unfold LoadsHandoff.Changes decideOver
    cases hl : adm.overLimit.get l <;> simp [clears, hl, or_iff_not_imp_left]
  have hflags (l : Level) : flags.get l = true ↔ rises l ∨ adm.overLimit.get l = true ∧ ¬clears l := by
    rw [hrises, hclears, hover]
    unfold LoadsHandoff.Changes
    cases adm.overLimit.get l <;> simp
  have hover' : d.evaluateHeads.admission.overLimit = flags := by rw [Device.evaluateHeads_overLimit, hd]
  have htold (l : Level) : h.overReport adm.overLimit l = told (if adm.overLimit.get l then .limitClear else .limitOver) l :=
    rfl
  have hreports : d.evaluateHeads.mail.reports = s.dev.mail.reports ++ ls.map (h.overReport adm.overLimit) := by
    rw [Device.evaluateHeads_reports, hd]
  have hwords (g : Group) : d.groupWords g = s.dev.groupWords g := by
    cases g with
    | level l =>
      have hl : d.overLimit l = s.dev.overLimit l := by
        rw [Device.overLimit, Device.overLimit, hloads, List.foldl_cons, ← hover l, hd]
      subst hd
      show Device.levelWords _ l = Device.levelWords _ l
      unfold Device.levelWords Device.packedLevel
      rw [hl]
      rfl
    | _ => rw [hd]; rfl
  refine ⟨?_, ?_, (Device.evaluateHeads_publishes d).from (by rw [hd]) hwords (by rw [hd]), fun l => ⟨?_, fun hl => ?_, fun hl => ?_⟩,
    ⟨ls.map (h.overReport adm.overLimit), ?_, fun r hr => ?_⟩, ?_⟩
  · refine .trans (e := d) (fun p hp => ?_) ((Device.evaluateHeads_frame d).mono (by decide))
    subst hd
    cases p <;> first | rfl | exact absurd hp (by decide)
  · have hseq := Device.evaluateHeads_sequences d
    subst hd
    exact ⟨hseq.engine, hseq.levels⟩
  · rw [hover']
    exact hflags l
  · obtain ⟨hchange, hwas⟩ := (hrises l).1 hl
    rw [hreports]
    refine List.mem_append_right _ (List.mem_map.2 ⟨l, (hls l).2 hchange, ?_⟩)
    rw [htold, hwas]
    rfl
  · obtain ⟨hchange, hwas⟩ := (hclears l).1 hl
    rw [hreports]
    refine List.mem_append_right _ (List.mem_map.2 ⟨l, (hls l).2 hchange, ?_⟩)
    rw [htold, hwas]
    rfl
  · rw [Device.evaluateHeads_mail, hd]
  · obtain ⟨l, hl, rfl⟩ := List.mem_map.1 hr
    have hchange := (hls l).1 hl
    refine ⟨l, ?_⟩
    rw [hrises, hclears, htold]
    cases hwas : adm.overLimit.get l
    · exact .inl ⟨⟨hchange, rfl⟩, rfl⟩
    · exact .inr ⟨⟨hchange, rfl⟩, rfl⟩
  · refine (Device.evaluateHeads_spec d).congr (by rw [hd]) (by rw [hd]) (by rw [hd]) ?_ (by rw [hd]) rfl rfl
    rw [hover', hd]

end Sys2Proof.Machine
end

