-- ==== Sys2Proof/Proofs/HoldRelease.lean ====
section
/-! PROOFS. What a release of held verdicts publishes (R108, R147); the HOLD line (R106); HALT and RUN (R34, R35). -/

namespace Sys2Proof.Machine
open Sys2Proof

/-! ## A change of one outlet's Status group (R108) -/

/-- A change that shows in one outlet's Status group alone and publishes it, in service, where its words move. -/
structure Device.StatusStep (d e : Device) (n : Outlet) : Prop where
  trail : d.Trail e
    (if e.groupWords (.status n) = d.groupWords (.status n) then [] else if d.inService then [.status n] else [])
  words : ∀ g, g ≠ .status n → e.groupWords g = d.groupWords g
  charter : e.charter = d.charter

/-- Changes of Status groups, each published in service where its words have moved in the end, and nothing else shown. -/
structure Device.StatusTrail (d e : Device) (ns : List Outlet) : Prop where
  trail : ∃ gs, d.Trail e gs ∧ ∀ g ∈ gs, ∃ n ∈ ns, g = .status n ∧ d.Moves e g
  words : ∀ g, (∀ n ∈ ns, g ≠ .status n) → e.groupWords g = d.groupWords g
  charter : e.charter = d.charter

/-- What shows the same and has published nothing. -/
theorem Device.Trail.unchanged {d e : Device} (hp : e.pub = d.pub) (hw : e.groupWords = d.groupWords)
    (he : e.engine = d.engine) : d.Trail e [] := by
  refine .quiet hp fun g hg => ?_
  cases g with
  | charter | status n => exact hg.2 (by rw [hw])
  | level l => exact hg (by rw [he])
  | meter n => exact hg (by rw [he])

theorem Device.StatusStep.modWatch (d : Device) (n : Outlet) (f : WatchContext → WatchContext) :
    d.StatusStep (d.modWatch n f) n := by
  have honly : (d.setWatch n f).OnlyPub (d.modWatch n f) := Device.modWatch_onlyPub d n f
  have hwords (g : Group) : (d.modWatch n f).groupWords g = (d.setWatch n f).groupWords g := by rw [honly.groupWords]
  refine ⟨?_, fun g hg => ?_, by rw [honly]; rfl⟩
  · rw [hwords]
    exact Device.modWatch_trail d n f
  · rw [hwords]
    cases g with
    | status m =>
      have hm : n ≠ m := fun h => hg (by rw [h])
      exact Device.statusWords_congr m rfl (by simp [Device.setWatch, hm])
    | _ => rfl

/-- The same before and after: what shows the same and has published nothing changes nothing. -/
theorem Device.StatusStep.congr {d d' e e' : Device} {n : Outlet} (h : d'.StatusStep e' n) (hp : d'.pub = d.pub)
    (hw : d'.groupWords = d.groupWords) (he : d'.engine = d.engine) (hc : d'.charter = d.charter) (hp' : e.pub = e'.pub)
    (hw' : e.groupWords = e'.groupWords) (he' : e.engine = e'.engine) (hc' : e.charter = e'.charter) :
    d.StatusStep e n := by
  refine ⟨?_, fun g hg => by rw [hw', h.words g hg, hw], by rw [hc', h.charter, hc]⟩
  have htrail := h.trail
  rw [Device.inService_charter hc, hw, ← hw'] at htrail
  have hfrom := htrail.from hp (fun g => by rw [hw]) (fun l => by rw [he]) fun n => by rw [he]
  simpa using hfrom.trans (.unchanged hp' hw' he') (fun g _ _ => by rw [hw'])
    (by rw [Device.enforcing_charter hc']; exact id) (by rw [Device.inService_charter hc']; exact id)

theorem Device.StatusStep.unchanged {d e : Device} (n : Outlet) (hp : e.pub = d.pub) (hw : e.groupWords = d.groupWords)
    (he : e.engine = d.engine) (hc : e.charter = d.charter) : d.StatusStep e n :=
  ⟨by rw [hw, if_pos rfl]; exact .unchanged hp hw he, fun g _ => by rw [hw], hc⟩

/-- A verdict decision shows in its outlet's Status group alone. -/
theorem Device.StatusStep.decideVerdict (d : Device) (n : Outlet) : d.StatusStep (d.decideVerdict n) n := by
  unfold Device.decideVerdict
  split
  · exact .unchanged n rfl rfl rfl rfl
  · split
    · exact (Device.StatusStep.modWatch (d.reportVerdict n .cycled) n _).congr rfl rfl rfl rfl rfl rfl rfl rfl
    · exact (Device.StatusStep.modWatch (d.reportVerdict n .lockedOut) n _).congr rfl rfl rfl rfl rfl rfl rfl rfl

theorem Device.StatusTrail.refl (d : Device) : d.StatusTrail d [] :=
  ⟨⟨[], .refl d, by simp⟩, fun _ _ => rfl, rfl⟩

/-- One more Status group, of another outlet. -/
theorem Device.StatusTrail.step {d e f : Device} {ns : List Outlet} {n : Outlet} (h : d.StatusTrail e ns)
    (k : e.StatusStep f n) (hn : n ∉ ns) : d.StatusTrail f (n :: ns) := by
  obtain ⟨gs, htrail, hgs⟩ := h.trail
  have hkept (g : Group) (hg : g ≠ .status n) : f.groupWords g = e.groupWords g := k.words g hg
  have hfirst : e.groupWords (.status n) = d.groupWords (.status n) :=
    h.words _ fun m hm hmn => hn (by cases hmn; exact hm)
  have hservice : f.inService = d.inService :=
    (Device.inService_charter k.charter).trans (Device.inService_charter h.charter)
  have hne (g : Group) (hg : g ∈ gs) : g ≠ .status n := by
    obtain ⟨m, hm, rfl, -⟩ := hgs g hg
    exact fun hmn => hn (by cases hmn; exact hm)
  refine ⟨⟨_, htrail.trans k.trail (fun g hg _ => (hkept g (hne g hg)).symm)
      (by rw [Device.enforcing_charter k.charter]; exact id) (by rw [Device.inService_charter k.charter]; exact id),
    fun g hg => ?_⟩, fun g hg => ?_, k.charter.trans h.charter⟩
  · rcases List.mem_append.1 hg with hg | hg
    · obtain ⟨m, hm, rfl, hmove⟩ := hgs g hg
      refine ⟨m, List.mem_cons_of_mem _ hm, rfl, ?_, ?_⟩
      · rw [Device.inService_charter k.charter]
        exact hmove.1
      · rw [hkept _ (hne _ hg)]
        exact hmove.2
    · split at hg
      · cases hg
      · rename_i hmoved
        split at hg
        · rename_i hs
          refine ⟨n, List.mem_cons_self, List.mem_singleton.1 hg, ?_⟩
          rw [List.mem_singleton.1 hg]
          exact ⟨hservice.trans ((Device.inService_charter h.charter).symm.trans hs), by rw [← hfirst]; exact hmoved⟩
        · cases hg
  · rw [hkept g (hg n List.mem_cons_self), h.words g fun m hm => hg m (List.mem_cons_of_mem _ hm)]

/-- Changes of different outlets, one after another. -/
theorem Device.StatusTrail.foldl {work : Device → Outlet → Device} (hw : ∀ d n, Device.StatusStep d (work d n) n)
    (ns : List Outlet) (d e : Device) (done : List Outlet) (h : d.StatusTrail e done) (hnodup : (done ++ ns).Nodup) :
    ∃ all, d.StatusTrail (ns.foldl work e) all := by
  induction ns generalizing e done with
  | nil => exact ⟨done, h⟩
  | cons n ns ih =>
    have hn : n ∉ done := fun hn => List.disjoint_of_nodup_append hnodup hn List.mem_cons_self
    refine ih (work e n) (n :: done) (h.step (hw e n) hn) ?_
    exact (List.perm_middle.nodup_iff).1 hnodup

/-- Changes of different outlets, in whatever order. -/
theorem Device.StatusTrail.inFreeOrder {work : Device → Outlet → Device} (hw : ∀ d n, Device.StatusStep d (work d n) n)
    (index : Outlet → Nat) {ns : List Outlet} (hnodup : ns.Nodup) (d : Device) :
    ∃ all, d.StatusTrail (d.inFreeOrder index work ns) all := by
  obtain ⟨ys, k, hperm, hfree⟩ := Device.inFreeOrder_perm index work ns d
  rw [hfree]
  exact Device.StatusTrail.foldl hw ys d _ [] ⟨⟨[], .unchanged rfl rfl rfl, by simp⟩, fun _ _ => rfl, rfl⟩ (hperm.nodup_iff.2 hnodup)

/-- What a release of held verdicts publishes (R108, R147). -/
theorem Device.releaseVerdicts_statusTrail (d : Device) : ∃ all, d.StatusTrail d.releaseVerdicts all :=
  Device.StatusTrail.inFreeOrder .decideVerdict _ ((List.nodup_finRange 48).filter _) d

/-! ## Heads, then verdicts (R35, R106) -/

/-- What the evaluation of every head and then the release of held verdicts publish: the branch group of each grant and the
Status groups that move. -/
theorem Device.headsThenVerdicts_trail (d : Device) :
    ∃ gs, d.Trail d.evaluateHeads.releaseVerdicts gs ∧
      ∀ g ∈ gs, g ≠ .charter ∧ d.Moves d.evaluateHeads.releaseVerdicts g := by
  obtain ⟨gs, hheads, hgs⟩ := Device.evaluateHeads_trail d
  have hseq := (Device.headsThenVerdicts_spec d).2.2.2.1
  have hframe := Device.evaluateHeads_frame d
  obtain ⟨e, he⟩ : ∃ e, d.evaluateHeads = e := ⟨_, rfl⟩
  rw [he] at hheads hgs hseq hframe ⊢
  obtain ⟨all, hv⟩ := Device.releaseVerdicts_statusTrail e
  obtain ⟨hs, htrail, hhs⟩ := hv.trail
  have hadm : e.releaseVerdicts.admission = e.admission := Device.releaseVerdicts_frame e .admission (by decide)
  rw [hadm] at hseq
  have hlevel (g : Group) (hg : g ∈ gs) : e.releaseVerdicts.groupWords g = e.groupWords g := by
    obtain ⟨c, rfl, -⟩ := hgs g hg
    exact hv.words _ fun n _ h => by cases h
  refine ⟨gs ++ hs, hheads.trans htrail (fun g hg _ => (hlevel g hg).symm)
    (by rw [Device.enforcing_charter hv.charter]; exact id) (by rw [Device.inService_charter hv.charter]; exact id),
    fun g hg => ?_⟩
  rcases List.mem_append.1 hg with hg | hg
  · obtain ⟨c, rfl, hi, hgranted⟩ := hgs g hg
    exact ⟨nofun, hseq.moves hi (by rw [hgranted]; decide) (by rw [hgranted]; decide)⟩
  · obtain ⟨n, -, rfl, hmove⟩ := hhs g hg
    have hwords : e.groupWords (.status n) = d.groupWords (.status n) :=
      Device.statusWords_congr n (by rw [show e.outlet = d.outlet from hframe .outlet (by decide)])
        (by rw [show e.watch = d.watch from hframe .watch (by decide)])
    exact ⟨nofun, hmove.1, by rw [← hwords]; exact hmove.2⟩

/-- Settles O32. -/
theorem holdLine : Obligations.HoldLine := by
  intro s
  refine ⟨rfl, fun hlow => ?_, fun hhigh => ?_⟩
  · show Host.Outcome.next { s with dev := s.dev.releaseHold } = _
    rw [Device.releaseHold, if_neg (by simp [hlow])]
  · obtain ⟨d, hd⟩ : ∃ d, d = s.dev.setHold false := ⟨_, rfl⟩
    have hexec : exec .holdRelease s = .next { s with dev := d.evaluateHeads.releaseVerdicts } := by
      show Host.Outcome.next { s with dev := s.dev.releaseHold } = _
      rw [Device.releaseHold, if_pos hhigh, hd]
    obtain ⟨hframe, hheads, hverdicts, hseq, hmail⟩ := Device.headsThenVerdicts_spec d
    obtain ⟨gs, htrail, hmoves⟩ := Device.headsThenVerdicts_trail d
    have hpub := (htrail.publishes (anyhow := []) (fun g hg => .inl (hmoves g hg).2) (by simp)).from (d := s.dev) (by rw [hd]; rfl)
      (fun g => by rw [hd]; cases g <;> rfl) (by rw [hd]; rfl)
    subst hd
    exact .of_exec hexec ⟨hframe, hheads, hverdicts, ⟨hseq.engine, hseq.levels⟩, hpub, hmail⟩

end Sys2Proof.Machine
end

