-- ==== Sys2Proof/Proofs/CharterCommands.lean ====
section
/-! PROOFS. The charter's commands (R25, R26, R34, R35) and Uptime (R37). -/

namespace Sys2Proof.Machine
open Sys2Proof

/-! ## Publications, whole -/

theorem Device.publish_whole (d : Device) (g : Group) (words : List Word) :
    d.publish g words = { d with pub := d.pub.takes g words } := by
  rw [← Device.publish_eq]

theorem Device.publishCharter_whole {d : Device} (he : d.enforcing = true) :
    d.publishCharter = { d with pub := d.pub.takes .charter d.charterWords } := by
  rw [Device.publishCharter, if_pos he, Device.publish_whole]

/-! ## Commands without effect, HALT and RUN in service (R25, R34, R35) -/

theorem Device.Accepts.exec_command {s : State} {a : WriteAccess} (h : s.dev.Accepts a 1) {v : Word}
    (hv : s.dev.merged 1 a = v) :
    exec (.processorWrite a) s = .next { s with dev := (s.dev.stored 1 a).takeCommand v } := by
  show Host.Outcome.next { s with dev := s.dev.presentAccess (.write a) } = _
  have hp : place 1 = .charter 1 := place_charter 1 (by decide)
  rw [h.present, hp, hv]
  rfl

theorem Device.takeCommand_run (d : Device) : d.takeCommand 1 = d.takeRun := if_pos rfl

theorem Device.takeCommand_halt (d : Device) : d.takeCommand 2 = d.takeHalt := rfl

theorem Device.takeHalt_running {d : Device} (hs : d.charter.state = .running) :
    d.takeHalt = (d.setCharter fun c => { c with state := .halted }).publishCharter.reportCharter := by
  rw [Device.takeHalt, hs]

theorem Device.takeHalt_other {d : Device} (hs : d.charter.state ≠ .running) : d.takeHalt = d := by
  unfold Device.takeHalt
  cases h : d.charter.state <;> first | rfl | exact absurd h hs

theorem Device.takeRun_halted {d : Device} (hs : d.charter.state = .halted) : d.takeRun = d.leaveHalt := by
  rw [Device.takeRun, hs]

theorem Device.takeRun_enforcing {d : Device} (hs : d.charter.state = .sweeping ∨ d.charter.state = .running) :
    d.takeRun = d := by
  unfold Device.takeRun
  rcases hs with hs | hs <;> rw [hs]

theorem Device.takeRun_unenforced {d : Device} (he : d.enforcing = false) : d.takeRun = d.layoutCheck := by
  unfold Device.enforcing at he
  unfold Device.takeRun
  cases hs : d.charter.state <;> rw [hs] at he <;> first | rfl | cases he

/-- What the charter group shows depends on these alone. -/
theorem Device.charterWords_congr {d e : Device} (hc : e.charter = d.charter) (hb : e.pins.bankB = d.pins.bankB)
    (hu : e.suspendedSince = d.suspendedSince) (hs : e.sampler = d.sampler) (ha : e.applyEcho = d.applyEcho)
    (hf : e.engine.lineFrequency = d.engine.lineFrequency)
    (hr : ∀ l : Level, (e.engine.levels.get l).rollover = (d.engine.levels.get l).rollover) :
    e.charterWords = d.charterWords := by
  unfold Device.charterWords
  simp only [hc, hb, hu, hs, ha, hf, hr]

theorem Device.SequencesMove.rollover {d e : Device} {t : Branch → Nat} (h : d.SequencesMove e t) (l : Level) :
    (e.engine.levels.get l).rollover = (d.engine.levels.get l).rollover := by
  rw [h.levels l]
  cases l <;> rfl

/-- The evaluation of every head and the release of held verdicts leave the charter group. -/
theorem Device.headsThenVerdicts_charterWords (d : Device) :
    d.evaluateHeads.releaseVerdicts.charterWords = d.charterWords := by
  obtain ⟨hframe, -, -, hseq, -⟩ := Device.headsThenVerdicts_spec d
  refine Device.charterWords_congr (hframe .charter (by decide))
    (by rw [show d.evaluateHeads.releaseVerdicts.pins = d.pins from hframe .pins (by decide)])
    (hframe .suspendedSince (by decide)) (hframe .sampler (by decide)) (hframe .applyEcho (by decide))
    (by rw [hseq.engine]) hseq.rollover

/-- A RUN taken while HALTED, before its publications, heads and verdicts (R35). -/
def Device.resumed (d : Device) : Device :=
  { d with
    charter := { d.charter with state := .running, settings := Settings.ofWords fun w => (d.shadow w).toNat }
    mail := { d.mail with reports := d.mail.reports ++ [⟨.charterState, .strip, 2, d.charter.reject.code⟩] } }

theorem Device.leaveHalt_eq (d : Device) : d.leaveHalt =
    (Device.evaluateHeads
      { d.resumed with pub := d.pub.takes .charter d.resumed.charterWords }).releaseVerdicts := by
  unfold Device.leaveHalt
  dsimp only
  rw [Device.takeSettings_eq, Device.publishCharter_whole (by rfl)]
  rfl

/-- The charter group published at a RUN, and what the RUN brings about after it. -/
theorem Device.resumed_publishes {d e : Device}
    (he : e = { d.resumed with pub := d.pub.takes .charter d.resumed.charterWords }) :
    d.Publishes e.evaluateHeads.releaseVerdicts [.charter] := by
  obtain ⟨gs, htrail, hgs⟩ := Device.headsThenVerdicts_trail e
  have hsame (g : Group) (hg : g ≠ .charter) : e.groupWords g = d.groupWords g := by
    cases g <;> first | exact absurd rfl hg | rw [he]; rfl
  have hfirst : d.Trail e [.charter] := by
    refine ⟨by rw [he]; rfl, fun g hg => List.mem_singleton.2 ?_⟩
    cases g with
    | charter => rfl
    | status n => exact absurd (hsame (.status n) nofun) hg.2
    | level l => exact absurd (by rw [he]; rfl) hg
    | meter n => exact absurd (by rw [he]; rfl) hg
  have hcharter : e.evaluateHeads.releaseVerdicts.charter = e.charter :=
    (Device.headsThenVerdicts_spec e).1 .charter (by decide)
  refine (hfirst.trans htrail (fun g hg _ => ?_) (by rw [Device.enforcing_charter hcharter]; exact id)
    (by rw [Device.inService_charter hcharter]; exact id)).publishes (fun g hg => ?_) (fun g hg => List.mem_append_left _ hg)
  · rw [List.mem_singleton.1 hg]
    exact (Device.headsThenVerdicts_charterWords e).symm
  · rcases List.mem_append.1 hg with hg | hg
    · exact .inr hg
    · obtain ⟨hne, hmove⟩ := hgs g hg
      refine .inl (hmove.of_same (hsame g hne).symm (fun l => by rw [he]; rfl) fun n => by rw [he]; rfl)

/-- Settles O20. -/
theorem haltAndRun : Obligations.HaltAndRun := by
  intro s a hacc stored told
  refine ⟨fun hrunning hv => ?_, fun hhalted hv => ?_⟩
  · have hs : stored.charter.state = .running := of_decide_eq_true hrunning
    have hexec := hacc.exec_command hv
    rw [Device.takeCommand_halt, Device.takeHalt_running hs, Device.publishCharter_whole (by rfl)] at hexec
    refine .of_exec hexec ⟨fun p hp => ?_, rfl, rfl, rfl⟩
    cases p <;> first | rfl | exact absurd hp (by decide)
  · have hexec := hacc.exec_command hv
    rw [Device.takeCommand_run, Device.takeRun_halted (by exact hhalted), Device.leaveHalt_eq] at hexec
    obtain ⟨e, he⟩ : ∃ e : Device, e = { stored.resumed with
      pub := stored.pub.takes .charter stored.resumed.charterWords } := ⟨_, rfl⟩
    rw [← he] at hexec
    have hpub := (Device.resumed_publishes he).from (d := s.dev) rfl (fun g => by cases g <;> rfl) rfl
    obtain ⟨hframe, hheads, hverdicts, hseq, hmail⟩ := Device.headsThenVerdicts_spec e
    have hservice : e.inService = s.dev.inService := by rw [hacc.service, he]; rfl
    have hseq' := ((Device.SequencesMove.refl s.dev).congr (e' := e) (by rw [he]; rfl)).trans hseq hservice
      fun b => (Nat.zero_add _).symm
    subst he
    refine .of_exec hexec ⟨fun p hp => ?_, hheads.congr rfl rfl rfl rfl rfl rfl rfl, hverdicts, hseq', hpub, hmail⟩
    have h := hframe p hp
    cases p <;> first | exact h | exact absurd hp (by decide)

/-! ## Uptime (R37) -/

/-- The charter group shows Uptime whole. -/
theorem Device.uptime_of_charterWords {d e : Device} (h : e.charterWords = d.charterWords)
    (hd : d.charter.uptime ≤ 4294967295) (he : e.charter.uptime ≤ 4294967295) : e.charter.uptime = d.charter.uptime := by
  have hhigh := congrArg (fun ws => ws[3]?.map BitVec.toNat) h
  have hlow := congrArg (fun ws => ws[4]?.map BitVec.toNat) h
  simp [Device.charterWords, wordsOf] at hhigh hlow
  omega

/-- The block as a second passes, before its publication (R37). -/
def Device.secondPassed (d : Device) : Device :=
  { d.advance (1000000 - d.charter.subsecond) with charter := { d.charter with
      uptime := min (d.charter.uptime + 1) 4294967295
      subsecond := d.charter.subsecond + (1000000 - d.charter.subsecond) - 1000000 } }

theorem Device.secondPassed_uptime (d : Device) : d.secondPassed.charter.uptime = min (d.charter.uptime + 1) 4294967295 :=
  rfl

theorem Device.secondPassed_charterWords {d : Device} (hup : d.charter.uptime ≤ 4294967295) :
    d.secondPassed.charterWords = d.charterWords ↔ ¬d.charter.uptime < 4294967295 := by
  have huptime := d.secondPassed_uptime
  refine ⟨fun h => ?_, fun h => ?_⟩
  · have hsame := Device.uptime_of_charterWords h hup (huptime ▸ Nat.min_le_right _ _)
    omega
  · have hsame : d.secondPassed.charter.uptime = d.charter.uptime := by omega
    unfold Device.charterWords
    rw [hsame]
    rfl

theorem Device.nextSecond_eq {d : Device} (hup : d.charter.uptime ≤ 4294967295) : d.nextSecond =
    if d.enforcing = true ∧ d.charter.uptime < 4294967295 then
      { d.secondPassed with pub := d.pub.takes .charter d.secondPassed.charterWords }
    else d.secondPassed := by
  have hchange : d.nextSecond =
      if d.secondPassed.charterWords = d.charterWords then d.secondPassed else d.secondPassed.publishCharter := rfl
  have henforcing : d.secondPassed.enforcing = d.enforcing := rfl
  rw [hchange]
  simp only [Device.secondPassed_charterWords hup]
  by_cases hless : d.charter.uptime < 4294967295
  · rw [if_neg (not_not.2 hless)]
    by_cases he : d.enforcing = true
    · rw [Device.publishCharter_whole (henforcing.trans he), if_pos ⟨he, hless⟩]
      rfl
    · rw [Device.publishCharter, if_neg (henforcing ▸ he), if_neg fun h => he h.1]
  · rw [if_pos hless, if_neg fun h => hless h.2]

/-- Settles O24. -/
theorem uptimeCountsSeconds : Obligations.UptimeCountsSeconds := by
  intro s hup
  have hexec : exec .uptimeIncrease s = .next { s with dev := s.dev.nextSecond } := rfl
  rw [Device.nextSecond_eq hup] at hexec
  refine .of_exec hexec ?_
  split
  all_goals
    refine ⟨rfl, rfl, fun n => getElem_mapAll .., fun n => getElem_mapAll .., rfl, fun p hp => ?_⟩
    cases p <;> first | exact absurd hp (by decide) | rfl

/-! ## RUN before service (R26) -/

/-- The Report Writer looks at the ring, the queue and Uptime alone. -/
theorem Device.takeReport_of_rest (d : Device) (ram : Memory) (path : ThroughPath) (mail : Mail) (r : Report) :
    ({ d with ram := ram, path := path, mail := mail } : Device).takeReport r =
      { d.takeReport r with ram := ram, path := path, mail := mail } := by
  unfold Device.takeReport
  split <;> rename_i h
  · rw [if_pos (by exact h)]
    rfl
  · rw [if_neg (by exact h)]
    rfl

/-- A report taken stays within the ring and the Publication Unit. -/
theorem Device.takeReport_frame (d : Device) (r : Report) : d.Untouched (d.takeReport r) [.pub, .reports] := by
  intro p hp
  unfold Device.takeReport
  split <;> cases p <;> first | exact absurd hp (by decide) | rfl

/-- What stays within the ring and the Publication Unit, whole. -/
theorem Device.Untouched.ring_and_pub {d e : Device} (h : d.Untouched e [.pub, .reports]) :
    e = { d with pub := e.pub, reports := e.reports } := by
  obtain ⟨pins, ram, now, path, pub, charter, sampler, engine, outlet, applyEcho, watch, since, admission, reports, mail,
    free⟩ := e
  rw [Device.mk.injEq]
  exact ⟨h .pins (by decide), h .ram (by decide), h .now (by decide), h .path (by decide), rfl, h .charter (by decide),
    h .sampler (by decide), h .engine (by decide), h .outlet (by decide), h .applyEcho (by decide), h .watch (by decide),
    h .suspendedSince (by decide), h .admission (by decide), rfl, h .mail (by decide), h .freeCount (by decide)⟩

theorem Device.takeReport_store (d : Device) (ram : Memory) (path : ThroughPath) (r : Report) :
    ({ d with ram := ram, path := path } : Device).takeReport r = { d.takeReport r with ram := ram, path := path } := by
  have hmail : (d.takeReport r).mail = d.mail := d.takeReport_frame r .mail (by decide)
  rw [d.takeReport_of_rest ram path d.mail r, ← hmail]

theorem Device.takeReport_mail (d : Device) (mail : Mail) (r : Report) :
    ({ d with mail := mail } : Device).takeReport r = { d.takeReport r with mail := mail } := by
  have hram : (d.takeReport r).ram = d.ram := d.takeReport_frame r .ram (by decide)
  have hpath : (d.takeReport r).path = d.path := d.takeReport_frame r .path (by decide)
  rw [d.takeReport_of_rest d.ram d.path mail r, ← hram, ← hpath]

/-- The reports written beside another RAM and Shadow File. -/
theorem Device.writeReports_store (d : Device) (ram : Memory) (path : ThroughPath) :
    ({ d with ram := ram, path := path } : Device).writeReports = { d.writeReports with ram := ram, path := path } :=
  List.foldl_hom (fun e : Device => ({ e with ram := ram, path := path } : Device)) (g₁ := Device.takeReport)
    (g₂ := Device.takeReport) (init := { d with mail := { d.mail with reports := [] } }) fun e r =>
      e.takeReport_store ram path r

theorem Device.writeReports_frame (d : Device) :
    ({ d with mail := { d.mail with reports := [] } } : Device).Untouched d.writeReports [.pub, .reports] :=
  .foldl _ Device.takeReport_frame _ _

/-- Report writes, one for each report handed over, write them all. -/
theorem runs_reportWrites (reports : List Report) (s : State) (h : s.dev.mail.reports = reports) :
    runs (reports.map fun _ => .reportWrite) s { s with dev := s.dev.writeReports } := by
  induction reports generalizing s with
  | nil =>
    have hnone : s.dev.writeReports = s.dev := by
      unfold Device.writeReports
      rw [h]
      show { s.dev with mail := { s.dev.mail with reports := [] } } = s.dev
      rw [← h]
    rw [hnone]
    rfl
  | cons r rs ih =>
    obtain ⟨e, he⟩ : ∃ e, s.dev.writeReport = e := ⟨_, rfl⟩
    have hstep : e = ({ s.dev with mail := { s.dev.mail with reports := rs } } : Device).takeReport r := by
      rw [← he, Device.writeReport, h]
    have hmail : e.mail = { s.dev.mail with reports := rs } := by
      rw [hstep]
      exact Device.takeReport_frame _ r .mail (by decide)
    have hdropped : { e with mail := { e.mail with reports := [] } } =
        ({ s.dev with mail := { s.dev.mail with reports := [] } } : Device).takeReport r := by
      rw [hmail, hstep]
      exact (Device.takeReport_mail { s.dev with mail := { s.dev.mail with reports := rs } } _ r).symm
    have hall : e.writeReports = s.dev.writeReports := by
      unfold Device.writeReports
      rw [hdropped, hmail, h, List.foldl_cons]
    have hexec : exec .reportWrite s = .next { s with dev := e } := by
      rw [← he]
      rfl
    exact ⟨{ s with dev := e }, hexec, hall ▸ ih { s with dev := e } (by rw [hmail])⟩

/-- A value written to the Command word while enforcement is off (R13). -/
theorem Device.performWrite_command {d : Device} {a : WriteAccess} (he : d.enforcing = false)
    (hoff : windowOffset d.pins.windowBase a.addr = some 1) :
    d.performWrite a = ((d.plainWrite a).writeShadow 1 (d.ramMerged a)).takeCommand (d.ramMerged a) := by
  have hp : place 1 = .charter 1 := place_charter 1 (by decide)
  unfold Device.performWrite
  rw [hoff]
  simp only [he, Bool.false_eq_true, if_false, Device.unenforcedWrite, hp]
  have hstate : ((d.plainWrite a).writeShadow 1 (d.ramMerged a)).charter = d.charter := rfl
  unfold Device.recognise
  rw [hstate]
  cases d.charter.state <;> rfl

/-- A RUN that begins the sweep (R26). -/
theorem Device.beginSweep_eq (d : Device) : d.beginSweep =
    let e : Device := { d with
      path := { d.path with lockWritten := [] }
      charter := { d.charter with
        state := .sweeping, reject := .none, sweepPosition := some 0
        afterSweep := ⟨Vector.replicate 48 false, Vector.replicate 48 none, none, none⟩ }
      reports := ⟨0, 0, 0⟩
      mail := { d.mail with reports := [⟨.charterState, .strip, 1, 0⟩] } }
    { e with pub := d.writeReports.pub.takes .charter e.charterWords } := by
  unfold Device.beginSweep Device.clearRing
  dsimp only
  rw [d.writeReports_frame.ring_and_pub, Device.publishCharter_whole (by rfl)]
  rfl

/-- Settles O18. -/
theorem runChecksLayout : Obligations.RunChecksLayout := by
  intro s a hfree he hok hoff hv
  obtain ⟨d, hd⟩ : ∃ d : Device, d = { s.dev with
      ram := s.dev.ram.writeWord a.addr.toNat 1
      path := { s.dev.path with shadow := Store.write s.dev.path.shadow 1 1 } } := ⟨_, rfl⟩
  have hstored : (s.dev.plainWrite a).writeShadow 1 (s.dev.ramMerged a) = d := by
    rw [hd, Device.plainWrite, show s.dev.ramMerged a = 1 from hv]
    rfl
  have hexec : exec (.run a) s = .next { s with dev := d.layoutCheck } := by
    show exec (.processorWrite a) s = _
    rw [hfree.exec_write, Device.performWrite_command he hoff, hstored, show s.dev.ramMerged a = 1 from hv,
      Device.takeCommand_run, Device.takeRun_unenforced (by rw [hd]; exact he)]
  have hrevision : d.shadow 0 = s.dev.shadow 0 := by
    rw [hd]
    exact Store.read_write_other s.dev.path.shadow 1 0 1 (by decide) hok.shadow
  have hlayout : d.layoutCheck = if s.dev.shadow 0 = 3 then d.beginSweep else d.rejectRun := by rw [← hrevision]; rfl
  rw [hlayout] at hexec
  by_cases h3 : s.dev.shadow 0 = 3
  · rw [if_pos h3, Device.beginSweep_eq] at hexec
    have hwritten := Device.writeReports_store s.dev d.ram d.path
    rw [show ({ s.dev with ram := d.ram, path := d.path } : Device) = d by rw [hd]] at hwritten
    refine .of_exec hexec ⟨by rw [hd], by rw [hd], fun _ => ⟨fun p hp => ?_, by rw [hd], rfl, rfl, by rw [hd],
      { s with dev := s.dev.writeReports }, runs_reportWrites _ s rfl, ?_⟩, fun h => absurd h3 h⟩
    · subst hd
      cases p <;> first | exact absurd hp (by decide) | rfl
    · rw [← show d.writeReports.pub = s.dev.writeReports.pub by rw [hwritten]]
      rfl
  · rw [if_neg h3, Device.rejectRun, Device.publish_whole] at hexec
    refine .of_exec hexec ⟨by rw [hd]; rfl, by rw [hd]; rfl, fun h => absurd h h3, fun _ => ?_⟩
    subst hd
    refine ⟨fun p hp => ?_, rfl, rfl, rfl⟩
    cases p <;> first | exact absurd hp (by decide) | rfl

end Sys2Proof.Machine
end

