-- ==== Sys2Proof/Proofs/ControlFrames.lean ====
section
/-! PROOFS. What waits for the end of the sweep (R9, R28, R33). -/

namespace Sys2Proof.Machine
open Sys2Proof

/-! ## What the Hang Watch and the Outlet Controller leave -/

/-- The Charter Unit, the Through-Path and the Report Writer's ring stand as they were. -/
structure Device.ControlStands (d e : Device) : Prop where
  charter : e.charter = d.charter
  path : e.path = d.path
  reports : e.reports = d.reports

theorem Device.ControlStands.refl (d : Device) : d.ControlStands d := ⟨rfl, rfl, rfl⟩

theorem Device.ControlStands.trans {d e f : Device} (h : d.ControlStands e) (k : e.ControlStands f) :
    d.ControlStands f := ⟨k.charter.trans h.charter, k.path.trans h.path, k.reports.trans h.reports⟩

theorem Device.ControlStands.foldl {α : Type} {work : Device → α → Device} (hw : ∀ d x, Device.ControlStands d (work d x))
    (xs : List α) (d : Device) : d.ControlStands (xs.foldl work d) := by
  induction xs generalizing d with
  | nil => exact .refl d
  | cons x xs ih => exact (hw d x).trans (ih _)

/-- Whichever of two ways a change goes. -/
theorem Device.ControlStands.ite {d e f : Device} {c : Prop} [Decidable c] (h : d.ControlStands e)
    (k : d.ControlStands f) : d.ControlStands (if c then e else f) := by
  split
  · exact h
  · exact k

theorem Device.report_stands (d : Device) (kind : ReportKind) (subject : Subject) (a b : Word) :
    d.ControlStands (d.report kind subject a b) := ⟨rfl, rfl, rfl⟩

theorem Device.changeSuspension_stands (d : Device) (f : Device → Option Nat) :
    d.ControlStands (d.changeCharter fun e => { e with suspendedSince := f e }) := ⟨by simp, by simp, by simp⟩

theorem Device.changeEcho_stands (d : Device) (x : Word × Nat) :
    d.ControlStands (d.changeCharter fun e => { e with applyEcho := x }) := ⟨by simp, by simp, by simp⟩

theorem Device.modWatch_stands (d : Device) (n : Outlet) (f : WatchContext → WatchContext) :
    d.ControlStands (d.modWatch n f) := ⟨by simp, by simp, by simp⟩

theorem Device.decideVerdict_stands (d : Device) (n : Outlet) : d.ControlStands (d.decideVerdict n) :=
  ⟨by simp, by simp, by simp⟩

theorem Device.answer_stands (d : Device) (n : Outlet) (tag : Byte) (r : EchoResult) :
    d.ControlStands (d.answer n tag r) := ⟨by simp, by simp, by simp⟩

/-! ### Heartbeats (R133, R137, R140, R142) -/

theorem Device.compareQuorum_stands (d : Device) : d.ControlStands d.compareQuorum := by
  have hfold : d.ControlStands (outlets.foldl (fun d n => d.modWatch n WatchContext.suspended) d) :=
    .foldl (fun d n => d.modWatch_stands n _) _ d
  have hbegun : d.ControlStands d.beginSuspension := by
    unfold Device.beginSuspension
    exact (hfold.trans (Device.report_stands _ _ _ _ _)).trans (Device.changeSuspension_stands _ _)
  exact .ite hbegun (.refl d)

theorem Device.confirmed_stands (d : Device) (n : Outlet) : d.ControlStands (d.confirmed n) :=
  (d.modWatch_stands n _).trans (Device.decideVerdict_stands _ n)

theorem Device.enterSuspect_stands (d : Device) (n : Outlet) : d.ControlStands (d.enterSuspect n) := by
  unfold Device.enterSuspect
  exact ((d.modWatch_stands n _).trans (.ite (Device.compareQuorum_stands _) (.refl _))).trans
    (.ite (.ite (Device.confirmed_stands _ n) (Device.modWatch_stands _ n _)) (.refl _))

theorem Device.evaluatePredicate_stands (d : Device) (n : Outlet) : d.ControlStands (d.evaluatePredicate n) := by
  have hlapsed : d.ControlStands (if (d.watch[n]).predicate then d else d.modWatch n WatchContext.lapsed) :=
    .ite (.refl d) (d.modWatch_stands n _)
  unfold Device.evaluatePredicate
  dsimp only
  split
  · exact .ite (d.enterSuspect_stands n) (.refl d)
  · exact hlapsed
  · exact hlapsed
  all_goals exact .refl d

theorem Device.setH_stands (d : Device) (n : Outlet) (h : Bool) : d.ControlStands (d.setH n h) := by
  unfold Device.setH
  exact .ite (.refl d) (((d.modWatch_stands n _).trans (.ite (Device.compareQuorum_stands _) (.refl _))).trans
    (Device.evaluatePredicate_stands _ n))

theorem Device.watchHeartbeat_stands (d : Device) (n : Outlet) : d.ControlStands (d.watchHeartbeat n) := by
  have hzeroed : d.ControlStands ((d.modWatch n WatchContext.zeroHeartbeat).setH n false) :=
    (d.modWatch_stands n _).trans (Device.setH_stands _ n _)
  unfold Device.watchHeartbeat
  dsimp only
  split
  · exact .ite (d.modWatch_stands n _) (.refl d)
  · exact d.modWatch_stands n _
  · exact hzeroed
  · exact hzeroed
  · exact hzeroed
  · exact .refl d

theorem Device.endSuspension_stands (d : Device) (since : Nat) (n : Outlet) :
    d.ControlStands (d.endSuspension since n) := by
  have hzeroed (w : Vector WatchContext 48) : d.ControlStands { d with watch := w } := ⟨rfl, rfl, rfl⟩
  unfold Device.endSuspension
  exact ((hzeroed _).trans (Device.report_stands _ _ _ _ _)).trans (Device.changeSuspension_stands _ _)

theorem Device.takeHeartbeat_stands (d : Device) (n : Outlet) : d.ControlStands (d.takeHeartbeat n) := by
  unfold Device.takeHeartbeat
  split
  · exact (d.endSuspension_stands _ n).trans (Device.watchHeartbeat_stands _ n)
  · exact d.watchHeartbeat_stands n

/-! ### Requests (R109 to R129) -/

theorem Device.enterGrace_stands (d : Device) (n : Outlet) : d.ControlStands (d.enterGrace n) :=
  .ite (d.modWatch_stands n _) (d.modWatch_stands n _)

theorem Device.takeWatchMessage_stands (d : Device) (m : WatchMessage) : d.ControlStands (d.takeWatchMessage m) := by
  cases m with
  | on n =>
    show d.ControlStands (d.takeOn n)
    unfold Device.takeOn
    split
    · exact d.enterGrace_stands n
    · exact .refl d
  | off n => exact d.modWatch_stands n _
  | answer n started entry =>
    show d.ControlStands (d.takeAnswer n started entry)
    unfold Device.takeAnswer Device.returnToWatch
    dsimp only
    split
    · exact ⟨rfl, rfl, rfl⟩
    · split
      · split <;> exact ⟨by simp, by simp, by simp⟩
      · exact d.modWatch_stands n _

theorem Device.takeWatchMessages_stands (d : Device) : d.ControlStands d.takeWatchMessages :=
  .trans (e := { d with mail := { d.mail with toWatch := [] } }) ⟨rfl, rfl, rfl⟩
    (.foldl Device.takeWatchMessage_stands _ _)

theorem Device.switchOn_stands (d : Device) (n : Outlet) (tag : Byte) (x : Nat) : d.ControlStands (d.switchOn n tag x) := by
  unfold Device.switchOn
  (repeat' split) <;> exact ⟨by simp, by simp, by simp⟩

theorem Device.switchOff_stands (d : Device) (n : Outlet) (tag : Byte) (x : Nat) :
    d.ControlStands (d.switchOff n tag x) := by
  unfold Device.switchOff
  (repeat' split) <;> exact ⟨by simp, by simp, by simp⟩

theorem Device.cycle_stands (d : Device) (n : Outlet) (tag : Byte) (x : Nat) : d.ControlStands (d.cycle n tag x) := by
  unfold Device.cycle
  dsimp only
  (repeat' split) <;> exact ⟨by simp, by simp, by simp⟩

theorem Device.stage_stands (d : Device) (n : Outlet) (tag : Byte) (t : Option Target) :
    d.ControlStands (d.stage n tag t) := by
  unfold Device.stage
  (repeat' split) <;> exact ⟨by simp, by simp, by simp⟩

theorem Device.holdWatch_stands (d : Device) (n : Outlet) (tag : Byte) (held : Bool) :
    d.ControlStands (d.holdWatch n tag held) := by
  have hanswered (r : EchoResult) : d.ControlStands
      ((d.takeWatchMessages.modWatch n fun w => { w with held := held }).answer n tag r) :=
    (d.takeWatchMessages_stands.trans (Device.modWatch_stands _ n _)).trans (Device.answer_stands _ n tag r)
  exact .ite ((hanswered _).trans (Device.decideVerdict_stands _ n)) (hanswered _)

theorem Device.resume_stands (d : Device) (n : Outlet) (tag : Byte) : d.ControlStands (d.resume n tag) :=
  (d.takeWatchMessages_stands.trans (Device.modWatch_stands _ n _)).trans (Device.answer_stands _ n tag _)

theorem Device.clearFault_stands (d : Device) (n : Outlet) (tag : Byte) : d.ControlStands (d.clearFault n tag) := by
  unfold Device.clearFault
  dsimp only
  (repeat' split) <;> exact ⟨by simp, by simp, by simp⟩

theorem Device.periodClear_stands (d : Device) (n : Outlet) (tag : Byte) : d.ControlStands (d.periodClear n tag) := by
  unfold Device.periodClear
  exact ⟨by simp, by simp, by simp⟩

theorem Device.takeRequest_stands (d : Device) (n : Outlet) (tag code : Byte) (x : Nat) :
    d.ControlStands (d.takeRequest n tag code x) := by
  have hhandled (c : RequestCode) : d.ControlStands (d.handleCode n c tag x) := by
    cases c with
    | switchOn => exact d.switchOn_stands n tag x
    | switchOff => exact d.switchOff_stands n tag x
    | cycle => exact d.cycle_stands n tag x
    | stageOn | stageOff | unstage => exact d.stage_stands n tag _
    | holdWatch => exact d.holdWatch_stands n tag true
    | freeWatch => exact d.holdWatch_stands n tag false
    | resume => exact d.resume_stands n tag
    | clearFault => exact d.clearFault_stands n tag
    | periodClear => exact d.periodClear_stands n tag
  unfold Device.takeRequest
  split
  · exact d.answer_stands n tag _
  · split
    · exact d.answer_stands n tag _
    · split
      · exact d.answer_stands n tag _
      · exact hhandled _

/-! ### Applies (R121 to R123) -/

theorem Device.actOnTarget_stands (d : Device) (n : Outlet) (t : Target) : d.ControlStands (d.actOnTarget n t) := by
  unfold Device.actOnTarget
  (repeat' split) <;> exact ⟨by simp, by simp, by simp⟩

theorem Device.deferTarget_stands (d : Device) (n : Outlet) (t : Target) : d.ControlStands (d.deferTarget n t) := by
  unfold Device.deferTarget
  dsimp only
  split <;> exact ⟨by simp, by simp, by simp⟩

theorem Device.visit_stands (acc : Device × Nat) (n : Outlet) : acc.1.ControlStands (Device.visit acc n).1 := by
  have hmod (t : OutletContext → OutletContext) : acc.1.ControlStands (acc.1.modOutlet n t) := ⟨by simp, by simp, by simp⟩
  unfold Device.visit
  dsimp only
  split
  · exact .refl _
  · split
    · exact .refl _
    · split
      · exact hmod _
      · split
        · exact (hmod _).trans (Device.deferTarget_stands _ n _)
        · exact (hmod _).trans (Device.actOnTarget_stands _ n _)

theorem Device.foldl_visit_stands (ns : List Outlet) (acc : Device × Nat) :
    acc.1.ControlStands (ns.foldl Device.visit acc).1 := by
  induction ns generalizing acc with
  | nil => exact .refl _
  | cons n ns ih => exact (Device.visit_stands acc n).trans (ih _)

theorem Device.takeApply_stands (d : Device) (tag : Word) : d.ControlStands (d.takeApply tag) := by
  unfold Device.takeApply
  dsimp only
  split
  · exact (Device.foldl_visit_stands outlets (d, 0)).trans (Device.changeEcho_stands _ _)
  · exact .refl d

end Sys2Proof.Machine
end

