-- ==== Sys2Proof/Proofs/SweepPending.lean ====
section
/-! PROOFS. What waits for the end of the sweep (R9, R28, R33). -/

namespace Sys2Proof.Machine
open Sys2Proof

/-! ## Nothing before the release looks at what waits (R29 to R32) -/

/-- The block with another pending-after-sweep set. -/
def Device.withPending (d : Device) (p : PendingSet) : Device :=
  { d with charter := { d.charter with afterSweep := p } }

section

variable (d : Device) (p : PendingSet)

theorem Device.groupWords_withPending (g : Group) : (d.withPending p).groupWords g = d.groupWords g := by
  cases g <;> rfl

theorem Device.publish_withPending (g : Group) (words : List Word) :
    (d.withPending p).publish g words = (d.publish g words).withPending p := by
  rw [Device.publish_whole, Device.publish_whole]
  rfl

theorem Device.inFreeOrder_withPending {α : Type} (index : α → Nat) {work : Device → α → Device}
    (hw : ∀ (e : Device) x, work (e.withPending p) x = (work e x).withPending p) (xs : List α) :
    (d.withPending p).inFreeOrder index work xs = (d.inFreeOrder index work xs).withPending p := by
  have hfold (ys : List α) (e : Device) : ys.foldl work (e.withPending p) = (ys.foldl work e).withPending p :=
    List.foldl_hom (fun e : Device => e.withPending p) (g₁ := work) (g₂ := work) hw
  unfold Device.inFreeOrder
  split
  · rfl
  · exact hw d _
  · exact hfold (sortByKey _ xs) { d with freeCount := d.freeCount + 1 }

theorem Device.takeBaselines_withPending : (d.withPending p).takeBaselines = d.takeBaselines.withPending p := by
  unfold Device.takeBaselines
  dsimp only
  rw [Device.takeSettings_eq, Device.takeSettings_eq]
  rfl

theorem Device.seedCounters_withPending : (d.withPending p).seedCounters = d.seedCounters.withPending p := by
  have hreported : (d.withPending p).inFreeOrder (fun x : Nat × Subject => x.1) Device.reportSeed d.invalidSeeds =
      (d.inFreeOrder (fun x : Nat × Subject => x.1) Device.reportSeed d.invalidSeeds).withPending p :=
    d.inFreeOrder_withPending p _ (fun _ _ => rfl) _
  unfold Device.seedCounters
  dsimp only
  rw [show (d.withPending p).invalidSeeds = d.invalidSeeds from rfl, hreported]
  rfl

theorem Device.placeJoin_withPending (n : Outlet) : (d.withPending p).placeJoin n = (d.placeJoin n).withPending p := by
  unfold Device.placeJoin
  rw [Device.placeEntry_eq, Device.placeEntry_eq]
  rfl

theorem Device.setOutlets_withPending : (d.withPending p).setOutlets = d.setOutlets.withPending p := by
  have hjoined (ns : List Outlet) (e : Device) :
      ns.foldl Device.placeJoin (e.withPending p) = (ns.foldl Device.placeJoin e).withPending p :=
    List.foldl_hom (fun e : Device => e.withPending p) (g₁ := Device.placeJoin) (g₂ := Device.placeJoin)
      fun e n => e.placeJoin_withPending p n
  unfold Device.setOutlets
  exact hjoined _ { d with
    outlet := Vector.ofFn d.startingOutlet
    watch := Vector.ofFn d.startingWatch
    suspendedSince := none
    admission := { Admission.afterReset with loads := d.levelLoads } }

theorem Device.publishBranch_withPending (b : Branch) :
    (d.withPending p).publishBranch b = (d.publishBranch b).withPending p := by
  unfold Device.publishBranch
  rw [show (d.withPending p).inService = d.inService from rfl]
  split
  · let e := d.setLevelMeter (.branch b) fun m => { m with sequence := m.sequence + 1 }
    exact e.publish_withPending p (.level (.branch b)) (e.levelWords (.branch b))
  · rfl

theorem Device.grant_withPending (b : Branch) (e : QueueEntry) (rest : List QueueEntry) :
    (d.withPending p).grant b e rest = (d.grant b e rest).withPending p := by
  let f := ((d.setQueue b rest).occupySlot b ⟨e.outlet, d.inrushEstimate e.outlet, false, e.rank⟩).handAdmission e.outlet
  have hpublished := f.publishBranch_withPending p b
  have hgrant : (d.withPending p).grant b e rest = ((f.withPending p).publishBranch b).setTenure b
      (if rest.isEmpty then none else some ⟨((f.withPending p).publishBranch b).charter.uptime, false, some .slot⟩) := rfl
  rw [hgrant, hpublished]
  rfl

theorem Device.evaluateHead_withPending (b : Branch) :
    (d.withPending p).evaluateHead b = (d.evaluateHead b).withPending p := by
  cases hq : d.admission.queues[b] with
  | nil => rw [Device.evaluateHead_empty hq, Device.evaluateHead_empty (d := d.withPending p) hq]
  | cons e rest =>
    cases hr : d.blockReason b e.outlet with
    | some r => rw [Device.evaluateHead_blocked hq hr, Device.evaluateHead_blocked (d := d.withPending p) hq hr]; rfl
    | none =>
      have hgranted (f : Device) (hq : f.branchQueue b = e :: rest) (hr : f.blockReason b e.outlet = none) :
          f.evaluateHead b = f.grant b e rest := by
        unfold Device.evaluateHead
        rw [hq]
        dsimp only
        rw [hr]
      rw [hgranted d hq hr, hgranted (d.withPending p) hq hr, Device.grant_withPending]

theorem Device.evaluateHeads_withPending : (d.withPending p).evaluateHeads = d.evaluateHeads.withPending p :=
  d.inFreeOrder_withPending p _ (fun e b => e.evaluateHead_withPending p b) _

theorem Device.enterService_withPending : (d.withPending p).enterService = d.enterService.withPending p := by
  have hpublished (e : Device) : Device.allGroups.foldl (fun e g => e.publish g (e.groupWords g)) (e.withPending p) =
      (Device.allGroups.foldl (fun e g => e.publish g (e.groupWords g)) e).withPending p :=
    List.foldl_hom (fun e : Device => e.withPending p) fun e g => by
      rw [Device.groupWords_withPending, Device.publish_withPending]
  have hentered (e : Device) : e.enterService =
      (Device.allGroups.foldl (fun e g => e.publish g (e.groupWords g))
        (e.setCharter fun c => { c with state := .running, sweepPosition := none })).reportCharter.evaluateHeads := rfl
  let e := d.setCharter fun c => { c with state := .running, sweepPosition := none }
  have hrunning : (d.withPending p).setCharter (fun c => { c with state := .running, sweepPosition := none }) =
      e.withPending p := rfl
  have hreported (e : Device) : (e.withPending p).reportCharter = e.reportCharter.withPending p := rfl
  rw [hentered, hrunning, hpublished, hreported, Device.evaluateHeads_withPending, hentered]

/-- The block at the end of the sweep, before what waits is released. -/
def Device.entered (lines : SenseLines) : Device :=
  (d.setLines lines).takeBaselines.seedCounters.setOutlets.enterService

theorem Device.entered_withPending (lines : SenseLines) :
    (d.withPending p).entered lines = (d.entered lines).withPending p := by
  unfold Device.entered
  rw [show (d.withPending p).setLines lines = (d.setLines lines).withPending p from rfl, Device.takeBaselines_withPending,
    Device.seedCounters_withPending, Device.setOutlets_withPending, Device.enterService_withPending]

theorem Device.entered_afterSweep (lines : SenseLines) : (d.entered lines).charter.afterSweep = d.charter.afterSweep := by
  have hsame := d.entered_withPending d.charter.afterSweep lines
  rw [show d.withPending d.charter.afterSweep = d from rfl] at hsame
  rw [hsame, Device.withPending]

/-! ## The release (R33) -/

theorem Device.releaseOutlet_charter (n : Outlet) : (Device.releaseOutlet p d n).charter = d.charter ∧
    (Device.releaseOutlet p d n).reports = d.reports := by
  obtain ⟨e, he⟩ : ∃ e, (if p.heartbeats[n] = true then d.takeHeartbeat n else d) = e := ⟨_, rfl⟩
  have hheard : d.ControlStands e := he ▸ .ite (d.takeHeartbeat_stands n) (.refl d)
  unfold Device.releaseOutlet
  dsimp only
  rw [he]
  split
  · exact ⟨hheard.charter, hheard.reports⟩
  · rename_i tag code _
    have hreq := Device.takeRequest_stands { e with path := { e.path with lastTag := setAt e.path.lastTag n tag } } n tag code
      (({ e with path := { e.path with lastTag := setAt e.path.lastTag n tag } } : Device).requestArgument n)
    exact ⟨hreq.charter.trans hheard.charter, hreq.reports.trans hheard.reports⟩

/-- The tag of an outlet's waiting request becomes its last taken one. -/
theorem Device.releaseOutlet_lastTag (n m : Outlet) : (Device.releaseOutlet p d n).path.lastTag[m] =
    match p.requests[n] with
    | none => d.path.lastTag[m]
    | some (tag, _) => if n = m then tag else d.path.lastTag[m] := by
  obtain ⟨e, he⟩ : ∃ e, (if p.heartbeats[n] = true then d.takeHeartbeat n else d) = e := ⟨_, rfl⟩
  have hheard : d.ControlStands e := he ▸ .ite (d.takeHeartbeat_stands n) (.refl d)
  unfold Device.releaseOutlet
  dsimp only
  rw [he, ← hheard.path]
  cases p.requests[n] with
  | none => rfl
  | some x =>
    dsimp only
    rw [(Device.takeRequest_stands _ n x.1 x.2 _).path]
    exact getElem_setAt ..

theorem Device.foldl_releaseOutlet_charter (ns : List Outlet) :
    (ns.foldl (Device.releaseOutlet p) d).charter = d.charter ∧ (ns.foldl (Device.releaseOutlet p) d).reports = d.reports := by
  induction ns generalizing d with
  | nil => exact ⟨rfl, rfl⟩
  | cons n ns ih =>
    obtain ⟨hcharter, hreports⟩ := ih (Device.releaseOutlet p d n)
    obtain ⟨hc, hr⟩ := d.releaseOutlet_charter p n
    exact ⟨hcharter.trans hc, hreports.trans hr⟩

theorem Device.foldl_releaseOutlet_lastTag (ns : List Outlet) {m : Outlet} {tag code : Byte}
    (hp : p.requests[m] = some (tag, code)) (h : m ∈ ns ∨ d.path.lastTag[m] = tag) :
    (ns.foldl (Device.releaseOutlet p) d).path.lastTag[m] = tag := by
  induction ns generalizing d with
  | nil => exact h.resolve_left (by simp)
  | cons n ns ih =>
    refine ih (Device.releaseOutlet p d n) ?_
    rw [Device.releaseOutlet_lastTag]
    by_cases hn : n = m
    · subst hn
      simp [hp]
    · rcases h with h | h
      · exact .inl ((List.mem_cons.1 h).resolve_left (Ne.symm hn))
      · right
        split
        · exact h
        · rw [if_neg hn, h]

/-- With nothing waiting the release changes nothing. -/
theorem Device.releasePending_empty (h : d.charter.afterSweep = .empty) : d.releasePending = d := by
  have hnone (ns : List Outlet) : ns.foldl (Device.releaseOutlet .empty) d = d := by
    refine List.foldl_fixed' (fun n => ?_) ns
    simp [Device.releaseOutlet, PendingSet.empty]
  have hsame : (d.setCharter fun c => { c with afterSweep := .empty }) = d := by
    rw [Device.setCharter, ← h]
  unfold Device.releasePending
  dsimp only
  rw [h, hsame, hnone]
  rfl

/-- The Tail value that waits, taken. -/
def Device.tailReleased : Device :=
  match p.tail with
  | none => d
  | some v => { d with reports := { d.reports with tail := v.setWidth 6 } }

/-- The Apply that waits, taken. -/
def Device.applyReleased : Device :=
  match p.apply with
  | none => d
  | some v => d.takeApply v

theorem Device.applyReleased_stands : d.ControlStands (d.applyReleased p) := by
  unfold Device.applyReleased
  cases p.apply with
  | none => exact .refl d
  | some v => exact d.takeApply_stands v

theorem Device.releasePending_eq : d.releasePending =
    ((outlets.foldl (Device.releaseOutlet d.charter.afterSweep) (d.withPending .empty)).tailReleased
      d.charter.afterSweep).applyReleased d.charter.afterSweep := by
  have hsame : (d.setCharter fun c => { c with afterSweep := .empty }) = d.withPending .empty := rfl
  unfold Device.releasePending Device.applyReleased Device.tailReleased
  dsimp only
  rw [hsame]
  cases d.charter.afterSweep.tail <;> cases d.charter.afterSweep.apply <;> rfl

/-- The read of the Tail word (R27, R29). -/
theorem Device.sweepRead_last (lines : SenseLines) (hs : d.charter.state = .sweeping)
    (hpos : d.charter.sweepPosition = some tailOffset) (hq : d.pub.queue = []) (hh : d.heldCanStart = false) :
    d.sweepRead lines =
      ((d.writeShadow tailOffset (d.ram.readWord (d.windowAddress tailOffset))).entered lines).releasePending := by
  have hlast : nextSwept tailOffset = none := by decide
  unfold Device.sweepRead
  rw [hpos]
  dsimp only
  rw [if_pos ⟨hs, hq, hh⟩]
  unfold Device.sweepWord
  rw [hlast]
  rfl

end

/-! ## Writes kept, handed on and released -/

/-- An accepted write in SWEEPING to a word that is no lock word: stored, and recognised. -/
theorem Device.BusFree.exec_sweeping {s : State} {a : WriteAccess} {off : Nat} (hfree : s.dev.BusFree)
    (hs : s.dev.charter.state = .sweeping) (hoff : windowOffset s.dev.pins.windowBase a.addr = some off)
    (hk : (place off).kind = .processorOwned) (ha : s.dev.protectedAt (place off) = false ∨ a.privileged = true)
    (hlock : ¬Device.isLockWord (place off) = true) :
    exec (.processorWrite a) s = .next { s with
      dev := ((s.dev.writeRam a.addr.toNat (s.dev.ownedMerged off a)).writeShadow off
        (s.dev.ownedMerged off a)).recogniseSweeping (place off) (s.dev.ownedMerged off a) } := by
  rw [hfree.exec_write, Device.performWrite_sweeping hs hoff hk ha]
  unfold Device.storeOwned Device.noteLock
  rw [if_neg fun h => hlock h.2]

/-- Settles O23. -/
theorem sweepKeepsPending : Obligations.SweepKeepsPending := by
  refine ⟨?_, fun s a n tag code => ⟨fun hacc hv => ?_, fun hreq => ?_, fun hacc hv => ?_⟩, ?_⟩
  · intro s a off n hfree hs hoff ha v p keeps
    have hv : s.dev.ownedMerged off a = v := by
      simp only [v, Device.ownedMerged, Device.ramMerged]
      split <;> rfl
    refine ⟨fun ho => ?_, fun ho htag => ?_, fun ho => ?_, fun ho => ?_⟩
    · have hplace : place off = .outlet n heartbeatWord := ho ▸ place_outletWord n 14 (by decide)
      have hexec := hfree.exec_sweeping hs hoff (by rw [hplace]; rfl) ha (by rw [hplace]; simp [Device.isLockWord, heartbeatWord])
      rw [hplace, hv] at hexec
      exact hexec
    · have hplace : place off = .outlet n requestWord := ho ▸ place_outletWord n 16 (by decide)
      have hexec := hfree.exec_sweeping hs hoff (by rw [hplace]; rfl) ha (by rw [hplace]; simp [Device.isLockWord, requestWord])
      rw [hplace, hv, Device.recogniseSweeping, if_neg (by decide), if_pos ⟨rfl, htag⟩] at hexec
      exact hexec
    · have hplace : place off = .charter applyTagOffset := ho ▸ place_charter 0x10 (by decide)
      have hexec := hfree.exec_sweeping hs hoff (by rw [hplace]; rfl) ha (by rw [hplace]; decide)
      rw [hplace, hv] at hexec
      exact hexec
    · have hplace : place off = .tail := ho ▸ (by decide)
      have hexec := hfree.exec_sweeping hs hoff (by rw [hplace]; rfl) ha (by rw [hplace]; decide)
      rw [hplace, hv] at hexec
      exact hexec
  · show Host.Outcome.next { s with dev := s.dev.presentAccess (.write a) } = _
    have hplace : place (outletWord n 14) = .outlet n 14 := place_outletWord n 14 (by decide)
    rw [hacc.present, hplace]
    unfold Device.recogniseInService Device.takeOutletWord
    simp only [heartbeatWord, Nat.reduceEqDiff, if_false, if_true, or_self, if_neg hv]
  · show Host.Outcome.next { s with dev := s.dev.presentAccess (.write a) } = _
    rw [hreq.present]
    rfl
  · show Host.Outcome.next { s with dev := s.dev.presentAccess (.write a) } = _
    have hplace : place 0x10 = .charter applyTagOffset := place_charter 0x10 (by decide)
    rw [hacc.present, hplace]
    have hrecognised (d : Device) (old v : Word) : d.recogniseInService (.charter applyTagOffset) old v = d.recogniseApply v := rfl
    rw [hrecognised, Device.recogniseApply, if_neg (by exact hv)]
    rfl
  · intro s lines hs hpos hq hh p outletReleased
    obtain ⟨d, hd⟩ : ∃ d, (s.dev.writeShadow tailOffset (s.dev.ram.readWord (s.dev.windowAddress tailOffset))).entered lines =
      d := ⟨_, rfl⟩
    have hp : d.charter.afterSweep = p := by rw [← hd, Device.entered_afterSweep]; rfl
    have hempty : exec (.sweepRead lines) { s with dev := s.dev.withPending .empty } =
        .next { s with dev := d.withPending .empty } := by
      show Host.Outcome.next { s with dev := (s.dev.withPending .empty).sweepRead lines } = _
      have hwritten : (s.dev.withPending .empty).writeShadow tailOffset
          ((s.dev.withPending .empty).ram.readWord ((s.dev.withPending .empty).windowAddress tailOffset)) =
          (s.dev.writeShadow tailOffset (s.dev.ram.readWord (s.dev.windowAddress tailOffset))).withPending .empty := rfl
      rw [Device.sweepRead_last (s.dev.withPending .empty) lines hs hpos hq hh, hwritten, Device.entered_withPending, hd,
        Device.releasePending_empty _ rfl]
    refine ⟨d.withPending .empty, hempty, ?_⟩
    have hexec : exec (.sweepRead lines) s = .next { s with dev := d.releasePending } := by
      show Host.Outcome.next { s with dev := s.dev.sweepRead lines } = _
      rw [Device.sweepRead_last s.dev lines hs hpos hq hh, hd]
    refine .of_exec hexec ?_
    obtain ⟨d₂, hd₂⟩ : ∃ d₂, outlets.foldl (Device.releaseOutlet p) (d.withPending .empty) = d₂ := ⟨_, rfl⟩
    obtain ⟨d₃, hd₃⟩ : ∃ d₃, d₂.tailReleased p = d₃ := ⟨_, rfl⟩
    have hreleased : d.releasePending = d₃.applyReleased p := by rw [Device.releasePending_eq, hp, hd₂, hd₃]
    obtain ⟨hcharter₂, -⟩ := Device.foldl_releaseOutlet_charter (d.withPending .empty) p outlets
    have hstands := d₃.applyReleased_stands p
    have htail : d₃.charter = d₂.charter ∧ d₃.path = d₂.path ∧ ∀ v, p.tail = some v → d₃.reports.tail = v.setWidth 6 := by
      rw [← hd₃]
      unfold Device.tailReleased
      cases p.tail with
      | none => exact ⟨rfl, rfl, nofun⟩
      | some v => exact ⟨rfl, rfl, fun w hw => by cases hw; rfl⟩
    obtain ⟨hcharter₃, hpath₃, htail₃⟩ := htail
    rw [hreleased]
    refine ⟨?_, ?_, fun n tag code hn => ?_, fun v hv => ?_⟩
    · subst hd₃ hd₂
      rfl
    · rw [hstands.charter, hcharter₃, ← hd₂, hcharter₂]
      rfl
    · rw [hstands.path, hpath₃, ← hd₂]
      exact Device.foldl_releaseOutlet_lastTag _ p outlets hn (.inl (List.mem_finRange n))
    · rw [hstands.reports]
      exact htail₃ v hv

end Sys2Proof.Machine
end

