-- ==== Sys2Proof/Proofs/MeterArithmetic.lean ====
section
/-! PROOFS. Decimal strings (R69, R71, R81), and Period Energy reduced (R80 to R82). -/

namespace Sys2Proof.Machine
open Sys2Proof

/-! ## Decimal strings (R69, R71, R81) -/

theorem Digits.value_cons (d : Fin 10) (ds : Digits) : Digits.value (d :: ds) = d.val + 10 * Digits.value ds := rfl

theorem Digits.value_lt (ds : Digits) : ds.value < 10 ^ ds.length := by
  induction ds with
  | nil => exact Nat.one_pos
  | cons d ds ih =>
    have hd := d.isLt
    rw [Digits.value_cons, List.length_cons, Nat.pow_succ']
    omega

theorem Digits.value_map_zero (ds : Digits) : Digits.value (ds.map fun _ => 0) = 0 := by
  induction ds with
  | nil => rfl
  | cons d ds ih => rw [List.map_cons, Digits.value_cons, ih]; rfl

theorem Digits.value_map_nine (ds : Digits) : Digits.value (ds.map fun _ => 9) = 10 ^ ds.length - 1 := by
  induction ds with
  | nil => rfl
  | cons d ds ih =>
    have hpos : 0 < 10 ^ ds.length := Nat.pow_pos (by decide)
    have hnine : (9 : Fin 10).val = 9 := rfl
    rw [List.map_cons, Digits.value_cons, ih, List.length_cons, Nat.pow_succ', hnine]
    omega

/-- A digit sum and its carry. -/
theorem Digits.addCarry_value (ds : Digits) (w c : Nat) (hc : c ≤ 1) :
    (ds.addCarry w c).1.value + 10 ^ ds.length * (ds.addCarry w c).2 = ds.value + w % 10 ^ ds.length + c ∧
      (ds.addCarry w c).2 ≤ 1 := by
  induction ds generalizing w c with
  | nil =>
    refine ⟨?_, hc⟩
    show 0 + 1 * c = 0 + w % 1 + c
    omega
  | cons d ds ih =>
    have hd := d.isLt
    obtain ⟨hrest, hcarry⟩ := ih (w / 10) (if 10 ≤ d.val + w % 10 + c then 1 else 0) (by split <;> decide)
    refine ⟨?_, hcarry⟩
    have hmod : w % (10 * 10 ^ ds.length) = w % 10 + 10 * (w / 10 % 10 ^ ds.length) := Nat.mod_mul
    have hmul (x : Nat) : 10 * 10 ^ ds.length * x = 10 * (10 ^ ds.length * x) := Nat.mul_assoc ..
    unfold Digits.addCarry
    dsimp only
    rw [Digits.value_cons, Digits.value_cons, List.length_cons, Nat.pow_succ', hmod, hmul, Fin.ofNat_eq_cast,
      Fin.val_natCast]
    split at hrest <;> split <;> omega

theorem Digits.add_value (ds : Digits) (w : Nat) : (ds.add w).value = (ds.value + w) % 10 ^ ds.length := by
  have hlt := Digits.value_lt (ds.add w)
  rw [length_add] at hlt
  have hsum := (ds.addCarry_value w 0 (by decide)).1
  rw [← Nat.add_mod_mod, ← Nat.mod_eq_of_lt hlt, ← Nat.add_mul_mod_self_left _ _ (ds.addCarry w 0).2]
  exact congrArg (· % 10 ^ ds.length) hsum

theorem Digits.wraps_iff (ds : Digits) {w : Nat} (hw : w < 10 ^ ds.length) :
    ds.wraps w = true ↔ 10 ^ ds.length ≤ ds.value + w := by
  have hlt := Digits.value_lt (ds.add w)
  rw [length_add] at hlt
  obtain ⟨hsum, hcarry⟩ := ds.addCarry_value w 0 (by decide)
  rw [Nat.mod_eq_of_lt hw] at hsum
  change (ds.add w).value + _ = _ at hsum
  rw [Digits.wraps, decide_eq_true_iff]
  rcases Nat.le_one_iff_eq_zero_or_eq_one.1 hcarry with h | h <;> rw [h] at hsum ⊢ <;> omega

theorem Digits.addSaturating_value (ds : Digits) {w : Nat} (hw : w < 10 ^ ds.length) :
    (ds.addSaturating w).value = min (ds.value + w) (10 ^ ds.length - 1) := by
  have hwraps := ds.wraps_iff hw
  unfold Digits.addSaturating
  split
  · rename_i h
    rw [Digits.value_map_nine]
    have := hwraps.1 h
    omega
  · rename_i h
    have hless := mt hwraps.2 h
    rw [Digits.add_value, Nat.mod_eq_of_lt (by omega)]
    omega

/-- A digit difference and its borrow. -/
theorem Digits.subBorrow_value (ds es : Digits) (b : Nat) (hlen : es.length = ds.length) (hb : b ≤ 1) :
    (ds.subBorrow es b).1.value + es.value + b = ds.value + 10 ^ ds.length * (ds.subBorrow es b).2 ∧
      (ds.subBorrow es b).2 ≤ 1 := by
  induction ds generalizing es b with
  | nil =>
    rw [List.length_eq_zero_iff.1 hlen]
    refine ⟨?_, hb⟩
    show 0 + 0 + b = 0 + 1 * b
    omega
  | cons d ds ih =>
    cases es with
    | nil => cases hlen
    | cons e es =>
      have hd := d.isLt
      have he := e.isLt
      obtain ⟨hrest, hborrow⟩ := ih es (if d.val < e.val + b then 1 else 0) (Nat.succ.inj hlen) (by split <;> decide)
      refine ⟨?_, hborrow⟩
      have hmul (x : Nat) : 10 * 10 ^ ds.length * x = 10 * (10 ^ ds.length * x) := Nat.mul_assoc ..
      unfold Digits.subBorrow
      dsimp only [List.headD_cons, List.tail_cons]
      rw [Digits.value_cons, Digits.value_cons, Digits.value_cons, List.length_cons, Nat.pow_succ', hmul,
        Fin.ofNat_eq_cast, Fin.val_natCast]
      split at hrest <;> split <;> omega

theorem Digits.subFloor_value (ds es : Digits) (hlen : es.length = ds.length) :
    (ds.subFloor es).value = ds.value - es.value := by
  obtain ⟨hdiff, hborrow⟩ := ds.subBorrow_value es 0 hlen (by decide)
  have hlt := Digits.value_lt (ds.subBorrow es 0).1
  rw [length_subBorrow] at hlt
  unfold Digits.subFloor
  dsimp only
  split
  · rename_i h
    have hone : (ds.subBorrow es 0).2 = 1 := Nat.le_antisymm hborrow h
    rw [hone] at hdiff
    rw [Digits.value_map_zero]
    omega
  · rename_i h
    rw [Nat.eq_zero_of_not_pos h] at hdiff
    omega

theorem Digits.packed_lt (ds : Digits) : ds.packed < 16 ^ ds.length := by
  induction ds with
  | nil => exact Nat.one_pos
  | cons d ds ih =>
    have hd := d.isLt
    show d.val + 16 * Digits.packed ds < 16 ^ (ds.length + 1)
    rw [Nat.pow_succ']
    omega

theorem Digits.unpack_packed (ds : Digits) : unpackDigits ds.length ds.packed = ds := by
  induction ds with
  | nil => rfl
  | cons d ds ih =>
    have hd := d.isLt
    have hlow : (d.val + 16 * Digits.packed ds) % 16 = d.val := by omega
    have hhigh : (d.val + 16 * Digits.packed ds) / 16 = Digits.packed ds := by omega
    show Fin.ofNat 10 ((d.val + 16 * Digits.packed ds) % 16) :: unpackDigits ds.length ((d.val + 16 * Digits.packed ds) / 16) = d :: ds
    rw [hlow, hhigh, ih]
    simp

theorem wordsValue_wordsOf_two {x : Nat} (h : x < 4294967296) : wordsValue (wordsOf 2 x) = x := by
  simp [wordsOf, wordsValue]
  omega

/-! ## Meter groups in the Posting Queue (R16, R20, R21) -/

theorem Publication.mem_entered (p : Publication) (g : Group) (words : List Word) :
    Entry.group g words ∈ (p.entered g words).queue := by
  unfold Publication.entered
  dsimp only
  split
  · rename_i hany
    obtain ⟨e, he, hg⟩ := List.any_eq_true.1 hany
    exact List.mem_map.2 ⟨e, he, if_pos (of_decide_eq_true hg)⟩
  · exact List.mem_append_right _ (List.mem_singleton_self _)

theorem Publication.entered_lastPeriod (p : Publication) (n : Outlet) (words : List Word) :
    (p.entered (.meter n) words).lastPeriod[n] = unpackDigits 6 (wordsValue ((words.drop 11).take 2)) := by
  simp [Publication.entered]

/-- With no bracket open on a meter group and none of its updates held back, a new publication of it enters the queue. -/
theorem Publication.takes_meter {p : Publication} {n : Outlet} (words : List Word) (hback : p.heldBack[n] = none)
    (hbracket : ∀ b, p.bracket = some b → b.group ≠ .meter n) : p.takes (.meter n) words = p.entered (.meter n) words := by
  unfold Publication.takes
  dsimp only
  rw [if_pos hback]
  cases hb : p.bracket with
  | none => rfl
  | some b => exact if_neg fun h => hbracket b hb h.2

/-- Words 11 and 12 of a Meter group show its Period Energy. -/
theorem Device.meterWords_period (d : Device) (n : Outlet) (h : (d.engine.outlets[n]).period.length = 6) :
    unpackDigits 6 (wordsValue (((d.groupWords (.meter n)).drop 11).take 2)) = (d.engine.outlets[n]).period := by
  have hwords : ((d.groupWords (.meter n)).drop 11).take 2 = wordsOf 2 (d.engine.outlets[n]).period.packed := rfl
  have hlt : (d.engine.outlets[n]).period.packed < 4294967296 :=
    (Digits.packed_lt (d.engine.outlets[n]).period).trans (by rw [h]; decide)
  have hunpacked := Digits.unpack_packed (d.engine.outlets[n]).period
  rw [h] at hunpacked
  rw [hwords, wordsValue_wordsOf_two hlt, hunpacked]

/-- A new publication of a Meter group (R77). -/
theorem Device.publishMeter_eq (d : Device) (n : Outlet) : d.publishMeter n =
    let e := d.setMeter n fun m => { m with sequence := m.sequence + 1 }
    { e with pub := d.pub.takes (.meter n) (e.groupWords (.meter n)) } := by
  unfold Device.publishMeter
  dsimp only
  rw [Device.publish_whole]
  rfl

theorem Device.publishMeter_meters (d : Device) (n : Outlet) : (d.publishMeter n).engine = { d.engine with
    outlets := setAt d.engine.outlets n { d.engine.outlets[n] with sequence := (d.engine.outlets[n]).sequence + 1 } } := by
  rw [Device.publishMeter_eq]
  rfl

theorem Device.publishMeter_takes (d : Device) (n : Outlet) :
    (d.publishMeter n).pub = d.pub.takes (.meter n) ((d.publishMeter n).groupWords (.meter n)) := by
  rw [Device.publishMeter_eq]
  rfl

/-! ## Period clears and collect-clears (R80 to R82) -/

theorem wordsOf_two (x : Nat) : wordsOf 2 x = [BitVec.ofNat 16 (x / 65536), BitVec.ofNat 16 x] := by
  simp [wordsOf]

/-- Settles O30. -/
theorem periodEnergyReduced : Obligations.PeriodEnergyReduced := by
  intro s n m shows others open_
  have hshows (d' : Device) (hpub : d'.pub = s.dev.pub.takes (.meter n) (d'.groupWords (.meter n))) (hopen : ¬open_)
      (hlen : (d'.engine.outlets[n]).period.length = 6) :
      shows d' (d'.groupWords (.meter n)) (d'.engine.outlets[n]).period := by
    have htakes := Publication.takes_meter (d'.groupWords (.meter n)) (not_not.1 fun h => hopen (.inl h))
      fun b hb hg => hopen (.inr ⟨b, hb, hg⟩)
    rw [htakes] at hpub
    show _ ∧ _
    rw [hpub]
    exact ⟨Publication.mem_entered .., (Publication.entered_lastPeriod ..).trans (d'.meterWords_period n hlen)⟩
  have hothers (d' : Device) (x : OutletMeter)
      (he : d'.engine = { s.dev.engine with outlets := setAt s.dev.engine.outlets n x }) :
      others d' ∧ d'.engine.outlets[n] = x := by
    refine ⟨⟨by rw [he], fun k hk => ?_⟩, ?_⟩
    · rw [he]
      simp [Ne.symm hk]
    · rw [he]
      simp
  refine ⟨fun later hq => ?_, fun value held later hq hlen hvalue => ?_, fun words later hq hback => ?_, fun later hq => ?_⟩
  · obtain ⟨d, hd⟩ : ∃ d : Device, d = { s.dev with
        mail := { s.dev.mail with periodClears := later }
        engine := { s.dev.engine with
          outlets := setAt s.dev.engine.outlets n { m with period := List.replicate 6 0 } } } := ⟨_, rfl⟩
    have hexec : exec .periodClearEvent s = .next { s with dev := d.publishMeter n } := by
      show Host.Outcome.next { s with dev := s.dev.nextPeriodClear } = _
      rw [Device.nextPeriodClear, hq, hd]
      rfl
    obtain ⟨hstand, hmeter⟩ := hothers (d.publishMeter n)
      { m with period := List.replicate 6 0, sequence := m.sequence + 1 } (by
        rw [Device.publishMeter_meters, hd]
        simp)
    have hpub := d.publishMeter_takes n
    rw [show d.pub = s.dev.pub by rw [hd]] at hpub
    refine .of_exec hexec ⟨fun p hp => ?_, hstand, ?_, hmeter, hpub, fun hopen => ?_⟩
    · rw [Device.publishMeter_eq, hd]
      cases p <;> first | exact absurd hp (by decide) | rfl
    · rw [Device.publishMeter_eq, hd]
      rfl
    · have h := hshows _ hpub hopen (by rw [hmeter]; rfl)
      rw [hmeter] at h
      exact h
  · obtain ⟨d, hd⟩ : ∃ d : Device, d = ({ s.dev with mail := { s.dev.mail with collectClears := later } } : Device).collect
      ⟨n, value, held⟩ := ⟨_, rfl⟩
    obtain ⟨hstand, hmeter⟩ := hothers d { m with period := m.period.subFloor value } (by rw [hd]; rfl)
    have hexec : exec .collectClear s = .next { s with dev := d } := by
      show Host.Outcome.next { s with dev := s.dev.nextCollectClear } = _
      rw [Device.nextCollectClear, hq, hd]
    refine .of_exec hexec ⟨fun p hp => ?_, hstand, by rw [hmeter], ?_, ?_, ?_, by rw [hd]; rfl⟩
    · rw [hd]
      cases p <;> first | exact absurd hp (by decide) | rfl
    · rw [hmeter]
      exact (length_subFloor _ _).trans hlen
    · rw [hmeter]
      exact Digits.subFloor_value _ _ (hvalue.trans hlen.symm)
    · rw [hmeter, ← wordsOf_two, hd]
      rfl
  · obtain ⟨d, hd⟩ : ∃ d : Device, d = { s.dev with
        mail := { s.dev.mail with collectReturns := later }
        pub := Publication.entered { s.dev.pub with heldBack := setAt s.dev.pub.heldBack n none } (.meter n) words } :=
      ⟨_, rfl⟩
    have hexec : exec .collectClearReturn s = .next { s with dev := d } := by
      show Host.Outcome.next { s with dev := s.dev.nextCollectReturn } = _
      rw [Device.nextCollectReturn, hq]
      dsimp only
      rw [Device.takeReturn, if_pos rfl]
      dsimp only
      rw [hback]
      dsimp only
      rw [Device.enqueueGroup_eq, hd]
      rfl
    refine .of_exec hexec ⟨fun p hp => ?_, by rw [hd], by rw [hd], ?_, ?_, ?_⟩
    · rw [hd]
      cases p <;> first | exact absurd hp (by decide) | rfl
    · rw [hd]
      simp [Publication.entered]
    · rw [hd]
      exact Publication.mem_entered ..
    · rw [hd]
      exact Publication.entered_lastPeriod ..
  · obtain ⟨d, hd⟩ : ∃ d : Device, d = { s.dev with mail := { s.dev.mail with collectReturns := later } } := ⟨_, rfl⟩
    have hexec : exec .collectClearReturn s = .next { s with dev := d.publishMeter n } := by
      show Host.Outcome.next { s with dev := s.dev.nextCollectReturn } = _
      rw [Device.nextCollectReturn, hq]
      dsimp only
      rw [Device.takeReturn, if_neg Bool.false_ne_true, hd]
    obtain ⟨hstand, hmeter⟩ := hothers (d.publishMeter n) { m with sequence := m.sequence + 1 } (by
      rw [Device.publishMeter_meters, hd])
    have hpub := d.publishMeter_takes n
    rw [show d.pub = s.dev.pub by rw [hd]] at hpub
    refine .of_exec hexec ⟨fun p hp => ?_, hstand, ?_, hmeter, hpub, fun hopen hlen => ?_⟩
    · rw [Device.publishMeter_eq, hd]
      cases p <;> first | exact absurd hp (by decide) | rfl
    · rw [Device.publishMeter_eq, hd]
      rfl
    · have h := hshows _ hpub hopen (by rw [hmeter]; exact hlen)
      rw [hmeter] at h
      exact h

end Sys2Proof.Machine
end

