-- ==== Sys2Proof/Proofs/Heartbeats.lean ====
section
/-! PROOFS. Heartbeats (R133, R138, R142): a state in which a heartbeat brings about a verdict. -/

namespace Sys2Proof.Machine
open Sys2Proof

/-- In RUNNING, with Confirm Time 0, outlet 1's watch in WATCHING under EITHER with H and S both found true. -/
def heardWithSignature : State :=
  let d := State.reset.dev
  { dev := { d with
      charter := { d.charter with state := .running }
      watch := setAt d.watch 0 { d.watch[0] with state := .watching, policy := .either, condH := true, condS := true } }
    pending := [] }

/-- A write of 1 to outlet 1's Heartbeat word. -/
def heartbeatWrite : WriteAccess := { addr := 0x10E, enables := ⟨true, true⟩, data := 1, privileged := true }

theorem dev_of_exec_heartbeat {s t : State} {a : WriteAccess} (h : exec (.heartbeat a) s = .next t) :
    t.dev = s.dev.presentAccess (.write a) := by
  cases h
  rfl

theorem heartbeatWrite_accepted : heardWithSignature.dev.Accepts heartbeatWrite (outletWord 0 14) where
  free := rfl
  room := by decide
  offset := by decide
  service := rfl
  owned := by decide
  allowed := .inr rfl

theorem heartbeatWrite_changes : heardWithSignature.dev.merged (outletWord 0 14) heartbeatWrite ≠
    heardWithSignature.dev.shadow (outletWord 0 14) := by decide +kernel

/-- The heartbeat clears H and the predicate is evaluated again: S alone still makes it true, and the watch goes through
SUSPECT to HUNG with its VERDICT report. -/
theorem heartbeatWrite_reports :
    (heardWithSignature.dev.presentAccess (.write heartbeatWrite)).mail.reports = [⟨.verdict, .outlet 0, 2, 3⟩] := by
  decide +kernel

/-- Refutes O46: a heartbeat that clears H in WATCHING while S alone still makes the predicate true takes the watch to
SUSPECT, and with a Confirm Time of 0 at once to a verdict, whose report the statement does not allow for. -/
theorem not_heartbeatByWatchState : ¬ Obligations.HeartbeatByWatchState := by
  intro h
  obtain ⟨t, hexec, -, -, -, -, hmail, -⟩ :=
    (h heardWithSignature heartbeatWrite 0 heartbeatWrite_accepted).2 heartbeatWrite_changes
  have hreports : t.dev.mail.reports = [⟨.verdict, .outlet 0, 2, 3⟩] :=
    dev_of_exec_heartbeat hexec ▸ heartbeatWrite_reports
  have hnone : t.dev.mail.reports = [] := congrArg Mail.reports hmail
  rw [hnone] at hreports
  cases hreports

end Sys2Proof.Machine
end

