-- ==== Sys2Proof/Proofs/Reset.lean ====
section
/-! PROOFS. RESET (R22, R185). -/

namespace Sys2Proof.Machine
open Sys2Proof

/-- The scan set that RESET leaves (R22, R39). -/
theorem scanSet_full (bankB : Bool) : scanSet 1 48 bankB = outlets.filter fun n => bankB || decide (n.val < 24) := by
  cases bankB <;> decide

theorem Device.ramAfterReset_idle {d : Device} (h : d.path.held = none) : d.ramAfterReset = d.ram := by
  rw [Device.ramAfterReset, h]

/-- Settles O3. -/
theorem resetRestoresEveryUnit : Obligations.ResetRestoresEveryUnit := by
  intro s wb bpres
  have hexec : exec (.reset wb bpres) s = .next { s with dev := s.dev.reset wb bpres } := rfl
  refine .of_exec hexec ⟨rfl, Device.ramAfterReset_idle, rfl, rfl, rfl, rfl, rfl, rfl, rfl, rfl, fun n => ?_, fun n => ?_, ?_,
    fun n => ?_, rfl, rfl, fun l => ?_, fun n => ?_, rfl, rfl⟩
  · exact Vector.getElem_replicate ..
  · exact Vector.getElem_replicate ..
  · rw [← scanSet_full]
    rfl
  · exact Vector.getElem_replicate ..
  · cases l with
    | inlet => rfl
    | phase p => exact Vector.getElem_replicate ..
    | branch b => exact Vector.getElem_replicate ..
  · exact congrArg OutletContext.coil (Vector.getElem_replicate ..)

end Sys2Proof.Machine
end

