-- ==== Sys2Proof/Proofs/CloseEnergy.lean ====
section
/-! PROOFS. The energy of a close: what the Close Engine works out, counts and reports (R68 to R72, R77). -/

namespace Sys2Proof.Machine
open Sys2Proof

/-! ## The outlets (R62, R68, R70, R71) -/

/-- A meter with new values alone: the energy, the Rollover Count and the Sequence stand. -/
def OutletMeter.Revalued (m m' : OutletMeter) : Prop :=
  m' = { m with
    current := m'.current, power := m'.power, apparent := m'.apparent, range := m'.range, quality := m'.quality }

/-- A level's meter with new values alone. -/
def LevelMeter.Revalued (m m' : LevelMeter) : Prop :=
  m' = { m with load := m'.load, power := m'.power, quality := m'.quality }

theorem OutletMeter.revalued_measured (m : OutletMeter) (c : Channel) (q : Quality) (k kv v : Nat) :
    m.Revalued (m.measured c q k kv v) := by
  unfold OutletMeter.measured
  split <;> rfl

theorem Device.measure_meter (d : Device) (r : CloseRecord) (n : Outlet) :
    (d.engine.outlets[n]).Revalued (d.measure r).engine.outlets[n] := by
  simp only [Device.measure, Fin.getElem_fin, Vector.getElem_ofFn]
  split
  · exact OutletMeter.revalued_measured _ _ _ _ _ _
  · rfl

theorem Device.measure_levels (d : Device) (r : CloseRecord) : (d.measure r).engine.levels = d.engine.levels := by
  unfold Device.measure
  rfl

/-- The report of a wrap of a scanned outlet's Lifetime string at a close of this length. -/
def Device.meterRollover (d : Device) (length : Nat) (n : Outlet) : Report :=
  ⟨.rollover, .outlet n, BitVec.ofNat 16 ((d.engine.outlets[n]).charged length).rollover, 0⟩

theorem Device.chargeOutlet_eq (d : Device) (length : Nat) (n : Outlet) : Device.chargeOutlet length d n =
    { d with
      engine := { d.engine with outlets := setAt d.engine.outlets n ((d.engine.outlets[n]).charged length) }
      mail := { d.mail with reports := d.mail.reports ++
        if (d.engine.outlets[n]).lifetime.wraps ((d.engine.outlets[n]).units length)
          then [d.meterRollover length n] else [] } } := by
  unfold Device.chargeOutlet
  dsimp only
  split
  · simp [Device.report, Device.setMeter, Device.meterRollover]
  · simp [Device.setMeter]

/-- Each scanned outlet is charged once, and each wrap is reported. -/
theorem Device.foldl_chargeOutlet (length : Nat) (ns : List Outlet) (d : Device) (hnodup : ns.Nodup) :
    ∃ (meters : Vector OutletMeter 48) (reports : List Report),
      ns.foldl (Device.chargeOutlet length) d = { d with
        engine := { d.engine with outlets := meters }
        mail := { d.mail with reports := d.mail.reports ++ reports } } ∧
      (∀ n : Outlet, meters[n] = if n ∈ ns then (d.engine.outlets[n]).charged length else d.engine.outlets[n]) ∧
      ∀ n ∈ ns, (d.engine.outlets[n]).lifetime.wraps ((d.engine.outlets[n]).units length) = true →
        d.meterRollover length n ∈ reports := by
  induction ns generalizing d with
  | nil => exact ⟨d.engine.outlets, [], by simp, by simp, by simp⟩
  | cons n ns ih =>
    obtain ⟨hn, hnodup⟩ := List.nodup_cons.1 hnodup
    obtain ⟨e, he⟩ : ∃ e, Device.chargeOutlet length d n = e := ⟨_, rfl⟩
    have hstep := Device.chargeOutlet_eq d length n
    obtain ⟨meters, reports, hfold, hmeters, hreports⟩ := ih e hnodup
    have hstands (k : Outlet) (hk : n ≠ k) : e.engine.outlets[k] = d.engine.outlets[k] := by
      simp [← he, hstep, hk]
    have hcharged : e.engine.outlets[n] = (d.engine.outlets[n]).charged length := by simp [← he, hstep]
    refine ⟨meters, (if (d.engine.outlets[n]).lifetime.wraps ((d.engine.outlets[n]).units length)
      then [d.meterRollover length n] else []) ++ reports, ?_, fun k => ?_, fun k hk hwraps => ?_⟩
    · rw [List.foldl_cons, he, hfold, ← he, hstep]
      simp
    · rw [hmeters k]
      by_cases hk : n = k
      · subst hk
        simp [hn, hcharged]
      · rw [hstands k hk]
        simp [Ne.symm hk]
    · rcases List.mem_cons.1 hk with rfl | hk
      · exact List.mem_append_left _ (by rw [if_pos hwraps]; exact List.mem_cons_self)
      · have hne : n ≠ k := fun h => hn (h ▸ hk)
        rw [← hstands k hne] at hwraps
        refine List.mem_append_right _ ?_
        have hreport := hreports k hk hwraps
        rwa [Device.meterRollover, hstands k hne] at hreport

/-! ## The levels (R72) -/

/-- The watt-hours of the scanned outlets of a level, summed over its outlets. -/
theorem Device.levelGain_eq (d : Device) (r : CloseRecord) (l : Level) (hnodup : r.scan.Nodup) :
    d.levelGain r l = ((outlets.filter fun n => l.covers n).map fun n =>
      if n ∈ r.scan then (d.engine.outlets[n]).units r.length else 0).sum := by
  unfold Device.levelGain
  have houtlets : outlets.Nodup := List.nodup_finRange 48
  rw [← List.sum_toFinset _ (hnodup.filter _), ← List.sum_toFinset _ (houtlets.filter _), ← Finset.sum_filter]
  congr 1
  ext n
  simp [outlets, and_comm]

/-- The report of a wrap of a level's Lifetime string. -/
def Device.levelRollover (d : Device) (l : Level) : Report :=
  ⟨.rollover, .level l, BitVec.ofNat 16 (d.engine.levels.get l).rollover, 0⟩

theorem Device.foldl_reportLevelRollover (ls : List Level) (d : Device) :
    ls.foldl Device.reportLevelRollover d =
      { d with mail := { d.mail with reports := d.mail.reports ++ ls.map d.levelRollover } } := by
  induction ls generalizing d with
  | nil => simp
  | cons l ls ih =>
    rw [List.foldl_cons, ih]
    simp [Device.reportLevelRollover, Device.report, Device.levelRollover]

/-- Stage 3 of a close: what it charges, and what it reports. -/
structure Device.Charged (d e : Device) (r : CloseRecord) : Prop where
  whole : e = { d with
    engine := { d.engine with outlets := e.engine.outlets, levels := e.engine.levels }
    mail := { d.mail with reports := e.mail.reports }
    freeCount := e.freeCount }
  meter (n : Outlet) : e.engine.outlets[n] =
    if n ∈ r.scan then (d.engine.outlets[n]).charged r.length else d.engine.outlets[n]
  level (l : Level) : e.engine.levels.get l = (d.engine.levels.get l).charged (d.levelGain r l)
  meterReport (n : Outlet) : n ∈ r.scan →
    (d.engine.outlets[n]).lifetime.wraps ((d.engine.outlets[n]).units r.length) = true →
    d.meterRollover r.length n ∈ e.mail.reports
  levelReport (l : Level) : (d.engine.levels.get l).lifetime.wraps (d.levelGain r l) = true →
    e.levelRollover l ∈ e.mail.reports

theorem Device.charge_charged (d : Device) (r : CloseRecord) (hnodup : r.scan.Nodup) : d.Charged (d.charge r) r := by
  obtain ⟨meters, reports, hfold, hmeters, hreports⟩ := Device.foldl_chargeOutlet r.length r.scan d hnodup
  obtain ⟨gains, hgains⟩ : ∃ gains, PerLevel.ofFn (fun l => d.levelGain r l) = gains := ⟨_, rfl⟩
  have hgain (l : Level) : gains.get l = d.levelGain r l := by rw [← hgains, PerLevel.get_ofFn]
  obtain ⟨e, he⟩ : ∃ e : Device, { d with
      engine := { d.engine with
        outlets := meters, levels := PerLevel.ofFn fun l => (d.engine.levels.get l).charged (gains.get l) }
      mail := { d.mail with reports := d.mail.reports ++ reports } } = e := ⟨_, rfl⟩
  obtain ⟨ls, k, hperm, hfree⟩ := Device.inFreeOrder_perm levelIndex Device.reportLevelRollover
    (levels.filter fun l => (d.engine.levels.get l).lifetime.wraps (gains.get l)) e
  have hcharge : d.charge r = ls.foldl Device.reportLevelRollover { e with freeCount := k } := by
    rw [← hfree, ← he, ← hgains]
    unfold Device.charge
    dsimp only
    rw [hfold]
  rw [Device.foldl_reportLevelRollover] at hcharge
  have hlevel (l : Level) : e.engine.levels.get l = (d.engine.levels.get l).charged (d.levelGain r l) := by
    rw [← he, ← hgain]
    exact PerLevel.get_ofFn _ _
  rw [hcharge]
  refine ⟨by rw [← he], fun n => by rw [← he]; exact hmeters n, hlevel, fun n hn hwraps => ?_, fun l hwraps => ?_⟩
  · rw [← he]
    exact List.mem_append_left _ (List.mem_append_right _ (hreports n hn hwraps))
  · have hl : l ∈ ls := hperm.mem_iff.2 (List.mem_filter.2 ⟨mem_levels l, by rwa [hgain]⟩)
    exact List.mem_append_right _ (List.mem_map.2 ⟨l, hl, rfl⟩)

/-! ## The Sequences (R77, R78) -/

/-- An outlet's meter with a new publication. -/
def OutletMeter.next (m : OutletMeter) : OutletMeter := { m with sequence := m.sequence + 1 }

/-- A level's meter with a new publication. -/
def LevelMeter.next (m : LevelMeter) : LevelMeter := { m with sequence := m.sequence + 1 }

/-- A new publication of a level's group (R77). -/
theorem Device.publishLevel_eq (d : Device) (l : Level) : d.publishLevel l =
    let e := d.setLevelMeter l LevelMeter.next
    { e with pub := d.pub.takes (.level l) (e.groupWords (.level l)) } := by
  unfold Device.publishLevel
  dsimp only
  rw [Device.publish_whole]
  rfl

theorem Device.foldl_publishLevel (ls : List Level) (d : Device) (hnodup : ls.Nodup) :
    ∃ (meters : PerLevel LevelMeter) (p : Publication),
      ls.foldl Device.publishLevel d = { d with engine := { d.engine with levels := meters }, pub := p } ∧
      ∀ l, meters.get l = if l ∈ ls then (d.engine.levels.get l).next else d.engine.levels.get l := by
  induction ls generalizing d with
  | nil => exact ⟨d.engine.levels, d.pub, rfl, by simp⟩
  | cons l ls ih =>
    obtain ⟨hl, hnodup⟩ := List.nodup_cons.1 hnodup
    have hstep := d.publishLevel_eq l
    obtain ⟨meters, p, hfold, hmeters⟩ := ih (d.publishLevel l) hnodup
    refine ⟨meters, p, by rw [List.foldl_cons, hfold, hstep]; rfl, fun k => ?_⟩
    rw [hmeters k, hstep]
    by_cases hk : l = k
    · subst hk
      simp [hl, Device.setLevelMeter, PerLevel.get_set]
    · simp [hk, Ne.symm hk, Device.setLevelMeter, PerLevel.get_set]

theorem Device.foldl_publishMeter (ns : List Outlet) (d : Device) (hnodup : ns.Nodup) :
    ∃ (meters : Vector OutletMeter 48) (p : Publication),
      ns.foldl Device.publishMeter d = { d with engine := { d.engine with outlets := meters }, pub := p } ∧
      ∀ n : Outlet, meters[n] = if n ∈ ns then (d.engine.outlets[n]).next else d.engine.outlets[n] := by
  induction ns generalizing d with
  | nil => exact ⟨d.engine.outlets, d.pub, rfl, by simp⟩
  | cons n ns ih =>
    obtain ⟨hn, hnodup⟩ := List.nodup_cons.1 hnodup
    have hstep := d.publishMeter_eq n
    obtain ⟨meters, p, hfold, hmeters⟩ := ih (d.publishMeter n) hnodup
    refine ⟨meters, p, by rw [List.foldl_cons, hfold, hstep]; rfl, fun k => ?_⟩
    rw [hmeters k, hstep]
    by_cases hk : n = k
    · subst hk
      simp [hn, Device.setMeter, OutletMeter.next]
    · simp [hk, Ne.symm hk, Device.setMeter]

/-- The publications of a close give each republished group its next Sequence, and change no counter else. -/
theorem Device.publishClose_meters (d : Device) (r : CloseRecord) (hnodup : r.scan.Nodup) :
    ∃ (levelMeters : PerLevel LevelMeter) (meters : Vector OutletMeter 48) (p : Publication),
      d.publishClose r =
        { d with engine := { d.engine with levels := levelMeters, outlets := meters }, pub := p } ∧
      (∀ l, levelMeters.get l = (d.engine.levels.get l).next) ∧
      ∀ n : Outlet, meters[n] = if n ∈ r.scan then (d.engine.outlets[n]).next else d.engine.outlets[n] := by
  obtain ⟨levelMeters, p, hlevels, hlevelMeters⟩ := Device.foldl_publishLevel levels d levels_nodup
  obtain ⟨meters, q, hmeters, hmeter⟩ := Device.foldl_publishMeter r.scan (levels.foldl Device.publishLevel d) hnodup
  refine ⟨levelMeters, meters, q, ?_, fun l => by rw [hlevelMeters, if_pos (mem_levels l)], fun n => ?_⟩
  · unfold Device.publishClose
    rw [hmeters, hlevels]
  · rw [hmeter, hlevels]

/-! ## A close computed (R59) -/

/-- The reading of contact sense for a close (R101). -/
theorem Device.readSense_frame (d : Device) (lines : SenseLines) :
    d.Untouched (d.readSense lines) [.pins, .pub, .outlet] := by
  refine Device.Untouched.trans (e := { d with pins := { d.pins with senseLines := lines } }) ?_
    (Device.Untouched.foldl _ (fun e n => ?_) outlets _)
  · intro p hp
    cases p <;> first | exact absurd hp (by decide) | rfl
  · unfold Device.readOutlet
    split
    · rw [show e.modOutlet n _ = _ from Device.modOutlet_onlyPub e n _]
      intro p hp
      cases p <;> first | exact absurd hp (by decide) | rfl
    · exact .refl e _

/-- A block whose close has counted for the bracket, with contact sense read for it. -/
def Device.counted (d : Device) (r : CloseRecord) (lines : SenseLines) : Device :=
  (d.countClose (d.republishes r)).readSense lines

theorem Device.counted_frame (d : Device) (r : CloseRecord) (lines : SenseLines) :
    d.Untouched (d.counted r lines) [.pins, .pub, .outlet] := by
  refine Device.Untouched.trans (e := d.countClose (d.republishes r)) ?_ (Device.readSense_frame _ lines)
  rw [show d.countClose (d.republishes r) = _ from Device.countClose_onlyPub d _]
  intro p hp
  cases p <;> first | exact absurd hp (by decide) | rfl

theorem Device.counted_charter (d : Device) (r : CloseRecord) (lines : SenseLines) :
    (d.counted r lines).charter = d.charter := d.counted_frame r lines .charter (by decide)

theorem Device.counted_engine (d : Device) (r : CloseRecord) (lines : SenseLines) :
    (d.counted r lines).engine = d.engine := d.counted_frame r lines .engine (by decide)

/-- What the Close Engine works out of a close, before it hands it on: values, in service energy, totals and Line
Frequency. -/
def Device.workedOut (d : Device) (r : CloseRecord) : Device :=
  let m := d.measure r
  ((if m.inService then m.charge r else m).total r).measureFrequency r

/-- Totals and Line Frequency change no outlet's meter, and of a level's only its values. -/
theorem Device.totalled (d : Device) (r : CloseRecord) :
    let e := (d.total r).measureFrequency r
    e.engine.outlets = d.engine.outlets ∧ e.mail = d.mail ∧
      ∀ l : Level, (d.engine.levels.get l).Revalued (e.engine.levels.get l) := by
  unfold Device.measureFrequency
  split <;> exact ⟨rfl, rfl, fun l => by simp [Device.total, PerLevel.get_ofFn, LevelMeter.Revalued]⟩

theorem Device.measure_inService (d : Device) (r : CloseRecord) : (d.measure r).inService = d.inService :=
  Device.inService_charter (by unfold Device.measure; rfl)

theorem Device.workedOut_before {d : Device} (r : CloseRecord) (hs : d.inService = false) :
    d.workedOut r = ((d.measure r).total r).measureFrequency r := by
  unfold Device.workedOut
  dsimp only
  rw [Device.measure_inService, hs, if_neg (by simp)]

theorem Device.workedOut_inService {d : Device} (r : CloseRecord) (hs : d.inService = true) :
    d.workedOut r = (((d.measure r).charge r).total r).measureFrequency r := by
  unfold Device.workedOut
  dsimp only
  rw [Device.measure_inService, hs, if_pos rfl]

theorem Device.Charged.charter {d e : Device} {r : CloseRecord} (h : d.Charged e r) : e.charter = d.charter :=
  (congrArg Device.charter h.whole).trans rfl

theorem Device.workedOut_charter (d : Device) (r : CloseRecord) (hnodup : r.scan.Nodup) :
    (d.workedOut r).charter = d.charter := by
  have htotalled (e : Device) : ((e.total r).measureFrequency r).charter = e.charter := by
    unfold Device.measureFrequency
    split <;> rfl
  have hmeasured : (d.measure r).charter = d.charter := by unfold Device.measure; rfl
  cases hs : d.inService with
  | false => rw [Device.workedOut_before r hs, htotalled, hmeasured]
  | true => rw [Device.workedOut_inService r hs, htotalled, ((d.measure r).charge_charged r hnodup).charter, hmeasured]

/-- The close as worked out, with the charter group published if it has changed. -/
def Device.announced (d : Device) (r : CloseRecord) (lines : SenseLines) : Device :=
  (d.counted r lines).changeCharter fun d => d.workedOut r

/-- A close computed, stage by stage. -/
theorem Device.compute_eq (d : Device) (r : CloseRecord) (lines : SenseLines) : d.compute r lines =
    if (d.announced r lines).inService then ((d.announced r lines).handOffClose r).publishClose r
    else d.announced r lines := rfl

theorem Device.announced_charter (d : Device) (r : CloseRecord) (lines : SenseLines) (hnodup : r.scan.Nodup) :
    (d.announced r lines).charter = d.charter := by
  rw [Device.announced, Device.changeCharter_charter, Device.workedOut_charter _ r hnodup, Device.counted_charter]

/-- A close before service is what the Close Engine works out. -/
theorem Device.compute_before {d : Device} (r : CloseRecord) (lines : SenseLines) (hnodup : r.scan.Nodup)
    (hs : d.inService = false) : d.compute r lines = d.announced r lines := by
  rw [Device.compute_eq, Device.inService_charter (d.announced_charter r lines hnodup), hs, if_neg (by simp)]

/-- A close in service is worked out, handed on and published. -/
theorem Device.compute_inService {d : Device} (r : CloseRecord) (lines : SenseLines) (hnodup : r.scan.Nodup)
    (hs : d.inService = true) : d.compute r lines = ((d.announced r lines).handOffClose r).publishClose r := by
  rw [Device.compute_eq, Device.inService_charter (d.announced_charter r lines hnodup), hs, if_pos rfl]

/-- The counters of a close before service: the values alone are new. -/
theorem Device.compute_values {d : Device} (r : CloseRecord) (lines : SenseLines) (hnodup : r.scan.Nodup)
    (hs : d.inService = false) :
    (∀ n : Outlet, (d.engine.outlets[n]).Revalued (d.compute r lines).engine.outlets[n]) ∧
    ∀ l : Level, (d.engine.levels.get l).Revalued ((d.compute r lines).engine.levels.get l) := by
  obtain ⟨c, hc⟩ : ∃ c, d.counted r lines = c := ⟨_, rfl⟩
  have hcharter : c.charter = d.charter := hc ▸ d.counted_charter r lines
  have hengine : c.engine = d.engine := hc ▸ d.counted_engine r lines
  obtain ⟨houtlets, -, hlevels⟩ := (c.measure r).totalled r
  rw [Device.compute_before r lines hnodup hs, Device.announced, hc, Device.changeCharter_engine,
    Device.workedOut_before r ((Device.inService_charter hcharter).trans hs), houtlets, ← hengine]
  exact ⟨c.measure_meter r, fun l => c.measure_levels r ▸ hlevels l⟩

/-- The counters of a close in service: with m the meters that show the new values, every scanned outlet's is charged and
published, and every level's gains what its outlets do. -/
structure Device.ClosedInService (d e : Device) (r : CloseRecord) (m : Outlet → OutletMeter) : Prop where
  values (n : Outlet) : (d.engine.outlets[n]).Revalued (m n)
  meter (n : Outlet) : n ∈ r.scan → e.engine.outlets[n] = ((m n).charged r.length).next
  level (l : Level) :
    let gain := ((outlets.filter fun n => l.covers n).map fun n => if n ∈ r.scan then (m n).units r.length else 0).sum
    ((d.engine.levels.get l).charged gain).next.Revalued (e.engine.levels.get l) ∧
      ((d.engine.levels.get l).lifetime.wraps gain = true → e.levelRollover l ∈ e.mail.reports)
  meterReport (n : Outlet) : n ∈ r.scan → (m n).lifetime.wraps ((m n).units r.length) = true →
    ⟨.rollover, .outlet n, BitVec.ofNat 16 (e.engine.outlets[n]).rollover, 0⟩ ∈ e.mail.reports

theorem Device.compute_closed {d : Device} (r : CloseRecord) (lines : SenseLines) (hnodup : r.scan.Nodup)
    (hs : d.inService = true) : ∃ m, d.ClosedInService (d.compute r lines) r m := by
  obtain ⟨c, hc⟩ : ∃ c, d.counted r lines = c := ⟨_, rfl⟩
  have hcharter : c.charter = d.charter := hc ▸ d.counted_charter r lines
  have hengine : c.engine = d.engine := hc ▸ d.counted_engine r lines
  obtain ⟨x, hx⟩ : ∃ x, c.measure r = x := ⟨_, rfl⟩
  have hxlevels : x.engine.levels = d.engine.levels := by rw [← hx, ← hengine, c.measure_levels]
  have hcharged := x.charge_charged r hnodup
  obtain ⟨y, hy⟩ : ∃ y, x.charge r = y := ⟨_, rfl⟩
  rw [hy] at hcharged
  obtain ⟨houtlets, hmail, hlevels⟩ := y.totalled r
  obtain ⟨z, hz⟩ : ∃ z, (c.changeCharter fun d => d.workedOut r).handOffClose r = z := ⟨_, rfl⟩
  have hworked : c.workedOut r = (y.total r).measureFrequency r := by
    rw [Device.workedOut_inService r ((Device.inService_charter hcharter).trans hs), hx, hy]
  have hzengine : z.engine = ((y.total r).measureFrequency r).engine := by
    rw [← hworked, ← hz]
    exact Device.changeCharter_engine c _
  have hzreports : z.mail.reports = y.mail.reports := by
    rw [← hmail, ← hworked, ← hz]
    show (c.changeCharter fun d => d.workedOut r).mail.reports = _
    rw [Device.changeCharter_mail]
  obtain ⟨levelMeters, meters, p, hpublished, hlevelMeters, hmeters⟩ := z.publishClose_meters r hnodup
  rw [Device.compute_inService r lines hnodup hs, Device.announced, hc, hz, hpublished]
  have hmeter (n : Outlet) (hn : n ∈ r.scan) : meters[n] = ((x.engine.outlets[n]).charged r.length).next := by
    rw [hmeters, if_pos hn, hzengine, houtlets, hcharged.meter, if_pos hn]
  have hlevel (l : Level) : ((d.engine.levels.get l).charged (x.levelGain r l)).next.Revalued (levelMeters.get l) := by
    have hvalued := hlevels l
    rw [hcharged.level, hxlevels] at hvalued
    rw [hlevelMeters, hzengine, hvalued]
    rfl
  refine ⟨fun n => x.engine.outlets[n], fun n => ?_, hmeter, fun l => ?_, fun n hn hwraps => ?_⟩
  · rw [← hengine, ← hx]
    exact c.measure_meter r n
  · dsimp only
    rw [← Device.levelGain_eq x r l hnodup]
    refine ⟨hlevel l, fun hwraps => ?_⟩
    have hreport := hcharged.levelReport l (by rwa [hxlevels])
    rw [Device.levelRollover, hcharged.level, hxlevels] at hreport
    rw [Device.levelRollover, show (levelMeters.get l).rollover = _ from congrArg LevelMeter.rollover (hlevel l),
      hzreports]
    exact hreport
  · rw [hmeter n hn, hzreports]
    exact hcharged.meterReport n hn hwraps

/-! ## The numbers of a charge (R68 to R72) -/

/-- A string with a close's watt-hours, and the Rollover Count beside it. -/
theorem Digits.charged_value (ds : Digits) {k gain : Nat} (hlen : ds.length = k) (hgain : gain < 10 ^ k) :
    (ds.add gain).length = k ∧ (ds.add gain).value = (ds.value + gain) % 10 ^ k ∧
      (ds.wraps gain = true ↔ 10 ^ k ≤ ds.value + gain) := by
  subst hlen
  exact ⟨length_add ds gain, ds.add_value gain, ds.wraps_iff hgain⟩

/-- The meter of a scanned outlet after a close in service. -/
theorem Device.ClosedInService.meterEnergy {d e : Device} {r : CloseRecord} {m : Outlet → OutletMeter}
    (h : d.ClosedInService e r m) {n : Outlet} (hok : (d.engine.outlets[n]).EnergyOk) (hn : n ∈ r.scan) {units : Nat}
    (hunits : (m n).units r.length = units) (hless : units < 10 ^ 6) :
    let m := d.engine.outlets[n]
    let m' := e.engine.outlets[n]
    let wraps : Prop := 10 ^ 10 ≤ m.lifetime.value + units
    m'.residual = (m.residual + m'.power.toNat * r.length) % 36000000000 ∧
    m'.lifetime.length = 10 ∧ m'.lifetime.value = (m.lifetime.value + units) % 10 ^ 10 ∧
    m'.period.length = 6 ∧ m'.period.value = min (m.period.value + units) 999999 ∧
    m'.sequence = m.sequence + 1 ∧
    (¬wraps → m'.rollover = m.rollover) ∧
    (wraps → m'.rollover = min (m.rollover + 1) 255 ∧
      ⟨.rollover, .outlet n, BitVec.ofNat 16 m'.rollover, 0⟩ ∈ e.mail.reports) := by
  have hvalues := h.values n
  have hmeter := h.meter n hn
  have hreport := h.meterReport n hn
  generalize d.engine.outlets[n] = x at hvalues hok ⊢
  generalize m n = y at hvalues hmeter hreport hunits
  generalize e.engine.outlets[n] = z at hmeter hreport ⊢
  have hlifetime : y.lifetime = x.lifetime := by rw [hvalues]
  obtain ⟨hlength, hvalue, hwraps⟩ := Digits.charged_value x.lifetime hok.lifetime (gain := units)
    (hless.trans (by decide))
  have hperiod := x.period.addSaturating_value (w := units) (by rwa [hok.period])
  rw [hok.period] at hperiod
  rw [hunits, hlifetime, hwraps] at hreport
  have hstring : z.lifetime = x.lifetime.add units := by
    rw [hmeter, ← hunits, ← hlifetime]
    rfl
  have hperiods : z.period = x.period.addSaturating units := by
    rw [hmeter, ← hunits, show x.period = y.period by rw [hvalues]]
    rfl
  have hrollover : z.rollover =
      if 10 ^ 10 ≤ x.lifetime.value + units then min (x.rollover + 1) 255 else x.rollover := by
    simp only [hmeter, OutletMeter.next, OutletMeter.charged, hunits, hlifetime, hwraps]
    rw [hvalues]
  refine ⟨?_, ?_, ?_, ?_, ?_, ?_, fun hno => by rw [hrollover, if_neg hno],
    fun hyes => ⟨by rw [hrollover, if_pos hyes], hreport hyes⟩⟩
  · rw [hmeter, hvalues]
    rfl
  · rw [hstring]; exact hlength
  · rw [hstring]; exact hvalue
  · rw [hperiods]; exact (length_addSaturating _ _).trans hok.period
  · rw [hperiods]; exact hperiod
  · rw [hmeter, hvalues]
    rfl

/-- A level's meter after a close in service. -/
theorem Device.ClosedInService.levelEnergy {d e : Device} {r : CloseRecord} {m : Outlet → OutletMeter}
    (h : d.ClosedInService e r m) {l : Level} (hok : (d.engine.levels.get l).EnergyOk) {gain : Nat}
    (hgain : ((outlets.filter fun n => l.covers n).map fun n =>
      if n ∈ r.scan then (m n).units r.length else 0).sum = gain) (hless : gain < 10 ^ 12) :
    let m := d.engine.levels.get l
    let m' := e.engine.levels.get l
    let wraps : Prop := 10 ^ 12 ≤ m.lifetime.value + gain
    m'.lifetime.length = 12 ∧ m'.lifetime.value = (m.lifetime.value + gain) % 10 ^ 12 ∧
    m'.sequence = m.sequence + 1 ∧
    (¬wraps → m'.rollover = m.rollover) ∧
    (wraps → m'.rollover = min (m.rollover + 1) 255 ∧
      ⟨.rollover, .level l, BitVec.ofNat 16 m'.rollover, 0⟩ ∈ e.mail.reports) := by
  obtain ⟨hlevel, hreport⟩ := h.level l
  obtain ⟨hlength, hvalue, hwraps⟩ := Digits.charged_value (d.engine.levels.get l).lifetime hok.lifetime hless
  rw [hgain] at hlevel
  rw [hgain, hwraps, Device.levelRollover] at hreport
  generalize d.engine.levels.get l = x at *
  generalize e.engine.levels.get l = z at *
  have hrollover : z.rollover =
      if 10 ^ 12 ≤ x.lifetime.value + gain then min (x.rollover + 1) 255 else x.rollover := by
    rw [hlevel]
    simp only [LevelMeter.next, LevelMeter.charged, hwraps]
  exact ⟨by rw [hlevel, ← hlength]; rfl, by rw [hlevel, ← hvalue]; rfl, by rw [hlevel]; rfl,
    fun hno => by rw [hrollover, if_neg hno], fun hyes => ⟨by rw [hrollover, if_pos hyes], hreport hyes⟩⟩

/-- The watt-hours a scanned outlet gains, from the power that the close shows. -/
theorem Device.ClosedInService.units {d e : Device} {r : CloseRecord} {m : Outlet → OutletMeter}
    (h : d.ClosedInService e r m) {n : Outlet} (hn : n ∈ r.scan) : (m n).units r.length =
      ((d.engine.outlets[n]).residual + (e.engine.outlets[n]).power.toNat * r.length) / 36000000000 := by
  have hresidual : (m n).residual = (d.engine.outlets[n]).residual := by rw [h.values n]
  rw [h.meter n hn, ← hresidual]
  rfl

end Sys2Proof.Machine
end

