-- ==== Sys2Proof/Proofs/ClosePublications.lean ====
section
/-! PROOFS. What a close publishes (R16, R20, R36, R78, R101, R108). -/

namespace Sys2Proof.Machine
open Sys2Proof

/-- Two trails, one after the other, in one charter state. -/
theorem Device.Trail.andThen {d e f : Device} {gs hs : List Group} (h : d.Trail e gs) (k : e.Trail f hs)
    (hw : ∀ g ∈ gs, g ∉ hs → e.groupWords g = f.groupWords g) (hc : f.charter = e.charter) : d.Trail f (gs ++ hs) :=
  h.trans k hw (by rw [Device.enforcing_charter hc]; exact id) (by rw [Device.inService_charter hc]; exact id)

/-! ## The reading of contact sense (R101, R108) -/

/-- The reading of contact sense changes what the outlet's Status group shows. -/
def Device.senseMoved (d : Device) (n : Outlet) : Bool :=
  d.inService && d.present n && decide (d.pins.senseLines[n] ≠ (d.outlet[n]).sensed)

theorem senseCode_inj {x y : Sense} (h : senseCode x = senseCode y) : x = y := by
  cases x <;> cases y <;> first | rfl | exact absurd h (by decide)

theorem Device.setSensed_statusWords (d : Device) (n : Outlet) (x : Sense) :
    (d.setOutlet n fun o => { o with sensed := x }).statusWords n = d.statusWords n ↔ x = (d.outlet[n]).sensed := by
  constructor
  · intro h
    unfold Device.statusWords at h
    simp only [Device.setOutlet, Fin.getElem_fin, setAt_at, List.cons_append, List.cons.injEq] at h
    exact senseCode_inj h.2.2.1
  · intro h
    subst h
    exact Device.statusWords_congr n (by simp [Device.setOutlet]) rfl

theorem Device.readOutlet_trail (d : Device) (n : Outlet) :
    d.Trail (d.readOutlet n) (if d.senseMoved n then [.status n] else []) := by
  unfold Device.readOutlet
  by_cases hpresent : d.present n = true
  · have htrail := d.modOutlet_trail n fun o => { o with sensed := d.pins.senseLines[n] }
    rw [if_pos hpresent]
    convert htrail using 1
    rw [Device.senseMoved, hpresent]
    by_cases hsame : d.pins.senseLines[n] = (d.outlet[n]).sensed
    · rw [if_pos ((d.setSensed_statusWords n _).2 hsame)]
      simp [hsame]
    · rw [if_neg (mt (d.setSensed_statusWords n _).1 hsame), decide_eq_true hsame]
      simp
  · rw [if_neg hpresent]
    simpa [Device.senseMoved, hpresent] using Device.Trail.refl d

/-- What one outlet's reading leaves. -/
theorem Device.readOutlet_eq (d : Device) (n : Outlet) : ∃ o p,
    d.readOutlet n = { d with outlet := setAt d.outlet n o, pub := p } := by
  unfold Device.readOutlet
  split
  · exact ⟨_, _, (Device.modOutlet_onlyPub d n _).trans rfl⟩
  · exact ⟨d.outlet[n], d.pub, by simp⟩

theorem Device.foldl_readOutlet_eq (ns : List Outlet) (d : Device) : ∃ os p,
    ns.foldl Device.readOutlet d = { d with outlet := os, pub := p } ∧ ∀ n : Outlet, n ∉ ns → os[n] = d.outlet[n] := by
  induction ns generalizing d with
  | nil => exact ⟨d.outlet, d.pub, rfl, fun _ _ => rfl⟩
  | cons n ns ih =>
    obtain ⟨o, p, hread⟩ := d.readOutlet_eq n
    obtain ⟨os, q, hfold, hos⟩ := ih (d.readOutlet n)
    refine ⟨os, q, by rw [List.foldl_cons, hfold, hread], fun k hk => ?_⟩
    obtain ⟨hkn, hk⟩ := not_or.1 (mt List.mem_cons.2 hk)
    rw [hos k hk, hread]
    simp [Ne.symm hkn]

theorem Device.foldl_readOutlet_trail (ns : List Outlet) (d : Device) (hnodup : ns.Nodup) :
    d.Trail (ns.foldl Device.readOutlet d) ((ns.filter d.senseMoved).map .status) := by
  induction ns generalizing d with
  | nil => exact .refl d
  | cons n ns ih =>
    obtain ⟨hn, hnodup⟩ := List.nodup_cons.1 hnodup
    obtain ⟨o, p, hread⟩ := d.readOutlet_eq n
    have hfirst := d.readOutlet_trail n
    have hrest := ih (d.readOutlet n) hnodup
    obtain ⟨os, q, hfold, hos⟩ := Device.foldl_readOutlet_eq ns (d.readOutlet n)
    have hlist : ns.filter (d.readOutlet n).senseMoved = ns.filter d.senseMoved := by
      refine List.filter_congr fun k hk => ?_
      have hne : n ≠ k := fun h => hn (h ▸ hk)
      have hsame : (d.readOutlet n).outlet[k] = d.outlet[k] := by simp [hread, hne]
      unfold Device.senseMoved
      rw [hsame, hread]
      rfl
    have hcharter : (ns.foldl Device.readOutlet (d.readOutlet n)).charter = (d.readOutlet n).charter := by rw [hfold]
    have htrail := hfirst.andThen hrest (fun g hg _ => ?_) hcharter
    · rw [List.foldl_cons, List.filter_cons]
      rw [hlist] at htrail
      split at htrail <;> rename_i hmoved
      · rw [if_pos hmoved]
        exact htrail
      · rw [if_neg hmoved]
        exact htrail
    · split at hg
      · obtain rfl := List.mem_singleton.1 hg
        exact (Device.statusWords_congr n (by rw [hfold]; exact hos n hn) (by rw [hfold])).symm
      · cases hg

/-- The Status groups that the reading of contact sense publishes. -/
theorem Device.readSense_trail (d : Device) (lines : SenseLines) : d.Trail (d.readSense lines)
    ((outlets.filter fun n => d.inService && d.present n && decide (lines[n] ≠ (d.outlet[n]).sensed)).map .status) :=
  (Device.foldl_readOutlet_trail outlets { d with pins := { d.pins with senseLines := lines } }
    (List.nodup_finRange 48)).from rfl (fun g => by cases g <;> rfl) (fun _ => rfl) fun _ => rfl

/-! ## Publications one after another (R77, R78) -/

/-- Publications of groups, one after another, where each shows in its own group alone. -/
theorem Device.Trail.foldl {α : Type} {work : Device → α → Device} {group : α → Group}
    (htrail : ∀ d x, Device.Trail d (work d x) [group x])
    (hwords : ∀ d x g, g ≠ group x → (work d x).groupWords g = d.groupWords g)
    (hcharter : ∀ d x, (work d x).charter = d.charter) (xs : List α) (d : Device) :
    d.Trail (xs.foldl work d) (xs.map group) ∧ (xs.foldl work d).charter = d.charter ∧
      ∀ g, g ∉ xs.map group → (xs.foldl work d).groupWords g = d.groupWords g := by
  induction xs generalizing d with
  | nil => exact ⟨.refl d, rfl, fun _ _ => rfl⟩
  | cons x xs ih =>
    obtain ⟨hrest, hstands, hkept⟩ := ih (work d x)
    refine ⟨(htrail d x).andThen hrest (fun g _ hg => (hkept g hg).symm) hstands, hstands.trans (hcharter d x), fun g hg => ?_⟩
    obtain ⟨hx, hg⟩ := not_or.1 (mt List.mem_cons.2 hg)
    exact (hkept g hg).trans (hwords d x g hx)

theorem Device.publishMeter_words (d : Device) (n : Outlet) (g : Group) (hg : g ≠ .meter n) :
    (d.publishMeter n).groupWords g = d.groupWords g := by
  rw [Device.publishMeter_eq]
  cases g with
  | meter k =>
    have hk : n ≠ k := fun h => hg (by rw [h])
    show Device.meterWords _ k = d.meterWords k
    simp [Device.meterWords, Device.setMeter, hk]
  | _ => rfl

theorem Device.publishMeter_trail (d : Device) (n : Outlet) : d.Trail (d.publishMeter n) [.meter n] := by
  unfold Device.publishMeter
  refine Device.Trail.published (d := d) (e := d.setMeter n fun m => { m with sequence := m.sequence + 1 }) rfl (.meter n)
    fun x hx => ?_
  cases x with
  | meter k =>
    by_contra hne
    have hk : n ≠ k := fun h => hne (by rw [h])
    exact hx (by simp [Device.setMeter, hk])
  | level l => exact absurd rfl hx
  | status m => exact absurd rfl hx.2
  | charter => exact absurd rfl hx.2

/-- A level's words depend on its meter, the phase voltages and the Admission Unit, with the loads on their way to it. -/
theorem Device.levelWords_congr {d e : Device} {l : Level} (hm : e.engine.levels.get l = d.engine.levels.get l)
    (hv : e.engine.voltages = d.engine.voltages) (ha : e.admission = d.admission) (hl : e.mail.loads = d.mail.loads) :
    e.levelWords l = d.levelWords l := by
  have hover : e.overLimit l = d.overLimit l := by rw [Device.overLimit, Device.overLimit, ha, hl]
  have hpacked : e.packedLevel l = d.packedLevel l := by
    unfold Device.packedLevel Device.occupantPlace
    simp only [hm, hv, ha, hover]
  rw [Device.levelWords, Device.levelWords, hm, hpacked]

theorem Device.nextLevel_rollover (d : Device) (l k : Level) :
    ((d.setLevelMeter l LevelMeter.next).engine.levels.get k).rollover = (d.engine.levels.get k).rollover := by
  show ((d.engine.levels.set l _).get k).rollover = _
  rw [PerLevel.get_set]
  split
  · rename_i h
    rw [h]
    rfl
  · rfl

theorem Device.publishLevel_words (d : Device) (l : Level) (g : Group) (hg : g ≠ .level l) :
    (d.publishLevel l).groupWords g = d.groupWords g := by
  rw [Device.publishLevel_eq]
  cases g with
  | level k =>
    have hk : ¬l = k := fun h => hg (by rw [h])
    exact Device.levelWords_congr (by simp [Device.setLevelMeter, PerLevel.get_set, hk]) rfl rfl rfl
  | charter => exact Device.charterWords_congr rfl rfl rfl rfl rfl rfl (d.nextLevel_rollover l)
  | _ => rfl

theorem Device.publishLevel_trail (d : Device) (l : Level) : d.Trail (d.publishLevel l) [.level l] := by
  unfold Device.publishLevel
  refine Device.Trail.published (d := d) (e := d.setLevelMeter l LevelMeter.next) rfl (.level l) fun x hx => ?_
  cases x with
  | level k =>
    by_contra hne
    have hk : ¬l = k := fun h => hne (by rw [h])
    exact hx (by simp [Device.setLevelMeter, PerLevel.get_set, hk])
  | meter n => exact absurd rfl hx
  | status n => exact absurd rfl hx.2
  | charter =>
    refine absurd ?_ hx.2
    exact Device.charterWords_congr rfl rfl rfl rfl rfl rfl (d.nextLevel_rollover l)

/-- The publications of a close in service. -/
theorem Device.publishClose_trail (d : Device) (r : CloseRecord) :
    d.Trail (d.publishClose r) (levels.map .level ++ r.scan.map .meter) ∧ (d.publishClose r).charter = d.charter ∧
      ∀ g, g ∉ levels.map Group.level ++ r.scan.map Group.meter → (d.publishClose r).groupWords g = d.groupWords g := by
  obtain ⟨hlevels, hcharter, hkept⟩ :=
    Device.Trail.foldl Device.publishLevel_trail Device.publishLevel_words Device.publishLevel_charter levels d
  obtain ⟨hmeters, hcharter', hkept'⟩ := Device.Trail.foldl Device.publishMeter_trail Device.publishMeter_words
    Device.publishMeter_charter r.scan (levels.foldl Device.publishLevel d)
  refine ⟨hlevels.andThen hmeters (fun g _ hg => (hkept' g hg).symm) hcharter', hcharter'.trans hcharter, fun g hg => ?_⟩
  obtain ⟨hlevel, hmeter⟩ := not_or.1 (mt List.mem_append.2 hg)
  exact (hkept' g hmeter).trans (hkept g hlevel)

/-! ## The charter group at a close (R36) -/

/-- Working out a close changes the Close Engine, the reports and the free counter alone, and no Sequence. -/
structure Device.EngineAlone (d e : Device) : Prop where
  whole : e = { d with
    engine := e.engine, mail := { d.mail with reports := e.mail.reports }, freeCount := e.freeCount }
  level (l : Level) : (e.engine.levels.get l).sequence = (d.engine.levels.get l).sequence
  meter (n : Outlet) : (e.engine.outlets[n]).sequence = (d.engine.outlets[n]).sequence

theorem Device.EngineAlone.trans {d e f : Device} (h : d.EngineAlone e) (k : e.EngineAlone f) : d.EngineAlone f :=
  ⟨by rw [k.whole, h.whole], fun l => (k.level l).trans (h.level l), fun n => (k.meter n).trans (h.meter n)⟩

theorem Device.EngineAlone.moves {d e : Device} (h : d.EngineAlone e) {g : Group} (hg : d.Moves e g) : g = .charter := by
  cases g with
  | charter => rfl
  | level l => exact absurd (h.level l) hg
  | meter n => exact absurd (h.meter n) hg
  | status n => exact absurd (Device.statusWords_congr n (by rw [h.whole]) (by rw [h.whole])) hg.2

theorem OutletMeter.Revalued.sequence {m m' : OutletMeter} (h : m.Revalued m') : m'.sequence = m.sequence :=
  (congrArg OutletMeter.sequence h).trans rfl

theorem LevelMeter.Revalued.sequence {m m' : LevelMeter} (h : m.Revalued m') : m'.sequence = m.sequence :=
  (congrArg LevelMeter.sequence h).trans rfl

theorem Device.measure_alone (d : Device) (r : CloseRecord) : d.EngineAlone (d.measure r) := by
  refine ⟨?_, fun l => by rw [d.measure_levels], fun n => (d.measure_meter r n).sequence⟩
  unfold Device.measure
  rfl

theorem Device.Charged.alone {d e : Device} {r : CloseRecord} (h : d.Charged e r) : d.EngineAlone e := by
  refine ⟨h.whole.trans (by rw [h.whole]), fun l => by rw [h.level]; rfl, fun n => ?_⟩
  rw [h.meter]
  split <;> rfl

theorem Device.totalled_alone (d : Device) (r : CloseRecord) : d.EngineAlone ((d.total r).measureFrequency r) := by
  obtain ⟨houtlets, -, hlevels⟩ := d.totalled r
  refine ⟨?_, fun l => (hlevels l).sequence, fun n => by rw [houtlets]⟩
  unfold Device.measureFrequency
  split <;> rfl

theorem Device.workedOut_alone (d : Device) (r : CloseRecord) (hnodup : r.scan.Nodup) : d.EngineAlone (d.workedOut r) := by
  cases hs : d.inService with
  | false =>
    rw [Device.workedOut_before r hs]
    exact (d.measure_alone r).trans (Device.totalled_alone _ r)
  | true =>
    rw [Device.workedOut_inService r hs]
    exact ((d.measure_alone r).trans ((d.measure r).charge_charged r hnodup).alone).trans (Device.totalled_alone _ r)

theorem Device.counted_charterWords (d : Device) (r : CloseRecord) (lines : SenseLines) :
    (d.counted r lines).charterWords = d.charterWords := by
  have hbank : (d.counted r lines).pins.bankB = d.pins.bankB := by
    obtain ⟨os, p, hread, -⟩ := Device.foldl_readOutlet_eq outlets
      { d.countClose (d.republishes r) with
        pins := { (d.countClose (d.republishes r)).pins with senseLines := lines } }
    rw [Device.counted, Device.readSense, hread, Device.countClose_pins]
  have hframe := d.counted_frame r lines
  exact Device.charterWords_congr (d.counted_charter r lines) hbank (hframe .suspendedSince (by decide))
    (hframe .sampler (by decide)) (hframe .applyEcho (by decide)) (by rw [d.counted_engine])
    fun l => by rw [d.counted_engine]

/-- The Status groups that the reading of contact sense for a close publishes. -/
theorem Device.counted_trail (d : Device) (r : CloseRecord) (lines : SenseLines) :
    (d.countClose (d.republishes r)).Trail (d.counted r lines)
      ((outlets.filter fun n => d.inService && d.present n && decide (lines[n] ≠ (d.outlet[n]).sensed)).map .status) := by
  have htrail := (d.countClose (d.republishes r)).readSense_trail lines
  obtain ⟨p, hp⟩ : ∃ p, d.countClose (d.republishes r) = { d with pub := p } := ⟨_, Device.countClose_onlyPub d _⟩
  unfold Device.counted
  rw [hp] at htrail ⊢
  exact htrail

/-- The Status groups and the charter group that a close publishes before its meter groups. -/
theorem Device.announced_trail (d : Device) (r : CloseRecord) (lines : SenseLines) (hnodup : r.scan.Nodup) :
    (d.countClose (d.republishes r)).Trail (d.announced r lines)
      ((outlets.filter fun n => d.inService && d.present n && decide (lines[n] ≠ (d.outlet[n]).sensed)).map .status ++
        if d.enforcing = true ∧ (d.announced r lines).charterWords ≠ d.charterWords then [.charter] else []) := by
  have hcounted := d.counted_trail r lines
  have hcharter := d.counted_charter r lines
  have hwords := d.counted_charterWords r lines
  unfold Device.announced
  generalize d.counted r lines = c at hcounted hcharter hwords ⊢
  have halone := c.workedOut_alone r hnodup
  have hworked : (c.workedOut r).charter = c.charter := c.workedOut_charter r hnodup
  obtain ⟨x, hx⟩ : ∃ x, c.changeCharter (fun d => d.workedOut r) = x := ⟨_, rfl⟩
  have honly : (c.workedOut r).OnlyPub x := hx ▸ Device.changeCharter_onlyPub c fun d => d.workedOut r
  have htrail : c.Trail x _ :=
    hx ▸ c.changeCharter_trail (fun d => d.workedOut r) (by rw [halone.whole]) fun _ => halone.moves
  rw [hx, show x.charterWords = (c.workedOut r).charterWords from congrFun honly.groupWords .charter, ← hwords,
    ← Device.enforcing_charter (hworked.trans hcharter)]
  refine hcounted.andThen htrail (fun g hg _ => ?_) ?_
  · obtain ⟨n, -, rfl⟩ := List.mem_map.1 hg
    rw [honly.groupWords]
    exact Device.statusWords_congr n (by rw [halone.whole]) (by rw [halone.whole])
  · rw [honly]
    exact hworked

/-! ## All that a close publishes (R16, R20, R78) -/

/-- The meter groups that a close publishes. -/
def Device.closeGroups (d : Device) (r : CloseRecord) : List Group :=
  if d.inService then levels.map .level ++ r.scan.map .meter else []

/-- The Status groups that the reading of contact sense for a close publishes. -/
def Device.sensedGroups (d : Device) (lines : SenseLines) : List Group :=
  (outlets.filter fun n => d.inService && d.present n && decide (lines[n] ≠ (d.outlet[n]).sensed)).map .status

theorem Device.republishes_iff (d : Device) (r : CloseRecord) (g : Group) :
    d.republishes r g = true ↔ g ∈ d.closeGroups r := by
  unfold Device.republishes Device.closeGroups CloseRecord.scanned
  cases d.inService <;> cases g <;> simp [mem_levels]

theorem Device.handOffClose_quiet (d : Device) (r : CloseRecord) (g : Group) : ¬d.Moves (d.handOffClose r) g := by
  intro hg
  cases g with
  | charter | status n => exact hg.2 rfl
  | level l => exact hg rfl
  | meter n => exact hg rfl

theorem Device.compute_trail (d : Device) (r : CloseRecord) (lines : SenseLines) (hnodup : r.scan.Nodup) :
    (d.countClose (d.republishes r)).Trail (d.compute r lines)
      (d.sensedGroups lines ++
        (if d.enforcing = true ∧ (d.compute r lines).groupWords .charter ≠ d.groupWords .charter then [.charter] else []) ++
        d.closeGroups r) := by
  have hannounced := d.announced_trail r lines hnodup
  unfold Device.closeGroups
  cases hs : d.inService with
  | false =>
    rw [Device.compute_before r lines hnodup hs, if_neg Bool.false_ne_true, List.append_nil]
    exact hannounced
  | true =>
    rw [Device.compute_inService r lines hnodup hs, if_pos rfl]
    generalize d.announced r lines = e at hannounced ⊢
    obtain ⟨hpublished, hstands, hkept⟩ := (e.handOffClose r).publishClose_trail r
    have hwords : ((e.handOffClose r).publishClose r).groupWords .charter = e.charterWords := hkept .charter (by simp)
    rw [hwords]
    refine Device.Trail.andThen
      (hannounced.still (f := e.handOffClose r) rfl (e.handOffClose_quiet r) (fun g hg => ?_) id id)
      hpublished (fun g _ hg => (hkept g hg).symm) hstands
    rcases List.mem_append.1 hg with hg | hg
    · obtain ⟨n, -, rfl⟩ := List.mem_map.1 hg
      rfl
    · split at hg
      · obtain rfl := List.mem_singleton.1 hg
        rfl
      · cases hg

/-! ## The close, settled -/

/-- The checks of closes before leave the Close Engine and the charter. -/
theorem Device.foldl_takeChecks_engine (hs : List SenseHandoff) (d : Device) :
    (hs.foldl Device.takeChecks d).engine = d.engine ∧ (hs.foldl Device.takeChecks d).charter = d.charter := by
  induction hs generalizing d with
  | nil => exact ⟨rfl, rfl⟩
  | cons h hs ih =>
    have hchecked := Device.checkClose_onlyChecked { d with mail := { d.mail with senses := d.mail.senses.tail } } h
    obtain ⟨hengine, hcharter⟩ := ih (d.takeChecks h)
    exact ⟨hengine.trans (by unfold Device.takeChecks; rw [hchecked]),
      hcharter.trans (by unfold Device.takeChecks; rw [hchecked])⟩

/-- The block that a close computation finds, when the checks of the closes before have been made. -/
def Device.closing (d : Device) (later : List CloseRecord) : Device :=
  let e := d.mail.senses.foldl Device.takeChecks d
  { e with mail := { e.mail with closes := later } }

theorem Device.closing_engine (d : Device) (later : List CloseRecord) :
    (d.closing later).engine = d.engine ∧ (d.closing later).inService = d.inService := by
  obtain ⟨hengine, hcharter⟩ := Device.foldl_takeChecks_engine d.mail.senses d
  exact ⟨hengine, Device.inService_charter hcharter⟩

theorem Device.closing_checked {d : Device} (later : List CloseRecord) (h : d.mail.senses = []) :
    d.closing later = { d with mail := { d.mail with closes := later } } := by
  unfold Device.closing
  rw [h]
  rfl

theorem exec_closeComputation {s : State} (lines : SenseLines) {r : CloseRecord} {later : List CloseRecord}
    (h : s.dev.mail.closes = r :: later) :
    exec (.closeComputation lines) s = .next { s with dev := (s.dev.closing later).compute r lines } := by
  have hnext : s.dev.nextClose lines = (s.dev.closing later).compute r lines := by
    unfold Device.nextClose
    rw [h]
    rfl
  rw [← hnext]
  rfl

/-- Settles O29. -/
theorem closeAddsEnergy : Obligations.CloseAddsEnergy := by
  intro s lines r later hcloses hnodup hok
  obtain ⟨hengine, hservice⟩ := s.dev.closing_engine later
  refine CompletesWith.of_exec (exec_closeComputation lines hcloses) ⟨fun hs => ?_, fun hs => ?_, fun hsenses => ?_⟩
  · obtain ⟨m, hclosed⟩ := Device.compute_closed r lines hnodup (hservice.trans hs)
    obtain ⟨e, he⟩ : ∃ e, (s.dev.closing later).compute r lines = e := ⟨_, rfl⟩
    rw [he] at hclosed ⊢
    rw [← hengine] at hok ⊢
    refine ⟨fun n hn hunits => ?_, fun l hgain => ?_⟩
    · exact hclosed.meterEnergy (hok.outlets n) hn ((hclosed.units hn).trans (if_pos hn).symm) hunits
    · refine hclosed.levelEnergy (hok.levels l) ?_ hgain
      refine congrArg List.sum (List.map_congr_left fun n _ => ?_)
      split
      · rename_i hn
        exact hclosed.units hn
      · rfl
  · have hvalues := Device.compute_values r lines hnodup (hservice.trans hs)
    rw [hengine] at hvalues
    exact hvalues
  · have htrail := (s.dev.closing later).compute_trail r lines hnodup
    rw [Device.countClose_eq _ _ _ ((s.dev.closing later).republishes_iff r)] at htrail
    rw [Device.closing_checked later hsenses] at htrail ⊢
    exact htrail.pub

end Sys2Proof.Machine
end

