-- ==== Sys2Proof/Proofs/SlotSamples.lean ====
section
/-! PROOFS. A slot without a rising pair of L1 codes (03): it passes, its L1 code is kept for the next pair, and its samples
count. -/

namespace Sys2Proof.Machine
open Sys2Proof

/-! ## The samples of a slot (R41, R42, R43) -/

theorem Sampler.countCurrent_eq (n : Outlet) (r v : Int) (s : Sampler) :
    Device.Sampler.countCurrent n r v s = s.currentCounted n r v := by
  unfold Device.Sampler.countCurrent Sampler.currentCounted VoltageSums.sample
  rw [Channel.sample_eq, pow_two]

theorem Sampler.countReference_eq (r : Int) (s : Sampler) :
    Device.Sampler.countReference r s = s.referenceCounted r := by
  unfold Device.Sampler.countReference Sampler.referenceCounted
  cases s.nextReference <;> rfl

/-! ## The L1 code of a slot (R52) -/

/-- An L1 code makes a rising pair with the one before it (R52). -/
def Sampler.Rises (s : Sampler) (v : Int) : Prop := ∃ t a, s.lastL1 = some (t, a) ∧ a < 0 ∧ 0 ≤ v

/-- The block with an L1 code kept, taken as the slot before `slotStart` completed. -/
def Device.heard (d : Device) (v : Int) : Device :=
  { d with sampler := { d.sampler with lastL1 := some (d.sampler.slotStart, v) } }

theorem Device.detect_of_not_rises {d : Device} {v : Int} (h : ¬d.sampler.Rises v) : d.detect v = d.heard v := by
  unfold Device.detect
  dsimp only
  split
  case h_1 => rfl
  case h_2 t a hlast =>
    rw [if_neg fun hpair => h ⟨t, a, hlast, hpair⟩]
    rfl

/-- Only a slot on L1 has a code for the detector (R42). -/
theorem Device.detect_on_L1 {d : Device} {n : Outlet} {v : Int} (h : n.phase ≠ 0 ∨ ¬d.sampler.Rises v) :
    (if n.phase = 0 then d.detect v else d) = if n.phase = 0 then d.heard v else d := by
  split
  case isTrue hphase => exact Device.detect_of_not_rises (h.resolve_left (absurd hphase))
  case isFalse => rfl

/-! ## A slot completes -/

theorem Device.currentPassed_eq (d : Device) (n : Outlet) (v : Int) :
    d.currentPassed n v =
      if n.phase = 0 then (d.passSlot (Device.Sampler.after d.sampler n)).heard v
      else d.passSlot (Device.Sampler.after d.sampler n) := by
  unfold Device.currentPassed
  split <;> rfl

theorem Device.referencePassed_eq (d : Device) (v : Int) :
    d.referencePassed v = (d.passSlot d.sampler.scan.head?).heard v := rfl

/-- Counting a slot's samples and keeping its L1 code do not touch each other, so that log 28's order makes no difference. -/
theorem Device.heard_count (d : Device) (n : Outlet) (r v : Int) :
    (d.setSampler (Device.Sampler.countCurrent n r v)).heard v =
      (d.heard v).setSampler (Device.Sampler.countCurrent n r v) := rfl

theorem Device.completeCurrentSlot_of_not_rises {d : Device} {n : Outlet} {v : Int} (r : Int)
    (h : n.phase ≠ 0 ∨ ¬d.sampler.Rises v) :
    d.completeCurrentSlot n r v = (d.currentPassed n v).setSampler (Sampler.currentCounted n r v) := by
  rw [Device.currentPassed_eq, ← funext (Sampler.countCurrent_eq n r v)]
  unfold Device.completeCurrentSlot
  dsimp only
  split
  case isTrue => rw [Device.detect_on_L1 (d := d.passSlot _) h]
  case isFalse =>
    rw [Device.detect_on_L1 (d := (d.passSlot _).setSampler _) h]
    split
    case isTrue => exact Device.heard_count _ n r v
    case isFalse => rfl

theorem Device.completeReferenceSlot_of_not_rises {d : Device} {v : Int} (r : Int) (h : ¬d.sampler.Rises v) :
    d.completeReferenceSlot r v = (d.referencePassed v).setSampler (Sampler.referenceCounted r) := by
  rw [Device.referencePassed_eq, ← funext (Sampler.countReference_eq r)]
  unfold Device.completeReferenceSlot
  rw [Device.detect_of_not_rises (d := d.passSlot _) h]

/-! ## The two commands -/

theorem exec_currentSlot (r v : Word) (s : State) :
    exec (.currentSlot r v) s = .next { s with dev := s.dev.currentSlot r v } := rfl

theorem exec_referenceSlot (r v : Word) (s : State) :
    exec (.referenceSlot r v) s = .next { s with dev := s.dev.referenceSlot r v } := rfl

theorem Device.currentSlot_due {d : Device} {n : Outlet} (r v : Word) (h : d.sampler.due = some n) :
    d.currentSlot r v = d.completeCurrentSlot n r.toInt v.toInt := by
  unfold Device.currentSlot
  rw [h]

theorem Device.currentSlot_not_due {d : Device} (r v : Word) (h : d.sampler.due = none) : d.currentSlot r v = d := by
  unfold Device.currentSlot
  rw [h]

theorem Device.referenceSlot_due {d : Device} (r v : Word) (h : d.sampler.due = none) :
    d.referenceSlot r v = d.completeReferenceSlot r.toInt v.toInt := by
  unfold Device.referenceSlot
  rw [h]

theorem Device.referenceSlot_not_due {d : Device} {n : Outlet} (r v : Word) (h : d.sampler.due = some n) :
    d.referenceSlot r v = d := by
  unfold Device.referenceSlot
  rw [h]

/-- Settles O25. -/
theorem slotsAccumulate : Obligations.SlotsAccumulate := by
  intro s r v
  refine ⟨fun n hdue => ⟨?_, fun h => ?_⟩, fun hdue => ⟨?_, fun h => ?_⟩⟩
  · rw [exec_referenceSlot, Device.referenceSlot_not_due r v hdue]
  · rw [exec_currentSlot, Device.currentSlot_due r v hdue, Device.completeCurrentSlot_of_not_rises _ h]
    rfl
  · rw [exec_currentSlot, Device.currentSlot_not_due r v hdue]
  · rw [exec_referenceSlot, Device.referenceSlot_due r v hdue, Device.completeReferenceSlot_of_not_rises _ h]
    rfl

end Sys2Proof.Machine
end

