-- ==== Sys2Proof/Proofs/DecimalArithmetic.lean ====
section
/-! PROOFS. A string and its packed words (R30, R69, R81), and the root of the close (R61, R63). -/

namespace Sys2Proof.Machine
open Sys2Proof

/-! ## Packed strings (R30, R81) -/

/-- Every digit of a string passes the check of a seed, and the seed is the string. -/
theorem Digits.seed_packed (ds : Digits) : seedDigits ds.length ds.packed = some ds := by
  induction ds with
  | nil => rfl
  | cons d ds ih =>
    have hd := d.isLt
    have hlow : (d.val + 16 * Digits.packed ds) % 16 = d.val := by omega
    have hhigh : (d.val + 16 * Digits.packed ds) / 16 = Digits.packed ds := by omega
    have hdigit : d.val ≤ 9 := by omega
    show seedDigits (ds.length + 1) (d.val + 16 * Digits.packed ds) = some (d :: ds)
    rw [seedDigits, hlow, hhigh, if_pos hdigit, ih]
    simp

/-! ## The root (R61, R63) -/

/-- The search keeps a root between r and r + 2^k. -/
theorem isRoot_sqrtFrom (k x r : Nat) (hle : r * r ≤ x) (hlt : x < (r + 2 ^ k) * (r + 2 ^ k)) :
    IsRoot x (sqrtFrom k x r) := by
  induction k generalizing r with
  | zero => exact ⟨hle, hlt⟩
  | succ k ih =>
    unfold sqrtFrom
    split
    · rename_i hfits
      refine ih _ hfits ?_
      have hpow : r + 2 ^ k + 2 ^ k = r + 2 ^ (k + 1) := by omega
      rwa [hpow]
    · rename_i hexceeds
      exact ih _ hle (Nat.lt_of_not_le hexceeds)

theorem isRoot_floorSqrt {x : Nat} (h : x < 2 ^ 34) : IsRoot x (floorSqrt x) :=
  isRoot_sqrtFrom 17 x 0 (Nat.zero_le x) h

/-- Settles O31. -/
theorem decimalArithmetic : Obligations.DecimalArithmetic := by
  refine ⟨fun ds w => ⟨length_add ds w, ds.add_value w, fun hw => ⟨ds.wraps_iff hw, ds.addSaturating_value hw⟩⟩,
    fun ds es hlen => ⟨length_subFloor ds es, ds.subFloor_value es hlen⟩,
    fun ds => ⟨ds.unpack_packed, ds.seed_packed⟩, fun x hx => isRoot_floorSqrt hx⟩

end Sys2Proof.Machine
end

