-- ==== Sys2Proof/Proofs/CloseReading.lean ====
section
/-! PROOFS. What a close leaves alone, reads and announces (R59, R79, R101). -/

namespace Sys2Proof.Machine
open Sys2Proof

/-! ## Publications that are announced (R16, R36, R108) -/

theorem Publication.takes_entered (p : Publication) {g : Group} (hg : g.isMeter = false) (words : List Word) :
    p.takes g words = p.entered g words := by
  rw [Publication.takes_way]
  cases g with
  | charter | status n => rfl
  | level l | meter n => cases hg

theorem Publication.entered_keeps (p : Publication) {g h : Group} {w v : List Word} (hv : h = g → v = w)
    (hmem : Entry.group g w ∈ p.queue) : Entry.group g w ∈ (p.entered h v).queue := by
  unfold Publication.entered
  dsimp only
  split
  · refine List.mem_map.2 ⟨_, hmem, ?_⟩
    split
    · rename_i hsame
      obtain rfl : g = h := Option.some.inj hsame
      rw [hv rfl]
    · rfl
  · exact List.mem_append_left _ hmem

theorem Publication.takes_keeps (p : Publication) {g h : Group} {w v : List Word} (hv : h = g → v = w)
    (hmem : Entry.group g w ∈ p.queue) : Entry.group g w ∈ (p.takes h v).queue := by
  rw [Publication.takes_way]
  cases p.way h with
  | heldBack => cases h <;> exact hmem
  | bracket => exact hmem
  | queue => exact p.entered_keeps hv hmem

theorem Publication.takesAll_keeps (words : Group → List Word) (gs : List Group) (p : Publication) {g : Group}
    (hmem : Entry.group g (words g) ∈ p.queue) : Entry.group g (words g) ∈ (p.takesAll words gs).queue := by
  induction gs generalizing p with
  | nil => exact hmem
  | cons h gs ih => exact ih _ (p.takes_keeps (fun hg => by rw [hg]) hmem)

/-- A group that no bracket and no collect-clear holds back waits once it has been published. -/
theorem Publication.mem_takesAll (words : Group → List Word) {gs : List Group} (p : Publication) {g : Group}
    (hg : g.isMeter = false) (hmem : g ∈ gs) : Entry.group g (words g) ∈ (p.takesAll words gs).queue := by
  induction gs generalizing p with
  | nil => cases hmem
  | cons h gs ih =>
    rcases List.mem_cons.1 hmem with rfl | hlater
    · have hentered : Entry.group g (words g) ∈ (p.takes g (words g)).queue := by
        rw [p.takes_entered hg]
        exact p.mem_entered g (words g)
      exact Publication.takesAll_keeps words gs _ hentered
    · exact ih _ hlater

theorem Device.Trail.announces {d e : Device} {gs : List Group} (h : d.Trail e gs) : d.Announces e := by
  have hwaits {g : Group} (hg : g.isMeter = false) (hmem : g ∈ gs) : e.Published g := by
    unfold Device.Published
    rw [h.pub]
    exact Publication.mem_takesAll e.groupWords d.pub hg hmem
  exact ⟨fun hs n hmoved => hwaits rfl (h.moves (.status n) ⟨hs, hmoved⟩),
    fun he hmoved => hwaits rfl (h.moves .charter ⟨he, hmoved⟩)⟩

theorem Device.compute_announces (d : Device) (r : CloseRecord) (lines : SenseLines) (hnodup : r.scan.Nodup) :
    d.Announces (d.compute r lines) := by
  have hannounces := (d.compute_trail r lines hnodup).announces
  have hwords := (d.countClose_onlyPub (d.republishes r)).groupWords
  exact ⟨fun hs n hmoved => hannounces.status hs n (by rwa [hwords]),
    fun he hmoved => hannounces.charter he (by rwa [hwords])⟩

/-! ## The reading of contact sense (R101) -/

/-- An outlet's context with the contact sense that a close reads. -/
def Device.sensedOutlet (d : Device) (lines : SenseLines) (n : Outlet) : OutletContext :=
  if d.present n then { d.outlet[n] with sensed := lines[n] } else d.outlet[n]

/-- The outlets' contexts with the contact sense that a close reads. -/
def Device.sensedOutlets (d : Device) (lines : SenseLines) : Vector OutletContext 48 := Vector.ofFn (d.sensedOutlet lines)

theorem Device.sensedOutlets_at (d : Device) (lines : SenseLines) (n : Outlet) :
    (d.sensedOutlets lines)[n] = d.sensedOutlet lines n := by
  simp [Device.sensedOutlets]

theorem Device.sensedOutlet_congr {d e : Device} (ho : e.outlet = d.outlet) (hb : e.pins.bankB = d.pins.bankB)
    (lines : SenseLines) (n : Outlet) : e.sensedOutlet lines n = d.sensedOutlet lines n := by
  unfold Device.sensedOutlet Device.present
  rw [ho, hb]

theorem Device.sensedOutlet_state (d : Device) (lines : SenseLines) (n : Outlet) :
    (d.sensedOutlet lines n).state = (d.outlet[n]).state := by
  unfold Device.sensedOutlet
  split <;> rfl

theorem Device.sensedOutlets_state (d : Device) (lines : SenseLines) :
    mapAll OutletContext.state (d.sensedOutlets lines) = Vector.ofFn fun n : Outlet => (d.outlet[n]).state := by
  refine Vector.ext fun i hi => ?_
  simp only [mapAll, Vector.getElem_ofFn]
  rw [d.sensedOutlets_at lines ⟨i, hi⟩, d.sensedOutlet_state]

theorem Device.readOutlet_at (d : Device) (n k : Outlet) :
    (d.readOutlet n).outlet[k] = if k = n then d.sensedOutlet d.pins.senseLines k else d.outlet[k] := by
  unfold Device.readOutlet Device.sensedOutlet
  by_cases hk : k = n
  · subst hk
    split <;> simp
  · split <;> simp [Ne.symm hk]

/-- A reading made twice is the reading made once. -/
theorem Device.readOutlet_sensedOutlet (d : Device) (n k : Outlet) :
    (d.readOutlet n).sensedOutlet d.pins.senseLines k = d.sensedOutlet d.pins.senseLines k := by
  have hat := d.readOutlet_at n k
  obtain ⟨o, p, hread⟩ := d.readOutlet_eq n
  have hpresent : (d.readOutlet n).present k = d.present k := by rw [hread]; rfl
  unfold Device.sensedOutlet at hat ⊢
  rw [hpresent, hat]
  split
  · split <;> rfl
  · split <;> rfl

theorem Device.foldl_readOutlet_at (ns : List Outlet) (d : Device) (k : Outlet) :
    (ns.foldl Device.readOutlet d).outlet[k] =
      if k ∈ ns then d.sensedOutlet d.pins.senseLines k else d.outlet[k] := by
  induction ns generalizing d with
  | nil => simp
  | cons n ns ih =>
    obtain ⟨o, p, hread⟩ := d.readOutlet_eq n
    have hpins : (d.readOutlet n).pins = d.pins := by rw [hread]
    rw [List.foldl_cons, ih, hpins, d.readOutlet_sensedOutlet, d.readOutlet_at]
    by_cases hk : k ∈ ns <;> simp [hk]

/-- A close counted and its contact sense read: the lines, the present outlets' Relay Sensed and publications alone. -/
theorem Device.counted_eq (d : Device) (r : CloseRecord) (lines : SenseLines) : d.counted r lines = { d with
    pins := { d.pins with senseLines := lines }
    outlet := d.sensedOutlets lines
    pub := (d.counted r lines).pub } := by
  obtain ⟨p, hp⟩ : ∃ p, d.countClose (d.republishes r) = { d with pub := p } := ⟨_, Device.countClose_onlyPub d _⟩
  obtain ⟨c, hc⟩ : ∃ c : Device, c = { d with pub := p, pins := { d.pins with senseLines := lines } } := ⟨_, rfl⟩
  have hread : d.counted r lines = outlets.foldl Device.readOutlet c := by
    rw [Device.counted, Device.readSense, hp, hc]
  have hlines : c.pins.senseLines = lines := by rw [hc]
  have hos : (d.counted r lines).outlet = d.sensedOutlets lines := by
    refine Vector.ext fun i hi => ?_
    have hat := Device.foldl_readOutlet_at outlets c ⟨i, hi⟩
    have hlisted : (⟨i, hi⟩ : Outlet) ∈ outlets := List.mem_finRange _
    rw [hread]
    rw [if_pos hlisted, Device.sensedOutlet_congr (d := d) (by rw [hc]) (by rw [hc]), hlines,
      ← d.sensedOutlets_at lines ⟨i, hi⟩] at hat
    exact hat
  obtain ⟨os, q, hfold, -⟩ := Device.foldl_readOutlet_eq outlets c
  rw [← hos, hread, hfold, hc]

/-! ## What a close changes (R59, R79) -/

theorem Device.announced_eq (d : Device) (r : CloseRecord) (lines : SenseLines) (hnodup : r.scan.Nodup) :
    let a := d.announced r lines
    a = { d with
      pins := { d.pins with senseLines := lines }
      outlet := d.sensedOutlets lines
      pub := a.pub, engine := a.engine, freeCount := a.freeCount
      mail := { d.mail with reports := a.mail.reports } } := by
  have honly : ((d.counted r lines).workedOut r).OnlyPub (d.announced r lines) :=
    Device.changeCharter_onlyPub (d.counted r lines) fun d => d.workedOut r
  have halone := (d.counted r lines).workedOut_alone r hnodup
  dsimp only
  rw [honly, halone.whole, d.counted_eq r lines]

theorem Device.announced_engine (d : Device) (r : CloseRecord) (lines : SenseLines) :
    (d.announced r lines).engine = ((d.counted r lines).workedOut r).engine := Device.changeCharter_engine _ _

/-- What a close in service hands on and publishes, over the close as worked out. -/
theorem Device.compute_handedOn {d : Device} (r : CloseRecord) (lines : SenseLines) (hnodup : r.scan.Nodup)
    (hs : d.inService = true) :
    let a := d.announced r lines
    let e := d.compute r lines
    e = { a with
      engine := { a.engine with levels := e.engine.levels, outlets := e.engine.outlets }
      pub := e.pub
      mail := (a.handOffClose r).mail } := by
  dsimp only
  rw [Device.compute_inService r lines hnodup hs]
  generalize d.announced r lines = a
  obtain ⟨levelMeters, meters, p, hpublished, -⟩ := (a.handOffClose r).publishClose_meters r hnodup
  rw [hpublished]
  rfl

theorem Device.compute_whole (d : Device) (r : CloseRecord) (lines : SenseLines) (hnodup : r.scan.Nodup) :
    let e := d.compute r lines
    e = { d with
      pins := { d.pins with senseLines := lines }
      outlet := d.sensedOutlets lines
      pub := e.pub, engine := e.engine, freeCount := e.freeCount, mail := e.mail } := by
  have hannounced := d.announced_eq r lines hnodup
  dsimp only at hannounced ⊢
  cases hs : d.inService with
  | false =>
    rw [Device.compute_before r lines hnodup hs, hannounced]
  | true =>
    rw [Device.compute_handedOn r lines hnodup hs, hannounced]

theorem Device.compute_frame (d : Device) (r : CloseRecord) (lines : SenseLines) (hnodup : r.scan.Nodup) :
    d.Untouched (d.compute r lines) [.pins, .pub, .engine, .outlet, .mail, .freeCount] := by
  have hwhole := d.compute_whole r lines hnodup
  intro p hp
  rw [hwhole]
  cases p <;> first | exact absurd hp (by decide) | rfl

theorem Device.measure_eq (d : Device) (r : CloseRecord) :
    d.measure r = { d with engine := (d.measure r).engine } := by
  unfold Device.measure
  rfl

theorem Device.measure_mail (d : Device) (r : CloseRecord) : (d.measure r).mail = d.mail := by
  rw [Device.measure_eq]

theorem Device.compute_pins (d : Device) (r : CloseRecord) (lines : SenseLines) (hnodup : r.scan.Nodup) :
    (d.compute r lines).pins = { d.pins with senseLines := lines } := by
  rw [d.compute_whole r lines hnodup]

theorem Device.compute_outlet (d : Device) (r : CloseRecord) (lines : SenseLines) (hnodup : r.scan.Nodup) (n : Outlet) :
    (d.compute r lines).outlet[n] = d.sensedOutlet lines n := by
  rw [d.compute_whole r lines hnodup]
  exact d.sensedOutlets_at lines n

/-- Before service a close hands nothing on. -/
theorem Device.compute_mail_before {d : Device} (r : CloseRecord) (lines : SenseLines) (hnodup : r.scan.Nodup)
    (hs : d.inService = false) : (d.compute r lines).mail = d.mail := by
  have hcounted : (d.counted r lines).inService = false :=
    (Device.inService_charter (d.counted_charter r lines)).trans hs
  obtain ⟨-, htotalled, -⟩ := ((d.counted r lines).measure r).totalled r
  rw [Device.compute_before r lines hnodup hs, Device.announced, Device.changeCharter_mail,
    Device.workedOut_before r hcounted, htotalled, Device.measure_mail]
  exact d.counted_frame r lines .mail (by decide)

theorem Device.compute_closes (d : Device) (r : CloseRecord) (lines : SenseLines) (hnodup : r.scan.Nodup) :
    (d.compute r lines).mail.closes = d.mail.closes := by
  cases hs : d.inService with
  | false => rw [Device.compute_mail_before r lines hnodup hs]
  | true =>
    have hannounced := d.announced_eq r lines hnodup
    rw [Device.compute_handedOn r lines hnodup hs]
    generalize d.announced r lines = a at hannounced ⊢
    show a.mail.closes = d.mail.closes
    rw [hannounced]

end Sys2Proof.Machine
end

