-- ==== Sys2Proof/Proofs/CloseValues.lean ====
section
/-! PROOFS. The values, the totals and the hand-offs of a close (R59 to R67, R73 to R76, R79). -/

namespace Sys2Proof.Machine
open Sys2Proof

/-! ## The numbers of a close (R60, R61, R63 to R66) -/

theorem clampNat_zero (hi x : Nat) : clampNat 0 hi x = min hi x := Nat.max_eq_right (Nat.zero_le _)

theorem GainRange.scale_eq_codes (g : GainRange) : g.scale = g.codes := by cases g <;> rfl

theorem roundDiv_eq_nearest (x : Int) {d : Nat} (hd : 0 < d) : roundDiv x d = nearest x d := by
  unfold roundDiv nearest
  rcases lt_trichotomy x 0 with hneg | rfl | hpos
  · rw [if_pos hneg, Int.sign_eq_neg_one_of_neg hneg, Int.neg_one_mul]
  · have hzero : (2 * (0 : Int).natAbs + d) / (2 * d) = 0 := Nat.div_eq_of_lt (by rw [Int.natAbs_zero]; omega)
    rw [if_neg (by decide), hzero]
    rfl
  · rw [if_neg hpos.le.not_gt, Int.sign_eq_one_of_pos hpos, Int.one_mul]

theorem rmsVoltage_root (s : VoltageSums) (kv : Nat) (h : s.sumSq / s.count < 2 ^ 34) :
    ∃ root, IsRoot (s.sumSq / s.count) root ∧ rmsVoltage s kv = (root * kv + 81920) / 163840 :=
  ⟨_, isRoot_floorSqrt h, rfl⟩

theorem outletPower_nearest (c : Channel) (k kv : Nat) : outletPower c k kv = max (-999999) (min 999999
    (nearest (c.sumProd.tdiv c.count * c.range.codes * k * kv) 42949672960000)) := by
  unfold outletPower clampInt
  rw [roundDiv_eq_nearest _ (by decide), GainRange.scale_eq_codes]
  rfl

/-- A scanned outlet's meter without samples: its values are held (R62). -/
theorem OutletMeter.measured_held {c : Channel} (m : OutletMeter) (q : Quality) (k kv v : Nat) (h : c.count = 0) :
    m.measured c q k kv v = { m with quality := q } := if_pos h

/-- A scanned outlet's meter with samples (R63 to R66). -/
theorem OutletMeter.measured_fresh {c : Channel} (m : OutletMeter) (q : Quality) (k kv v : Nat) (h : c.count ≠ 0)
    (hless : c.sumSq / c.count < 2 ^ 34) :
    let m' := m.measured c q k kv v
    ∃ root, IsRoot (c.sumSq / c.count) root ∧
      m'.current = min 65535 ((root * c.range.codes * k + 131072) / 262144) ∧
      m'.power = max (-999999) (min 999999
        (nearest (c.sumProd.tdiv c.count * c.range.codes * k * kv) 42949672960000)) ∧
      m'.apparent = (m'.current * v + 500) / 1000 ∧ m'.range = c.range := by
  have hmeasured : m.measured c q k kv v = { m with
      current := outletCurrent c k, power := outletPower c k kv, apparent := apparentPower (outletCurrent c k) v
      range := c.range, quality := q } := if_neg h
  have hcurrent : outletCurrent c k =
      min 65535 ((floorSqrt (c.sumSq / c.count) * c.range.codes * k + 131072) / 262144) := by
    rw [outletCurrent, Nat.min_comm, GainRange.scale_eq_codes]
  rw [hmeasured]
  exact ⟨_, isRoot_floorSqrt hless, hcurrent, outletPower_nearest c k kv, rfl, rfl⟩

theorem OutletMeter.measured_quality (m : OutletMeter) (c : Channel) (q : Quality) (k kv v : Nat) :
    (m.measured c q k kv v).quality = q := by
  unfold OutletMeter.measured
  split <;> rfl

/-! ## The values worked out (R58, R61 to R67) -/

theorem CloseRecord.scanned_iff (r : CloseRecord) (n : Outlet) : r.scanned n = true ↔ n ∈ r.scan :=
  List.contains_iff_mem

theorem CloseRecord.quality_scanned {r : CloseRecord} {n : Outlet} (hn : n ∈ r.scan) :
    let c := r.channels[n]
    r.quality n =
      ⟨decide (c.count = 0), decide (1 ≤ c.count ∧ c.count ≤ 31), c.saturated, r.inDrift, !r.synchronised⟩ := by
  unfold CloseRecord.quality
  dsimp only
  rw [if_pos ((r.scanned_iff n).2 hn), Bool.decide_and]

theorem CloseRecord.quality_unscanned {r : CloseRecord} {n : Outlet} (hn : n ∉ r.scan) :
    r.quality n = ⟨false, false, false, false, false⟩ := if_neg (mt (r.scanned_iff n).1 hn)

theorem Device.measure_voltage (d : Device) (r : CloseRecord) (p : Phase) : (d.measure r).engine.voltages[p] =
    if (r.voltages[p]).count = 0 then d.engine.voltages[p] else rmsVoltage r.voltages[p] (d.voltageCalibration p) := by
  simp [Device.measure]

theorem Device.measure_scanned (d : Device) {r : CloseRecord} {n : Outlet} (hn : n ∈ r.scan) :
    (d.measure r).engine.outlets[n] = (d.engine.outlets[n]).measured r.channels[n] (r.quality n) (d.currentCalibration n)
      (d.voltageCalibration (Outlet.phase n)) ((d.measure r).engine.voltages[Outlet.phase n]) := by
  simp [Device.measure, (r.scanned_iff n).2 hn]

theorem Device.measure_unscanned (d : Device) {r : CloseRecord} {n : Outlet} (hn : n ∉ r.scan) :
    (d.measure r).engine.outlets[n] = d.engine.outlets[n] := by
  simp [Device.measure, mt (r.scanned_iff n).1 hn]

theorem Device.measure_lineFrequency (d : Device) (r : CloseRecord) :
    (d.measure r).engine.lineFrequency = d.engine.lineFrequency := by
  unfold Device.measure
  rfl

/-- The values depend on what the Close Engine held and on the Shadow File. -/
theorem Device.measure_congr {d e : Device} (he : e.engine = d.engine) (hp : e.path = d.path) (r : CloseRecord) :
    (e.measure r).engine = (d.measure r).engine := by
  unfold Device.measure Device.voltageCalibration Device.currentCalibration Device.levelField Device.outletField
    Device.shadow
  rw [he, hp]

/-! ## The same values, whatever has been counted (R68 to R72, R77) -/

/-- Two meters show the same values; energy, Rollover Count and Sequence may differ. -/
structure OutletMeter.SameValues (m m' : OutletMeter) : Prop where
  current : m'.current = m.current
  power : m'.power = m.power
  apparent : m'.apparent = m.apparent
  range : m'.range = m.range
  quality : m'.quality = m.quality

/-- Two level meters show the same values. -/
structure LevelMeter.SameValues (m m' : LevelMeter) : Prop where
  load : m'.load = m.load
  power : m'.power = m.power
  quality : m'.quality = m.quality

/-- The Close Engine holds the same values, and of an outlet not scanned the same meter. -/
structure CloseEngine.SameValues (e e' : CloseEngine) (scan : List Outlet) : Prop where
  voltages : e'.voltages = e.voltages
  lineFrequency : e'.lineFrequency = e.lineFrequency
  scanned (n : Outlet) : (e.outlets[n]).SameValues e'.outlets[n]
  unscanned (n : Outlet) : n ∉ scan → e'.outlets[n] = e.outlets[n]
  level (l : Level) : (e.levels.get l).SameValues (e'.levels.get l)

theorem CloseEngine.SameValues.refl (e : CloseEngine) (scan : List Outlet) : e.SameValues e scan :=
  ⟨rfl, rfl, fun _ => ⟨rfl, rfl, rfl, rfl, rfl⟩, fun _ _ => rfl, fun _ => ⟨rfl, rfl, rfl⟩⟩

theorem Device.Charged.sameValues {d e : Device} {r : CloseRecord} (h : d.Charged e r) :
    d.engine.SameValues e.engine r.scan where
  voltages := by rw [h.whole]
  lineFrequency := by rw [h.whole]
  scanned n := by
    rw [h.meter]
    split <;> exact ⟨rfl, rfl, rfl, rfl, rfl⟩
  unscanned n hn := by rw [h.meter, if_neg hn]
  level l := by
    rw [h.level]
    exact ⟨rfl, rfl, rfl⟩

theorem Device.Charged.pins {d e : Device} {r : CloseRecord} (h : d.Charged e r) : e.pins = d.pins :=
  (congrArg Device.pins h.whole).trans rfl

theorem Device.Charged.path {d e : Device} {r : CloseRecord} (h : d.Charged e r) : e.path = d.path :=
  (congrArg Device.path h.whole).trans rfl

theorem Device.publishClose_sameValues (d : Device) (r : CloseRecord) (hnodup : r.scan.Nodup) :
    d.engine.SameValues (d.publishClose r).engine r.scan := by
  obtain ⟨levelMeters, meters, p, hpublished, hlevel, hmeter⟩ := d.publishClose_meters r hnodup
  rw [hpublished]
  refine ⟨rfl, rfl, fun n => ?_, fun n hn => ?_, fun l => ?_⟩
  · rw [hmeter]
    split <;> exact ⟨rfl, rfl, rfl, rfl, rfl⟩
  · rw [hmeter, if_neg hn]
  · rw [hlevel]
    exact ⟨rfl, rfl, rfl⟩

theorem Device.compute_sameValues (d : Device) (r : CloseRecord) (lines : SenseLines) (hnodup : r.scan.Nodup) :
    (d.announced r lines).engine.SameValues (d.compute r lines).engine r.scan := by
  cases hs : d.inService with
  | false =>
    rw [Device.compute_before r lines hnodup hs]
    exact .refl _ _
  | true =>
    rw [Device.compute_inService r lines hnodup hs]
    generalize d.announced r lines = a
    exact (a.handOffClose r).publishClose_sameValues r hnodup

/-- The values of a close are those worked out, with totals over them: y is the block with the values worked out and, in
service, their energy counted. -/
theorem Device.compute_totals (d : Device) (r : CloseRecord) (lines : SenseLines) (hnodup : r.scan.Nodup) :
    ∃ y : Device, (d.measure r).engine.SameValues y.engine r.scan ∧ y.pins = { d.pins with senseLines := lines } ∧
      y.path = d.path ∧
      ((y.total r).measureFrequency r).engine.SameValues (d.compute r lines).engine r.scan := by
  have hsame := d.compute_sameValues r lines hnodup
  have hcounted := d.counted_eq r lines
  rw [d.announced_engine] at hsame
  obtain ⟨c, hc⟩ : ∃ c, d.counted r lines = c := ⟨_, rfl⟩
  rw [hc] at hcounted hsame
  obtain ⟨m, hm⟩ : ∃ m, c.measure r = m := ⟨_, rfl⟩
  have hwhole := c.measure_eq r
  rw [hm] at hwhole
  have hpins : m.pins = { d.pins with senseLines := lines } := by rw [hwhole, hcounted]
  have hpath : m.path = d.path := by rw [hwhole, hcounted]
  rw [← Device.measure_congr (d := d) (e := c) (by rw [hcounted]) (by rw [hcounted]) r, hm]
  cases hs : c.inService with
  | false =>
    rw [Device.workedOut_before r hs, hm] at hsame
    exact ⟨m, .refl _ _, hpins, hpath, hsame⟩
  | true =>
    rw [Device.workedOut_inService r hs, hm] at hsame
    have hcharged := m.charge_charged r hnodup
    exact ⟨m.charge r, hcharged.sameValues, hcharged.pins.trans hpins, hcharged.path.trans hpath, hsame⟩

/-! ## The values a close shows (R61 to R67, R73 to R76) -/

theorem OutletMeter.SameValues.trans {m m' m'' : OutletMeter} (h : m.SameValues m') (k : m'.SameValues m'') :
    m.SameValues m'' :=
  ⟨k.current.trans h.current, k.power.trans h.power, k.apparent.trans h.apparent, k.range.trans h.range,
    k.quality.trans h.quality⟩

/-- Totals and Line Frequency, over the outlets' values. -/
theorem Device.totalled_values (y : Device) (r : CloseRecord) :
    let e := (y.total r).measureFrequency r
    e.engine.voltages = y.engine.voltages ∧ e.engine.outlets = y.engine.outlets ∧
      (e.engine.lineFrequency =
        if r.synchronised then lineFrequencyOf r.cycles r.length else y.engine.lineFrequency) ∧
      ∀ l, e.engine.levels.get l = { y.engine.levels.get l with
        load := min (((outletsOf l).map fun n => y.loadShare r n).sum) 9999999
        power := clampInt (-99999999) 99999999 (((outletsOf l).map fun n => y.powerShare r n).sum)
        quality := y.levelQuality r l } := by
  unfold Device.measureFrequency
  split <;> exact ⟨rfl, rfl, rfl, fun l => by simp [Device.total, PerLevel.get_ofFn]⟩

/-- An outlet contributes to a close at its Expected Inrush (R73). -/
abbrev Device.EstimatedAt (d : Device) (r : CloseRecord) (lines : SenseLines) (n : Outlet) : Prop :=
  n ∉ r.scan ∧ d.present n = true ∧ lines[n] = .closed

theorem Device.estimated_iff {d y : Device} {lines : SenseLines} (h : y.pins = { d.pins with senseLines := lines })
    (r : CloseRecord) (n : Outlet) : y.estimated r n = true ↔ d.EstimatedAt r lines n := by
  unfold Device.estimated Device.present Device.EstimatedAt Device.present
  rw [h]
  simp only [Bool.and_eq_true, Bool.not_eq_true', Bool.eq_false_iff, ne_eq, r.scanned_iff, decide_eq_true_eq, and_assoc]

/-- What a close shows: the values worked out and the totals over them. -/
structure Device.Shows (d e : Device) (r : CloseRecord) (lines : SenseLines) : Prop where
  voltages : e.engine.voltages = (d.measure r).engine.voltages
  lineFrequency : e.engine.lineFrequency =
    if r.synchronised then lineFrequencyOf r.cycles r.length else d.engine.lineFrequency
  scanned (n : Outlet) : ((d.measure r).engine.outlets[n]).SameValues e.engine.outlets[n]
  unscanned (n : Outlet) : n ∉ r.scan → e.engine.outlets[n] = d.engine.outlets[n]
  load (l : Level) : (e.engine.levels.get l).load = min 9999999 ((outletsOf l).map fun n =>
    if n ∈ r.scan then (e.engine.outlets[n]).current
    else if d.EstimatedAt r lines n then d.expectedInrush n * 100 else 0).sum
  power (l : Level) : (e.engine.levels.get l).power = clampInt (-99999999) 99999999
    ((outletsOf l).map fun n => if n ∈ r.scan then (e.engine.outlets[n]).power else 0).sum
  isPartial (l : Level) : (e.engine.levels.get l).quality.isPartial = true ↔
    ∃ n, l.covers n = true ∧ d.EstimatedAt r lines n
  noSamples (l : Level) : (e.engine.levels.get l).quality.noSamples = true ↔
    ∃ p, l = .phase p ∧ (r.voltages[p]).count = 0
  refDrift (l : Level) : (e.engine.levels.get l).quality.refDrift = r.inDrift
  noLineSync (l : Level) : (e.engine.levels.get l).quality.noLineSync = !r.synchronised

theorem Device.levelQuality_noSamples (d : Device) (r : CloseRecord) (l : Level) :
    (d.levelQuality r l).noSamples = true ↔ ∃ p, l = .phase p ∧ (r.voltages[p]).count = 0 := by
  cases l <;> simp [Device.levelQuality]

theorem Device.compute_shows (d : Device) (r : CloseRecord) (lines : SenseLines) (hnodup : r.scan.Nodup) :
    d.Shows (d.compute r lines) r lines := by
  obtain ⟨y, hvalues, hpins, hpath, hsame⟩ := d.compute_totals r lines hnodup
  obtain ⟨hvoltages, houtlets, hfrequency, hlevels⟩ := y.totalled_values r
  generalize d.compute r lines = e at hsame ⊢
  generalize (y.total r).measureFrequency r = z at *
  have hmeters (n : Outlet) : (y.engine.outlets[n]).SameValues e.engine.outlets[n] := houtlets ▸ hsame.scanned n
  have hinrush (n : Outlet) : y.expectedInrush n = d.expectedInrush n := by
    unfold Device.expectedInrush Device.outletField Device.shadow
    rw [hpath]
  have hload (n : Outlet) : y.loadShare r n = if n ∈ r.scan then (e.engine.outlets[n]).current
      else if d.EstimatedAt r lines n then d.expectedInrush n * 100 else 0 := by
    simp only [Device.loadShare, r.scanned_iff, Device.estimated_iff hpins, hinrush, (hmeters n).current]
  have hpower (n : Outlet) : y.powerShare r n = if n ∈ r.scan then (e.engine.outlets[n]).power else 0 := by
    simp only [Device.powerShare, r.scanned_iff, (hmeters n).power]
  have hquality (l : Level) : (e.engine.levels.get l).quality = y.levelQuality r l := by
    rw [(hsame.level l).quality, hlevels]
  refine ⟨?_, ?_, fun n => (hvalues.scanned n).trans (hmeters n), fun n hn => ?_, fun l => ?_, fun l => ?_, fun l => ?_,
    fun l => ?_, fun l => ?_, fun l => ?_⟩
  · rw [hsame.voltages, hvoltages, hvalues.voltages]
  · rw [hsame.lineFrequency, hfrequency, hvalues.lineFrequency, d.measure_lineFrequency]
  · rw [hsame.unscanned n hn, houtlets, hvalues.unscanned n hn, d.measure_unscanned hn]
  · rw [(hsame.level l).load, hlevels, Nat.min_comm]
    simp only [hload]
  · rw [(hsame.level l).power, hlevels]
    simp only [hpower]
  · rw [hquality]
    simp only [Device.levelQuality, outletsOf, List.any_eq_true, List.mem_filter, Device.estimated_iff hpins]
    exact exists_congr fun n => and_congr_left fun _ => and_iff_right (List.mem_finRange n)
  · rw [hquality, y.levelQuality_noSamples]
  · rw [hquality]; rfl
  · rw [hquality]; rfl

/-- A phase voltage after a close (R61). -/
theorem Device.Shows.voltage {d e : Device} {r : CloseRecord} {lines : SenseLines} (h : d.Shows e r lines) {p : Phase}
    (hless : (r.voltages[p]).sumSq / (r.voltages[p]).count < 2 ^ 34) :
    let x := r.voltages[p]
    (x.count = 0 → e.engine.voltages[p] = d.engine.voltages[p]) ∧
    (x.count ≠ 0 → ∃ root, IsRoot (x.sumSq / x.count) root ∧
      e.engine.voltages[p] = (root * d.voltageCalibration p + 81920) / 163840) := by
  have hvoltage := d.measure_voltage r p
  rw [← h.voltages] at hvoltage
  refine ⟨fun hc => by rw [hvoltage, if_pos hc], fun hc => ?_⟩
  rw [hvoltage, if_neg hc]
  exact rmsVoltage_root _ _ hless

/-- The conditions that a scanned outlet's meter shows are those of its result (R58, R67). -/
theorem Device.Shows.quality {d e : Device} {r : CloseRecord} {lines : SenseLines} (h : d.Shows e r lines) {n : Outlet}
    (hn : n ∈ r.scan) : (e.engine.outlets[n]).quality = r.quality n := by
  rw [(h.scanned n).quality, d.measure_scanned hn, OutletMeter.measured_quality]

/-- A scanned outlet's meter after a close without samples of it (R62). -/
theorem Device.Shows.held {d e : Device} {r : CloseRecord} {lines : SenseLines} (h : d.Shows e r lines) {n : Outlet}
    (hn : n ∈ r.scan) (hc : (r.channels[n]).count = 0) :
    let m := d.engine.outlets[n]
    let m' := e.engine.outlets[n]
    m'.current = m.current ∧ m'.power = m.power ∧ m'.apparent = m.apparent ∧ m'.range = m.range := by
  obtain ⟨hcurrent, hpower, happarent, hrange, -⟩ := h.scanned n
  rw [d.measure_scanned hn, OutletMeter.measured_held _ _ _ _ _ hc] at hcurrent hpower happarent hrange
  exact ⟨hcurrent, hpower, happarent, hrange⟩

/-- A scanned outlet's meter after a close with samples of it (R63 to R66). -/
theorem Device.Shows.fresh {d e : Device} {r : CloseRecord} {lines : SenseLines} (h : d.Shows e r lines) {n : Outlet}
    (hn : n ∈ r.scan) (hc : (r.channels[n]).count ≠ 0)
    (hless : (r.channels[n]).sumSq / (r.channels[n]).count < 2 ^ 34) :
    let c := r.channels[n]
    let m' := e.engine.outlets[n]
    ∃ root, IsRoot (c.sumSq / c.count) root ∧
      m'.current = min 65535 ((root * c.range.codes * d.currentCalibration n + 131072) / 262144) ∧
      m'.power = max (-999999) (min 999999 (nearest
        (c.sumProd.tdiv c.count * c.range.codes * d.currentCalibration n * d.voltageCalibration n.phase) 42949672960000)) ∧
      m'.apparent = (m'.current * e.engine.voltages[n.phase] + 500) / 1000 ∧ m'.range = c.range := by
  obtain ⟨hcurrent, hpower, happarent, hrange, -⟩ := h.scanned n
  have hmeasured := d.measure_scanned hn
  rw [← h.voltages] at hmeasured
  dsimp only
  rw [hcurrent, hpower, happarent, hrange, hmeasured]
  exact OutletMeter.measured_fresh _ _ _ _ _ hc hless

/-! ## The hand-offs of a close in service (R79) -/

/-- An outlet's part of the hand-off to the Outlet Controller. -/
def Device.senseItem (e : Device) (r : CloseRecord) (n : Outlet) : SenseItem :=
  ⟨r.scanned n, r.quality n, if r.scanned n then (e.engine.outlets[n]).current else 0⟩

/-- An outlet's hand-off to the Hang Watch. -/
def Device.trackerItem (e : Device) (r : CloseRecord) (n : Outlet) : TrackerHandoff :=
  ⟨n, r.scanned n, r.quality n, if r.scanned n then (e.engine.outlets[n]).power else 0, r.length⟩

theorem Device.handOffClose_mail (d : Device) (r : CloseRecord) : (d.handOffClose r).mail = { d.mail with
    loads := d.mail.loads ++ [⟨d.levelLoads, PerLevel.ofFn fun l => d.limit l⟩]
    trackers := d.mail.trackers ++ outlets.map (d.trackerItem r)
    senses := d.mail.senses ++
      [⟨d.pins.senseLines, mapAll OutletContext.state d.outlet, Vector.ofFn (d.senseItem r)⟩] } := rfl

theorem Device.compute_mail_inService {d : Device} (r : CloseRecord) (lines : SenseLines) (hnodup : r.scan.Nodup)
    (hs : d.inService = true) :
    let e := d.compute r lines
    e.mail = { d.mail with
      reports := e.mail.reports
      loads := d.mail.loads ++ [⟨PerLevel.ofFn fun l => (e.engine.levels.get l).load, PerLevel.ofFn fun l => d.limit l⟩]
      trackers := d.mail.trackers ++ outlets.map (e.trackerItem r)
      senses := d.mail.senses ++
        [⟨lines, Vector.ofFn fun n : Outlet => (d.outlet[n]).state, Vector.ofFn (e.senseItem r)⟩] } := by
  have hhanded := d.compute_handedOn r lines hnodup hs
  have hsame := d.compute_sameValues r lines hnodup
  have hannounced := d.announced_eq r lines hnodup
  have hstates := d.sensedOutlets_state lines
  dsimp only at hhanded hannounced ⊢
  generalize d.compute r lines = e at hhanded hsame ⊢
  generalize d.announced r lines = a at hhanded hsame hannounced
  have hmail : e.mail = (a.handOffClose r).mail := (congrArg Device.mail hhanded).trans rfl
  have hloads : a.levelLoads = PerLevel.ofFn fun l => (e.engine.levels.get l).load := by
    unfold Device.levelLoads
    simp only [(hsame.level _).load]
  have htracker (n : Outlet) : a.trackerItem r n = e.trackerItem r n := by
    unfold Device.trackerItem
    rw [(hsame.scanned n).power]
  have hsense (n : Outlet) : a.senseItem r n = e.senseItem r n := by
    unfold Device.senseItem
    rw [(hsame.scanned n).current]
  rw [hmail, Device.handOffClose_mail, hloads, funext htracker, funext hsense, hannounced, hstates]
  rfl

/-- What a close in service hands on. -/
structure Device.HandsOn (d e : Device) (r : CloseRecord) (lines : SenseLines) : Prop where
  loads : ∃ h, e.mail.loads = d.mail.loads ++ [h] ∧
    ∀ l, h.loads.get l = (e.engine.levels.get l).load ∧ h.limits.get l = min (Device.limitMax l) (d.levelField l 0)
  trackers : ∃ hs : List TrackerHandoff, e.mail.trackers = d.mail.trackers ++ hs ∧ hs.map (·.outlet) = outlets ∧
    ∀ h ∈ hs, h.length = r.length ∧ (h.scanned = true ↔ h.outlet ∈ r.scan) ∧
      (h.outlet ∈ r.scan → h.power = (e.engine.outlets[h.outlet]).power ∧
        h.quality = (e.engine.outlets[h.outlet]).quality) ∧
      (h.outlet ∉ r.scan → h.quality = ⟨false, false, false, false, false⟩)
  senses : ∃ items, e.mail.senses =
      d.mail.senses ++ [⟨lines, Vector.ofFn fun n : Outlet => (d.outlet[n]).state, items⟩] ∧ ∀ n : Outlet,
    ((items[n]).scanned = true ↔ n ∈ r.scan) ∧
    (n ∈ r.scan → (items[n]).current = (e.engine.outlets[n]).current ∧
      (items[n]).quality = (e.engine.outlets[n]).quality) ∧
    (n ∉ r.scan → (items[n]).current = 0 ∧ (items[n]).quality = ⟨false, false, false, false, false⟩)

theorem Device.compute_handsOn {d : Device} (r : CloseRecord) (lines : SenseLines) (hnodup : r.scan.Nodup)
    (hs : d.inService = true) : d.HandsOn (d.compute r lines) r lines := by
  have hmail := d.compute_mail_inService r lines hnodup hs
  have hshows := d.compute_shows r lines hnodup
  dsimp only at hmail
  generalize d.compute r lines = e at hmail hshows ⊢
  refine ⟨⟨_, by rw [hmail], fun l => ⟨PerLevel.get_ofFn _ l, ?_⟩⟩, ⟨_, by rw [hmail], ?_, fun h hh => ?_⟩,
    ⟨_, by rw [hmail], fun n => ?_⟩⟩
  · rw [PerLevel.get_ofFn, Device.limit, clampNat_zero]
  · rw [List.map_map]
    exact List.map_id _
  · obtain ⟨n, -, rfl⟩ := List.mem_map.1 hh
    exact ⟨rfl, r.scanned_iff n, fun hn => ⟨if_pos ((r.scanned_iff n).2 hn), (hshows.quality hn).symm⟩,
      fun hn => CloseRecord.quality_unscanned hn⟩
  · rw [Fin.getElem_fin, Vector.getElem_ofFn]
    exact ⟨r.scanned_iff n, fun hn => ⟨if_pos ((r.scanned_iff n).2 hn), (hshows.quality hn).symm⟩,
      fun hn => ⟨if_neg (mt (r.scanned_iff n).1 hn), CloseRecord.quality_unscanned hn⟩⟩

/-! ## The close, settled -/

/-- The checks of the oldest close before may be made first. -/
theorem Device.closing_takeChecks {d : Device} {h : SenseHandoff} {hs : List SenseHandoff} (later : List CloseRecord)
    (hsenses : d.mail.senses = h :: hs) : (d.takeChecks h).closing later = d.closing later := by
  obtain ⟨hrest, -⟩ := d.takeChecks_mail h
  unfold Device.closing
  rw [hrest, hsenses]
  rfl

/-- A close that waits behind checks is computed as if they had been made by CONTACT_SENSE_READ (R101). -/
theorem exec_closeComputation_checks (s : State) (lines : SenseLines) {h : SenseHandoff} {hs : List SenseHandoff}
    (hcloses : s.dev.mail.closes ≠ []) (hsenses : s.dev.mail.senses = h :: hs) :
    ∃ t, exec (.contactSenseRead s.dev.pins.senseLines) s = .next t ∧
      exec (.closeComputation lines) s = exec (.closeComputation lines) t := by
  obtain ⟨r, later, hqueue⟩ := List.exists_cons_of_ne_nil hcloses
  obtain ⟨-, hstand⟩ := s.dev.takeChecks_mail h
  have hcheck : s.dev.nextCheck s.dev.pins.senseLines = s.dev.takeChecks h := by
    unfold Device.nextCheck
    rw [hsenses]
  refine ⟨{ s with dev := s.dev.takeChecks h }, ?_, ?_⟩
  · rw [← hcheck]
    rfl
  · rw [exec_closeComputation lines hqueue, exec_closeComputation lines (hstand.trans hqueue),
      Device.closing_takeChecks later hsenses]

/-- Settles O28. -/
theorem closeComputesValues : Obligations.CloseComputesValues := by
  refine ⟨fun s lines h later hcloses hsenses => exec_closeComputation_checks s lines hcloses hsenses,
    fun s lines r later hcloses hsenses hnodup hvoltages hchannels => ?_⟩
  have hexec := exec_closeComputation lines hcloses
  obtain ⟨b, hb⟩ : ∃ b : Device, { s.dev with mail := { s.dev.mail with closes := later } } = b := ⟨_, rfl⟩
  rw [Device.closing_checked later hsenses, hb] at hexec
  refine CompletesWith.of_exec hexec ?_
  have hframe := b.compute_frame r lines hnodup
  have hpins := b.compute_pins r lines hnodup
  have houtlet := b.compute_outlet r lines hnodup
  have hlater := b.compute_closes r lines hnodup
  have hannounces := b.compute_announces r lines hnodup
  have hshows := b.compute_shows r lines hnodup
  have hbefore := Device.compute_mail_before (d := b) r lines hnodup
  have hhanded := Device.compute_handsOn (d := b) r lines hnodup
  generalize b.compute r lines = e at *
  subst hb
  refine ⟨fun p hp => ?_, hpins, hlater, houtlet, ⟨hannounces.status, hannounces.charter⟩,
    fun p => hshows.voltage (hvoltages p), fun n => ⟨hshows.unscanned n, fun hn => ?_, hshows.held,
      fun hn hc => hshows.fresh hn hc (hchannels n)⟩,
    fun l => ⟨?_, hshows.power l, hshows.isPartial l, hshows.noSamples l, hshows.refDrift l, hshows.noLineSync l⟩,
    hshows.lineFrequency, fun hs => ?_, hbefore⟩
  · have hstands := hframe p hp
    cases p <;> first | exact absurd hp (by decide) | exact hstands
  · exact (hshows.quality hn).trans (CloseRecord.quality_scanned hn)
  · rw [hshows.load]
    simp only [Device.expectedInrush, clampNat_zero]
    rfl
  · obtain ⟨hloads, htrackers, items, hsensed, hitems⟩ := hhanded hs
    refine ⟨hloads, htrackers, items, ?_, hitems⟩
    rw [hsensed]
    show s.dev.mail.senses ++ _ = _
    rw [hsenses]
    rfl

end Sys2Proof.Machine
end

