-- ==== Sys2Proof/Proofs/RequestHandling.lean ====
section
/-! PROOFS. What the handling of one outlet's request may change and publishes, operation by operation (R84, R108 to R129). -/

namespace Sys2Proof.Machine
open Sys2Proof

/-! ## What a Status group shows -/

/-- What an outlet's Status group shows of its context (R108). -/
def OutletContext.shown (o : OutletContext) : (Byte × EchoResult) × OutletState × Sense × Option Target × Option Cause ×
    Nat × Option FaultKind :=
  ((o.echoTag, o.echoResult), o.state, o.sensed, o.staged, o.lastCause, o.since, o.fault)

theorem Device.statusWords_shown {d e : Device} (n : Outlet) (ho : (e.outlet[n]).shown = (d.outlet[n]).shown)
    (hw : e.watch[n] = d.watch[n]) : e.statusWords n = d.statusWords n := by
  simp only [OutletContext.shown, Prod.mk.injEq] at ho
  obtain ⟨⟨htag, hresult⟩, hstate, hsensed, hstaged, hcause, hsince, hfault⟩ := ho
  unfold Device.statusWords
  simp only [hw, htag, hresult, hstate, hsensed, hstaged, hcause, hsince, hfault]

/-! ## The handling of one outlet's request -/

/-- A change in the handling of an outlet's request, in service: it shows in that outlet's Status group alone, publishes no
other group, and stays within the outlet's own context and the listed parts. -/
structure Device.Handling (d e : Device) (n : Outlet) (changed : List Part) : Prop where
  service : d.inService = true
  trail : ∃ gs, d.Trail e gs ∧ ∀ g ∈ gs, g = .status n
  charter : e.charter = d.charter
  frame : d.Untouched e ([.pub, .outlet] ++ changed)
  others : d.OthersStand e n

section
variable {d e f : Device} {n : Outlet} {c : List Part}

theorem Device.Handling.inService (h : d.Handling e n c) : e.inService = true := by
  rw [Device.inService_charter h.charter]
  exact h.service

/-- In service, what a later change makes of the one Status group it publishes again. -/
theorem Device.Trail.followed {gs later : List Group} (h : d.Trail e gs) (k : e.Trail f later)
    (hg : ∀ g ∈ gs, g = .status n) (hs : e.inService = true) (hc : f.charter = e.charter) : d.Trail f (gs ++ later) := by
  refine h.andThen k (fun g hm hnot => ?_) hc
  rw [hg g hm] at hnot ⊢
  by_contra hne
  exact hnot (k.moves _ ⟨by rw [Device.inService_charter hc]; exact hs, Ne.symm hne⟩)

theorem Device.Handling.trans (h : d.Handling e n c) (k : e.Handling f n c) : d.Handling f n c := by
  obtain ⟨gs, htrail, hgs⟩ := h.trail
  obtain ⟨later, ktrail, hlater⟩ := k.trail
  exact ⟨h.service, ⟨_, htrail.followed ktrail hgs h.inService k.charter,
      fun g hg => (List.mem_append.1 hg).elim (hgs g) (hlater g)⟩,
    k.charter.trans h.charter, h.frame.trans k.frame, fun m hm => (k.others m hm).trans (h.others m hm)⟩

/-- A change that shows in no group and publishes nothing. -/
theorem Device.Handling.unseen (h : d.Handling e n c) (hp : f.pub = e.pub) (hw : f.groupWords = e.groupWords)
    (he : f.engine = e.engine) (hc : f.charter = e.charter) (hf : e.Untouched f ([.pub, .outlet] ++ c))
    (ho : e.OthersStand f n) : d.Handling f n c :=
  h.trans ⟨h.inService, ⟨[], .unchanged hp hw he, by simp⟩, hc, hf, ho⟩

theorem Device.Handling.refl (hs : d.inService = true) (n : Outlet) (c : List Part) : d.Handling d n c :=
  ⟨hs, ⟨[], .refl d, by simp⟩, rfl, .refl d _, fun _ _ => rfl⟩

/-- Whichever of two ways the handling goes. -/
theorem Device.Handling.ite {p : Prop} [Decidable p] (h : d.Handling e n c) (k : d.Handling f n c) :
    d.Handling (if p then e else f) n c := by
  split
  · exact h
  · exact k

/-! ## The shared operations -/

theorem Device.OnlyPub.untouched (h : d.OnlyPub e) : d.Untouched e [.pub] := fun p hp => by
  rw [h]
  cases p with
  | pub => exact absurd (List.mem_singleton.2 rfl) hp
  | _ => rfl

theorem Device.setOutlet_frame (d : Device) (n : Outlet) (f : OutletContext → OutletContext) :
    d.Untouched (d.setOutlet n f) [.outlet] := fun p hp => by
  cases p with
  | outlet => exact absurd (List.mem_singleton.2 rfl) hp
  | _ => rfl

theorem Device.setOutlet_others (d : Device) (n : Outlet) (f : OutletContext → OutletContext) :
    d.OthersStand (d.setOutlet n f) n := (Device.OthersStand.of_setAt rfl).1

/-- A change of the outlet's context with a publication of its Status group. -/
theorem Device.Handling.setPublished (h : d.Handling e n c) (o : OutletContext → OutletContext) {gs : List Group}
    (hg : ∀ g ∈ gs, g = .status n) (ht : e.Trail f gs) (ho : (e.setOutlet n o).OnlyPub f) : d.Handling f n c :=
  h.trans ⟨h.inService, ⟨gs, ht, hg⟩, ho.charter,
    ((e.setOutlet_frame n o).mono (by simp)).trans (ho.untouched.mono (by simp)),
    fun m hm => by rw [ho.outlet]; exact e.setOutlet_others n o m hm⟩

/-- A change of the outlet's context in what its Status group does not show. -/
theorem Device.Handling.setOutlet (h : d.Handling e n c) {o : OutletContext → OutletContext}
    (hf : ∀ x, (o x).shown = x.shown := by exact fun _ => rfl) : d.Handling (e.setOutlet n o) n c := by
  have hwords : (e.setOutlet n o).groupWords = e.groupWords := by
    funext g
    by_cases hg : g = .status n
    · rw [hg]
      refine Device.statusWords_shown n ?_ rfl
      rw [(Device.OthersStand.of_setAt (d := e) (d' := e.setOutlet n o) rfl).2]
      exact hf _
    · cases g with
      | status m => exact Device.statusWords_congr m (e.setOutlet_others n o m fun h => hg (by rw [h])) rfl
      | _ => rfl
  exact h.unseen rfl hwords rfl rfl ((e.setOutlet_frame n o).mono (by simp)) (e.setOutlet_others n o)

/-- The groups that a change of one Status group publishes, if any. -/
theorem Group.eq_status_of_mem {p q : Prop} [Decidable p] [Decidable q] {g : Group}
    (hg : g ∈ if p then [] else if q then [Group.status n] else []) : g = .status n := by
  split at hg
  · cases hg
  · split at hg
    · exact List.mem_singleton.1 hg
    · cases hg

/-- A change of the outlet's context, published where it shows (R108). -/
theorem Device.Handling.modOutlet (h : d.Handling e n c) {o : OutletContext → OutletContext} :
    d.Handling (e.modOutlet n o) n c :=
  h.setPublished o (fun _ => Group.eq_status_of_mem) (e.modOutlet_trail n o) (e.modOutlet_onlyPub n o)

/-- What changes the outlet's watch and its hand-offs, and shows in its Status group alone. -/
theorem Device.Handling.statusStep (h : d.Handling e n c) (k : e.StatusStep f n)
    (hf : e.Untouched f ([.pub, .outlet] ++ c)) (ho : f.outlet = e.outlet) : d.Handling f n c :=
  h.trans ⟨h.inService, ⟨_, k.trail, fun _ => Group.eq_status_of_mem⟩, k.charter, hf, fun m _ => by rw [ho]⟩

/-- Hand-offs: but for the loads of closes, which decide a level's Over-Limit, they show in no group. -/
theorem Device.Handling.mailed (h : d.Handling e n c) (hc : .mail ∈ c) (m : Mail) (hm : m.loads = e.mail.loads) :
    d.Handling { e with mail := m } n c := by
  have hover (l : Level) : Device.overLimit { e with mail := m } l = e.overLimit l := by
    unfold Device.overLimit
    rw [hm]
  have hwords : Device.groupWords { e with mail := m } = e.groupWords := by
    funext g
    cases g with
    | level l =>
      show Device.levelWords { e with mail := m } l = e.levelWords l
      unfold Device.levelWords Device.packedLevel
      rw [hover]
      rfl
    | _ => rfl
  refine h.unseen rfl hwords rfl rfl (fun p hp => ?_) fun _ _ => rfl
  cases p with
  | mail => exact absurd (List.mem_append.2 (.inr hc)) hp
  | _ => rfl

theorem Device.Handling.report (h : d.Handling e n c) (hc : .mail ∈ c) {kind : ReportKind} {subject : Subject} {x y : Word} :
    d.Handling (e.report kind subject x y) n c := h.mailed hc _ rfl

/-! ## The Outlet Controller's operations -/

variable (hc : .mail ∈ c)
include hc

/-- A change of state: the context, and what it hands on (R84). -/
theorem Device.Handling.changeState (h : d.Handling e n c) {new : OutletState} : d.Handling (e.changeState n new) n c := by
  rw [Device.changeState_eq]
  exact Device.Handling.mailed (.modOutlet h) hc _ (by rw [Device.modOutlet_mail])

theorem Device.Handling.cancelCycle (h : d.Handling e n c) {entered : OutletState} :
    d.Handling (e.cancelCycle n entered) n c := by
  unfold Device.cancelCycle
  split
  · exact h
  · exact .setOutlet (.report h hc)

theorem Device.Handling.enterOff (h : d.Handling e n c) : d.Handling (e.enterOff n) n c :=
  .ite (.changeState hc (.changeState hc h)) (.changeState hc h)

theorem Device.Handling.beginOperation (h : d.Handling e n c) {m : RelayMove} : d.Handling (e.beginOperation n m) n c := by
  unfold Device.beginOperation
  exact .setOutlet (.changeState hc h)

omit hc in
theorem Device.Handling.startDwell (h : d.Handling e n c) : d.Handling (e.startDwell n) n c := by
  unfold Device.startDwell
  exact .setOutlet h

theorem Device.Handling.startCycle (h : d.Handling e n c) {cause : Cause} {dwell : Nat} :
    d.Handling (e.startCycle n cause dwell) n c := by
  unfold Device.startCycle
  exact .ite (.startDwell (.changeState hc (.report (.modOutlet (.cancelCycle hc h)) hc)))
    (.beginOperation hc (.report (.modOutlet (.cancelCycle hc h)) hc))

end

section
variable {d e f : Device} {a : WriteAccess} {n : Outlet} {tag code : Byte} {r : EchoResult} {c : List Part}

/-! ## Answers (R110) -/

/-- The handling of a request with its answer: the outlet's Status group has been published. -/
structure Device.Answers (d f : Device) (n : Outlet) (c : List Part) : Prop extends d.Handling f n c where
  published : ∃ gs, d.Trail f gs ∧ ∀ g, g ∈ gs ↔ g = .status n

/-- What comes after the answer in the handling of the request. -/
theorem Device.Answers.andThen (h : d.Answers e n c) (k : e.Handling f n c) : d.Answers f n c := by
  obtain ⟨gs, htrail, hgs⟩ := h.published
  obtain ⟨later, klater, hlater⟩ := k.trail
  refine ⟨h.toHandling.trans k, gs ++ later,
    htrail.followed klater (fun g => (hgs g).1) h.inService k.charter, fun g => ?_⟩
  rw [List.mem_append, hgs]
  exact or_iff_left_of_imp (hlater g)

/-- An answer, with a change of the outlet's context that it shows. -/
theorem Device.Handling.setAnswers (h : d.Handling e n c) {o : OutletContext → OutletContext} :
    d.Answers ((e.setOutlet n o).answer n tag r) n c := by
  have hset : (e.setOutlet n o).setOutlet n (fun x => { x with echoTag := tag, echoResult := r }) =
      e.setOutlet n fun x => { o x with echoTag := tag, echoResult := r } := by simp [Device.setOutlet]
  have honly : (e.setOutlet n fun x => { o x with echoTag := tag, echoResult := r }).OnlyPub
      ((e.setOutlet n o).answer n tag r) := by
    rw [← hset]
    exact Device.publishStatus_onlyPub _ n
  have hpublish := Device.publishStatus_trail (d := e)
    (e := e.setOutlet n fun x => { o x with echoTag := tag, echoResult := r }) rfl n fun _ => Device.setOutlet_moves e n _
  rw [← hset, if_pos (by exact h.inService)] at hpublish
  obtain ⟨gs, htrail, hgs⟩ := h.trail
  have hanswer : e.Handling ((e.setOutlet n o).answer n tag r) n c :=
    (Device.Handling.refl h.inService n c).setPublished _ (by simp) hpublish honly
  refine ⟨h.trans hanswer, _, htrail.followed hpublish hgs h.inService hanswer.charter, fun g => ?_⟩
  rw [List.mem_append, List.mem_singleton]
  exact or_iff_right_of_imp (hgs g)

theorem Device.Handling.answers (h : d.Handling e n c) : d.Answers (e.answer n tag r) n c := by
  have hsame : e.setOutlet n id = e := by simp [Device.setOutlet]
  rw [← hsame]
  exact h.setAnswers

theorem Device.Handling.defers (h : d.Handling e n c) {rc : RequestCode} {x : Nat} :
    d.Answers (e.defer n rc tag x) n c := h.setAnswers

/-- Whichever of two ways the request is answered. -/
theorem Device.Answers.ite {p : Prop} [Decidable p] (h : d.Answers e n c) (k : d.Answers f n c) :
    d.Answers (if p then e else f) n c := by
  split
  · exact h
  · exact k

/-- The handling of a request begins with its word stored and its tag taken (R11). -/
theorem Device.Requests.begun (h : d.Requests a n tag code) (c : List Part) :
    (d.requested a n tag).Handling (d.requested a n tag) n c := .refl (d := d.requested a n tag) h.service n c

/-- What every answered request leaves, from its handling. -/
theorem Device.Answers.answered (h : (d.requested a n tag).Answers f n c) (hram : .ram ∉ c) (hpath : .path ∉ c) :
    d.Answered f a n tag c := by
  obtain ⟨gs, htrail, hgs⟩ := h.published
  have hfrom := htrail.from (d := d) rfl (Device.requested_groupWords d a n tag) (fun _ => rfl) fun _ => rfl
  exact .of (hfrom.publishes (fun g hg => .inr (List.mem_singleton.2 ((hgs g).1 hg)))
    fun g hg => (hgs g).2 (List.mem_singleton.1 hg)) h.others h.frame hram hpath

/-! ## Requests by code (R112 to R129) -/

theorem Device.Handling.stage (h : d.Handling e n c) {t : Option Target} : d.Answers (e.stage n tag t) n c :=
  .ite h.answers (.ite h.answers h.setAnswers)

theorem Device.Handling.modWatch (h : d.Handling e n c) (hc : .watch ∈ c) {w : WatchContext → WatchContext} :
    d.Handling (e.modWatch n w) n c :=
  h.statusStep (.modWatch e n w) ((e.modWatch_frame n w).mono (by simp [hc])) (Device.modWatch_outlet e n w)

theorem Device.Handling.decideVerdict (h : d.Handling e n c) (hw : .watch ∈ c) (hm : .mail ∈ c) :
    d.Handling (e.decideVerdict n) n c := by
  refine h.statusStep (.decideVerdict e n) (fun p hp => ?_) (Device.decideVerdict_outlet e n)
  by_cases hfree : p = .freeCount
  · rw [hfree]
    exact Device.decideVerdict_freeCount e n
  · refine e.decideVerdict_frame n p fun hmem => ?_
    simp only [verdictParts, List.mem_cons, List.not_mem_nil, or_false] at hmem
    rcases hmem with rfl | rfl | rfl | rfl <;> simp_all

/-- A watch request with no event of the Outlet Controller's on its way to the Hang Watch (log 18). -/
theorem Device.Handling.holdWatch (h : d.Handling e n c) (hw : .watch ∈ c) (hm : .mail ∈ c) (hnone : e.mail.toWatch = [])
    {held : Bool} : d.Answers (e.holdWatch n tag held) n c := by
  unfold Device.holdWatch
  rw [Device.takeWatchMessages_none _ hnone]
  have hanswered (r : EchoResult) := (h.modWatch hw (w := fun w => { w with held := held })).answers (tag := tag) (r := r)
  exact .ite ((hanswered _).andThen
    (Device.Handling.decideVerdict (.refl (hanswered _).inService n c) hw hm)) (hanswered _)

theorem Device.Handling.resume (h : d.Handling e n c) (hw : .watch ∈ c) (hnone : e.mail.toWatch = []) :
    d.Answers (e.resume n tag) n c := by
  unfold Device.resume
  rw [Device.takeWatchMessages_none _ hnone]
  exact Device.Handling.answers (.modWatch h hw)

variable (hc : .mail ∈ c) {x : Nat}
include hc

theorem Device.Handling.switchOn (h : d.Handling e n c) : d.Answers (e.switchOn n tag x) n c := by
  unfold Device.switchOn
  cases e.outletState n with
  | off | dwell => exact (Device.Handling.changeState hc h).answers
  | closing => exact .ite h.answers h.defers
  | opening => exact h.defers
  | _ => exact h.answers

theorem Device.Handling.switchOff (h : d.Handling e n c) : d.Answers (e.switchOff n tag x) n c := by
  have hrested := (Device.Handling.enterOff hc (.cancelCycle hc h (entered := .off))).answers (tag := tag) (r := .taken)
  have hopening := (Device.Handling.beginOperation hc (.cancelCycle hc h (entered := .opening)) (m := .opening)).answers
    (tag := tag) (r := .taken)
  unfold Device.switchOff
  cases e.outletState n with
  | queued => exact .ite h.answers hrested
  | closing => exact .ite h.answers h.defers
  | inrush | on => exact .ite h.answers (.ite h.answers hopening)
  | opening => exact .ite h.answers h.defers
  | dwell => exact hrested
  | _ => exact h.answers

theorem Device.Handling.cycle (h : d.Handling e n c) : d.Answers (e.cycle n tag x) n c := by
  unfold Device.cycle
  cases e.outletState n with
  | off => exact (Device.Handling.startCycle hc h).answers
  | queued => exact .ite h.answers h.answers
  | closing => exact .ite h.answers h.defers
  | inrush | on => exact .ite h.answers (.ite h.answers (Device.Handling.startCycle hc h).answers)
  | opening => exact h.defers
  | dwell => exact (Device.Handling.startDwell (.setOutlet h)).answers
  | _ => exact h.answers

theorem Device.Handling.clearFault (h : d.Handling e n c) : d.Answers (e.clearFault n tag) n c := by
  unfold Device.clearFault
  refine .ite ?_ h.answers
  dsimp only
  cases e.pins.senseLines[n] with
  | closed => exact (Device.Handling.changeState hc (.modOutlet h)).answers
  | opened => exact (Device.Handling.enterOff hc (.modOutlet h)).answers

theorem Device.Handling.periodClear (h : d.Handling e n c) : d.Answers (e.periodClear n tag) n c := by
  unfold Device.periodClear
  exact Device.Handling.answers (.mailed h hc _ rfl)

end

end Sys2Proof.Machine
end

