-- ==== Sys2Proof/Proofs/SwitchingRequests.lean ====
section
/-! PROOFS. SWITCH_ON, SWITCH_OFF and CYCLE in each outlet state (R112 to R118). -/

namespace Sys2Proof.Machine
open Sys2Proof

/-! ## What a request leaves of the outlet's context -/

section
variable {d : Device} {n : Outlet} {tag : Byte} {r : EchoResult}

/-- An answer shows in the outlet's Echo. -/
theorem Device.answer_context (d : Device) (n : Outlet) (tag : Byte) (r : EchoResult) :
    (d.answer n tag r).outlet[n] = (d.outlet[n]).echo tag r := by simp [OutletContext.echo]

/-- An answer after what the request's handling has left. -/
theorem Device.answer_after {o : OutletContext} {m : Mail} (h : d.outlet[n] = o ∧ d.mail = m) :
    (d.answer n tag r).outlet[n] = o.echo tag r ∧ (d.answer n tag r).mail = m := by
  obtain ⟨ho, hm⟩ := h
  rw [Device.answer_context, ho, Device.answer_mail, hm]
  exact ⟨rfl, rfl⟩

theorem Device.defer_leaves (d : Device) (n : Outlet) (code : RequestCode) (tag : Byte) (x : Nat) :
    (d.defer n code tag x).outlet[n] =
      OutletContext.echo { d.outlet[n] with deferred := some (.request code tag x) } tag .deferred ∧
    (d.defer n code tag x).mail = d.mail := by simp [OutletContext.echo]

/-- Entry to QUEUED (R84). -/
theorem Device.queued_leaves (h : d.outletState n = .off ∨ d.outletState n = .dwell) :
    (d.changeState n .queued).outlet[n] =
      { d.outlet[n] with
        state := .queued, since := d.charter.uptime, mismatch := 0
        dwell := if (d.outlet[n]).state = .dwell then none else (d.outlet[n]).dwell } ∧
    (d.changeState n .queued).mail = { d.mail with toAdmission := d.mail.toAdmission ++ [.join n] } := by
  simp only [Device.outletState_eq] at h
  rcases h with h | h <;>
    simp [Device.outletState_eq, h, Device.enterState, OutletState.expected, admissionHandoffs, watchHandoffs]

/-- A cycle cancelled on the way from QUEUED to OFF (R98). -/
theorem Device.rested_leaves_queued (hm : (d.outlet[n]).mode ≠ .alwaysOn) (h : d.outletState n = .queued) :
    ((d.cancelCycle n .off).enterOff n).outlet[n] = (d.outlet[n]).rested d.charter.uptime ∧
    ((d.cancelCycle n .off).enterOff n).mail = { d.mail with
      reports := d.mail.reports ++ (d.outlet[n]).cancelReport n .off
      toAdmission := d.mail.toAdmission ++ [.removal n] } := by
  simp only [Device.outletState_eq, Fin.getElem_fin] at hm h
  simp [Device.outletState_eq, Device.alwaysOn_eq, h, hm, Device.enterState, OutletState.expected, OutletContext.rested,
    admissionHandoffs, watchHandoffs]

/-- A cycle cancelled on the way from DWELL to OFF (R98). -/
theorem Device.rested_leaves_dwell (hm : (d.outlet[n]).mode ≠ .alwaysOn) (h : d.outletState n = .dwell) :
    ((d.cancelCycle n .off).enterOff n).outlet[n] = (d.outlet[n]).rested d.charter.uptime ∧
    ((d.cancelCycle n .off).enterOff n).mail = { d.mail with
      reports := d.mail.reports ++ (d.outlet[n]).cancelReport n .off } := by
  simp only [Device.outletState_eq, Fin.getElem_fin] at hm h
  simp [Device.outletState_eq, Device.alwaysOn_eq, h, hm, Device.enterState, OutletState.expected, OutletContext.rested,
    admissionHandoffs, watchHandoffs]

/-- A cycle of an ALWAYS_ON outlet cancelled in DWELL: through OFF to QUEUED (R98, R99). -/
theorem Device.rested_leaves_alwaysOn (hm : (d.outlet[n]).mode = .alwaysOn) (h : d.outletState n = .dwell) :
    ((d.cancelCycle n .off).enterOff n).outlet[n] = { (d.outlet[n]).rested d.charter.uptime with state := .queued } ∧
    ((d.cancelCycle n .off).enterOff n).mail = { d.mail with
      reports := d.mail.reports ++ (d.outlet[n]).cancelReport n .off
      toAdmission := d.mail.toAdmission ++ [.join n] } := by
  simp only [Device.outletState_eq, Fin.getElem_fin] at hm h
  simp [Device.outletState_eq, Device.alwaysOn_eq, h, hm, Device.enterState, OutletState.expected, OutletContext.rested,
    admissionHandoffs, watchHandoffs]

/-- A cycle cancelled as OPENING begins, from INRUSH or ON (R87, R98). -/
theorem Device.opening_leaves (h : d.outletState n = .inrush ∨ d.outletState n = .on) :
    ((d.cancelCycle n .opening).beginOperation n .opening).outlet[n] = (d.outlet[n]).opening d.charter.uptime ∧
    ((d.cancelCycle n .opening).beginOperation n .opening).mail = { d.mail with
      reports := d.mail.reports ++ (d.outlet[n]).cancelReport n .opening
      toAdmission := d.mail.toAdmission ++ (if d.outletState n = .inrush then [.release n] else [])
      toWatch := d.mail.toWatch ++ (if d.outletState n = .on then [.off n] else []) } := by
  simp only [Device.outletState_eq] at h
  rcases h with h | h <;>
    simp [Device.outletState_eq, h, Device.enterState, OutletState.expected, OutletContext.opening, admissionHandoffs,
      watchHandoffs]

/-- A CYCLE from OFF, which enters DWELL (R95). -/
theorem Device.startCycle_leaves_off (dwell : Nat) (h : d.outletState n = .off) :
    (d.startCycle n .request dwell).outlet[n] =
      { d.outlet[n] with
        state := .dwell, since := d.charter.uptime, leakCount := 0, leakSkip := true, mismatch := 0
        lastCause := some .request, intent := some ⟨.request, dwell, some d.charter.uptime, none⟩
        dwell := some (dwell * 1000000) } ∧
    (d.startCycle n .request dwell).mail = { d.mail with
      reports := d.mail.reports ++ (d.outlet[n]).cancelReport n .dwell ++
        [⟨.cycleStart, .outlet n, Cause.request.code, BitVec.ofNat 16 dwell⟩] } := by
  have hstate : (d.outlet[n.val]).state = .off := h
  simp [h, hstate, Device.enterState, OutletState.expected]

/-- A CYCLE from INRUSH or ON, which begins OPENING (R95). -/
theorem Device.startCycle_leaves_on (dwell : Nat) (h : d.outletState n = .inrush ∨ d.outletState n = .on) :
    (d.startCycle n .request dwell).outlet[n] =
      { d.outlet[n] with
        state := .opening, since := d.charter.uptime
        lastCause := some .request, intent := some ⟨.request, dwell, none, none⟩
        operation := some (.opening, Config.operateTime)
        inrush := if (d.outlet[n]).state = .inrush then none else (d.outlet[n]).inrush } ∧
    (d.startCycle n .request dwell).mail = { d.mail with
      reports := d.mail.reports ++ (d.outlet[n]).cancelReport n .opening ++
        [⟨.cycleStart, .outlet n, Cause.request.code, BitVec.ofNat 16 dwell⟩]
      toAdmission := d.mail.toAdmission ++ (if d.outletState n = .inrush then [.release n] else [])
      toWatch := d.mail.toWatch ++ (if d.outletState n = .on then [.off n] else []) } := by
  simp only [Device.outletState_eq] at h
  rcases h with h | h <;>
    simp [Device.outletState_eq, h, Device.enterState, OutletState.expected, admissionHandoffs, watchHandoffs]

/-- A CYCLE in DWELL, which runs the dwell again (R114). -/
theorem Device.redwell_leaves (d : Device) (n : Outlet) (dwell : Nat) :
    ((d.setOutlet n fun o => { o with intent := o.intent.map fun i : Intent => { i with dwell := dwell } }).startDwell
        n).outlet[n] =
      { d.outlet[n] with
        intent := (d.outlet[n]).intent.map fun i : Intent => { i with dwell := dwell }
        dwell := (d.outlet[n]).intent.map fun _ => dwell * 1000000 } ∧
    ((d.setOutlet n fun o => { o with intent := o.intent.map fun i : Intent => { i with dwell := dwell } }).startDwell
        n).mail = d.mail := by
  simp [Option.map_map, Function.comp_def]

end

/-! ## The requests, state by state -/

section
variable {d : Device} {n : Outlet} {tag : Byte} {x : Nat}

/-! ### SWITCH_ON (R112, R118) -/

theorem Device.switchOn_queues (h : d.outletState n = .off ∨ d.outletState n = .dwell) :
    d.switchOn n tag x = (d.changeState n .queued).answer n tag .taken := by
  rcases h with h | h <;> simp only [Device.switchOn, h]

theorem Device.switchOn_noChange (h : d.outletState n = .queued ∨ d.outletState n = .inrush ∨ d.outletState n = .on ∨
    d.outletState n = .closing ∧ (d.outlet[n]).deferred = none) : d.switchOn n tag x = d.answer n tag .noChange := by
  rcases h with h | h | h | ⟨h, hnone⟩
  · simp only [Device.switchOn, h]
  · simp only [Device.switchOn, h]
  · simp only [Device.switchOn, h]
  · simp only [Device.switchOn, h, hnone, Option.isNone_none, if_true]

theorem Device.switchOn_defers (h : d.outletState n = .opening ∨
    d.outletState n = .closing ∧ (d.outlet[n]).deferred ≠ none) : d.switchOn n tag x = d.defer n .switchOn tag x := by
  rcases h with h | ⟨h, hsome⟩
  · simp only [Device.switchOn, h]
  · simp only [Device.switchOn, h]
    rw [if_neg (by rwa [Option.isNone_iff_eq_none])]

theorem Device.switchOn_fault (h : d.outletState n = .fault) : d.switchOn n tag x = d.answer n tag .refusedState := by
  simp only [Device.switchOn, h]

/-! ### SWITCH_OFF (R113, R115, R116, R118) -/

theorem Device.alwaysOn_of (h : (d.outlet[n]).mode = .alwaysOn) : d.alwaysOn n = true := decide_eq_true h

theorem Device.not_alwaysOn_of (h : (d.outlet[n]).mode ≠ .alwaysOn) : d.alwaysOn n = false := decide_eq_false h

theorem Device.mayOperate_of (hr : d.running = true) (hh : d.pins.hold = false) : d.mayOperate = true := by
  simp [Device.mayOperate, hr, hh]

theorem Device.not_mayOperate_of (hh : d.pins.hold = true) : d.mayOperate = false := by
  simp [Device.mayOperate, hh]

theorem Device.switchOff_noChange (h : d.outletState n = .off ∨
    d.outletState n = .opening ∧ (d.outlet[n]).intent = none ∧ (d.outlet[n]).deferred = none) :
    d.switchOff n tag x = d.answer n tag .noChange := by
  rcases h with h | ⟨h, hintent, hdeferred⟩
  · simp only [Device.switchOff, h]
  · simp only [Device.switchOff, h, hintent, hdeferred, Option.isNone_none, and_self, if_true]

theorem Device.switchOff_fault (h : d.outletState n = .fault) : d.switchOff n tag x = d.answer n tag .refusedState := by
  simp only [Device.switchOff, h]

theorem Device.switchOff_refusedMode (hm : (d.outlet[n]).mode = .alwaysOn) (h : d.outletState n = .queued ∨
    d.outletState n = .closing ∨ d.outletState n = .inrush ∨ d.outletState n = .on) :
    d.switchOff n tag x = d.answer n tag .refusedMode := by
  rcases h with h | h | h | h <;> simp only [Device.switchOff, h, Device.alwaysOn_of hm, if_true]

theorem Device.switchOff_refusedHold (hm : (d.outlet[n]).mode ≠ .alwaysOn) (hh : d.pins.hold = true)
    (h : d.outletState n = .inrush ∨ d.outletState n = .on) : d.switchOff n tag x = d.answer n tag .refusedHold := by
  rcases h with h | h <;>
    simp only [Device.switchOff, h, Device.not_alwaysOn_of hm, Device.not_mayOperate_of hh, Bool.not_false, if_true,
      Bool.false_eq_true, if_false]

theorem Device.switchOff_defers (h : (d.outlet[n]).mode ≠ .alwaysOn ∧ d.outletState n = .closing ∨
    d.outletState n = .opening ∧ ¬((d.outlet[n]).intent = none ∧ (d.outlet[n]).deferred = none)) :
    d.switchOff n tag x = d.defer n .switchOff tag x := by
  rcases h with ⟨hm, h⟩ | ⟨h, hfull⟩
  · simp only [Device.switchOff, h, Device.not_alwaysOn_of hm, Bool.false_eq_true, if_false]
  · simp only [Device.switchOff, h, Option.isNone_iff_eq_none, if_neg hfull]

theorem Device.switchOff_rests (h : (d.outlet[n]).mode ≠ .alwaysOn ∧ d.outletState n = .queued ∨ d.outletState n = .dwell) :
    d.switchOff n tag x = ((d.cancelCycle n .off).enterOff n).answer n tag .taken := by
  rcases h with ⟨hm, h⟩ | h
  · simp only [Device.switchOff, h, Device.not_alwaysOn_of hm, Bool.false_eq_true, if_false]
  · simp only [Device.switchOff, h]

theorem Device.switchOff_opens (hm : (d.outlet[n]).mode ≠ .alwaysOn) (hr : d.running = true) (hh : d.pins.hold = false)
    (h : d.outletState n = .inrush ∨ d.outletState n = .on) :
    d.switchOff n tag x = ((d.cancelCycle n .opening).beginOperation n .opening).answer n tag .taken := by
  rcases h with h | h <;>
    simp only [Device.switchOff, h, Device.not_alwaysOn_of hm, Device.mayOperate_of hr hh, Bool.not_true,
      Bool.false_eq_true, if_false]

/-! ### CYCLE (R114 to R118) -/

theorem Device.cycle_fault (h : d.outletState n = .fault) : d.cycle n tag x = d.answer n tag .refusedState := by
  simp only [Device.cycle, h]

theorem Device.cycle_refusedMode (hm : (d.outlet[n]).mode = .alwaysOn) (h : d.outletState n = .queued ∨
    d.outletState n = .closing ∨ d.outletState n = .inrush ∨ d.outletState n = .on) :
    d.cycle n tag x = d.answer n tag .refusedMode := by
  rcases h with h | h | h | h <;> simp only [Device.cycle, h, Device.alwaysOn_of hm, if_true]

theorem Device.cycle_noChange (hm : (d.outlet[n]).mode ≠ .alwaysOn) (h : d.outletState n = .queued) :
    d.cycle n tag x = d.answer n tag .noChange := by
  simp only [Device.cycle, h, Device.not_alwaysOn_of hm, Bool.false_eq_true, if_false]

theorem Device.cycle_refusedHold (hm : (d.outlet[n]).mode ≠ .alwaysOn) (hh : d.pins.hold = true)
    (h : d.outletState n = .inrush ∨ d.outletState n = .on) : d.cycle n tag x = d.answer n tag .refusedHold := by
  rcases h with h | h <;>
    simp only [Device.cycle, h, Device.not_alwaysOn_of hm, Device.not_mayOperate_of hh, Bool.not_false, if_true,
      Bool.false_eq_true, if_false]

theorem Device.cycle_defers (h : (d.outlet[n]).mode ≠ .alwaysOn ∧ d.outletState n = .closing ∨
    d.outletState n = .opening) : d.cycle n tag x = d.defer n .cycle tag x := by
  rcases h with ⟨hm, h⟩ | h
  · simp only [Device.cycle, h, Device.not_alwaysOn_of hm, Bool.false_eq_true, if_false]
  · simp only [Device.cycle, h]

theorem Device.cycle_dwells (h : d.outletState n = .dwell) :
    d.cycle n tag x = ((d.setOutlet n fun o =>
      { o with intent := o.intent.map fun i : Intent =>
        { i with dwell := d.clampDwell (d.requestedDwell n x) } }).startDwell n).answer n tag (d.dwellResult n x) := by
  simp only [Device.cycle, h]

theorem Device.cycle_starts (h : d.outletState n = .off ∨ ((d.outlet[n]).mode ≠ .alwaysOn ∧ d.running = true ∧
    d.pins.hold = false) ∧ (d.outletState n = .inrush ∨ d.outletState n = .on)) :
    d.cycle n tag x =
      (d.startCycle n .request (d.clampDwell (d.requestedDwell n x))).answer n tag (d.dwellResult n x) := by
  rcases h with h | ⟨⟨hm, hr, hh⟩, h | h⟩
  · simp only [Device.cycle, h]
  all_goals
    simp only [Device.cycle, h, Device.not_alwaysOn_of hm, Device.mayOperate_of hr hh, Bool.not_true, Bool.false_eq_true,
      if_false]

end

/-- Settles O37, row by row of R112. -/
theorem switchOnByState : Obligations.SwitchOnByState := by
  intro s a n tag hreq hrun hstores hmanaged hpresent
  refine hreq.completes rfl rfl hrun hpresent ?_
  rw [Device.stored_requestArgument s.dev a n hstores.shadow]
  have hhandled := Device.Handling.switchOn (tag := tag) (x := s.dev.requestArgument n) (by decide) (hreq.begun [.mail])
  refine ⟨hhandled.answered (by decide) (by decide), fun h => ?_, fun h => ?_, fun h => ?_, fun h => ?_⟩ <;>
    dsimp only [Device.handleCode]
  · rw [Device.switchOn_queues (d := s.dev.requested a n tag) h]
    exact Device.answer_after (Device.queued_leaves (d := s.dev.requested a n tag) h)
  · rw [Device.switchOn_noChange (d := s.dev.requested a n tag) h]
    exact Device.answer_after ⟨rfl, rfl⟩
  · rw [Device.switchOn_defers (d := s.dev.requested a n tag) h]
    exact Device.defer_leaves _ n _ tag _
  · rw [Device.switchOn_fault (d := s.dev.requested a n tag) h]
    exact Device.answer_after ⟨rfl, rfl⟩

/-- Settles O38, row by row of R113. -/
theorem switchOffByState : Obligations.SwitchOffByState := by
  intro s a n tag hreq hrun hstores hmanaged hpresent
  refine hreq.completes rfl rfl hrun hpresent ?_
  rw [Device.stored_requestArgument s.dev a n hstores.shadow]
  have hhandled := Device.Handling.switchOff (tag := tag) (x := s.dev.requestArgument n) (by decide) (hreq.begun [.mail])
  refine ⟨hhandled.answered (by decide) (by decide), fun h => ?_, fun h => ?_, fun hm h => ?_, fun hm h hh => ?_,
    fun h => ?_, fun hm h => ?_, fun hm h => ?_, fun hm h => ?_, fun hm h hh => ?_⟩ <;>
    dsimp only [Device.handleCode]
  · rw [Device.switchOff_noChange (d := s.dev.requested a n tag) h]
    exact Device.answer_after ⟨rfl, rfl⟩
  · rw [Device.switchOff_fault (d := s.dev.requested a n tag) h]
    exact Device.answer_after ⟨rfl, rfl⟩
  · rw [Device.switchOff_refusedMode (d := s.dev.requested a n tag) hm h]
    exact Device.answer_after ⟨rfl, rfl⟩
  · rw [Device.switchOff_refusedHold (d := s.dev.requested a n tag) hm hh h]
    exact Device.answer_after ⟨rfl, rfl⟩
  · rw [Device.switchOff_defers (d := s.dev.requested a n tag) h]
    exact Device.defer_leaves _ n _ tag _
  · rw [Device.switchOff_rests (d := s.dev.requested a n tag) (.inl ⟨hm, h⟩)]
    exact Device.answer_after (Device.rested_leaves_queued (d := s.dev.requested a n tag) hm h)
  · rw [Device.switchOff_rests (d := s.dev.requested a n tag) (.inr h)]
    exact Device.answer_after (Device.rested_leaves_dwell (d := s.dev.requested a n tag) hm h)
  · rw [Device.switchOff_rests (d := s.dev.requested a n tag) (.inr h)]
    exact Device.answer_after (Device.rested_leaves_alwaysOn (d := s.dev.requested a n tag) hm h)
  · rw [Device.switchOff_opens (d := s.dev.requested a n tag) hm hrun hh h]
    exact Device.answer_after (Device.opening_leaves (d := s.dev.requested a n tag) h)

/-- The dwell that a CYCLE asks for (R117). -/
theorem Device.requested_requestedDwell (d : Device) (a : WriteAccess) (n : Outlet) (tag : Byte) (x : Nat)
    (hd : Store.wf d.path.shadow) : (d.requested a n tag).requestedDwell n x = d.requestedDwell n x := by
  unfold Device.requestedDwell Device.defaultDwell
  rw [Device.requested_outletField d a n n tag 5 hd (by decide) (by decide)]

/-- Settles O39, row by row of R114. -/
theorem cycleByState : Obligations.CycleByState := by
  intro s a n tag hreq hrun hstores hmanaged hpresent
  refine hreq.completes rfl rfl hrun hpresent ?_
  rw [Device.stored_requestArgument s.dev a n hstores.shadow]
  have hhandled := Device.Handling.cycle (tag := tag) (x := s.dev.requestArgument n) (by decide) (hreq.begun [.mail])
  have hasked := s.dev.requested_requestedDwell a n tag (s.dev.requestArgument n) hstores.shadow
  refine ⟨hhandled.answered (by decide) (by decide), fun h => ?_, fun hm h => ?_, fun hm h => ?_, fun hm h hh => ?_,
    fun h => ?_, fun h => ?_, fun h => ?_, fun hm h hh => ?_⟩ <;> dsimp only [Device.handleCode]
  · rw [Device.cycle_fault (d := s.dev.requested a n tag) h]
    exact Device.answer_after ⟨rfl, rfl⟩
  · rw [Device.cycle_refusedMode (d := s.dev.requested a n tag) hm h]
    exact Device.answer_after ⟨rfl, rfl⟩
  · rw [Device.cycle_noChange (d := s.dev.requested a n tag) hm h]
    exact Device.answer_after ⟨rfl, rfl⟩
  · rw [Device.cycle_refusedHold (d := s.dev.requested a n tag) hm hh h]
    exact Device.answer_after ⟨rfl, rfl⟩
  · rw [Device.cycle_defers (d := s.dev.requested a n tag) h]
    exact Device.defer_leaves _ n _ tag _
  · rw [Device.cycle_dwells (d := s.dev.requested a n tag) h, Device.dwellResult, hasked]
    exact Device.answer_after (Device.redwell_leaves _ n _)
  · rw [Device.cycle_starts (d := s.dev.requested a n tag) (.inl h), Device.dwellResult, hasked]
    exact Device.answer_after (Device.startCycle_leaves_off (d := s.dev.requested a n tag) _ h)
  · rw [Device.cycle_starts (d := s.dev.requested a n tag) (.inr ⟨⟨hm, hrun, hh⟩, h⟩), Device.dwellResult, hasked]
    exact Device.answer_after (Device.startCycle_leaves_on (d := s.dev.requested a n tag) _ h)

end Sys2Proof.Machine
end

