-- ==== Sys2Proof/Proofs/OutletRequests.lean ====
section
/-! PROOFS. The requests that switch no relay, and the checks that every request meets first (R109, R120, R126 to R129). -/

namespace Sys2Proof.Machine
open Sys2Proof

/-! ## PERIOD_CLEAR (R129) -/

/-- Settles O44. -/
theorem periodClearTaken : Obligations.PeriodClearTaken := by
  intro s a n tag hreq hrun hpresent
  refine hreq.completes rfl rfl hrun hpresent ⟨?_, Device.answer_after ⟨rfl, rfl⟩⟩
  exact (Device.Handling.periodClear (by decide) (hreq.begun [.mail])).answered (by decide) (by decide)

/-! ## Staged targets (R115, R120) -/

/-- The staged target, or its refusal (R115, R120). -/
theorem Device.stage_context (d : Device) (n : Outlet) (tag : Byte) (t : Option Target) :
    (d.stage n tag t).outlet[n] =
      if t = some .off ∧ (d.outlet[n]).mode = .alwaysOn then (d.outlet[n]).echo tag .refusedMode
      else if (d.outlet[n]).staged = t then (d.outlet[n]).echo tag .noChange
      else OutletContext.echo { d.outlet[n] with staged := t } tag .taken := by
  unfold Device.stage Device.alwaysOn
  simp only [decide_eq_true_eq]
  split
  · exact d.answer_context n tag _
  · split
    · exact d.answer_context n tag _
    · rw [Device.answer_context]
      simp

/-- Settles O40. -/
theorem stagingSetsTarget : Obligations.StagingSetsTarget := by
  intro s a n tag code i t hreq hrun hpresent hcode
  have hstaged : CompletesWith i s fun d' => d' = (s.dev.requested a n tag).stage n tag t := by
    rcases hcode with ⟨rfl, rfl, rfl⟩ | ⟨rfl, rfl, rfl⟩ | ⟨rfl, rfl, rfl⟩ <;>
      exact hreq.completes rfl rfl hrun hpresent rfl
  obtain ⟨after, hexec, hpending, hdev⟩ := hstaged
  refine ⟨after, hexec, hpending, ?_⟩
  rw [hdev]
  exact ⟨(Device.Handling.stage (hreq.begun [])).answered (by decide) (by decide),
    (s.dev.requested a n tag).stage_context n tag t⟩

/-! ## Contact sense as a CLEAR_FAULT reads it (R105; log 11) -/

section
variable {d : Device} {a : WriteAccess} {n : Outlet} {tag code : Byte} {c : List Part}

/-- Contact sense has no part in what makes a write a request. -/
theorem Device.Requests.setLines (h : d.Requests a n tag code) (lines : SenseLines) :
    (d.setLines lines).Requests a n tag code where
  free := h.free
  room := h.room
  offset := h.offset
  service := h.service
  owned := h.owned
  allowed := h.allowed
  tagIs := h.tagIs
  codeIs := h.codeIs
  notZero := h.notZero
  notLast := h.notLast

/-- The line of the outlet whose record the write addresses. -/
theorem Device.Requests.senseForWrite (h : d.Requests a n tag code) (sense : Sense) :
    d.senseForWrite a sense = d.setLines (setAt d.pins.senseLines n sense) := by
  unfold Device.senseForWrite
  simp only [h.offset, place_outletWord n requestWord (by decide)]
  rfl

/-- Contact sense as it is read shows in no group. -/
theorem Device.Requests.begun_lines (h : d.Requests a n tag code) (hc : .pins ∈ c) (lines : SenseLines) :
    (d.requested a n tag).Handling ((d.setLines lines).requested a n tag) n c := by
  refine (h.begun c).unseen rfl (funext fun g => ?_) rfl rfl (fun p hp => ?_) fun _ _ => rfl
  · cases g <;> rfl
  · cases p with
    | pins => exact absurd (List.mem_append.2 (.inr hc)) hp
    | _ => rfl

end

/-! ## CLEAR_FAULT (R99, R105, R128) -/

section
variable {d : Device} {n : Outlet} {tag : Byte}

theorem Device.clearFault_noChange (h : d.outletState n ≠ .fault) : d.clearFault n tag = d.answer n tag .noChange :=
  if_neg h

theorem Device.clearFault_closed (h : d.outletState n = .fault) (hsense : d.pins.senseLines[n] = .closed) :
    d.clearFault n tag =
      ((d.modOutlet n fun o => { o with sensed := .closed, fault := none }).changeState n .on).answer n tag .taken := by
  unfold Device.clearFault
  rw [if_pos h, hsense]

theorem Device.clearFault_opened (h : d.outletState n = .fault) (hsense : d.pins.senseLines[n] = .opened) :
    d.clearFault n tag =
      ((d.modOutlet n fun o => { o with sensed := .opened, fault := none }).enterOff n).answer n tag .taken := by
  unfold Device.clearFault
  rw [if_pos h, hsense]

/-- From FAULT to ON. -/
theorem Device.cleared_leaves_closed (h : d.outletState n = .fault) :
    ((d.modOutlet n fun o => { o with sensed := .closed, fault := none }).changeState n .on).outlet[n] =
      { d.outlet[n] with state := .on, sensed := .closed, fault := none, since := d.charter.uptime, mismatch := 0 } ∧
    ((d.modOutlet n fun o => { o with sensed := .closed, fault := none }).changeState n .on).mail =
      { d.mail with toWatch := d.mail.toWatch ++ [.on n] } := by
  simp only [Device.outletState_eq] at h
  simp [Device.outletState_eq, h, Device.enterState, OutletState.expected, admissionHandoffs, watchHandoffs]

/-- From FAULT to OFF, and on to QUEUED when the outlet is ALWAYS_ON. -/
theorem Device.cleared_leaves_opened (h : d.outletState n = .fault) :
    ((d.modOutlet n fun o => { o with sensed := .opened, fault := none }).enterOff n).outlet[n] =
      { d.outlet[n] with
        state := if (d.outlet[n]).mode = .alwaysOn then .queued else .off
        sensed := .opened, fault := none, since := d.charter.uptime, mismatch := 0, leakCount := 0, leakSkip := true } ∧
    ((d.modOutlet n fun o => { o with sensed := .opened, fault := none }).enterOff n).mail =
      { d.mail with
        toAdmission := d.mail.toAdmission ++ (if (d.outlet[n]).mode = .alwaysOn then [.join n] else []) } := by
  simp only [Device.outletState_eq] at h
  by_cases hm : (d.outlet[n.val]).mode = .alwaysOn <;>
    simp [Device.outletState_eq, Device.alwaysOn_eq, h, hm, Device.enterState, OutletState.expected, admissionHandoffs,
      watchHandoffs]

end

theorem Device.clearFault_pins (d : Device) (n : Outlet) (tag : Byte) : (d.clearFault n tag).pins = d.pins := by
  unfold Device.clearFault
  dsimp only
  (repeat' split) <;> simp

/-- Settles O43. -/
theorem clearFaultReadsSense : Obligations.ClearFaultReadsSense := by
  intro s a n tag sense hreq hrun hpresent
  obtain ⟨lines, hlines⟩ : ∃ lines, lines = setAt s.dev.pins.senseLines n sense := ⟨_, rfl⟩
  have hread : ((s.dev.setLines lines).requested a n tag).pins.senseLines[n] = sense := by
    show lines[n] = sense
    rw [hlines]
    exact setAt_at _ n sense
  have hexec : exec (.clearFault a sense) s =
      .next { s with dev := ((s.dev.setLines lines).requested a n tag).clearFault n tag } := by
    show Host.Outcome.next { s with dev := (s.dev.senseForWrite a sense).presentAccess (.write a) } = _
    rw [hreq.senseForWrite, ← hlines, (hreq.setLines lines).present,
      Device.takeRequest_handled ((s.dev.setLines lines).requested a n tag) n tag 10 _ .clearFault rfl hpresent hrun]
    rfl
  have hhandled := Device.Handling.clearFault (tag := tag) (by decide) (hreq.begun_lines (c := [.mail, .pins]) (by decide) lines)
  refine .of_exec hexec ⟨hhandled.answered (by decide) (by decide), ?_, fun h => ?_, fun h hsense => ?_, fun h hsense => ?_⟩
  · rw [Device.clearFault_pins, hlines]
    rfl
  · rw [Device.clearFault_noChange (d := (s.dev.setLines lines).requested a n tag) h]
    exact Device.answer_after ⟨rfl, rfl⟩
  · rw [Device.clearFault_closed (d := (s.dev.setLines lines).requested a n tag) h (hread.trans hsense)]
    exact Device.answer_after (Device.cleared_leaves_closed (d := (s.dev.setLines lines).requested a n tag) h)
  · rw [Device.clearFault_opened (d := (s.dev.setLines lines).requested a n tag) h (hread.trans hsense)]
    exact Device.answer_after (Device.cleared_leaves_opened (d := (s.dev.setLines lines).requested a n tag) h)

/-! ## The checks before a request is handled (R109) -/

section
variable {d : Device} {n : Outlet} {tag code : Byte} {x : Nat}

theorem Device.takeRequest_unknown (hc : requestCode code = none) :
    d.takeRequest n tag code x = d.answer n tag .refusedUnknown := by
  unfold Device.takeRequest
  rw [hc]

theorem Device.takeRequest_absent (hc : requestCode code ≠ none) (h : d.outletState n = .absent) :
    d.takeRequest n tag code x = d.answer n tag .refusedAbsent := by
  obtain ⟨known, hknown⟩ := Option.ne_none_iff_exists'.1 hc
  unfold Device.takeRequest
  rw [hknown]
  exact if_pos h

theorem Device.takeRequest_halted (hc : requestCode code ≠ none) (h : d.outletState n ≠ .absent)
    (hs : d.charter.state = .halted) : d.takeRequest n tag code x = d.answer n tag .refusedHalted := by
  obtain ⟨known, hknown⟩ := Option.ne_none_iff_exists'.1 hc
  unfold Device.takeRequest
  rw [hknown]
  exact (if_neg h).trans (if_pos hs)

end

/-- Settles O36: whatever the request, its write reaches the checks of R109 with no more than contact sense read. -/
theorem requestChecks : Obligations.RequestChecks := by
  intro s a n tag code i sense hreq hi refuses
  obtain ⟨lines, hlines⟩ : ∃ lines, lines =
      if i = .clearFault a sense then setAt s.dev.pins.senseLines n sense else s.dev.pins.senseLines := ⟨_, rfl⟩
  have hexec : exec i s = .next { s with dev := (s.dev.setLines lines).presentAccess (.write a) } := by
    rcases hi with hi | ⟨rfl, -⟩
    · simp only [List.mem_cons, List.not_mem_nil, or_false] at hi
      rcases hi with rfl | rfl | rfl | rfl | rfl | rfl | rfl | rfl | rfl | rfl | rfl <;> rw [hlines] <;> rfl
    · rw [hlines, if_pos rfl, ← hreq.senseForWrite]
      rfl
  rw [(hreq.setLines lines).present] at hexec
  have hrefuses (r : EchoResult) (h : ∀ x, ((s.dev.setLines lines).requested a n tag).takeRequest n tag code x =
      ((s.dev.setLines lines).requested a n tag).answer n tag r) : refuses r := by
    rw [h] at hexec
    refine .of_exec hexec ⟨?_, Device.answer_context _ n tag r, ?_⟩
    · exact (hreq.begun_lines (by decide) lines).answers.answered (by decide) (by decide)
    · rw [Device.answer_pins]
      show { s.dev.pins with senseLines := lines } = _
      rw [hlines]
      split <;> rfl
  exact ⟨fun hc => hrefuses _ fun _ => Device.takeRequest_unknown hc,
    fun hc h => hrefuses _ fun _ => Device.takeRequest_absent hc h,
    fun hc h hs => hrefuses _ fun _ => Device.takeRequest_halted hc h hs⟩

/-! ## Watch requests (R126, R127, R147 to R150) -/

section
variable {d : Device} {n : Outlet} {tag : Byte} {held : Bool}

/-- Watch Held set and answered, before the verdict that a FREE_WATCH releases (R126). -/
def Device.watchHeld (d : Device) (n : Outlet) (tag : Byte) (held : Bool) : Device :=
  (d.modWatch n fun w => { w with held := held }).answer n tag (if (d.watch[n]).held = held then .noChange else .taken)

theorem Device.watchHeld_watch (d : Device) (n : Outlet) (tag : Byte) (held : Bool) :
    (d.watchHeld n tag held).watch = setAt d.watch n { d.watch[n] with held := held } := by simp [Device.watchHeld]

theorem Device.watchHeld_mail (d : Device) (n : Outlet) (tag : Byte) (held : Bool) :
    (d.watchHeld n tag held).mail = d.mail := by simp [Device.watchHeld]

theorem Device.watchHeld_context (d : Device) (n : Outlet) (tag : Byte) (held : Bool) :
    (d.watchHeld n tag held).outlet[n] =
      (d.outlet[n]).echo tag (if (d.watch[n]).held = held then .noChange else .taken) := by
  unfold Device.watchHeld
  rw [Device.answer_context, Device.modWatch_outlet]

/-- HOLD_WATCH and FREE_WATCH with no event on its way (log 18): the verdict of a HUNG watch that nothing holds any more is
decided. -/
theorem Device.holdWatch_eq (hnone : d.mail.toWatch = []) (hr : d.running = true) :
    d.holdWatch n tag held =
      if held = false ∧ (d.watch[n]).state = .hung ∧ d.pins.hold = false then (d.watchHeld n tag held).decideVerdict n
      else d.watchHeld n tag held := by
  have hstate : ((d.watchHeld n tag held).watch[n]).state = (d.watch[n]).state := by simp [Device.watchHeld_watch]
  have hoperate : (d.watchHeld n tag held).mayOperate = !d.pins.hold := by
    have hcharter : (d.watchHeld n tag held).charter = d.charter := by simp [Device.watchHeld]
    have hpins : (d.watchHeld n tag held).pins = d.pins := by simp [Device.watchHeld]
    unfold Device.mayOperate Device.running at *
    rw [hcharter, hpins, hr, Bool.true_and]
  unfold Device.holdWatch
  rw [Device.takeWatchMessages_none _ hnone]
  refine if_congr ?_ rfl rfl
  show ((!held) = true ∧ (d.watchHeld n tag held).mayOperate = true ∧ ((d.watchHeld n tag held).watch[n]).state = .hung) ↔ _
  rw [hstate, hoperate, Bool.not_eq_true', Bool.not_eq_true', and_comm (a := d.pins.hold = false)]

theorem Device.watchHeld_stands (d : Device) (n : Outlet) (tag : Byte) (held : Bool) :
    d.ControlStands (d.watchHeld n tag held) := (d.modWatch_stands n _).trans (Device.answer_stands _ n tag _)

/-- A verdict that nothing holds any more (R143). -/
theorem Device.watchFreed_not_held (hr : d.running = true) (hhold : d.pins.hold = false) :
    (d.watchHeld n tag false).verdictHeld n = false := by
  have hpins : (d.watchHeld n tag false).pins = d.pins := by simp [Device.watchHeld]
  simp [Device.verdictHeld, hpins, hhold, (d.watchHeld_stands n tag false).charter, Device.state_of_running hr,
    Device.watchHeld_watch]

/-- The verdict that a FREE_WATCH releases, below the Cycle Limit: an automatic cycle (R144). -/
theorem Device.watchFreed_cycles (hr : d.running = true) (hhold : d.pins.hold = false)
    (hlimit : (d.watch[n]).recent.length < d.cycleLimit n) :
    ((d.watchHeld n tag false).decideVerdict n).watch = setAt d.watch n
      { d.watch[n] with
        held := false, state := .idle, recent := (d.watch[n]).recent ++ [d.charter.uptime], outstanding := true
        heldHeartbeat := (d.watch[n]).heartbeat, heartbeat := none, grace := none, confirm := none, offSince := false
        condH := false, condS := false } ∧
    ((d.watchHeld n tag false).decideVerdict n).mail = { d.mail with
      reports := d.mail.reports ++
        [⟨.verdict, .outlet n, verdictCauseCode (d.watch[n]).cause, VerdictAction.cycled.code⟩]
      verdictCycles := d.mail.verdictCycles ++ [⟨n, d.verdictDwell n, d.charter.uptime⟩] } := by
  have hstands := d.watchHeld_stands n tag false
  have hcycle : (d.watchHeld n tag false).decideVerdict n = (d.watchHeld n tag false).automaticCycle n := by
    unfold Device.decideVerdict
    rw [Device.watchFreed_not_held hr hhold, Device.cycleLimit_congr hstands.path]
    simp [Device.watchHeld_watch, show (d.watch[n.val]).recent.length < d.cycleLimit n from hlimit]
  rw [hcycle, Device.automaticCycle_mail, Device.verdictDwell_eq, Device.verdictDwell_congr hstands.charter hstands.path]
  simp [Device.watchHeld_watch, Device.watchHeld_mail, hstands.charter]

/-- The verdict that a FREE_WATCH releases, at the Cycle Limit: LOCKED_OUT (R146). -/
theorem Device.watchFreed_locksOut (hr : d.running = true) (hhold : d.pins.hold = false)
    (hlimit : d.cycleLimit n ≤ (d.watch[n]).recent.length) :
    ((d.watchHeld n tag false).decideVerdict n).watch = setAt d.watch n
      { d.watch[n] with
        held := false, state := .lockedOut, heartbeat := none, grace := none, confirm := none
        condH := false, condS := false } ∧
    ((d.watchHeld n tag false).decideVerdict n).mail = { d.mail with
      reports := d.mail.reports ++
        [⟨.verdict, .outlet n, verdictCauseCode (d.watch[n]).cause, VerdictAction.lockedOut.code⟩] } := by
  have hstands := d.watchHeld_stands n tag false
  have hlock : (d.watchHeld n tag false).decideVerdict n = (d.watchHeld n tag false).lockOut n := by
    unfold Device.decideVerdict
    rw [Device.watchFreed_not_held hr hhold, Device.cycleLimit_congr hstands.path]
    simp [Device.watchHeld_watch, show d.cycleLimit n ≤ (d.watch[n.val]).recent.length from hlimit]
  rw [hlock]
  simp [Device.watchHeld_watch, Device.watchHeld_mail]

end

theorem Device.requested_cycleLimit (d : Device) (a : WriteAccess) (n : Outlet) (tag : Byte)
    (hd : Store.wf d.path.shadow) : (d.requested a n tag).cycleLimit n = d.cycleLimit n := by
  unfold Device.cycleLimit
  rw [Device.requested_outletField d a n n tag 12 hd (by decide) (by decide)]

theorem Device.requested_verdictDwell (d : Device) (a : WriteAccess) (n : Outlet) (tag : Byte)
    (hd : Store.wf d.path.shadow) : (d.requested a n tag).verdictDwell n = d.verdictDwell n := by
  unfold Device.verdictDwell
  rw [Device.requested_outletField d a n n tag 5 hd (by decide) (by decide)]
  rfl

/-- Settles O41. -/
theorem holdAndFreeWatch : Obligations.HoldAndFreeWatch := by
  intro s a n tag code i held hreq hrun hpresent hnone hstores hcode
  have hset : CompletesWith i s fun d' => d' = (s.dev.requested a n tag).holdWatch n tag held := by
    rcases hcode with ⟨rfl, rfl, rfl⟩ | ⟨rfl, rfl, rfl⟩ <;> exact hreq.completes rfl rfl hrun hpresent rfl
  obtain ⟨after, hexec, hpending, hdev⟩ := hset
  have hhandled := Device.Handling.holdWatch (tag := tag) (held := held) (hreq.begun [.watch, .mail]) (by decide)
    (by decide) hnone
  have hcontext := (s.dev.requested a n tag).watchHeld_context n tag held
  refine ⟨after, hexec, hpending, ?_⟩
  rw [hdev]
  rw [Device.holdWatch_eq (d := s.dev.requested a n tag) hnone hrun] at hhandled ⊢
  by_cases hreleased : held = false ∧ ((s.dev.requested a n tag).watch[n]).state = .hung ∧
      (s.dev.requested a n tag).pins.hold = false
  · rw [if_pos hreleased] at hhandled ⊢
    obtain ⟨rfl, -, hhold⟩ := id hreleased
    have hcycles := Device.watchFreed_cycles (d := s.dev.requested a n tag) (n := n) (tag := tag) hrun hhold
    have hlocks := Device.watchFreed_locksOut (d := s.dev.requested a n tag) (n := n) (tag := tag) hrun hhold
    rw [s.dev.requested_cycleLimit a n tag hstores.shadow] at hcycles hlocks
    rw [s.dev.requested_verdictDwell a n tag hstores.shadow, ← Device.verdictDwell_eq] at hcycles
    refine ⟨hhandled.answered (by decide) (by decide), ?_, ?_, fun h => absurd hreleased h, fun _ hlimit => ?_,
      fun _ hlimit => ?_⟩
    · have hwatch := (((s.dev.requested a n tag).watchHeld n tag false).decideVerdict_watch n).1
      rw [Device.watchHeld_watch, setAt_same] at hwatch
      exact (Device.OtherWatchesStand.of_setAt (d := s.dev) hwatch).1
    · rw [Device.decideVerdict_outlet]
      exact hcontext
    · exact ⟨(Device.OtherWatchesStand.of_setAt (d := s.dev) (hcycles hlimit).1).2, (hcycles hlimit).2⟩
    · exact ⟨(Device.OtherWatchesStand.of_setAt (d := s.dev) (hlocks hlimit).1).2, (hlocks hlimit).2⟩
  · rw [if_neg hreleased] at hhandled ⊢
    obtain ⟨hothers, hwatch⟩ := Device.OtherWatchesStand.of_setAt
      ((s.dev.requested a n tag).watchHeld_watch n tag held)
    exact ⟨hhandled.answered (by decide) (by decide), hothers, hcontext,
      fun _ => ⟨hwatch, Device.watchHeld_mail _ n tag held⟩, fun h => absurd h hreleased, fun h => absurd h hreleased⟩

theorem Device.resume_context (d : Device) (n : Outlet) (tag : Byte) (hnone : d.mail.toWatch = []) :
    (d.resume n tag).outlet[n] =
      (d.outlet[n]).echo tag (if (d.watch[n]).state = .lockedOut ∨ (d.watch[n]).recent ≠ [] then .taken else .noChange) := by
  unfold Device.resume Device.resumeWatch
  rw [Device.takeWatchMessages_none _ hnone, Device.answer_context, Device.modWatch_outlet]

theorem Device.resume_watch (d : Device) (n : Outlet) (tag : Byte) (hnone : d.mail.toWatch = []) :
    (d.resume n tag).watch = setAt d.watch n
      (if (d.watch[n]).state = .lockedOut then WatchContext.fresh { d.watch[n] with recent := [] }
        else { d.watch[n] with recent := [] }) := by
  unfold Device.resume Device.resumeWatch
  rw [Device.takeWatchMessages_none _ hnone]
  simp [WatchContext.watchingAfresh_eq]

/-- Settles O42. -/
theorem resumeRestartsWatch : Obligations.ResumeRestartsWatch := by
  intro s a n tag hreq hrun hpresent hnone
  have hhandled := Device.Handling.resume (tag := tag) (hreq.begun [.watch]) (by decide) hnone
  obtain ⟨hothers, hwatch⟩ := Device.OtherWatchesStand.of_setAt ((s.dev.requested a n tag).resume_watch n tag hnone)
  exact hreq.completes rfl rfl hrun hpresent ⟨hhandled.answered (by decide) (by decide), hothers,
    (s.dev.requested a n tag).resume_context n tag hnone, hwatch⟩

end Sys2Proof.Machine
end

