-- ==== Sys2Proof/Proofs/WatchJudgements.lean ====
section
/-! PROOFS. H and S evaluated again, as at the writes of the watch settings (R131): what becomes of the watch, and what is
published of it (R108, R134 to R138). -/

namespace Sys2Proof.Machine
open Sys2Proof

/-! ## What a Status group shows of a watch (R108) -/

/-- What an outlet's Status group shows of its watch. -/
def WatchContext.shown (w : WatchContext) : WatchState × Bool × Nat := (w.state, w.held, w.recent.length)

theorem WatchState.code_injective : Function.Injective WatchState.code :=
  Function.LeftInverse.injective
    (g := fun c => [WatchState.idle, .grace, .watching, .suspect, .hung, .lockedOut].getD c.toNat .idle)
    fun x => by cases x <;> rfl

section
variable {d e f : Device} {n : Outlet} {w : WatchContext} {g : WatchContext → WatchContext}

theorem Device.setWatch_frame (d : Device) (n : Outlet) (g : WatchContext → WatchContext) :
    d.Untouched (d.setWatch n g) [.watch] := fun p hp => by
  cases p with
  | watch => exact absurd (List.mem_singleton.2 rfl) hp
  | _ => rfl

theorem Device.setWatch_statusWords (hg : (g d.watch[n]).shown = (d.watch[n]).shown) :
    (d.setWatch n g).statusWords n = d.statusWords n := by
  simp only [WatchContext.shown, Prod.mk.injEq] at hg
  obtain ⟨hstate, hheld, hrecent⟩ := hg
  have hwatch : (d.setWatch n g).watch[n] = g d.watch[n] := by simp
  unfold Device.statusWords
  simp only [hwatch, hstate, hheld, hrecent]
  rfl

theorem Device.setWatch_groupWords (hg : (g d.watch[n]).shown = (d.watch[n]).shown) :
    (d.setWatch n g).groupWords = d.groupWords := by
  funext x
  cases x with
  | status m =>
    by_cases hm : m = n
    · rw [hm]
      exact Device.setWatch_statusWords hg
    · exact Device.statusWords_congr m rfl ((Device.OtherWatchesStand.of_setAt (d := d) rfl).1 m hm)
  | charter | level l | meter m => rfl

/-- A change of a watch in what its Status group does not show publishes nothing. -/
theorem Device.modWatch_unshown (hg : (g d.watch[n]).shown = (d.watch[n]).shown) : d.modWatch n g = d.setWatch n g :=
  if_pos (Device.setWatch_statusWords hg)

/-- A Status group shows the state of the watch. -/
theorem Device.watchState_of_statusWords (h : e.statusWords n = d.statusWords n) :
    (e.watch[n]).state = (d.watch[n]).state := by
  have hcode := congrArg (fun words : List Word => words[4]?) h
  exact WatchState.code_injective (Option.some.inj hcode)

/-! ## Publications of one Status group, one after another -/

theorem Device.StatusTrail.of_step (h : d.StatusStep e n) : d.StatusTrail e [n] := .step (.refl d) h (by simp)

theorem Device.StatusTrail.publishes {ns : List Outlet} (h : d.StatusTrail e ns) : d.Publishes e [] := by
  obtain ⟨gs, htrail, hgs⟩ := h.trail
  refine htrail.publishes (fun x hx => ?_) (by simp)
  obtain ⟨m, -, -, hmoves⟩ := hgs x hx
  exact .inl hmoves

/-- One more change of the same watch, after which its state is not the first one. -/
theorem Device.StatusTrail.again (h : d.StatusTrail e [n]) (k : e.StatusStep f n)
    (hstate : (f.watch[n]).state ≠ (d.watch[n]).state) : d.StatusTrail f [n] := by
  obtain ⟨gs, htrail, hgs⟩ := h.trail
  have hcharter : f.charter = d.charter := k.charter.trans h.charter
  have hmoved (hs : d.inService = true) : d.Moves f (.status n) :=
    ⟨(Device.inService_charter hcharter).trans hs, mt Device.watchState_of_statusWords hstate⟩
  have hfirst (x : Group) (hx : x ∈ gs) : x = .status n ∧ d.inService = true := by
    obtain ⟨m, hm, rfl, hmoves⟩ := hgs x hx
    exact ⟨by rw [List.mem_singleton.1 hm], (Device.inService_charter h.charter).symm.trans hmoves.1⟩
  refine ⟨⟨_, htrail.andThen k.trail (fun x hx hnot => ?_) k.charter, fun x hx => ⟨n, by simp, ?_⟩⟩, fun x hx => ?_, hcharter⟩
  · obtain ⟨rfl, hs⟩ := hfirst x hx
    by_contra hne
    exact hnot (k.trail.moves _ ⟨(Device.inService_charter hcharter).trans hs, Ne.symm hne⟩)
  · rcases List.mem_append.1 hx with hx | hx
    · obtain ⟨rfl, hs⟩ := hfirst x hx
      exact ⟨rfl, hmoved hs⟩
    · obtain rfl := Group.eq_status_of_mem hx
      refine ⟨rfl, hmoved ?_⟩
      by_contra hs
      rw [Device.inService_charter h.charter, if_neg hs, ite_self] at hx
      cases hx
  · rw [k.words x (hx n (by simp)), h.words x hx]

/-- A block that shows what this one shows, and has published nothing, has the same trail ahead. -/
theorem Device.StatusTrail.from {ns : List Outlet} (h : e.StatusTrail f ns) (hp : e.pub = d.pub)
    (hw : e.groupWords = d.groupWords) (he : e.engine = d.engine) (hc : e.charter = d.charter) : d.StatusTrail f ns := by
  obtain ⟨gs, htrail, hgs⟩ := h.trail
  refine ⟨⟨gs, htrail.from hp (fun x => by rw [hw]) (fun l => by rw [he]) fun m => by rw [he], fun x hx => ?_⟩,
    fun x hx => by rw [h.words x hx, hw], h.charter.trans hc⟩
  obtain ⟨m, hm, rfl, hmoves⟩ := hgs x hx
  exact ⟨m, hm, rfl, hmoves.of_same (by rw [hw]) (fun l => by rw [he]) fun m => by rw [he]⟩

/-! ## Below the quorum (R140) -/

/-- Whatever becomes of one watch, the count does not begin suspension. -/
def Device.BelowQuorum (d : Device) (n : Outlet) : Prop :=
  ∀ w, ¬d.QuorumAt ({ d with watch := setAt d.watch n w } : Device).suspects

theorem Device.BelowQuorum.of_count (hq : ¬d.QuorumAt (d.suspects + 1)) (n : Outlet) : d.BelowQuorum n :=
  not_quorumAt_setAt hq n

theorem Device.BelowQuorum.modWatch (h : d.BelowQuorum n) (g : WatchContext → WatchContext) :
    (d.modWatch n g).BelowQuorum n := by
  intro w
  have hcount : ({ d.modWatch n g with watch := setAt (d.modWatch n g).watch n w } : Device).suspects =
      ({ d with watch := setAt d.watch n w } : Device).suspects := by
    unfold Device.suspects
    simp
  rw [hcount]
  unfold Device.QuorumAt
  rw [Device.modWatch_charter, Device.modWatch_suspendedSince]
  exact h w

theorem Device.BelowQuorum.compareQuorum (h : d.BelowQuorum n) : d.compareQuorum = d :=
  Device.compareQuorum_none d (by simpa using h d.watch[n])

/-! ## What a judgement publishes (R108) -/

/-- A verdict decided on a watch in HUNG does not return it to WATCHING (R143). -/
theorem Device.verdictOn_state_ne (d : Device) (n : Outlet) (hw : w.state = .hung) :
    (d.verdictOn n w).1.state ≠ .watching := by
  unfold Device.verdictOn
  split
  · simp [hw]
  · split <;> simp

/-- The confirm timer runs out in a watch that has entered SUSPECT (R138, R139, R143). -/
theorem Device.StatusTrail.confirmed (h : d.StatusTrail e [n]) (hs : (d.watch[n]).state = .watching) :
    d.StatusTrail (e.confirmed n) [n] := by
  have hhung := h.again (.modWatch e n fun w =>
    { w with state := .hung, confirm := none, cause := verdictCauseOf w.condH w.condS }) (by rw [hs]; simp)
  unfold Device.confirmed
  refine hhung.again (.decideVerdict _ n) ?_
  rw [(Device.decideVerdict_watch _ n).1, getElem_setAt, if_pos rfl, hs]
  exact Device.verdictOn_state_ne _ n (by simp)

/-- Entry to SUSPECT, with the verdict of a Confirm Time of 0 (R137, R138). -/
theorem Device.enterSuspect_statusTrail (hq : d.BelowQuorum n) (hs : (d.watch[n]).state = .watching) :
    d.StatusTrail (d.enterSuspect n) [n] := by
  obtain ⟨e, he⟩ : ∃ e, d.modWatch n (fun w => { w with state := .suspect }) = e := ⟨_, rfl⟩
  have hsuspect : e.watch[n.val].state = .suspect := by simp [← he]
  have hentry : d.StatusTrail e [n] := he ▸ .of_step (.modWatch d n _)
  have hcompare : e.compareQuorum = e := he ▸ (hq.modWatch _).compareQuorum
  unfold Device.enterSuspect
  dsimp only
  rw [he, hcompare, ite_self, if_pos (c := (e.watch[n]).state = .suspect) hsuspect]
  split
  · exact hentry.confirmed hs
  · exact hentry.again (.modWatch e n _) (by rw [hs]; simp [hsuspect])

/-- The predicate evaluated (R137, R138, R147). -/
theorem Device.evaluatePredicate_statusTrail (hq : d.BelowQuorum n) : d.StatusTrail (d.evaluatePredicate n) [n] := by
  have hstands : d.StatusTrail d [n] := .of_step (.unchanged n rfl rfl rfl rfl)
  have hlapsed : d.StatusTrail (d.modWatch n WatchContext.lapsed) [n] := .of_step (.modWatch d n _)
  unfold Device.evaluatePredicate
  dsimp only
  cases hs : (d.watch[n]).state
  case watching =>
    dsimp only
    split
    · exact Device.enterSuspect_statusTrail hq hs
    · exact hstands
  case suspect | hung =>
    dsimp only
    split
    · exact hstands
    · exact hlapsed
  case idle | grace | lockedOut => exact hstands

/-- A watch changed in what its Status group does not show, and then its predicate evaluated. -/
theorem Device.evaluatePredicate_after (hq : d.BelowQuorum n) (hg : (g d.watch[n]).shown = (d.watch[n]).shown) :
    d.StatusTrail ((d.modWatch n g).evaluatePredicate n) [n] := by
  have hjudged := Device.evaluatePredicate_statusTrail (hq.modWatch g)
  rw [Device.modWatch_unshown hg] at hjudged ⊢
  exact hjudged.from rfl (Device.setWatch_groupWords hg) rfl rfl

theorem Device.setH_statusTrail (hq : d.BelowQuorum n) (h : Bool) : d.StatusTrail (d.setH n h) [n] := by
  unfold Device.setH
  split
  · exact .of_step (.unchanged n rfl rfl rfl rfl)
  · dsimp only
    rw [(hq.modWatch _).compareQuorum, ite_self]
    exact Device.evaluatePredicate_after hq rfl

theorem Device.setS_statusTrail (hq : d.BelowQuorum n) (x : Bool) : d.StatusTrail (d.setS n x) [n] := by
  unfold Device.setS
  split
  · exact .of_step (.unchanged n rfl rfl rfl rfl)
  · exact Device.evaluatePredicate_after hq rfl

/-! ## H and S evaluated again (R131) -/

theorem WatchState.tracking_iff (x : WatchState) : x.tracking = true ↔ x = .watching ∨ x = .suspect ∨ x = .hung := by
  cases x <;> decide

/-- H or S has been evaluated again, with a watch that would have it as `w` says: a watch that does not track, or has that value
already, stands with all else; another takes it, and its predicate is evaluated (R131, R136). -/
structure Device.Reevaluated (d d' : Device) (n : Outlet) (w : WatchContext) : Prop where
  stands : ¬(d.watch[n]).state.tracking = true ∨ w = d.watch[n] → d' = d
  judged : (d.watch[n]).state.tracking = true → w ≠ d.watch[n] → d.Judged d' n w
  trail : d.StatusTrail d' [n]

/-- What is done with a watch that tracks is done where it tracks. -/
theorem Device.Reevaluated.of (hsame : w = d.watch[n] → e = d) (hmoved : w ≠ d.watch[n] → d.Judged e n w)
    (htrail : d.StatusTrail e [n]) : d.Reevaluated (if (d.watch[n]).state.tracking then e else d) n w := by
  split
  case isTrue htracks => exact ⟨fun h => hsame (h.resolve_left (not_not.2 htracks)), fun _ => hmoved, htrail⟩
  case isFalse hidle =>
    exact ⟨fun _ => rfl, fun h => absurd h hidle, .of_step (.unchanged n rfl rfl rfl rfl)⟩

theorem Device.evaluateH_reevaluated (hq : ¬d.QuorumAt (d.suspects + 1)) (n : Outlet) :
    d.Reevaluated (d.evaluateH n) n { d.watch[n] with condH := d.heartbeatDue n } :=
  .of (fun h => if_pos (congrArg WatchContext.condH h).symm)
    (fun hne => Device.setH_judged (fun h => hne (by rw [← h])) hq) (Device.setH_statusTrail (.of_count hq n) _)

theorem Device.evaluateS_reevaluated (hq : ¬d.QuorumAt (d.suspects + 1)) (n : Outlet) :
    d.Reevaluated (d.evaluateS n) n { d.watch[n] with condS := d.signatureDue n } :=
  .of (fun h => if_pos (congrArg WatchContext.condS h).symm)
    (fun hne => Device.setS_judged (fun h => hne (by rw [← h])) hq) (Device.setS_statusTrail (.of_count hq n) _)

/-- S of a watch, with a Signature Time and a Signature Floor before their clamps (R131, R136). -/
def WatchContext.flatFor (w : WatchContext) (seconds floor : Nat) : Bool :=
  decide (max 30 (min 7200 seconds) * 1000000 ≤ w.flat) && w.latest.any fun p => decide (((min 100000 floor : Nat) : Int) ≤ p)

theorem Device.signatureDue_eq (d : Device) (n : Outlet) : d.signatureDue n =
    (d.watch[n]).flatFor (d.outletField n 9) (d.outletField n 10 * 65536 + d.outletField n 11) := by
  unfold Device.signatureDue Device.signatureTime Device.signatureFloor clampNat WatchContext.flatFor
  rw [Nat.zero_max]

theorem Device.heartbeatDue_eq (d : Device) (n : Outlet) : d.heartbeatDue n = (d.watch[n]).heartbeat.any fun t =>
    decide (d.suspendedSince = none) && decide (max 5 (min 3600 (d.outletField n 6)) * 1000000 ≤ t) := by
  unfold Device.heartbeatDue Device.suspendedNow Device.heartbeatTimeout clampNat
  cases d.suspendedSince <;> simp

/-! ## Writes of the watch settings (R131) -/

section
variable {s : State} {a : WriteAccess} {i : Instr} {k off : Nat}

theorem Device.stored_groupWords (d : Device) (off : Nat) (a : WriteAccess) : (d.stored off a).groupWords = d.groupWords := by
  funext x
  cases x <;> rfl

theorem Device.stored_outletField_same (d : Device) (n : Outlet) (k : Nat) (a : WriteAccess) (hd : Store.wf d.path.shadow) :
    (d.stored (outletWord n k) a).outletField n k = (d.merged (outletWord n k) a).toNat :=
  congrArg BitVec.toNat (Device.stored_shadow_same d _ a hd)

theorem Device.stored_outletField_other (d : Device) (n : Outlet) {k j : Nat} (a : WriteAccess)
    (hd : Store.wf d.path.shadow) (hne : k ≠ j) : (d.stored (outletWord n k) a).outletField n j = d.outletField n j :=
  congrArg BitVec.toNat (Device.stored_shadow_other d _ _ a hd (by unfold outletWord; omega))

/-- An accepted write of an outlet's word reaches the block that takes it. -/
theorem Device.Accepts.takeOutletWord (h : s.dev.Accepts a (outletWord n k)) (hk : k < 64) (hi : exec i s = s.onWrite a) :
    exec i s = .next { s with
      dev := (s.dev.stored (outletWord n k) a).takeOutletWord n k (s.dev.shadow (outletWord n k))
        (s.dev.merged (outletWord n k) a) } := by
  rw [hi]
  show Host.Outcome.next { s with dev := s.dev.presentAccess (.write a) } = _
  rw [h.present, place_outletWord n k hk]
  rfl

/-- A write at which H or S is evaluated again, as a statement has it. -/
theorem Device.Reevaluated.completes (h : (s.dev.stored off a).Reevaluated e n w) (hexec : exec i s = .next { s with dev := e }) :
    let tracks : Prop := (s.dev.watch[n]).state = .watching ∨ (s.dev.watch[n]).state = .suspect ∨ (s.dev.watch[n]).state = .hung
    (¬tracks ∨ w = s.dev.watch[n] → exec i s = .next { s with dev := s.dev.stored off a }) ∧
    (tracks → w ≠ s.dev.watch[n] → CompletesWith i s fun d' => (s.dev.stored off a).Judged d' n w ∧ s.dev.Publishes d' []) := by
  intro tracks
  have htracks : ((s.dev.stored off a).watch[n]).state.tracking = true ↔ tracks := WatchState.tracking_iff _
  refine ⟨fun hstands => ?_, fun ht hne => .of_exec hexec ⟨h.judged (htracks.2 ht) hne, ?_⟩⟩
  · rw [hexec, h.stands (hstands.imp_left fun hidle => mt htracks.1 hidle)]
  · exact h.trail.publishes.from rfl (fun x => by rw [Device.stored_groupWords]) rfl

end
end

/-- Settles O48. -/
theorem watchSettingWrites : Obligations.WatchSettingWrites := by
  intro s a n hstores hq w evaluates tracks value flatFor floorNow
  have hsame (k : Nat) := s.dev.stored_outletField_same n k a hstores.shadow
  have hother {k j : Nat} := s.dev.stored_outletField_other n (k := k) (j := j) a hstores.shadow
  have hH := Device.evaluateH_reevaluated (d := s.dev.stored (outletWord n 6) a) hq n
  rw [Device.heartbeatDue_eq, hsame] at hH
  have hS (k : Nat) := Device.evaluateS_reevaluated (d := s.dev.stored (outletWord n k) a) hq n
  simp only [Device.signatureDue_eq] at hS
  have hTime := hS 9
  have hHigh := hS 10
  have hLow := hS 11
  rw [hsame, hother (by decide), hother (by decide)] at hTime hHigh hLow
  exact ⟨fun hacc => hH.completes (hacc.takeOutletWord (by decide) rfl),
    fun hacc => hTime.completes (hacc.takeOutletWord (by decide) rfl),
    fun hacc => hHigh.completes (hacc.takeOutletWord (by decide) rfl),
    fun hacc => hLow.completes (hacc.takeOutletWord (by decide) rfl)⟩

end Sys2Proof.Machine
end

