-- ==== Sys2Proof/Proofs/SignatureTracker.lean ====
section
/-! PROOFS. A close's hand-off at an outlet's signature tracker (R135, R136). -/

namespace Sys2Proof.Machine
open Sys2Proof

/-! ## The tracker's update (R135) -/

section
variable (w : WatchContext) (band : Nat) (p : Int) (t : Nat)

theorem WatchContext.track_shown : (w.track band p t).shown = w.shown := by
  unfold WatchContext.track
  split
  · rfl
  · split <;> rfl

theorem WatchContext.track_condS : (w.track band p t).condS = w.condS := by
  unfold WatchContext.track
  split
  · rfl
  · split <;> rfl

theorem WatchContext.track_latest : (w.track band p t).latest = some p := by
  unfold WatchContext.track
  split
  · rfl
  · split <;> rfl

end

section
variable {d e : Device} {n : Outlet} {w : WatchContext} {h : TrackerHandoff}

/-- S takes another value in a watch that a change just before has made (R136). The block `e` is `d` with that watch
replaced. -/
theorem Device.setS_judged_after {x : Bool} (he : d.Untouched e [.watch, .pub]) (hw : e.watch = setAt d.watch n w)
    (hne : w.condS ≠ x) (hq : ¬d.QuorumAt (d.suspects + 1)) : d.Judged (e.setS n x) n { w with condS := x } := by
  have hwn : e.watch[n] = w := by simp [hw]
  unfold Device.setS
  rw [hwn, if_neg hne]
  exact Device.evaluatePredicate_judged (he.trans (Device.modWatch_frame _ _ _)) (by simp [hw]) hq

/-- The same, and what it publishes, for a change that the Status group does not show (R108). -/
theorem Device.setS_statusTrail_after {g : WatchContext → WatchContext} (hq : d.BelowQuorum n)
    (hg : (g d.watch[n]).shown = (d.watch[n]).shown) (x : Bool) : d.StatusTrail ((d.setWatch n g).setS n x) [n] := by
  have htrail := Device.setS_statusTrail (hq.modWatch g) x
  rw [Device.modWatch_unshown hg] at htrail
  exact htrail.from rfl (Device.setWatch_groupWords hg) rfl rfl

/-! ## A close's hand-off (R135, R136) -/

/-- A close that a tracker uses (R135). -/
def Device.tracks (d : Device) (h : TrackerHandoff) : Prop :=
  (d.watch[h.outlet]).state.tracking = true ∧ h.scanned = true ∧ h.quality.noSamples = false ∧ h.quality.refDrift = false

/-- The watch with its tracker updated by a used close (R135). -/
def Device.tracked (d : Device) (h : TrackerHandoff) : WatchContext :=
  (d.watch[h.outlet]).track (d.signatureBand h.outlet) h.power h.length

/-- The block with an outlet's tracker updated by a used close (R135). -/
def Device.tracking (d : Device) (h : TrackerHandoff) : Device :=
  d.setWatch h.outlet fun w => w.track (d.signatureBand h.outlet) h.power h.length

theorem Device.tracking_watch (d : Device) (h : TrackerHandoff) :
    (d.tracking h).watch = setAt d.watch h.outlet (d.tracked h) := rfl

theorem Device.tracking_frame (d : Device) (h : TrackerHandoff) : d.Untouched (d.tracking h) [.watch] :=
  d.setWatch_frame h.outlet _

theorem Device.tracked_state (d : Device) (h : TrackerHandoff) : (d.tracked h).state = (d.watch[h.outlet]).state :=
  congrArg Prod.fst (WatchContext.track_shown ..)

/-- S of the updated tracker (R136). -/
def Device.trackedFlat (d : Device) (h : TrackerHandoff) : Bool :=
  (d.tracked h).flatFor (d.outletField h.outlet 9) (d.outletField h.outlet 10 * 65536 + d.outletField h.outlet 11)

theorem Device.takeTracker_unused (hu : ¬d.tracks h) : d.takeTracker h = d :=
  if_neg fun hcond => hu (by simpa [Device.tracks, and_assoc] using hcond)

/-- A used close: the tracker follows it, which the Status group does not show, and S is evaluated. -/
theorem Device.takeTracker_used (hu : d.tracks h) :
    d.takeTracker h = (d.tracking h).setS h.outlet (d.trackedFlat h) := by
  have hwatch : (d.tracking h).watch[h.outlet] = d.tracked h := (Device.OtherWatchesStand.of_setAt (d.tracking_watch h)).2
  have htrack : d.modWatch h.outlet (fun w => w.track (d.signatureBand h.outlet) h.power h.length) = d.tracking h :=
    Device.modWatch_unshown (WatchContext.track_shown ..)
  unfold Device.takeTracker
  dsimp only
  rw [if_pos (by simpa [Device.tracks, and_assoc] using hu), htrack]
  unfold Device.evaluateS
  rw [hwatch, d.tracked_state, if_pos hu.1, Device.signatureDue_eq, hwatch]
  rfl

/-- A used close, whole, where the count stays below the quorum. -/
theorem Device.takeTracker_follows (hu : d.tracks h) (hq : ¬d.QuorumAt (d.suspects + 1)) :
    d.StatusTrail (d.takeTracker h) [h.outlet] ∧
    (d.trackedFlat h = (d.watch[h.outlet]).condS → d.Untouched (d.takeTracker h) [.watch, .pub] ∧
      d.OtherWatchesStand (d.takeTracker h) h.outlet ∧ (d.takeTracker h).watch[h.outlet] = d.tracked h) ∧
    (d.trackedFlat h ≠ (d.watch[h.outlet]).condS →
      d.Judged (d.takeTracker h) h.outlet { d.tracked h with condS := d.trackedFlat h }) := by
  have hcondS : (d.tracked h).condS = (d.watch[h.outlet]).condS := WatchContext.track_condS ..
  have hframe : d.Untouched (d.tracking h) [.watch, .pub] := (d.tracking_frame h).mono (by simp)
  obtain ⟨hothers, hwatch⟩ := Device.OtherWatchesStand.of_setAt (d.tracking_watch h)
  rw [Device.takeTracker_used hu, ← hcondS]
  refine ⟨Device.setS_statusTrail_after (.of_count hq _) (WatchContext.track_shown ..) _, fun hsame => ?_,
    fun hne => Device.setS_judged_after hframe (d.tracking_watch h) hne.symm hq⟩
  have hstands : (d.tracking h).setS h.outlet (d.trackedFlat h) = d.tracking h := if_pos (by rw [hwatch, hsame])
  rw [hstands]
  exact ⟨hframe, hothers, hwatch⟩

end

/-- Settles O49. -/
theorem trackerFollowsClose : Obligations.TrackerFollowsClose := by
  intro s n h hfind hq w d used tracked isS
  obtain rfl : h.outlet = n := by simpa using List.find?_some hfind
  have hexec : exec (.signatureTrackerUpdate h.outlet) s = .next { s with dev := d.takeTracker h } := by
    show Host.Outcome.next { s with dev := s.dev.nextTracker h.outlet } = _
    unfold Device.nextTracker
    rw [hfind]
  have hused : d.tracks h ↔ used := and_congr_left' (WatchState.tracking_iff _)
  have htracked : d.tracked h = tracked := by
    unfold Device.tracked WatchContext.track Device.signatureBand clampNat
    rw [Nat.zero_max]
    rfl
  have hflat : d.trackedFlat h = isS := by
    have hlatest : tracked.latest = some h.power := htracked ▸ WatchContext.track_latest ..
    unfold Device.trackedFlat WatchContext.flatFor
    rw [htracked, hlatest]
    rfl
  refine ⟨fun hu => ?_, fun hu => .of_exec hexec ?_⟩
  · rw [hexec, Device.takeTracker_unused (mt hused.1 hu)]
  · obtain ⟨htrail, hsame, hmoved⟩ := Device.takeTracker_follows (hused.2 hu) hq
    rw [htracked, hflat] at hsame hmoved
    exact ⟨htrail.publishes.from rfl (fun x => by cases x <;> rfl) rfl, hsame, hmoved⟩

end Sys2Proof.Machine
end

