-- ==== Sys2Proof/Proofs/ResetAdmission.lean ====
section
/-! PROOFS. The Admission Unit after RESET (R170). -/

namespace Sys2Proof.Machine
open Sys2Proof

/-- A table with one value at every level reads it at each. -/
theorem PerLevel.get_replicate {α : Type} (x : α) (l : Level) :
    PerLevel.get ⟨Vector.replicate 3 x, Vector.replicate 6 x, x⟩ l = x := by
  cases l with
  | inlet => rfl
  | phase p => exact Vector.getElem_replicate ..
  | branch b => exact Vector.getElem_replicate ..

/-- RESET leaves no head, no slot and no tenure on any branch. -/
theorem Admission.afterReset_branch (b : Branch) :
    Admission.afterReset.queues[b] = [] ∧ Admission.afterReset.slots[b] = none ∧
      Admission.afterReset.tenures[b] = none :=
  ⟨Vector.getElem_replicate .., Vector.getElem_replicate .., Vector.getElem_replicate ..⟩

/-- RESET leaves no reservation, no Over-Limit flag and no load at any level. -/
theorem Admission.afterReset_level (l : Level) :
    Admission.afterReset.reserved.get l = 0 ∧ Admission.afterReset.overLimit.get l = false ∧
      Admission.afterReset.loads.get l = 0 :=
  ⟨PerLevel.get_replicate 0 l, PerLevel.get_replicate false l, PerLevel.get_replicate 0 l⟩

theorem exec_reset (wb : BitVec 4) (bpres : Bool) (s : State) :
    exec (.reset wb bpres) s = .next { s with dev := s.dev.reset wb bpres } := rfl

@[simp] theorem Device.reset_admission (d : Device) (wb : BitVec 4) (bpres : Bool) :
    (d.reset wb bpres).admission = .afterReset := rfl

@[simp] theorem Device.reset_mail (d : Device) (wb : BitVec 4) (bpres : Bool) :
    (d.reset wb bpres).mail = .empty := rfl

@[simp] theorem Device.reset_ram (d : Device) (wb : BitVec 4) (bpres : Bool) :
    (d.reset wb bpres).ram = d.ramAfterReset := rfl

/-- Settles O4: the unit starts afresh, a grant on its way is lost with every other hand-off, and with no access held
RAM stands. -/
theorem resetEmptiesAdmission : Obligations.ResetEmptiesAdmission := by
  intro s wb bpres
  refine .of_exec (exec_reset wb bpres s) ?_
  rw [Device.reset_admission, Device.reset_mail, Device.reset_ram]
  exact ⟨Admission.afterReset_branch, Admission.afterReset_level, rfl, rfl, Device.ramAfterReset_idle⟩

end Sys2Proof.Machine
end

