-- ==== Sys2Proof/Proofs/ReportRing.lean ====
section
/-! PROOFS. A report at the Report Writer (R175 to R177), Tail writes (R178), and the attention line (R179). -/

namespace Sys2Proof.Machine
open Sys2Proof

/-! ## The attention line (R179) -/

theorem Device.attn_iff (d : Device) : d.attn = true ↔ d.reports.head ≠ d.reports.tail := decide_eq_true_iff

/-! ## A report taken (R175 to R177) -/

/-- The ring or the queue has no room for a report (R175). -/
def Device.ReportRoomFull (d : Device) : Prop :=
  d.reports.head + 1 = d.reports.tail ∨ 64 ≤ d.pub.queue.countP Entry.isReport

theorem Device.reportRoomFull_iff (d : Device) :
    d.ringFull ∨ Config.maxReportEntries ≤ d.reportsWaiting ↔ d.ReportRoomFull :=
  or_congr decide_eq_true_iff Iff.rfl

theorem Device.takeReport_full {d : Device} (r : Report) (h : d.ReportRoomFull) : d.takeReport r = d.loseReport :=
  if_pos (d.reportRoomFull_iff.2 h)

/-- The eight words of a slot, one by one (R176). -/
theorem Device.slotWords_eq (d : Device) (r : Report) :
    d.slotWords r =
      [r.kind.code, r.subject.kindCode, r.subject.number, BitVec.ofNat 16 (d.charter.uptime / 65536),
        BitVec.ofNat 16 d.charter.uptime, r.detailA, r.detailB, 0] := by
  rw [Device.slotWords, wordsOf_two]
  rfl

/-- The block with a report in the slot at Head and Head advanced (R175, R176). -/
def Device.writtenAtHead (d : Device) (r : Report) : Device :=
  { d with
    reports := { d.reports with head := d.reports.head + 1 }
    pub := { d.pub with
      queue := d.pub.queue ++
        [.report d.reports.head
          [r.kind.code, r.subject.kindCode, r.subject.number, BitVec.ofNat 16 (d.charter.uptime / 65536),
            BitVec.ofNat 16 d.charter.uptime, r.detailA, r.detailB, 0]
          (d.reports.head + 1)] } }

theorem Device.takeReport_room {d : Device} (r : Report) (h : ¬d.ReportRoomFull) :
    d.takeReport r = d.writtenAtHead r := by
  rw [Device.takeReport, if_neg (mt d.reportRoomFull_iff.1 h), Device.slotWords_eq]
  rfl

/-- A report lost moves neither Head nor Tail. -/
theorem Device.attn_loseReport (d : Device) : d.loseReport.attn = d.attn := rfl

/-- With room in the ring, the Head after a report differs from Tail. -/
theorem Device.attn_writtenAtHead {d : Device} (r : Report) (h : ¬d.ReportRoomFull) : (d.writtenAtHead r).attn = true :=
  (Device.attn_iff _).2 fun hmeet => h (.inl hmeet)

/-- The block with these reports still on their way to the Report Writer. -/
def Device.withReportsLeft (d : Device) (later : List Report) : Device :=
  { d with mail := { d.mail with reports := later } }

theorem Device.withReportsLeft_full (d : Device) (later : List Report) :
    (d.withReportsLeft later).ReportRoomFull ↔ d.ReportRoomFull := Iff.rfl

/-- The oldest report handed over is the one that a report write takes. -/
theorem exec_reportWrite {s : State} {r : Report} {later : List Report} (h : s.dev.mail.reports = r :: later) :
    exec .reportWrite s = .next { s with dev := (s.dev.withReportsLeft later).takeReport r } := by
  show Host.Outcome.next { s with dev := s.dev.writeReport } = _
  rw [Device.writeReport, h]
  rfl

/-- A report write while there is no room loses the report, and ATTN stays as it is (R175, R177). -/
theorem exec_reportWrite_full {s : State} {r : Report} {later : List Report} (h : s.dev.mail.reports = r :: later)
    (hfull : s.dev.ReportRoomFull) :
    exec .reportWrite s = .next { s with dev := (s.dev.withReportsLeft later).loseReport } ∧
      (s.dev.withReportsLeft later).loseReport.attn = s.dev.attn := by
  rw [exec_reportWrite h, Device.takeReport_full r ((s.dev.withReportsLeft_full later).2 hfull)]
  exact ⟨rfl, Device.attn_loseReport _⟩

/-- A report write while there is room fills the slot at Head, and asserts ATTN (R175, R176, R179). -/
theorem exec_reportWrite_room {s : State} {r : Report} {later : List Report} (h : s.dev.mail.reports = r :: later)
    (hroom : ¬s.dev.ReportRoomFull) :
    exec .reportWrite s = .next { s with dev := (s.dev.withReportsLeft later).writtenAtHead r } ∧
      ((s.dev.withReportsLeft later).writtenAtHead r).attn = true := by
  have hleft : ¬(s.dev.withReportsLeft later).ReportRoomFull := mt (s.dev.withReportsLeft_full later).1 hroom
  rw [exec_reportWrite h, Device.takeReport_room r hleft]
  exact ⟨rfl, Device.attn_writtenAtHead r hleft⟩

/-! ## Tail writes (R178) -/

theorem Device.Accepts.exec_tailWrite {s : State} {a : WriteAccess} (h : s.dev.Accepts a tailOffset) :
    exec (.tailWrite a) s =
      .next { s with dev := (s.dev.stored tailOffset a).takeTail (s.dev.merged tailOffset a) } := by
  show Host.Outcome.next { s with dev := s.dev.presentAccess (.write a) } = _
  have hp : place tailOffset = .tail := rfl
  rw [h.present, hp]
  rfl

/-! ## The ring, settled -/

/-- Settles O58: a report by whether there is room for it, a Tail write by the word it stores, and ATTN by the Head and Tail
that each leaves. -/
theorem ringTakesReportsAndTail : Obligations.RingTakesReportsAndTail := by
  refine fun s => ⟨s.dev.attn_iff, fun r later hmail => ⟨fun hfull => ?_, fun hroom => ?_⟩, fun a hacc => ?_⟩
  · exact exec_reportWrite_full hmail hfull
  · exact exec_reportWrite_room hmail hroom
  · exact ⟨hacc.exec_tailWrite, Device.attn_iff _⟩

end Sys2Proof.Machine
end

