-- ==== Sys2Proof/Proofs/CommandQueue.lean ====
section
/-! PROOFS. The queue of waiting commands: what a step takes from it (log 2), and that every command answers. -/

namespace Sys2Proof.Machine
open Sys2Proof

/-! ## Steps (log 2) -/

/-- A step takes the front command off the queue before it carries it out. -/
theorem step_of_pending_cons {s : State} {c : Instr} {rest : List Instr} (h : s.pending = c :: rest) :
    step s = exec c { s with pending := rest } := by
  rw [step, h]

theorem step_of_pending_nil {s : State} (h : s.pending = []) : step s = .next s := by
  rw [step, h]

/-! ## The block and its queue of commands, settled -/

/-- Settles O1, by the two cases of the queue. -/
theorem stepRunsFrontCommand : Obligations.StepRunsFrontCommand :=
  ⟨fun _ _ _ => step_of_pending_cons rfl, fun _ => step_of_pending_nil⟩

/-- Settles O2: the block that the command leaves is the witness. -/
theorem everyCommandAnswers : Obligations.EveryCommandAnswers :=
  fun c s => ⟨afterCommand c s.dev, exec_eq c s⟩

end Sys2Proof.Machine
end
